-- ==== Sys2Proof/Word.lean ====
section
/-! DEFINITION. The byte, the only word a link carries (spec/11_formats.md, R188: everything a processor exchanges
with the part crosses its link as bytes). -/

namespace Sys2Proof

/-- A byte of a link frame (R188). -/
abbrev Byte := BitVec 8

end Sys2Proof
end

