-- ==== Sys2Proof/Config.lean ====
section
/-! DEFINITION. What the spec leaves open, as constants with no body: a claim about the model is true whatever their
values are. -/

namespace Sys2Proof

/-- The relay flag of a programme that has left use (log 7): R97 and R91 do not state it, and R100 says the flag keeps
its value only until the programme leaves use. Applied to the counter of draws. -/
opaque Config.relayOutOfUse : Nat → Bool

/-- The order of events that the spec lets fall at one instant without ordering them (log 2, log 20). Applied to the
counter of draws and to the number of events still to be placed; the remainder names the one placed next. -/
opaque Config.simultaneousOrder : Nat → Nat → Nat

/-- Whether a presence byte of an optional argument that is neither 0 nor 1 counts as present (log 16): R189 codes 0 and
1 only. -/
opaque Config.presenceByte : Nat → Bool

/-- The bytes driven on a link's data output in a transaction that opens with neither code, or whose select fell while RSTN
was low (log 31): R188 states the output of write and read transactions only. Applied to the counter of draws. -/
opaque Config.undrivenOutput : Nat → List (BitVec 8)

end Sys2Proof
end

