-- ==== Sys2Proof/Syntax.lean ====
section
/-! DEFINITION. The commands of the part: one constructor of `Instr` per row of spec/opcode_table.json. -/

namespace Sys2Proof

/-- The three links (R171, coded in R189). A request's sender is the link it arrives on. -/
inductive Link where
  | desk | radio | service
  deriving DecidableEq, Repr

/-- What a link transaction has clocked in since its select fell, and whether the select then rises; if not, the transaction
is in progress (R172; log 5). -/
structure Clocked (α : Type) where
  data : α
  ends : Bool
  deriving DecidableEq, Repr

/-- A command: a request frame taken (R173), a link transaction that takes no request (R172, R174), a reset (R187), an
event at a rack (R24 to R69) or an expiry of one of the part's timers (R82, R121, R139, R150, R151, R161, R166).
Arguments are the values of the fields of R189; `WellFormed` bounds each to its width. -/
inductive Instr where
  -- requests of no group (R176)
  | readStatus (l : Link)
  | readNotices (l : Link)
  | setNoticeMask (l : Link) (mask : Nat)
  -- FLEET
  | readRecord (l : Link) (index : Nat)
  | find (l : Link) (rid : Nat)
  | enrol (l : Link) (rid generation : Nat) (index : Option Nat)
  | retire (l : Link) (rid : Nat)
  | reinstate (l : Link) (rid : Nat)
  | remove (l : Link) (rid : Nat)
  | clearFaultRecord (l : Link) (rid : Nat)
  | clearFaultBay (l : Link) (rack bay : Nat)
  -- OVERRIDE
  | writeOff (l : Link) (rid : Nat)
  -- RACK
  | readBay (l : Link) (rack bay : Nat)
  | readRack (l : Link) (rack : Nat)
  -- LOAN
  | readLoan (l : Link) (loan : Nat)
  | issue (l : Link) (tour programme count : Nat) (reserve : Bool)
  | add (l : Link) (loan n : Nat)
  | cancel (l : Link) (loan : Nat)
  | extend (l : Link) (loan due : Nat)
  -- TOUR
  | readTour (l : Link) (tour : Nat)
  | readProgramme (l : Link) (programme : Nat)
  | openTour (l : Link) (duration : Nat) (codes : List Nat)
  | closeTour (l : Link) (tour : Nat)
  | setRelay (l : Link) (programme : Nat) (relay : Bool)
  -- FLOOR
  | readFloor (l : Link) (programme : Nat)
  | bindMic (l : Link) (mic programme priority : Nat)
  | unbindMic (l : Link) (mic : Nat)
  | talkRequest (l : Link) (mic : Nat)
  | talkActive (l : Link) (mic : Nat)
  | talkRelease (l : Link) (mic : Nat)
  | cut (l : Link) (programme : Nat)
  | setMask (l : Link) (programme level : Nat)
  -- AIR
  | readPlan (l : Link)
  | reportBeacon (l : Link) (rid zone quality : Nat)
  -- SETTINGS
  | readSetting (l : Link) (setting rack : Nat)
  | setSettingRackLimit (l : Link) (rack value : Nat)
  | setSettingSenseThreshold (l : Link) (rack value : Nat)
  | setSettingBaseInit (l : Link) (rack value : Nat)
  | setSettingColdAfter (l : Link) (rack value : Nat)
  | setSettingGaugeInterval (l : Link) (rack value : Nat)
  | setSettingReadyLevel (l : Link) (rack value : Nat)
  | setSettingReleaseWindow (l : Link) (rack value : Nat)
  | setSettingMissingAfter (l : Link) (rack value : Nat)
  | setSettingKeepalive (l : Link) (rack value : Nat)
  | setSettingDlSlots (l : Link) (rack value : Nat)
  | setSettingDefaultDuration (l : Link) (rack value : Nat)
  | setClock (l : Link) (seconds : Nat)
  /-- `range` is absent for form 0 (the empty range) and `lo`, `hi` for form 1 (R189). -/
  | setReserve (l : Link) (range : Option (Nat × Nat))
  /-- The four codes as sent (R179, R189). -/
  | setAccess (l : Link) (link group right : Nat) (reserveUse : Bool)
  | lockAccess (l : Link)
  | restart (l : Link)
  | forceClose (l : Link) (tour : Nat)
  -- link transactions
  /-- A complete frame that is no request of the rows above: request code and arguments as sent (R173, log 15). -/
  | unknownRequestCode (l : Link) (code : Nat) (args : List Byte)
  /-- A read transaction in which `n` bytes have been clocked after the code byte (R174). -/
  | readTransaction (l : Link) (n : Clocked Nat)
  /-- A transaction that has carried no request: the bytes it has clocked in (R172). -/
  | writeTransactionAborted (l : Link) (bytes : Clocked (List Byte))
  -- resets
  | fullReset
  | fullResetEnd
  -- rack events
  /-- The scan in progress at the rack's sweep position ends with this reading (R24). -/
  | scanCompletion (rack reading : Nat)
  | sweepWaitExpiry (rack : Nat)
  | coldAfterExpiry (rack : Nat)
  /-- The confirming scan of the failed attempt's bay ends with this reading (R26). -/
  | confirmingScan (rack reading : Nat)
  /-- In BYTE width, the low byte of the current word crosses (R54). -/
  | byteCrossed (rack byte : Nat)
  /-- The current word has now crossed whole, with this value (R53, R54). -/
  | wordCrossed (rack word : Nat)
  | wordTimeout (rack : Nat)
  /-- The IDENTIFY in flight completes with the values the receiver reported (R57, R190). -/
  | identifyCompletion (rack rid generation : Nat) (thermal : Bool) (soc firmware : Nat)
  | programCompletion (rack : Nat)
  /-- The READ_USAGE in flight completes with the minutes of each of its entries (R64). -/
  | readUsageCompletion (rack : Nat) (minutes : List Nat)
  | gaugeCompletion (rack soc : Nat) (thermal cellFault : Bool)
  | gaugePoll (rack : Nat)
  -- timed events
  | chargeFrameBoundary
  | keepaliveExpiry (mic : Nat)
  | releaseWindowExpiry (index : Nat)
  | compareA
  | frameBoundary
  | clockAdvance
  | sweepStep
  deriving DecidableEq, Repr

end Sys2Proof
end

