-- ==== Sys2Proof/WellFormed.lean ====
section
/-! DEFINITION. The checks on a command's operands: each value fits the field that carries it (R188 to R190), each rack,
microphone and record index that an event names exists (0.7), and a frame of UNKNOWN_REQUEST_CODE is none of the other
rows' frames. -/

namespace Sys2Proof

/-- Fits a field of one, two or four bytes (R189). -/
abbrev fits1 (n : Nat) : Bool := n < 256
abbrev fits2 (n : Nat) : Bool := n < 65536
abbrev fits4 (n : Nat) : Bool := n < 4294967296

/-- A code and arguments that form the frame of one of the request rows (R189): the code is listed and the argument
length is the one it takes. OPEN_TOUR takes 2 or more. -/
def frameCheck (code length : Nat) : Bool :=
  match code with
  | 0x01 => length == 0 | 0x02 => length == 0 | 0x03 => length == 2
  | 0x10 => length == 2 | 0x11 => length == 4 | 0x12 => length == 8 | 0x13 => length == 4
  | 0x14 => length == 4 | 0x15 => length == 4 | 0x16 => length == 5
  | 0x20 => length == 2 | 0x21 => length == 1
  | 0x30 => length == 1 | 0x31 => length == 4 | 0x32 => length == 2 | 0x33 => length == 1 | 0x34 => length == 5
  | 0x40 => length == 1 | 0x41 => length == 1 | 0x42 => Nat.ble 2 length | 0x43 => length == 1 | 0x44 => length == 2
  | 0x50 => length == 1 | 0x51 => length == 3 | 0x52 => length == 1 | 0x53 => length == 1 | 0x54 => length == 1
  | 0x55 => length == 1 | 0x56 => length == 1 | 0x57 => length == 2
  | 0x60 => length == 0 | 0x61 => length == 6
  | 0x70 => length == 2 | 0x71 => length == 4 | 0x72 => length == 4 | 0x73 => length == 5 | 0x74 => length == 4
  | 0x75 => length == 0 | 0x76 => length == 0
  | 0x80 => length == 1 | 0x81 => length == 4
  | _ => false

/-- The frames that pass the frame check and are still no row of the table: CLEAR_FAULT and SET_RESERVE with a form byte
other than 0 or 1, and SET_SETTING with a code that names no setting (R181, R189; log 15). -/
def badForm (code : Nat) (args : List Byte) : Bool :=
  match code, args with
  | 0x16, f :: _ => decide (1 < f.toNat)
  | 0x73, f :: _ => decide (1 < f.toNat)
  | 0x71, k :: _ => decide (10 < k.toNat)
  | _, _ => false

/-- The operands of a command fit what carries them. -/
def Instr.wellFormed : Instr → Bool
  | .readStatus _ | .readNotices _ | .readPlan _ | .lockAccess _ | .restart _ => true
  | .setNoticeMask _ mask => fits2 mask
  | .readRecord _ index => fits2 index
  | .find _ rid | .retire _ rid | .reinstate _ rid | .remove _ rid | .clearFaultRecord _ rid | .writeOff _ rid => fits4 rid
  | .enrol _ rid generation index => fits4 rid && fits1 generation && (match index with | none => true | some i => fits2 i)
  | .clearFaultBay _ rack bay | .readBay _ rack bay => fits1 rack && fits1 bay
  | .readRack _ rack => fits1 rack
  | .readLoan _ loan | .cancel _ loan => fits1 loan
  | .issue _ tour programme count _ => fits1 tour && fits1 programme && fits1 count
  | .add _ loan n => fits1 loan && fits1 n
  | .extend _ loan due => fits1 loan && fits4 due
  | .readTour _ tour | .closeTour _ tour | .forceClose _ tour => fits1 tour
  | .readProgramme _ p | .setRelay _ p _ | .readFloor _ p | .cut _ p => fits1 p
  | .openTour _ duration codes => fits2 duration && decide (codes.length ≤ 253) && codes.all fits1
  | .bindMic _ mic p priority => fits1 mic && fits1 p && fits1 priority
  | .unbindMic _ mic | .talkRequest _ mic | .talkActive _ mic | .talkRelease _ mic => fits1 mic
  | .setMask _ p level => fits1 p && fits1 level
  | .reportBeacon _ rid zone quality => fits4 rid && fits1 zone && fits1 quality
  | .readSetting _ setting rack => fits1 setting && fits1 rack
  | .setSettingRackLimit _ rack value | .setSettingSenseThreshold _ rack value | .setSettingBaseInit _ rack value
  | .setSettingColdAfter _ rack value | .setSettingGaugeInterval _ rack value | .setSettingReadyLevel _ rack value
  | .setSettingReleaseWindow _ rack value | .setSettingMissingAfter _ rack value | .setSettingKeepalive _ rack value
  | .setSettingDlSlots _ rack value | .setSettingDefaultDuration _ rack value => fits1 rack && fits2 value
  | .setClock _ seconds => fits4 seconds
  | .setReserve _ range => match range with | none => true | some (lo, hi) => fits2 lo && fits2 hi
  | .setAccess _ link group right _ => fits1 link && fits1 group && fits1 right
  | .unknownRequestCode _ code args =>
      fits1 code && decide (args.length < 256) && (!frameCheck code args.length || badForm code args)
  | .readTransaction _ _ | .fullReset | .fullResetEnd => true
  | .writeTransactionAborted _ bytes =>
      -- the first byte is no code, or the frame it opens is not complete (R172)
      match bytes.data with
      | 0xC2#8 :: _ => false
      | 0xC1#8 :: _ :: len :: rest => decide (rest.length < len.toNat)
      | _ => true
  | .scanCompletion rack reading | .confirmingScan rack reading => decide (rack < 4) && decide (reading < 4096)
  | .sweepWaitExpiry rack | .coldAfterExpiry rack | .wordTimeout rack | .programCompletion rack | .gaugePoll rack =>
      decide (rack < 4)
  | .byteCrossed rack byte => decide (rack < 4) && fits1 byte
  | .wordCrossed rack word => decide (rack < 4) && fits2 word
  | .identifyCompletion rack rid generation _ soc firmware =>
      decide (rack < 4) && fits4 rid && fits1 generation && fits2 soc && fits2 firmware
  | .readUsageCompletion rack minutes =>
      decide (rack < 4) && decide (minutes.length ≤ 48) && minutes.all (fun m => decide (m < 1024))
  | .gaugeCompletion rack soc _ _ => decide (rack < 4) && fits2 soc
  | .keepaliveExpiry mic => decide (mic < 64)
  | .releaseWindowExpiry index => decide (index < 1024)
  | .chargeFrameBoundary | .compareA | .frameBoundary | .clockAdvance | .sweepStep => true

end Sys2Proof
end

