-- ==== Sys2Proof/Decode.lean ====
section
/-! DEFINITION. The link frames of spec/11_formats.md: byte order, the request frame and its fields (R188, R189), from
bytes to a command and from a command to bytes; and the table decoder, empty here since no row of the table gives bits. -/

namespace Sys2Proof

/-! ## Byte order: a number wider than one byte is sent low byte first (section 11.1) -/

/-- The bytes of a field of one, two or four bytes. -/
def bytes1 (n : Nat) : List Byte := [BitVec.ofNat 8 n]
def bytes2 (n : Nat) : List Byte := [BitVec.ofNat 8 n, BitVec.ofNat 8 (n / 256)]
def bytes4 (n : Nat) : List Byte :=
  [BitVec.ofNat 8 n, BitVec.ofNat 8 (n / 256), BitVec.ofNat 8 (n / 65536), BitVec.ofNat 8 (n / 16777216)]

/-- The value of a field of two or four bytes. -/
def value2 (a b : Byte) : Nat := a.toNat + 256 * b.toNat
def value4 (a b c d : Byte) : Nat := a.toNat + 256 * b.toNat + 65536 * c.toNat + 16777216 * d.toNat

/-- A flag: 0 for clear, any other value for set; the part sends 1 for set (R189). -/
def flagOf (b : Byte) : Bool := b != 0
def flagBytes (f : Bool) : List Byte := bytes1 (if f then 1 else 0)

/-- The presence byte of an optional argument: 0 absent, 1 present (R189); any other value is open (log 16). -/
def presentOf (b : Byte) : Bool :=
  if b.toNat = 0 then false else if b.toNat = 1 then true else Config.presenceByte b.toNat

/-! ## Requests -/

/-- The eleven requests of SET_SETTING, by setting code in the order of R181 (R189). -/
def decodeSetSetting (l : Link) (setting rack value : Nat) : Option Instr :=
  match setting with
  | 0 => some (.setSettingRackLimit l rack value)
  | 1 => some (.setSettingSenseThreshold l rack value)
  | 2 => some (.setSettingBaseInit l rack value)
  | 3 => some (.setSettingColdAfter l rack value)
  | 4 => some (.setSettingGaugeInterval l rack value)
  | 5 => some (.setSettingReadyLevel l rack value)
  | 6 => some (.setSettingReleaseWindow l rack value)
  | 7 => some (.setSettingMissingAfter l rack value)
  | 8 => some (.setSettingKeepalive l rack value)
  | 9 => some (.setSettingDlSlots l rack value)
  | 10 => some (.setSettingDefaultDuration l rack value)
  | _ => none

/-- CLEAR_FAULT: its form byte selects the record form or the bay form (R12, R189). -/
def decodeClearFault (l : Link) (form : Nat) (a b c d : Byte) : Option Instr :=
  match form with
  | 0 => some (.clearFaultRecord l (value4 a b c d))
  | 1 => some (.clearFaultBay l a.toNat b.toNat)
  | _ => none

/-- SET_RESERVE: form 0 is the empty range and ignores its other bytes, form 1 a range (R189). -/
def decodeSetReserve (l : Link) (form : Nat) (a b c d : Byte) : Option Instr :=
  match form with
  | 0 => some (.setReserve l none)
  | 1 => some (.setReserve l (some (value2 a b, value2 c d)))
  | _ => none

/-- The request that a code and its arguments spell by the table of R189, if they spell one. -/
def decodeArgs (l : Link) (code : Nat) (args : List Byte) : Option Instr :=
  match code with
  | 0x01 => match args with | [] => some (.readStatus l) | _ => none
  | 0x02 => match args with | [] => some (.readNotices l) | _ => none
  | 0x03 => match args with | [a, b] => some (.setNoticeMask l (value2 a b)) | _ => none
  | 0x10 => match args with | [a, b] => some (.readRecord l (value2 a b)) | _ => none
  | 0x11 => match args with | [a, b, c, d] => some (.find l (value4 a b c d)) | _ => none
  | 0x12 => match args with
    | [a, b, c, d, g, p, x, y] =>
        some (.enrol l (value4 a b c d) g.toNat (if presentOf p then some (value2 x y) else none))
    | _ => none
  | 0x13 => match args with | [a, b, c, d] => some (.retire l (value4 a b c d)) | _ => none
  | 0x14 => match args with | [a, b, c, d] => some (.reinstate l (value4 a b c d)) | _ => none
  | 0x15 => match args with | [a, b, c, d] => some (.remove l (value4 a b c d)) | _ => none
  | 0x16 => match args with | [f, a, b, c, d] => decodeClearFault l f.toNat a b c d | _ => none
  | 0x20 => match args with | [r, b] => some (.readBay l r.toNat b.toNat) | _ => none
  | 0x21 => match args with | [r] => some (.readRack l r.toNat) | _ => none
  | 0x30 => match args with | [a] => some (.readLoan l a.toNat) | _ => none
  | 0x31 => match args with
    | [t, p, n, f] => some (.issue l t.toNat p.toNat n.toNat (flagOf f))
    | _ => none
  | 0x32 => match args with | [a, n] => some (.add l a.toNat n.toNat) | _ => none
  | 0x33 => match args with | [a] => some (.cancel l a.toNat) | _ => none
  | 0x34 => match args with | [x, a, b, c, d] => some (.extend l x.toNat (value4 a b c d)) | _ => none
  | 0x40 => match args with | [t] => some (.readTour l t.toNat) | _ => none
  | 0x41 => match args with | [p] => some (.readProgramme l p.toNat) | _ => none
  | 0x42 => match args with
    | a :: b :: codes => some (.openTour l (value2 a b) (codes.map (fun c => c.toNat)))
    | _ => none
  | 0x43 => match args with | [t] => some (.closeTour l t.toNat) | _ => none
  | 0x44 => match args with | [p, f] => some (.setRelay l p.toNat (flagOf f)) | _ => none
  | 0x50 => match args with | [p] => some (.readFloor l p.toNat) | _ => none
  | 0x51 => match args with | [m, p, q] => some (.bindMic l m.toNat p.toNat q.toNat) | _ => none
  | 0x52 => match args with | [m] => some (.unbindMic l m.toNat) | _ => none
  | 0x53 => match args with | [m] => some (.talkRequest l m.toNat) | _ => none
  | 0x54 => match args with | [m] => some (.talkActive l m.toNat) | _ => none
  | 0x55 => match args with | [m] => some (.talkRelease l m.toNat) | _ => none
  | 0x56 => match args with | [p] => some (.cut l p.toNat) | _ => none
  | 0x57 => match args with | [p, v] => some (.setMask l p.toNat v.toNat) | _ => none
  | 0x60 => match args with | [] => some (.readPlan l) | _ => none
  | 0x61 => match args with
    | [a, b, c, d, z, q] => some (.reportBeacon l (value4 a b c d) z.toNat q.toNat)
    | _ => none
  | 0x70 => match args with | [k, r] => some (.readSetting l k.toNat r.toNat) | _ => none
  | 0x71 => match args with | [k, r, a, b] => decodeSetSetting l k.toNat r.toNat (value2 a b) | _ => none
  | 0x72 => match args with | [a, b, c, d] => some (.setClock l (value4 a b c d)) | _ => none
  | 0x73 => match args with | [f, a, b, c, d] => decodeSetReserve l f.toNat a b c d | _ => none
  | 0x74 => match args with
    | [x, g, r, f] => some (.setAccess l x.toNat g.toNat r.toNat (flagOf f))
    | _ => none
  | 0x75 => match args with | [] => some (.lockAccess l) | _ => none
  | 0x76 => match args with | [] => some (.restart l) | _ => none
  | 0x80 => match args with | [t] => some (.forceClose l t.toNat) | _ => none
  | 0x81 => match args with | [a, b, c, d] => some (.writeOff l (value4 a b c d)) | _ => none
  | _ => none

/-- The command of a complete request frame: a request, or a frame that is none (R173). -/
def decodeRequest (l : Link) (code : Byte) (args : List Byte) : Instr :=
  (decodeArgs l code.toNat args).getD (.unknownRequestCode l code.toNat args)

/-- The command that a whole transaction on a link is, from the bytes clocked in between the two edges of the select:
0xC1 opens a write transaction, 0xC2 a read transaction, and anything else carries nothing (R172, R188). Bytes after a
complete frame are ignored. -/
def decodeTransaction (l : Link) (bytes : List Byte) : Instr :=
  match bytes with
  | [] => .writeTransactionAborted l { data := [], ends := true }
  | first :: rest =>
    if first = 0xC2#8 then .readTransaction l { data := rest.length, ends := true }
    else if first = 0xC1#8 then
      match rest with
      | code :: len :: more =>
        if more.length < len.toNat then .writeTransactionAborted l { data := bytes, ends := true }
        else decodeRequest l code (more.take len.toNat)
      | _ => .writeTransactionAborted l { data := bytes, ends := true }
    else .writeTransactionAborted l { data := bytes, ends := true }

/-- The link, request code and arguments of a request command, laid out by R189; none for the rows that are no request
frame. An absent index of ENROL is sent as zeros (R189). -/
def encodeRequest : Instr → Option (Link × Nat × List Byte)
  | .readStatus l => some (l, 0x01, [])
  | .readNotices l => some (l, 0x02, [])
  | .setNoticeMask l mask => some (l, 0x03, bytes2 mask)
  | .readRecord l index => some (l, 0x10, bytes2 index)
  | .find l rid => some (l, 0x11, bytes4 rid)
  | .enrol l rid generation index =>
      some (l, 0x12, bytes4 rid ++ bytes1 generation ++
        (match index with | none => bytes1 0 ++ bytes2 0 | some i => bytes1 1 ++ bytes2 i))
  | .retire l rid => some (l, 0x13, bytes4 rid)
  | .reinstate l rid => some (l, 0x14, bytes4 rid)
  | .remove l rid => some (l, 0x15, bytes4 rid)
  | .clearFaultRecord l rid => some (l, 0x16, bytes1 0 ++ bytes4 rid)
  | .clearFaultBay l rack bay => some (l, 0x16, bytes1 1 ++ bytes1 rack ++ bytes1 bay ++ bytes2 0)
  | .readBay l rack bay => some (l, 0x20, bytes1 rack ++ bytes1 bay)
  | .readRack l rack => some (l, 0x21, bytes1 rack)
  | .readLoan l loan => some (l, 0x30, bytes1 loan)
  | .issue l tour programme count reserve =>
      some (l, 0x31, bytes1 tour ++ bytes1 programme ++ bytes1 count ++ flagBytes reserve)
  | .add l loan n => some (l, 0x32, bytes1 loan ++ bytes1 n)
  | .cancel l loan => some (l, 0x33, bytes1 loan)
  | .extend l loan due => some (l, 0x34, bytes1 loan ++ bytes4 due)
  | .readTour l tour => some (l, 0x40, bytes1 tour)
  | .readProgramme l p => some (l, 0x41, bytes1 p)
  | .openTour l duration codes => some (l, 0x42, bytes2 duration ++ codes.map (BitVec.ofNat 8))
  | .closeTour l tour => some (l, 0x43, bytes1 tour)
  | .setRelay l p relay => some (l, 0x44, bytes1 p ++ flagBytes relay)
  | .readFloor l p => some (l, 0x50, bytes1 p)
  | .bindMic l mic p priority => some (l, 0x51, bytes1 mic ++ bytes1 p ++ bytes1 priority)
  | .unbindMic l mic => some (l, 0x52, bytes1 mic)
  | .talkRequest l mic => some (l, 0x53, bytes1 mic)
  | .talkActive l mic => some (l, 0x54, bytes1 mic)
  | .talkRelease l mic => some (l, 0x55, bytes1 mic)
  | .cut l p => some (l, 0x56, bytes1 p)
  | .setMask l p level => some (l, 0x57, bytes1 p ++ bytes1 level)
  | .readPlan l => some (l, 0x60, [])
  | .reportBeacon l rid zone quality => some (l, 0x61, bytes4 rid ++ bytes1 zone ++ bytes1 quality)
  | .readSetting l setting rack => some (l, 0x70, bytes1 setting ++ bytes1 rack)
  | .setSettingRackLimit l rack value => some (l, 0x71, bytes1 0 ++ bytes1 rack ++ bytes2 value)
  | .setSettingSenseThreshold l rack value => some (l, 0x71, bytes1 1 ++ bytes1 rack ++ bytes2 value)
  | .setSettingBaseInit l rack value => some (l, 0x71, bytes1 2 ++ bytes1 rack ++ bytes2 value)
  | .setSettingColdAfter l rack value => some (l, 0x71, bytes1 3 ++ bytes1 rack ++ bytes2 value)
  | .setSettingGaugeInterval l rack value => some (l, 0x71, bytes1 4 ++ bytes1 rack ++ bytes2 value)
  | .setSettingReadyLevel l rack value => some (l, 0x71, bytes1 5 ++ bytes1 rack ++ bytes2 value)
  | .setSettingReleaseWindow l rack value => some (l, 0x71, bytes1 6 ++ bytes1 rack ++ bytes2 value)
  | .setSettingMissingAfter l rack value => some (l, 0x71, bytes1 7 ++ bytes1 rack ++ bytes2 value)
  | .setSettingKeepalive l rack value => some (l, 0x71, bytes1 8 ++ bytes1 rack ++ bytes2 value)
  | .setSettingDlSlots l rack value => some (l, 0x71, bytes1 9 ++ bytes1 rack ++ bytes2 value)
  | .setSettingDefaultDuration l rack value => some (l, 0x71, bytes1 10 ++ bytes1 rack ++ bytes2 value)
  | .setClock l seconds => some (l, 0x72, bytes4 seconds)
  | .setReserve l range =>
      some (l, 0x73, match range with
        | none => bytes1 0 ++ bytes2 0 ++ bytes2 0
        | some (lo, hi) => bytes1 1 ++ bytes2 lo ++ bytes2 hi)
  | .setAccess l link group right reserveUse =>
      some (l, 0x74, bytes1 link ++ bytes1 group ++ bytes1 right ++ flagBytes reserveUse)
  | .lockAccess l => some (l, 0x75, [])
  | .restart l => some (l, 0x76, [])
  | .forceClose l tour => some (l, 0x80, bytes1 tour)
  | .writeOff l rid => some (l, 0x81, bytes4 rid)
  | .unknownRequestCode l code args => some (l, code, args)
  | .readTransaction _ _ | .writeTransactionAborted _ _ | .fullReset | .fullResetEnd
  | .scanCompletion _ _ | .sweepWaitExpiry _ | .coldAfterExpiry _ | .confirmingScan _ _ | .byteCrossed _ _
  | .wordCrossed _ _ | .wordTimeout _ | .identifyCompletion _ _ _ _ _ _ | .programCompletion _
  | .readUsageCompletion _ _ | .gaugeCompletion _ _ _ _ | .gaugePoll _ | .chargeFrameBoundary | .keepaliveExpiry _
  | .releaseWindowExpiry _ | .compareA | .frameBoundary | .clockAdvance | .sweepStep => none

/-- The bytes of the write transaction that carries a request (R188): 0xC1, the request code, the argument length, the
arguments. -/
def encodeTransaction (i : Instr) : Option (Link × List Byte) :=
  (encodeRequest i).map fun (l, code, args) =>
    (l, 0xC1#8 :: BitVec.ofNat 8 code :: BitVec.ofNat 8 args.length :: args)

/-- No row of spec/opcode_table.json gives bits, so no word spells a command (log 25). -/
def decodeTableWord (_nbits _w : Nat) : Option Instr := none

end Sys2Proof
end

