-- ==== Sys2Proof/Machine/Table.lean ====
section
/-! DEFINITION. A table of the part held by key, in one canonical form: keys strictly rising, and no entry equal to what
an unlisted key reads as, which is the reset value of that position (log 17). Equal tables are then equal lists. And the
small list operations the rules' orders are written with. -/

namespace Sys2Proof.Machine

/-- Key and value pairs; an unlisted key `k` reads as `d k` for the table's default `d`. -/
abbrev Table (α : Type) := List (Nat × α)

/-- The value at a key. -/
def Table.read {α : Type} (d : Nat → α) : Table α → Nat → α
  | [], k => d k
  | (k', v) :: t, k => if k' = k then v else Table.read d t k

/-- The table without a key. -/
def Table.erase {α : Type} : Table α → Nat → Table α
  | [], _ => []
  | (k', v) :: t, k => if k' = k then Table.erase t k else (k', v) :: Table.erase t k

/-- The table with a pair put in before the first larger key. -/
def Table.insert {α : Type} : Table α → Nat → α → Table α
  | [], k, v => [(k, v)]
  | (k', v') :: t, k, v => if k < k' then (k, v) :: (k', v') :: t else (k', v') :: Table.insert t k v

/-- The table with the value at a key written; writing the default removes the entry. -/
def Table.write {α : Type} [DecidableEq α] (d : Nat → α) (t : Table α) (k : Nat) (v : α) : Table α :=
  if v = d k then Table.erase t k else Table.insert (Table.erase t k) k v

/-- The keys that are listed, in order. -/
def Table.keys {α : Type} (t : Table α) : List Nat := t.map (fun e => e.1)

/-- Every listed key is above `k`, the keys rise strictly, and no entry equals its default. -/
def Table.wfAbove {α : Type} [DecidableEq α] (d : Nat → α) : Option Nat → Table α → Bool
  | _, [] => true
  | low, (k, v) :: t =>
    (match low with | none => true | some m => decide (m < k)) && decide (v ≠ d k) && Table.wfAbove d (some k) t

/-- The canonical form. -/
def Table.wf {α : Type} [DecidableEq α] (d : Nat → α) (t : Table α) : Bool := Table.wfAbove d none t

/-- Put `a` before the first element that it goes before. -/
def insertBy {α : Type} (before : α → α → Bool) (a : α) : List α → List α
  | [] => [a]
  | b :: l => if before a b then a :: b :: l else b :: insertBy before a l

/-- The list in the order of `before`, elements that are not told apart keeping their order. -/
def sortBy {α : Type} (before : α → α → Bool) (l : List α) : List α :=
  l.foldl (fun acc a => insertBy before a acc) []

/-- The list with its `n`-th element taken out and put first, if there is one. -/
def bringForward {α : Type} (l : List α) (n : Nat) : List α :=
  match l[n]? with
  | none => l
  | some a => a :: l.eraseIdx n

/-- Some order of a list: at each place the choice says which of the elements still to be placed comes next. A list of
at most one element has one order and consults no choice. -/
def arrange {α : Type} (choice : Nat → Nat) : Nat → List α → List α
  | 0, l => l
  | n + 1, l =>
    match l with
    | [] => []
    | [a] => [a]
    | l =>
      match bringForward l (choice l.length % l.length) with
      | [] => []
      | a :: rest => a :: arrange choice n rest

end Sys2Proof.Machine
end

