-- ==== Sys2Proof/Machine/State.lean ====
section
/-! DEFINITION. The state of the part, block by block as section 0.4 lists them, and its value right after reset. All of it
is plain data. Elapsed times are held in ticks of 1/512000 s (log 1). -/

namespace Sys2Proof.Machine

/-! ## Fleet table (spec/01_fleet_table.md) -/

/-- The two receiver generations (R1). -/
inductive Generation where
  | g1 | g2
  deriving DecidableEq, Repr

/-- The eleven record states, in the order of R3. -/
inductive RecState where
  | docked | ready | reserved | programming | released | onLoan | overdue | missing | absent | fault | retired
  deriving DecidableEq, Repr

/-- Rack r bay b. -/
structure BayPos where
  rack : Nat
  bay : Nat
  deriving DecidableEq, Repr

/-- A receiver record (R1); its index is its key in the fleet table. -/
structure Record where
  rid : Nat
  generation : Generation
  state : RecState
  bay : Option BayPos
  soc : Option Nat
  thermalHold : Bool
  usagePending : Bool
  backFromLoan : Bool
  loan : Option Nat
  programme : Option Nat
  due : Option Nat
  overdueFlag : Bool
  lastHeard : Option Nat
  lastZone : Nat
  loansServed : Nat
  listeningMinutes : Nat
  faultCount : Nat
  deriving DecidableEq, Repr

/-- A range of record indices, both ends included (R17). -/
structure Range where
  lo : Nat
  hi : Nat
  deriving DecidableEq, Repr

/-- The fleet table: a free position reads as none (R1). `applied` none is the empty range; `staged` is present while a
range is pending (R17). -/
structure Fleet where
  records : Table (Option Record)
  applied : Option Range
  staged : Option Range
  deriving DecidableEq, Repr

/-! ## Rack scanners (spec/02_bays_and_rack_scanning.md) -/

/-- R23. -/
inductive Phase where
  | sweep | wait
  deriving DecidableEq, Repr

/-- Which block has the rack's multiplexer (R23, R25). -/
inductive Holder where
  | none | scanner | channel
  deriving DecidableEq, Repr

/-- R23, R35. -/
inductive Cadence where
  | hot | cold
  deriving DecidableEq, Repr

/-- The seven bay states, in the order of R28. -/
inductive BayState where
  | empty | arriving | identifying | occupied | leaving | foreign | fault
  deriving DecidableEq, Repr

/-- The per-bay state of a scanner (R23). -/
structure Bay where
  state : BayState
  sense : Nat
  baseline : Nat
  debounce : Nat
  latchOpen : Bool
  bound : Option Nat
  deriving DecidableEq, Repr

/-- The per-rack state of a scanner (R23); `waitElapsed` and `quiet` in ticks. -/
structure Scanner where
  phase : Phase
  sweepPos : Nat
  waitElapsed : Nat
  holder : Holder
  cadence : Cadence
  quiet : Nat
  bays : Table Bay
  deriving DecidableEq, Repr

/-! ## Dock transfer channels (spec/03_dock_transfers.md) -/

/-- The four kinds of transfer, in the order of their classes 1 to 4 (R48). -/
inductive Kind where
  | program | identify | readUsage | gauge
  deriving DecidableEq, Repr

/-- A request record (R47). -/
structure Req where
  kind : Kind
  bay : Nat
  record : Option Nat
  loan : Option Nat
  attempts : Nat
  stamp : Nat
  withdraw : Bool
  deriving DecidableEq, Repr

/-- R46, R54. -/
inductive Width where
  | byte | word
  deriving DecidableEq, Repr

/-- The state of a rack's channel (R46), and what its attempt in flight implies: the words that have crossed, the words
formed for a PROGRAM (R52), the time the current word has been waited for in ticks (R53), and whether the attempt has
failed and its confirming scan is being made (R56). `gaugeElapsed` in ticks. -/
structure Channel where
  queue : List Req
  inFlight : Option Req
  wordsRemaining : Nat
  width : Width
  lowByte : Option Nat
  gaugeElapsed : Nat
  nextStamp : Nat
  words : List Nat
  formed : List Nat
  wordElapsed : Nat
  confirming : Bool
  deriving DecidableEq, Repr

/-! ## Charge allocator (spec/04_charge_allocation.md) -/

/-- The per-bay charge state (R71). -/
structure Drive where
  staged : Nat
  applied : Nat
  duty : Nat
  deriving DecidableEq, Repr

/-- The per-rack charge state (R71). -/
structure RackCharge where
  stagedLimit : Nat
  appliedLimit : Nat
  drives : Table Drive
  deriving DecidableEq, Repr

/-- The allocator (R71). `promoted` is the promoted set in ascending order; `frameTime` is the time since the last charge
frame boundary in ticks, from which sub-period and count are computed (R81). -/
structure Charge where
  racks : Table RackCharge
  promoted : List Nat
  frameTime : Nat
  deriving DecidableEq, Repr

/-! ## Tour and programme tables (spec/05_tours_and_programmes.md) -/

/-- FREE, OPEN, CLOSING, in the order of R90. -/
inductive TourState where
  | free | opened | closing
  deriving DecidableEq, Repr

/-- A tour record (R90); its tour ID is its key. -/
structure Tour where
  state : TourState
  programmes : List Nat
  duration : Option Nat
  deriving DecidableEq, Repr

/-- A programme record (R91); its floor is held by the floor arbiter and its downlink slot by the next plan. -/
structure Programme where
  inUse : Bool
  tour : Option Nat
  language : Nat
  key : Nat
  listeners : Nat
  relay : Bool
  deriving DecidableEq, Repr

/-- R90, R91, R93. -/
structure Tours where
  tours : Table Tour
  programmes : Table Programme
  nextKey : Nat
  deriving DecidableEq, Repr

/-! ## Loan table (spec/06_loans.md) -/

/-- A loan (R105); its loan ID is its key. -/
structure Loan where
  tour : Nat
  programme : Nat
  reserve : Bool
  requested : Nat
  shortfall : Nat
  outstanding : List Nat
  returned : Nat
  dropped : Nat
  lifted : Nat
  due : Nat
  wants : Bool
  passed : List Nat
  deriving DecidableEq, Repr

/-- A release timer, both times in ticks (R120). -/
structure Timer where
  length : Nat
  elapsed : Nat
  deriving DecidableEq, Repr

/-- R105, R113, R120; the release timers by record index. -/
structure Loans where
  loans : Table (Option Loan)
  wanting : List Nat
  timers : Table (Option Timer)
  deriving DecidableEq, Repr

/-! ## Floor arbiter (spec/07_talk_floor.md) -/

/-- IDLE, REQUESTING, TALKING, HELD, in the order of R125. -/
inductive MicState where
  | idle | requesting | talking | held
  deriving DecidableEq, Repr

/-- A microphone record (R125); `keepAlive` in ticks. -/
structure Mic where
  programme : Option Nat
  priority : Option Nat
  state : MicState
  requestTime : Option Nat
  keepAlive : Option Nat
  deriving DecidableEq, Repr

/-- An entry of an in-service stack (R128, R130). -/
inductive StackEntry where
  | mic (m : Nat)
  | cascade
  deriving DecidableEq, Repr

/-- The floor of a programme (R128): the pending list head first, the in-service stack TOP first, the mask level. -/
structure Floor where
  waiting : List Nat
  stack : List StackEntry
  mask : Nat
  deriving DecidableEq, Repr

/-- R125, R128, R142. -/
structure Floors where
  mics : Table Mic
  floors : Table Floor
  uplinkQueue : List Nat
  deriving DecidableEq, Repr

/-! ## Air planner (spec/08_air_frame_plan.md) -/

/-- The source of a DOWN entry (R149). -/
inductive Source where
  | none
  | mic (m : Nat)
  | house (m : Nat)
  deriving DecidableEq, Repr

/-- An entry of a plan (R149). -/
inductive Entry where
  | free
  | down (programme : Nat) (source : Source)
  | up (programme mic : Nat)
  deriving DecidableEq, Repr

/-- A plan: a split and 64 entries by slot index (R148). -/
structure Plan where
  split : Nat
  entries : Table Entry
  deriving DecidableEq, Repr

/-- R148, R150; `frameTime` in ticks; the two outputs. -/
structure Air where
  frameTime : Nat
  frameSplit : Nat
  nextPlan : Plan
  currentPlan : Plan
  sequence : Nat
  downlinkQueue : List Nat
  phaseHigh : Bool
  syncHigh : Bool
  deriving DecidableEq, Repr

/-! ## Aging sweep and clock (spec/09_presence_tracking_and_loan_aging.md) -/

/-- R161, R165, R166; `clockPhase` and `stepTime` in ticks. -/
structure Age where
  clock : Nat
  clockPhase : Nat
  sweepPointer : Nat
  stepTime : Nat
  unknownBeacons : Nat
  deriving DecidableEq, Repr

/-! ## Link ports and access map (spec/10_links_access_and_notices.md) -/

/-- The status codes, in the order of R188. NO_RESPONSE is never the status of a held response (R175). -/
inductive Status where
  | ok | denied | locked | badRequest | notFound | busy | full | noResponse
  deriving DecidableEq, Repr

/-- A response held by a link port: its status and its result bytes (R174, R188). -/
structure Response where
  status : Status
  results : List Byte
  deriving DecidableEq, Repr

/-- A posted notice: its kind, in the order of R182, with its argument. -/
inductive Notice where
  | loanWanting (loan : Nat)
  | loanFilled (loan : Nat)
  | loanClosed (loan requested returned dropped : Nat)
  | tourClosed (tour : Nat)
  | overdue (index : Nat)
  | missing (index : Nat)
  | found (index : Nat)
  | unreleasedLift (index : Nat)
  | bayFault (rack bay : Nat)
  | foreign (rack bay : Nat)
  | fleetFull (rack bay : Nat)
  | receiverFault (index : Nat)
  | floorChanged (programme : Nat)
  | floorStale (mic : Nat)
  | downlinkWait (programme : Nat)
  | rackShort (rack : Nat)
  deriving DecidableEq, Repr

/-- A link's select, and the transaction in progress while it is low (R172, R186, R187): `low` before the first byte,
`write` while a request frame is gathered, `read` while a response is sent, `cleared` once a warm restart has cut the
transaction short, `ignored` where it opened with neither code or a full reset has reached it. In `cleared` and `ignored`
the rest carries nothing until the select rises. -/
inductive Select where
  | high
  | low
  | write
  | read
  | cleared
  | ignored
  deriving DecidableEq, Repr

/-- A link port (R171). `notices` holds the set flags with their arguments, in ascending kind number. `output` is the
model's own: the bytes driven on the link's data output after the code byte of its last transaction, every byte clocked
beyond them having been answered with 0x00 (R188; log 18). -/
structure Port where
  requestBuffer : List Byte
  response : Option Response
  notices : List Notice
  mask : BitVec 16
  output : List Byte
  select : Select
  deriving DecidableEq, Repr

/-- The three ports. -/
structure Ports where
  desk : Port
  radio : Port
  service : Port
  deriving DecidableEq, Repr

/-- The rights, in the order of R189. -/
inductive Right where
  | none | read | write | readWrite
  deriving DecidableEq, Repr

/-- The request groups, in the order of R189. -/
inductive Group where
  | fleet | rack | loan | tour | floor | air | settings | override
  deriving DecidableEq, Repr

/-- A link's part of the access map (R177). -/
structure Rights where
  fleet : Right
  rack : Right
  loan : Right
  tour : Right
  floor : Right
  air : Right
  settings : Right
  override : Right
  reserveUse : Bool
  deriving DecidableEq, Repr

/-- The access map (R177). -/
structure Access where
  desk : Rights
  radio : Rights
  service : Rights
  lock : Bool
  deriving DecidableEq, Repr

/-- The settings of R181 but for RACK_LIMIT, which is the staged limit, and DL_SLOTS, which is the next plan's split. -/
structure Settings where
  senseThreshold : Nat
  baseInit : Nat
  coldAfter : Nat
  gaugeInterval : Nat
  readyLevel : Nat
  releaseWindow : Nat
  missingAfter : Nat
  keepalive : Nat
  defaultDuration : Nat
  deriving DecidableEq, Repr

/-- The state of the part. `pending` is the queue of commands that wait, first in, first out; `draws` counts the free
values drawn (log 7); `resetHeld` is RSTN held low (R187). -/
structure State where
  pending : List Instr
  draws : Nat
  resetHeld : Bool
  settings : Settings
  fleet : Fleet
  scan : Table Scanner
  chan : Table Channel
  charge : Charge
  tours : Tours
  loans : Loans
  floor : Floors
  air : Air
  age : Age
  ports : Ports
  access : Access
  deriving DecidableEq, Repr

/-- The part never stops with a fault: each command has an effect or is refused with a status code (R173, R175). -/
inductive Fault where
  deriving DecidableEq, Repr

/-- Raised by no command of this model: every row of the table has its meaning. Safe. -/
inductive Refusal where
  /-- A command that has no meaning yet, by its mnemonic; raised only by a refused arm of `exec`. Safe. -/
  | notModelled (mnemonic : String)
  deriving DecidableEq, Repr

/-! ## Reset values (R21, R45, R70, R88, R104, R124, R147, R160, R170, R177, R181, R183) -/

/-- The settings' defaults (R181). -/
def defaultSettings : Settings where
  senseThreshold := 200
  baseInit := 1024
  coldAfter := 30
  gaugeInterval := 30
  readyLevel := 900
  releaseWindow := 60
  missingAfter := 600
  keepalive := 3
  defaultDuration := 90

/-- A bay right after a full reset (R45). -/
def resetBay : Bay where
  state := .empty
  sense := 0
  baseline := 1024
  debounce := 0
  latchOpen := false
  bound := none

/-- A scanner right after a full reset (R45; the holder, log 14). -/
def resetScanner : Scanner where
  phase := .sweep
  sweepPos := 0
  waitElapsed := 0
  holder := .none
  cadence := .hot
  quiet := 0
  bays := []

/-- A channel right after a reset (R70). -/
def resetChannel : Channel where
  queue := []
  inFlight := none
  wordsRemaining := 0
  width := .byte
  lowByte := none
  gaugeElapsed := 0
  nextStamp := 0
  words := []
  formed := []
  wordElapsed := 0
  confirming := false

/-- A bay's charge state after a reset (R88, R89). -/
def resetDrive : Drive where
  staged := 0
  applied := 0
  duty := 0

/-- A rack's charge state after a full reset (R88). -/
def resetRackCharge : RackCharge where
  stagedLimit := 8000
  appliedLimit := 8000
  drives := []

/-- A tour after a reset (R104). -/
def resetTour : Tour where
  state := .free
  programmes := []
  duration := none

/-- Programme `p` after a full reset (R104): the house programme is in use with its relay flag off, the others are not in
use with their relay flags on. -/
def resetProgramme (p : Nat) : Programme where
  inUse := decide (p = 0)
  tour := none
  language := 0
  key := 0
  listeners := 0
  relay := decide (p ≠ 0)

/-- A microphone after a reset (R147). -/
def resetMic : Mic where
  programme := none
  priority := none
  state := .idle
  requestTime := none
  keepAlive := none

/-- A floor after a reset (R147). -/
def resetFloor : Floor where
  waiting := []
  stack := []
  mask := 8

/-- An empty plan of a given split (R160). -/
def emptyPlan (split : Nat) : Plan where
  split := split
  entries := []

/-- The air planner after a reset with DL_SLOTS as given (R160). -/
def resetAir (split : Nat) : Air where
  frameTime := 0
  frameSplit := split
  nextPlan := emptyPlan split
  currentPlan := emptyPlan split
  sequence := 0
  downlinkQueue := []
  phaseHigh := false
  syncHigh := false

/-- A port with a mask and nothing held (R171). -/
def emptyPort (mask : BitVec 16) : Port where
  requestBuffer := []
  response := none
  notices := []
  mask := mask
  output := []
  select := .high

/-- The default masks (R183): kinds 0 to 11 and 15 for the desk, 12 to 14 for the radio, all for the service link. -/
def defaultPorts : Ports where
  desk := emptyPort 0x8FFF#16
  radio := emptyPort 0x7000#16
  service := emptyPort 0xFFFF#16

/-- The default access map (R177). -/
def defaultAccess : Access where
  desk :=
    { fleet := .readWrite, rack := .read, loan := .readWrite, tour := .readWrite, floor := .readWrite, air := .read,
      settings := .read, override := .none, reserveUse := false }
  radio :=
    { fleet := .read, rack := .none, loan := .read, tour := .read, floor := .readWrite, air := .readWrite,
      settings := .none, override := .none, reserveUse := false }
  service :=
    { fleet := .readWrite, rack := .readWrite, loan := .readWrite, tour := .readWrite, floor := .readWrite, air := .read,
      settings := .readWrite, override := .readWrite, reserveUse := true }
  lock := false

/-- The part right after a full reset (R187). -/
def State.reset : State where
  pending := []
  draws := 0
  resetHeld := false
  settings := defaultSettings
  fleet := { records := [], applied := none, staged := none }
  scan := []
  chan := []
  charge := { racks := [], promoted := [], frameTime := 0 }
  tours := { tours := [], programmes := [], nextKey := 1 }
  loans := { loans := [], wanting := [], timers := [] }
  floor := { mics := [], floors := [], uplinkQueue := [] }
  air := resetAir 40
  age := { clock := 0, clockPhase := 0, sweepPointer := 0, stepTime := 0, unknownBeacons := 0 }
  ports := defaultPorts
  access := defaultAccess

end Sys2Proof.Machine
end

