-- ==== Sys2Proof/Machine/Ops.lean ====
section
/-! DEFINITION. The named reads and writes of the part's tables, which every meaning goes through, and the part's units of
time. -/

namespace Sys2Proof.Machine

/-! ## Time (log 1): a tick is 1/512000 s -/

/-- 1 ms. -/
def msTicks : Nat := 512
/-- 1 s. -/
def secondTicks : Nat := 512000
/-- One slot of the air frame, 312.5 µs (R150). -/
def slotTicks : Nat := 160
/-- The air frame, 20 ms, 64 slots (R150). -/
def frameTicks : Nat := 10240
/-- One count of the charge frame, 244.140625 µs (R81). -/
def countTicks : Nat := 125
/-- The charge frame, 250 ms, 1024 counts (R81). -/
def chargeFrameTicks : Nat := 128000
/-- The period of the aging sweep's step timer, 250 ms (R166). -/
def stepTicks : Nat := 128000
/-- The sweep wait of a HOT rack, 20 ms, and of a COLD one, 400 ms (R24). -/
def hotWaitTicks : Nat := 10240
def coldWaitTicks : Nat := 204800
/-- The time within which a word must have crossed, 50 ms (R53). -/
def wordTicks : Nat := 25600

/-- The largest value of a 32-bit field. -/
def max32 : Nat := 4294967295

/-- The four racks and the 64 bays of a rack (0.1). -/
def rackNumbers : List Nat := [0, 1, 2, 3]
def bayNumbers : List Nat := List.range 64
/-- The 63 tour programmes, ascending (R91). -/
def tourProgrammes : List Nat := (List.range 64).drop 1
/-- The slot indices of a plan, ascending (R148). -/
def slotNumbers : List Nat := List.range 64

/-! ## Fleet table -/

/-- The record at an index; none at a free position (R1). -/
def State.record (s : State) (i : Nat) : Option Record := Table.read (fun _ => none) s.fleet.records i

/-- The state with a position of the fleet table written. -/
def State.setRecord (s : State) (i : Nat) (r : Option Record) : State :=
  { s with fleet := { s.fleet with records := Table.write (fun _ => none) s.fleet.records i r } }

/-- The state with the record at an index changed, if there is one. -/
def State.modRecord (s : State) (i : Nat) (f : Record → Record) : State :=
  match s.record i with
  | none => s
  | some r => s.setRecord i (some (f r))

/-- The indices that hold records, ascending. -/
def State.recordIndices (s : State) : List Nat := Table.keys s.fleet.records

/-- The index of the record that holds a receiver ID (R2). -/
def State.indexOfRid (s : State) (rid : Nat) : Option Nat :=
  s.recordIndices.find? fun i => match s.record i with | some r => r.rid == rid | none => false

/-! ## Rack scanners -/

def State.scanner (s : State) (r : Nat) : Scanner := Table.read (fun _ => resetScanner) s.scan r

def State.setScanner (s : State) (r : Nat) (v : Scanner) : State :=
  { s with scan := Table.write (fun _ => resetScanner) s.scan r v }

def State.bay (s : State) (r b : Nat) : Bay := Table.read (fun _ => resetBay) (s.scanner r).bays b

def State.setBay (s : State) (r b : Nat) (v : Bay) : State :=
  s.setScanner r { s.scanner r with bays := Table.write (fun _ => resetBay) (s.scanner r).bays b v }

/-! ## Dock transfer channels -/

def State.channel (s : State) (r : Nat) : Channel := Table.read (fun _ => resetChannel) s.chan r

def State.setChannel (s : State) (r : Nat) (v : Channel) : State :=
  { s with chan := Table.write (fun _ => resetChannel) s.chan r v }

/-! ## Charge allocator -/

def State.rackCharge (s : State) (r : Nat) : RackCharge := Table.read (fun _ => resetRackCharge) s.charge.racks r

def State.setRackCharge (s : State) (r : Nat) (v : RackCharge) : State :=
  { s with charge := { s.charge with racks := Table.write (fun _ => resetRackCharge) s.charge.racks r v } }

def State.drive (s : State) (r b : Nat) : Drive := Table.read (fun _ => resetDrive) (s.rackCharge r).drives b

def State.setDrive (s : State) (r b : Nat) (v : Drive) : State :=
  s.setRackCharge r { s.rackCharge r with drives := Table.write (fun _ => resetDrive) (s.rackCharge r).drives b v }

/-! ## Tours and programmes -/

def State.tour (s : State) (t : Nat) : Tour := Table.read (fun _ => resetTour) s.tours.tours t

def State.setTour (s : State) (t : Nat) (v : Tour) : State :=
  { s with tours := { s.tours with tours := Table.write (fun _ => resetTour) s.tours.tours t v } }

def State.programme (s : State) (p : Nat) : Programme := Table.read resetProgramme s.tours.programmes p

def State.setProgramme (s : State) (p : Nat) (v : Programme) : State :=
  { s with tours := { s.tours with programmes := Table.write resetProgramme s.tours.programmes p v } }

/-! ## Loans -/

/-- The loan with an ID; none at a free position (R105). -/
def State.loan (s : State) (id : Nat) : Option Loan := Table.read (fun _ => none) s.loans.loans id

def State.setLoan (s : State) (id : Nat) (v : Option Loan) : State :=
  { s with loans := { s.loans with loans := Table.write (fun _ => none) s.loans.loans id v } }

def State.modLoan (s : State) (id : Nat) (f : Loan → Loan) : State :=
  match s.loan id with
  | none => s
  | some l => s.setLoan id (some (f l))

/-- The IDs of the loans of the table, ascending. -/
def State.loanIds (s : State) : List Nat := Table.keys s.loans.loans

/-- The IDs of the loans that name a tour, ascending (R90). -/
def State.loansOfTour (s : State) (t : Nat) : List Nat :=
  s.loanIds.filter fun id => match s.loan id with | some l => l.tour == t | none => false

def State.setWanting (s : State) (q : List Nat) : State := { s with loans := { s.loans with wanting := q } }

/-- The release timer of a record (R120). -/
def State.timer (s : State) (i : Nat) : Option Timer := Table.read (fun _ => none) s.loans.timers i

/-- A release window has reached its length (R121). -/
def State.windowDue (s : State) (i : Nat) : Bool :=
  match s.timer i with
  | some t => decide (t.length ≤ t.elapsed)
  | none => false

def State.setTimer (s : State) (i : Nat) (v : Option Timer) : State :=
  { s with loans := { s.loans with timers := Table.write (fun _ => none) s.loans.timers i v } }

/-! ## Floors -/

def State.mic (s : State) (m : Nat) : Mic := Table.read (fun _ => resetMic) s.floor.mics m

def State.setMic (s : State) (m : Nat) (v : Mic) : State :=
  { s with floor := { s.floor with mics := Table.write (fun _ => resetMic) s.floor.mics m v } }

def State.floorOf (s : State) (p : Nat) : Floor := Table.read (fun _ => resetFloor) s.floor.floors p

def State.setFloor (s : State) (p : Nat) (v : Floor) : State :=
  { s with floor := { s.floor with floors := Table.write (fun _ => resetFloor) s.floor.floors p v } }

def State.setUplinkQueue (s : State) (q : List Nat) : State := { s with floor := { s.floor with uplinkQueue := q } }

/-! ## Plans -/

/-- The entry of a plan at a slot index; an unlisted slot is FREE (R149). -/
def Plan.entry (p : Plan) (i : Nat) : Entry := Table.read (fun _ => Entry.free) p.entries i

/-- The entry of the next plan at a slot index. -/
def State.entry (s : State) (i : Nat) : Entry := s.air.nextPlan.entry i

def State.setEntry (s : State) (i : Nat) (e : Entry) : State :=
  { s with air := { s.air with nextPlan :=
    { s.air.nextPlan with entries := Table.write (fun _ => Entry.free) s.air.nextPlan.entries i e } } }

def State.setDownlinkQueue (s : State) (q : List Nat) : State := { s with air := { s.air with downlinkQueue := q } }

/-! ## Links and access map -/

def State.port (s : State) (l : Link) : Port :=
  match l with
  | .desk => s.ports.desk
  | .radio => s.ports.radio
  | .service => s.ports.service

def State.setPort (s : State) (l : Link) (v : Port) : State :=
  match l with
  | .desk => { s with ports := { s.ports with desk := v } }
  | .radio => { s with ports := { s.ports with radio := v } }
  | .service => { s with ports := { s.ports with service := v } }

def State.rights (s : State) (l : Link) : Rights :=
  match l with
  | .desk => s.access.desk
  | .radio => s.access.radio
  | .service => s.access.service

def State.setRights (s : State) (l : Link) (v : Rights) : State :=
  match l with
  | .desk => { s with access := { s.access with desk := v } }
  | .radio => { s with access := { s.access with radio := v } }
  | .service => { s with access := { s.access with service := v } }

/-- A link's right on a group (R177). -/
def Rights.on (r : Rights) : Group → Right
  | .fleet => r.fleet
  | .rack => r.rack
  | .loan => r.loan
  | .tour => r.tour
  | .floor => r.floor
  | .air => r.air
  | .settings => r.settings
  | .override => r.override

def Rights.setOn (r : Rights) (g : Group) (v : Right) : Rights :=
  match g with
  | .fleet => { r with fleet := v }
  | .rack => { r with rack := v }
  | .loan => { r with loan := v }
  | .tour => { r with tour := v }
  | .floor => { r with floor := v }
  | .air => { r with air := v }
  | .settings => { r with settings := v }
  | .override => { r with override := v }

/-- The state with a settings record changed. -/
def State.setSettings (s : State) (v : Settings) : State := { s with settings := v }

/-- A free value drawn: the counter that names it, and the state with the counter advanced (log 7). -/
def State.draw (s : State) : Nat × State := (s.draws, { s with draws := s.draws + 1 })

end Sys2Proof.Machine
end

