-- ==== Sys2Proof/Machine/Flags.lean ====
section
/-! DEFINITION. The notice flags of the links (spec/10_links_access_and_notices.md, R182 to R184) and the attention
lines. -/

namespace Sys2Proof.Machine

/-- The number of a notice's kind (R182). -/
def Notice.kind : Notice → Nat
  | .loanWanting _ => 0
  | .loanFilled _ => 1
  | .loanClosed _ _ _ _ => 2
  | .tourClosed _ => 3
  | .overdue _ => 4
  | .missing _ => 5
  | .found _ => 6
  | .unreleasedLift _ => 7
  | .bayFault _ _ => 8
  | .foreign _ _ => 9
  | .fleetFull _ _ => 10
  | .receiverFault _ => 11
  | .floorChanged _ => 12
  | .floorStale _ => 13
  | .downlinkWait _ => 14
  | .rackShort _ => 15

/-- The set flags with a posting's kind set to the posting's argument, in ascending kind number (R182). -/
def insertNotice (n : Notice) : List Notice → List Notice
  | [] => [n]
  | m :: l =>
    if n.kind < m.kind then n :: m :: l
    else if n.kind = m.kind then n :: l
    else m :: insertNotice n l

/-- A posting as one port takes it: kept if the mask holds its kind, else without a trace (R182). -/
def Port.post (p : Port) (n : Notice) : Port :=
  if p.mask.getLsbD n.kind then { p with notices := insertNotice n p.notices } else p

/-- A posting reaches all three link ports at its event (R182). -/
def State.post (s : State) (n : Notice) : State :=
  { s with ports := { desk := s.ports.desk.post n, radio := s.ports.radio.post n, service := s.ports.service.post n } }

/-- The attention line of a link: high while a flag is set (R183), low while the part is held in full reset (R187). -/
def State.attention (s : State) (l : Link) : Bool := !s.resetHeld && !(s.port l).notices.isEmpty

/-- The port with a new mask: the flags of kinds outside it are cleared with their arguments (R183). -/
def Port.withMask (p : Port) (mask : BitVec 16) : Port :=
  { p with mask := mask, notices := p.notices.filter fun n => mask.getLsbD n.kind }

end Sys2Proof.Machine
end

