-- ==== Sys2Proof/Machine/Planner.lean ====
section
/-! DEFINITION. The air planner's entries (spec/08_air_frame_plan.md): the slots a programme holds, what an entry carries,
downlink slots handed out and handed on, and the boundary. -/

namespace Sys2Proof.Machine

/-- The topmost microphone entry of a stack, top first (R130). -/
def topMic : List StackEntry → Option Nat
  | [] => none
  | .mic m :: _ => some m
  | .cascade :: rest => topMic rest

/-- The house floor is live while the house stack holds a microphone entry (R143). -/
def State.houseLive (s : State) : Bool := (topMic (s.floorOf 0).stack).isSome

/-- The source of a DOWN entry of a programme (R149). -/
def State.sourceOf (s : State) (p : Nat) : Source :=
  match (s.floorOf p).stack with
  | [] => .none
  | .mic m :: _ => .mic m
  | .cascade :: _ =>
    match topMic (s.floorOf 0).stack with
    | some h => .house h
    | none => .none

/-- An entry of kind DOWN that names a programme; of kind UP. -/
def Entry.isDownOf (p : Nat) : Entry → Bool
  | .down q _ => q == p
  | _ => false
def Entry.isUpOf (p : Nat) : Entry → Bool
  | .up q _ => q == p
  | _ => false

/-- The slots of the next plan that are not FREE, ascending: those its table lists. -/
def State.usedSlots (s : State) : List Nat := Table.keys s.air.nextPlan.entries

/-- The downlink slot a programme holds in the next plan (R148). -/
def State.downlinkSlot (s : State) (p : Nat) : Option Nat := s.usedSlots.find? fun i => (s.entry i).isDownOf p

/-- The uplink slot a programme holds in the next plan (R148). -/
def State.uplinkSlot (s : State) (p : Nat) : Option Nat := s.usedSlots.find? fun i => (s.entry i).isUpOf p

/-- The lowest free downlink slot of the next plan (R152). -/
def State.freeDownlink (s : State) : Option Nat :=
  slotNumbers.find? fun i => decide (i < s.air.nextPlan.split) && s.entry i == .free

/-- The highest free uplink slot of the next plan (R155). -/
def State.freeUplink (s : State) : Option Nat :=
  slotNumbers.reverse.find? fun i => decide (s.air.nextPlan.split ≤ i) && s.entry i == .free

/-- A programme takes a downlink slot, its source formed from its stack (R152). -/
def State.takeDownlink (s : State) (p i : Nat) : State := s.setEntry i (.down p (s.sourceOf p))

/-- A listener count has risen from 0 to 1 (R152). -/
def State.needDownlink (s : State) (p : Nat) : State :=
  match s.freeDownlink with
  | some i => s.takeDownlink p i
  | none => (s.setDownlinkQueue (s.air.downlinkQueue ++ [p])).post (.downlinkWait p)

/-- A freed downlink slot is handed to the head of the downlink wait queue, or stays FREE (R153). -/
def State.handOnDownlink (s : State) (i : Nat) : State :=
  match s.air.downlinkQueue with
  | [] => s.setEntry i .free
  | q :: rest => (s.setDownlinkQueue rest).takeDownlink q i

/-- A listener count has fallen to 0 (R153). -/
def State.dropDownlink (s : State) (p : Nat) : State :=
  match s.downlinkSlot p with
  | some i => s.handOnDownlink i
  | none => s.setDownlinkQueue (s.air.downlinkQueue.filter (· != p))

/-- A programme gains a listener (R101). -/
def State.gainListener (s : State) (p : Nat) : State :=
  let r := s.programme p
  let s1 := s.setProgramme p { r with listeners := r.listeners + 1 }
  if r.listeners = 0 then s1.needDownlink p else s1

/-- A programme loses a listener (R102); the count is never decremented below 0. -/
def State.loseListener (s : State) (p : Nat) : State :=
  let r := s.programme p
  let s1 := s.setProgramme p { r with listeners := r.listeners - 1 }
  if r.listeners = 1 then s1.dropDownlink p else s1

/-- The downlink wait queue is served with free downlink slots, lowest first, after the split is raised (R158). The bound
is the length of the queue. -/
def serveDownlink : Nat → State → State
  | 0, s => s
  | n + 1, s =>
    match s.air.downlinkQueue, s.freeDownlink with
    | q :: rest, some i => serveDownlink n ((s.setDownlinkQueue rest).takeDownlink q i)
    | _, _ => s

/-- The entry as the stacks show it: the source of a DOWN entry, the microphone of an UP entry (R149, R156, R157). -/
def State.refreshedEntry (s : State) : Entry → Entry
  | .free => .free
  | .down p _ => .down p (s.sourceOf p)
  | .up p m => .up p ((topMic (s.floorOf p).stack).getD m)

/-- Every entry of the next plan is written as the event leaves the stacks (R156, R157). -/
def State.syncPlan (s : State) : State :=
  s.usedSlots.foldl (fun t i => t.setEntry i (t.refreshedEntry (t.entry i))) s

end Sys2Proof.Machine
end

