-- ==== Sys2Proof/Machine/Arbiter.lean ====
section
/-! DEFINITION. The floor arbiter (spec/07_talk_floor.md): grants, the uplink wait queue, the house cascade, removal of
entries, floors of a closing tour, and FLOOR_CHANGED. -/

namespace Sys2Proof.Machine

/-! ## Microphones -/

/-- The microphone becomes TALKING with its keep-alive started (R139). -/
def State.startTalking (s : State) (m : Nat) : State :=
  s.setMic m { s.mic m with state := .talking, keepAlive := some 0 }

/-- The microphone becomes HELD, its keep-alive discarded (R139). -/
def State.holdMic (s : State) (m : Nat) : State := s.setMic m { s.mic m with state := .held, keepAlive := none }

/-- The microphone goes IDLE: request time absent, keep-alive discarded (R136, R137). -/
def State.idleMic (s : State) (m : Nat) : State :=
  s.setMic m { s.mic m with state := .idle, requestTime := none, keepAlive := none }

/-- The microphone goes IDLE and unbound (R145). -/
def State.unbindMic (s : State) (m : Nat) : State := s.setMic m resetMic

/-- The priority of a microphone; an unbound one ranks below all (it stands in no list, R128). -/
def State.priorityOf (s : State) (m : Nat) : Nat := (s.mic m).priority.getD 8

/-- The priority of a stack entry (R130). -/
def State.entryPriority (s : State) : StackEntry → Nat
  | .mic m => s.priorityOf m
  | .cascade => 0

/-- The microphones bound to a programme, ascending (R125). -/
def State.boundMics (s : State) (p : Nat) : List Nat :=
  (List.range 64).filter fun m => (s.mic m).programme == some p

/-! ## Pending lists -/

/-- Microphone `m` stands ahead of `x` in a pending list: higher priority, then earlier request time (R129). -/
def State.standsBefore (s : State) (m x : Nat) : Bool :=
  decide (s.priorityOf m < s.priorityOf x) ||
    (decide (s.priorityOf m = s.priorityOf x) &&
      decide ((s.mic m).requestTime.getD 0 < (s.mic x).requestTime.getD 0))

/-- A microphone enters its programme's pending list at its place, behind its equals (R129). -/
def State.enterPending (s : State) (p m : Nat) : State :=
  let f := s.floorOf p
  s.setFloor p { f with waiting := insertBy s.standsBefore m f.waiting }

/-! ## Grant -/

/-- The stack is empty, or the priority is strictly higher, a smaller number, than the top entry's (R131). -/
def State.outranksTop (s : State) (p priority : Nat) : Bool :=
  match (s.floorOf p).stack with
  | [] => true
  | e :: _ => decide (priority < s.entryPriority e)

/-- The pending head, if it is grantable (R131). -/
def State.grantable (s : State) (p : Nat) : Option Nat :=
  match (s.floorOf p).waiting with
  | [] => none
  | m :: _ =>
    if s.priorityOf m < (s.floorOf p).mask && s.outranksTop p (s.priorityOf m) then some m else none

/-- The top microphone entry of a programme, if it has one, is held (R130, R139). -/
def State.holdTop (s : State) (p : Nat) : State :=
  match (s.floorOf p).stack with
  | .mic m :: _ => s.holdMic m
  | _ => s

/-- The top entry of a programme, if it is a microphone that is not TALKING, goes TALKING with its keep-alive started
(R136, R139). -/
def State.wakeTop (s : State) (p : Nat) : State :=
  match (s.floorOf p).stack with
  | .mic m :: _ => if (s.mic m).state = .talking then s else s.startTalking m
  | _ => s

/-- The pending head leaves the list and is pushed on the stack (R132). -/
def State.pushHead (s : State) (p m : Nat) : State :=
  let f := s.floorOf p
  ((s.holdTop p).setFloor p { f with waiting := f.waiting.tail, stack := .mic m :: f.stack }).startTalking m

/-- The programme is taken out of the uplink wait queue, wherever it stands. -/
def State.leaveUplinkQueue (s : State) (p : Nat) : State :=
  s.setUplinkQueue (s.floor.uplinkQueue.filter (· != p))

/-- A cascade entry is pushed on a programme's stack (R143): the top microphone is held; with a cascade top nothing is
grantable, so the re-evaluation takes the programme out of the uplink wait queue. A stack holds at most one cascade entry,
only ever at the top (R128). -/
def State.pushCascade (s : State) (p : Nat) : State :=
  let f := s.floorOf p
  if f.stack.head? = some .cascade then s
  else ((s.holdTop p).setFloor p { f with stack := .cascade :: f.stack }).leaveUplinkQueue p

/-- The house floor has become live: every tour programme in use with its relay flag on takes a cascade entry, in
ascending programme ID (R143). -/
def State.pushCascades (s : State) : State :=
  tourProgrammes.foldl
    (fun t p => if (t.programme p).inUse && (t.programme p).relay then t.pushCascade p else t) s

/-- A grant onto an empty stack, taking an uplink slot (R132, R155). A grant of the house programme pushes the cascade
entries at once (R143). -/
def State.grantSlot (s : State) (p m i : Nat) : State :=
  let s1 := ((s.setEntry i (.up p m)).pushHead p m).leaveUplinkQueue p
  if p = 0 then s1.pushCascades else s1

/-- The re-evaluation of a programme's floor (R132). -/
def State.reevaluate (s : State) (p : Nat) : State :=
  match s.grantable p with
  | none => s.leaveUplinkQueue p
  | some m =>
    if (topMic (s.floorOf p).stack).isSome then s.pushHead p m
    else
      match s.freeUplink with
      | some i => s.grantSlot p m i
      | none => if p ∈ s.floor.uplinkQueue then s else s.setUplinkQueue (s.floor.uplinkQueue ++ [p])

/-- Free uplink slots are offered to the uplink wait queue (R141): while one exists and the queue is not empty, the head
is taken out and re-evaluated. The bound is the length of the queue: a head taken out does not come back. -/
def serveUplink : Nat → State → State
  | 0, s => s
  | n + 1, s =>
    match s.floor.uplinkQueue with
    | [] => s
    | p :: rest => if s.freeUplink.isSome then serveUplink n ((s.setUplinkQueue rest).reevaluate p) else s

def State.offerUplink (s : State) : State := serveUplink s.floor.uplinkQueue.length s

/-- A programme whose stack holds no microphone entry frees the uplink slot it held, which is offered to the queue
(R141). -/
def State.freeIfSilent (s : State) (p : Nat) : State :=
  if (topMic (s.floorOf p).stack).isSome then s
  else
    match s.uplinkSlot p with
    | some i => (s.setEntry i .free).offerUplink
    | none => s

/-- A programme loses its cascade entry, if it has one: a microphone that becomes the top goes TALKING, and the programme
is re-evaluated (R144). -/
def State.dropCascade (s : State) (p : Nat) : State :=
  let f := s.floorOf p
  if f.stack.head? = some .cascade then
    ((s.setFloor p { f with stack := f.stack.tail }).wakeTop p).reevaluate p
  else s

/-- The house floor, if it is not live, takes every cascade entry with it, in ascending programme ID (R144). -/
def State.dropCascadesIfSilent (s : State) : State :=
  if s.houseLive then s else tourProgrammes.foldl (fun t p => t.dropCascade p) s

/-- What follows the removal of an entry on a programme's own floor (R136, R137, R141): the new top talks, a slot no longer
needed is freed and offered, and the programme is re-evaluated. -/
def State.settleOwnFloor (s : State) (p : Nat) : State := ((s.wakeTop p).freeIfSilent p).reevaluate p

/-- What follows the removal of an entry from a programme's floor (R136, R137, R144): the programme's own floor is settled,
and on the house floor the test of R144 is made last. -/
def State.settleFloor (s : State) (p : Nat) : State :=
  if p = 0 then (s.settleOwnFloor p).dropCascadesIfSilent else s.settleOwnFloor p

/-- A microphone's entry is removed from its programme's pending list and stack, wherever it stands, and the microphone
goes IDLE (R136). -/
def State.removeMic (s : State) (p m : Nat) : State :=
  let f := s.floorOf p
  (s.setFloor p { f with waiting := f.waiting.filter (· != m), stack := f.stack.filter (· != .mic m) }).idleMic m

/-- The top microphone entry of a programme is removed and its floor settled (R137). -/
def State.cutTop (s : State) (p m : Nat) : State := (s.removeMic p m).settleFloor p

/-- A stale turn ends: the microphone is cut, its floor settled as given, and FLOOR_STALE posted (R139). A microphone that
is not TALKING has no keep-alive (R140). -/
def State.endStaleTurn (settle : State → Nat → State) (s : State) (m : Nat) : State :=
  if (s.mic m).state = .talking then
    match (s.mic m).programme with
    | some p => (settle (s.removeMic p m) p).post (.floorStale m)
    | none => s
  else s

/-- A keep-alive expires, as CUT of its programme (R137, R139). -/
def State.expireKeepAlive (s : State) (m : Nat) : State := s.endStaleTurn State.settleFloor m

/-- A keep-alive expires among others at one event, to whose end the test of R144 is left (R139, R144). -/
def State.expireAmong (s : State) (m : Nat) : State := s.endStaleTurn State.settleOwnFloor m

/-- A microphone's keep-alive has reached KEEPALIVE (R139). -/
def State.keepAliveDue (s : State) (m : Nat) : Bool :=
  match (s.mic m).keepAlive with
  | some e => decide (s.settings.keepalive * secondTicks ≤ e)
  | none => false

/-! ## Floors of a closing tour -/

/-- Every microphone bound to one of the programmes is unbound, in ascending microphone ID (R145). -/
def State.unbindTourMics (s : State) (ps : List Nat) : State :=
  (List.range 64).foldl (fun t m =>
    match (t.mic m).programme with
    | some p => if p ∈ ps then (t.removeMic p m).unbindMic m else t
    | none => t) s

/-- A programme of a closing tour is settled (R145): no pending list, the cascade entry alone or nothing on its stack, its
uplink slot freed and offered, its place in the uplink wait queue given up. -/
def State.settleClosing (s : State) (p : Nat) : State :=
  let f := s.floorOf p
  let stack := if s.houseLive && (s.programme p).relay then [StackEntry.cascade] else []
  let s1 := (s.setFloor p { f with waiting := [], stack := stack }).leaveUplinkQueue p
  match s1.uplinkSlot p with
  | some i => (s1.setEntry i .free).offerUplink
  | none => s1

/-- The floors at CLOSE_TOUR and FORCE_CLOSE (R145), the programmes in ascending ID. -/
def State.closeFloors (s : State) (ps : List Nat) : State :=
  (tourProgrammes.filter (· ∈ ps)).foldl (fun t p => t.settleClosing p) (s.unbindTourMics ps)

/-- A programme leaves use (R97): its tour absent, no listeners, its floor emptied with mask level 8. Its relay flag then
is a free value (log 7). -/
def State.leaveUse (s : State) (p : Nat) : State :=
  let (n, s1) := s.draw
  let r := s1.programme p
  let s2 := s1.setProgramme p
    { r with inUse := false, tour := none, listeners := 0, relay := Config.relayOutOfUse n }
  (s2.setFloor p resetFloor).leaveUplinkQueue p

/-! ## FLOOR_CHANGED -/

/-- What FLOOR_CHANGED watches of a programme: its top entry, its topmost microphone entry, and whether it holds an uplink
slot (R133). -/
def State.floorView (s : State) (p : Nat) : Option StackEntry × Option Nat × Bool :=
  ((s.floorOf p).stack.head?, topMic (s.floorOf p).stack, (s.uplinkSlot p).isSome)

/-- FLOOR_CHANGED is posted once for each programme that the event has changed, in ascending programme ID (R133; log
28). -/
def State.postFloorChanges (before s : State) : State :=
  (List.range 64).foldl (fun t p => if before.floorView p = s.floorView p then t else t.post (.floorChanged p)) s

/-- What ends an event that reached floors: the plan's entries are written and FLOOR_CHANGED is posted (R133, R156,
R157). -/
def State.finishFloors (before s : State) : State := State.postFloorChanges before s.syncPlan

end Sys2Proof.Machine
end

