-- ==== Sys2Proof/Machine/Racks.lean ====
section
/-! DEFINITION. What the scanner and the channel of a rack share (spec/02_bays_and_rack_scanning.md,
spec/03_dock_transfers.md): cadence, bay states, the transfer queue, the multiplexer, and an attempt's words. -/

namespace Sys2Proof.Machine

/-! ## Cadence -/

/-- An event that sets the rack's quiet time to 0 (R34): a COLD rack becomes HOT at once (R35), and one in WAIT for 20 ms
or more ends its wait, so the scan of bay 0 is due (R36). -/
def State.wake (s : State) (r : Nat) : State :=
  let c := s.scanner r
  let hot := { c with quiet := 0, cadence := .hot }
  s.setScanner r
    (if c.cadence = .cold ∧ c.phase = .wait ∧ hotWaitTicks ≤ c.waitElapsed then { hot with phase := .sweep, sweepPos := 0 }
     else hot)

/-- The quiet time is held at 0: a request is queued or in flight, or a latch is open (R34). -/
def State.heldHot (s : State) (r : Nat) : Bool :=
  !(s.channel r).queue.isEmpty || (s.channel r).inFlight.isSome ||
    (s.scanner r).bays.any (fun e => e.2.latchOpen)

/-- A HOT rack whose quiet time has reached COLD_AFTER becomes COLD (R35). -/
def State.cool (s : State) (r : Nat) : State := s.setScanner r { s.scanner r with cadence := .cold }

/-- A HOT rack whose quiet time is running has reached COLD_AFTER (R34, R35). -/
def State.quietDue (s : State) (r : Nat) : Bool :=
  decide ((s.scanner r).cadence = .hot) && !s.heldHot r && decide (s.settings.coldAfter * secondTicks ≤ (s.scanner r).quiet)

/-- The length of a sweep wait at the cadence in force (R24, R36). -/
def Scanner.waitLength (c : Scanner) : Nat := match c.cadence with | .hot => hotWaitTicks | .cold => coldWaitTicks

/-! ## Bays -/

/-- A bay changes its state: its debounce count is cleared and the rack is woken (R31, R33, R34). -/
def State.moveBay (s : State) (r b : Nat) (dest : BayState) : State :=
  (s.setBay r b { s.bay r b with state := dest, debounce := 0 }).wake r

/-- A bay's latch (R41, R42); its state changes nothing else of the bay (R43). -/
def State.setLatch (s : State) (r b : Nat) (isOpen : Bool) : State :=
  s.setBay r b { s.bay r b with latchOpen := isOpen }

/-- The latch of the bay a record is bound to is closed. -/
def State.closeLatchOf (s : State) (i : Nat) : State :=
  match (s.record i).bind Record.bay with
  | some p => s.setLatch p.rack p.bay false
  | none => s

/-! ## The transfer queue -/

/-- The class of a kind (R48). -/
def Kind.cls : Kind → Nat
  | .program => 1
  | .identify => 2
  | .readUsage => 3
  | .gauge => 4

/-- The order of a transfer queue: class, then enqueue stamp (R50); requests queued at one event share a stamp and stand in
ascending bay order (R47; log 12). -/
def Req.before (a b : Req) : Bool :=
  decide (a.kind.cls < b.kind.cls) ||
    (decide (a.kind.cls = b.kind.cls) &&
      (decide (a.stamp < b.stamp) || (decide (a.stamp = b.stamp) && decide (a.bay < b.bay))))

/-- The request in flight at a bay of a rack. -/
def State.inFlightAt (s : State) (r b : Nat) : Option Req := (s.channel r).inFlight.filter (fun q => q.bay == b)

/-- The request queued at a bay of a rack. -/
def State.queuedAt (s : State) (r b : Nat) : Option Req := (s.channel r).queue.find? (fun q => q.bay == b)

/-- The request queued or in flight at a bay: at most one (R49). -/
def State.requestAt (s : State) (r b : Nat) : Option Req := (s.inFlightAt r b).or (s.queuedAt r b)

/-- A request joins the queue at its place. -/
def State.enqueue (s : State) (r : Nat) (q : Req) : State :=
  s.setChannel r { s.channel r with queue := insertBy Req.before q (s.channel r).queue }

/-- A fresh request is queued at a bay, which wakes the rack (R34, R49). -/
def State.ask (s : State) (r b : Nat) (kind : Kind) (record loan : Option Nat) : State :=
  (s.enqueue r
    { kind := kind, bay := b, record := record, loan := loan, attempts := 0, stamp := (s.channel r).nextStamp,
      withdraw := false }).wake r

/-- Any request queued at a bay is removed (R51). -/
def State.removeQueued (s : State) (r b : Nat) : State :=
  s.setChannel r { s.channel r with queue := (s.channel r).queue.filter (fun q => q.bay != b) }

/-- Any request queued at the bay a record is bound to is removed (R51). -/
def State.removeQueuedOf (s : State) (i : Nat) : State :=
  match (s.record i).bind Record.bay with
  | some p => s.removeQueued p.rack p.bay
  | none => s

/-- A READ_USAGE for a bound record is queued at its bay. -/
def State.askReadUsage (s : State) (i : Nat) : State :=
  match (s.record i).bind Record.bay with
  | some p => s.ask p.rack p.bay .readUsage (some i) none
  | none => s

/-- The PROGRAM of a record that a loan has taken (R49): queued at once, in place of a queued GAUGE, or at the end of the
GAUGE in flight. -/
def State.askProgram (s : State) (i : Nat) : State :=
  match s.record i with
  | none => s
  | some x =>
    match x.bay with
    | none => s
    | some p =>
      if (s.inFlightAt p.rack p.bay).isSome then s
      else (s.removeQueued p.rack p.bay).ask p.rack p.bay .program (some i) x.loan

/-- The withdraw flag of the PROGRAM in flight at a record's bay is set (R62). -/
def State.flagWithdraw (s : State) (i : Nat) : State :=
  match (s.record i).bind Record.bay with
  | none => s
  | some p =>
    match s.inFlightAt p.rack p.bay with
    | none => s
    | some q => s.setChannel p.rack { s.channel p.rack with inFlight := some { q with withdraw := true } }

/-! ## Attempts -/

/-- The words of a kind at the beginning of its attempt (R48, R52). -/
def Kind.wordCount : Kind → Nat
  | .program => 10
  | .identify => 6
  | .readUsage => 2
  | .gauge => 3

/-- The width an attempt begins in (R52). -/
def State.widthOf (s : State) (q : Req) : Width :=
  match q.kind, q.record.bind s.record with
  | .identify, _ => .byte
  | _, some x => match x.generation with | .g1 => .byte | .g2 => .word
  | _, none => .byte

/-- The check word of the words before it (R55). -/
def checkWord (ws : List Nat) : Nat := ws.sum % 65536

/-- The nine words a PROGRAM writes (R52). -/
def State.programWords (s : State) (q : Req) : List Nat :=
  let tour := match q.loan.bind s.loan with | some l => l.tour | none => 0
  let (p, due) := match q.record.bind s.record with
    | some x => (x.programme.getD 0, x.due.getD 0)
    | none => (0, 0)
  let ws := [q.loan.getD 0, tour, p, (s.programme p).key, (s.programme p).language, 8, due % 65536, due / 65536]
  ws ++ [checkWord ws]

def State.setHolder (s : State) (r : Nat) (h : Holder) : State := s.setScanner r { s.scanner r with holder := h }

/-- The channel takes the head of its queue and begins its attempt (R50, R52). -/
def State.beginAttempt (s : State) (r : Nat) : State :=
  let c := s.channel r
  match c.queue with
  | [] => s
  | q :: rest =>
    let c1 := { c with
      queue := rest, inFlight := some q, wordsRemaining := q.kind.wordCount, width := s.widthOf q, lowByte := none,
      words := [], formed := if q.kind = .program then s.programWords q else [], wordElapsed := 0, confirming := false }
    let s1 := (s.setChannel r c1).setHolder r .channel
    match q.kind, q.record with
    | .program, some i => s1.modRecord i fun x => { x with state := .programming }
    | _, _ => s1

/-- The stamp given to the requests of this event is not given again (R47). -/
def State.sealStamp (s : State) (r : Nat) : State :=
  let c := s.channel r
  if c.queue.any (fun q => q.stamp == c.nextStamp) then s.setChannel r { c with nextStamp := c.nextStamp + 1 } else s

/-- At the end of an event a multiplexer that neither block holds is taken: by the channel if its queue is not empty, else
by the scanner if a scan is due (R25). -/
def State.handOver (s : State) (r : Nat) : State :=
  let s1 := s.sealStamp r
  if (s1.scanner r).holder = .none then
    if (s1.channel r).queue.isEmpty then
      if (s1.scanner r).phase = .sweep then s1.setHolder r .scanner else s1
    else s1.beginAttempt r
  else s1

/-- The transfer attempt ends and gives the multiplexer up: a scan that is due takes it before the channel may begin
another attempt (R25). R46 states no width for an idle channel: the model leaves the last attempt's until the next one
begins (log 30). -/
def State.endAttempt (s : State) (r : Nat) : State :=
  let s1 := s.setChannel r { s.channel r with
    inFlight := none, wordsRemaining := 0, lowByte := none, words := [], formed := [], wordElapsed := 0,
    confirming := false }
  s1.setHolder r (if (s1.scanner r).phase = .sweep then .scanner else .none)

/-- The attempt fails: the channel keeps the multiplexer and makes a confirming scan (R56); a held low byte and the words
taken are discarded (R54). -/
def State.failAttempt (s : State) (r : Nat) : State :=
  s.setChannel r { s.channel r with lowByte := none, words := [], wordElapsed := 0, confirming := true }

/-- A request returns to the queue after a failed attempt, at the place its stamp gives it, a PROGRAMMING record going
back to RESERVED (R50, R56). -/
def State.requeue (s : State) (r : Nat) (q : Req) : State :=
  let s1 := s.enqueue r { q with attempts := q.attempts + 1 }
  match q.kind, q.record with
  | .program, some i => s1.modRecord i fun x => if x.state = .programming then { x with state := .reserved } else x
  | _, _ => s1

/-- The bay the rack's multiplexer selects, if a block holds it (R24, R52). -/
def State.selectedBay (s : State) (r : Nat) : Option Nat :=
  match (s.scanner r).holder with
  | .none => none
  | .scanner => some (s.scanner r).sweepPos
  | .channel => (s.channel r).inFlight.map Req.bay

/-! ## Words -/

/-- The word the channel drives next in a PROGRAM, until it has written all nine (R53). -/
def Channel.driven (c : Channel) : Option Nat := c.formed[c.words.length]?

/-- An attempt is exchanging words: in flight and not failed. -/
def Channel.exchanging (c : Channel) : Bool := c.inFlight.isSome && !c.confirming

/-- The word waited for has not crossed within 50 ms (R53). -/
def Channel.wordDue (c : Channel) : Bool := c.exchanging && decide (wordTicks ≤ c.wordElapsed)

/-- A rack's gauge poll elapsed has reached GAUGE_INTERVAL (R69). -/
def State.pollDue (s : State) (r : Nat) : Bool := decide (s.settings.gaugeInterval * secondTicks ≤ (s.channel r).gaugeElapsed)

/-- The low byte of the current word crosses in BYTE width and is held (R54). -/
def State.takeByte (s : State) (r byte : Nat) : State :=
  let c := s.channel r
  if c.exchanging ∧ c.width = .byte ∧ c.lowByte = none then
    s.setChannel r { c with lowByte := some (match c.driven with | some w => w % 256 | none => byte) }
  else s

/-- The value of the word that has crossed whole: the one the channel drives; in BYTE width the held low byte with the
high byte; else the word presented (R54, R55). -/
def Channel.crossed (c : Channel) (word : Nat) : Option Nat :=
  match c.width, c.lowByte with
  | .byte, none => none
  | .byte, some low => some (c.driven.getD (256 * (word / 256) + low))
  | .word, _ => some (c.driven.getD word)

/-- The channel after a word has crossed (R53 to R55): words remaining falls by 1 and, at the count word of a READ_USAGE,
rises by its value, unless that value is above 48 and fails the attempt (log 32); the third word of an IDENTIFY sets the
width of the rest (R54). -/
def Channel.took (c : Channel) (kind : Kind) (w : Nat) : Channel :=
  { c with
    words := c.words ++ [w]
    lowByte := none
    wordElapsed := 0
    wordsRemaining := c.wordsRemaining - 1 + (if kind = .readUsage ∧ c.words = [] ∧ w ≤ 48 then w else 0)
    width := if kind = .identify ∧ c.words.length = 2 then (if w % 256 = 2 then .word else .byte) else c.width }

/-- The attempt fails at this word: a count above 48, or a last word that is not the check of R55. -/
def Channel.wordFails (c : Channel) (kind : Kind) (w : Nat) : Bool :=
  (decide (kind = .readUsage) && c.words.isEmpty && decide (48 < w)) ||
    (decide ((c.took kind w).wordsRemaining = 0) &&
      (match kind with
       | .program => c.formed.getLast? != some w
       | _ => checkWord c.words != w))

end Sys2Proof.Machine
end

