-- ==== Sys2Proof/Machine/LoanTable.lean ====
section
/-! DEFINITION. Readiness, the reserve exclusion set and the loan table's shared operations (spec/01_fleet_table.md,
spec/05_tours_and_programmes.md, spec/06_loans.md): selection, joining and leaving a loan, offers, the tests that follow. -/

namespace Sys2Proof.Machine

/-! ## Readiness and the reserve -/

/-- The test of R14. -/
def State.meetsReady (s : State) (x : Record) : Bool :=
  (match x.soc with | some c => decide (s.settings.readyLevel ≤ c) | none => false) && !x.usagePending && !x.thermalHold

/-- The conditions of R15 that send a READY record back. -/
def State.losesReady (s : State) (x : Record) : Bool :=
  (match x.soc with | some c => decide (c + 50 < s.settings.readyLevel) | none => false) || x.thermalHold || x.usagePending

/-- READY or DOCKED "by readiness" (R15). -/
def State.readiness (s : State) (x : Record) : RecState := if s.meetsReady x then .ready else .docked

/-- The readiness tests of a DOCKED or READY record (R14, R15). -/
def State.testReadiness (s : State) (i : Nat) : State :=
  s.modRecord i fun x =>
    match x.state with
    | .docked => if s.meetsReady x then { x with state := .ready } else x
    | .ready => if s.losesReady x then { x with state := .docked } else x
    | _ => x

/-- A record in a given state stands at the index. -/
def State.recordIs (s : State) (i : Nat) (st : RecState) : Bool :=
  match s.record i with
  | some x => x.state == st
  | none => false

def Range.has (g : Range) (i : Nat) : Bool := decide (g.lo ≤ i) && decide (i ≤ g.hi)

/-- A range that may be empty holds an index. -/
def rangeHas (g : Option Range) (i : Nat) : Bool :=
  match g with
  | some g => g.has i
  | none => false

/-- The reserve exclusion set: the applied range, with the staged range while one is pending (R5, R19). -/
def State.excluded (s : State) (i : Nat) : Bool := rangeHas s.fleet.applied i || rangeHas s.fleet.staged i

/-- The lowest free position outside the reserve exclusion set (R5, R6). -/
def State.freePosition (s : State) : Option Nat :=
  (List.range 1024).find? fun i => (s.record i).isNone && !s.excluded i

/-! ## Joining a loan -/

/-- A READY record is eligible for a loan (R107). -/
def State.eligible (s : State) (l : Loan) (i : Nat) : Bool :=
  s.recordIs i .ready && !(l.passed.contains i) && (l.reserve || !s.excluded i)

/-- The charge a record holds; every READY or DOCKED record holds one (R14, R72). -/
def State.socOf (s : State) (i : Nat) : Nat := ((s.record i).bind Record.soc).getD 0

/-- The order of selection: outside the exclusion set first, then the higher charge, then the lower index (R107). -/
def State.ranksBefore (s : State) (a b : Nat) : Bool :=
  if s.excluded a = s.excluded b then
    decide (s.socOf b < s.socOf a) || (decide (s.socOf a = s.socOf b) && decide (a < b))
  else s.excluded b

/-- A record that a loan takes joins it (R108); a loan of the wanting queue whose shortfall reaches 0 leaves the queue and
LOAN_FILLED is posted (R113). -/
def State.joinLoan (s : State) (id i : Nat) : State :=
  match s.loan id with
  | none => s
  | some l =>
    let s1 := s.modRecord i fun x =>
      { x with state := .reserved, loan := some id, programme := some l.programme, due := some l.due }
    let s2 := s1.setLoan id (some { l with outstanding := l.outstanding ++ [i], shortfall := l.shortfall - 1 })
    let s3 := s2.askProgram i
    if l.shortfall ≤ 1 ∧ id ∈ s.loans.wanting then
      (s3.setWanting (s3.loans.wanting.filter (· != id))).post (.loanFilled id)
    else s3

/-- Selection of up to `k` records for a loan (R107). -/
def State.select (s : State) (id k : Nat) : State :=
  match s.loan id with
  | none => s
  | some l =>
    ((sortBy s.ranksBefore (s.recordIndices.filter (s.eligible l))).take k).foldl (fun t i => t.joinLoan id i) s

/-- A READY record is offered to the wanting queue (R114): the first loan from the head for which it is eligible takes
it. -/
def State.offer (s : State) (i : Nat) : State :=
  match s.loans.wanting.find? (fun id => match s.loan id with | some l => s.eligible l i | none => false) with
  | some id => s.joinLoan id i
  | none => s

/-- A loan with a shortfall that does not stand in the wanting queue enters at the tail (R113). -/
def State.enterWanting (s : State) (id : Nat) : State :=
  match s.loan id with
  | none => s
  | some l =>
    if 0 < l.shortfall ∧ id ∉ s.loans.wanting then
      (s.setWanting (s.loans.wanting ++ [id])).post (.loanWanting id)
    else s

/-- Selection up to the loan's shortfall, after which it enters the queue if a shortfall remains (R113, R115). -/
def State.fill (s : State) (id : Nat) : State :=
  match s.loan id with
  | none => s
  | some l => (s.select id l.shortfall).enterWanting id

/-! ## Leaving a loan -/

/-- The term that rises when a record leaves its loan (R109). -/
inductive Term where
  | returned | dropped | shortfall
  deriving DecidableEq, Repr

/-- A loan without a record, one term risen (R109). -/
def Loan.without (l : Loan) (i : Nat) (t : Term) : Loan :=
  let l1 := { l with outstanding := l.outstanding.filter (· != i) }
  match t with
  | .returned => { l1 with returned := l.returned + 1 }
  | .dropped => { l1 with dropped := l.dropped + 1 }
  | .shortfall => { l1 with shortfall := l.shortfall + 1 }

/-- The states counted as listening (R101). -/
def RecState.listening : RecState → Bool
  | .released | .onLoan | .overdue | .missing => true
  | _ => false

/-- A record leaves its loan for a state (R109): one term rises, its programme loses a listener if it was counted
(R102), a release timer stops (R120) and an open latch closes (R42). -/
def State.leaveLoan (s : State) (i : Nat) (dest : RecState) (t : Term) : State :=
  match s.record i with
  | none => s
  | some x =>
    let s1 := if x.state = .released then (s.setTimer i none).closeLatchOf i else s
    let s2 := s1.setRecord i
      (some { x with state := dest, loan := none, programme := none, due := none, overdueFlag := false })
    let s3 := match x.loan with
      | some id => s2.modLoan id fun l => l.without i t
      | none => s2
    if x.state.listening then
      match x.programme with
      | some p => s3.loseListener p
      | none => s3
    else s3

/-- A record leaves its loan and goes READY or DOCKED by readiness, counted dropped (R15, R118, R121). -/
def State.withdraw (s : State) (i : Nat) : State :=
  match s.record i with
  | none => s
  | some x => s.leaveLoan i (s.readiness x) .dropped

/-- The loan that holds a record. -/
def State.loanOf (s : State) (i : Nat) : Option Nat := (s.record i).bind Record.loan

/-- A record is lost before handout (R115): the loan's shortfall rises if it wants, and it is filled again; else its
dropped count rises. -/
def State.loseBeforeHandout (s : State) (i : Nat) (dest : RecState) : State :=
  match s.loanOf i with
  | none => s.leaveLoan i dest .dropped
  | some id =>
    match s.loan id with
    | some l => if l.wants then (s.leaveLoan i dest .shortfall).fill id else s.leaveLoan i dest .dropped
    | none => s.leaveLoan i dest .dropped

/-! ## The tests that follow -/

/-- A loan with no shortfall and an empty outstanding list closes (R110). -/
def State.closeLoan (s : State) (id : Nat) : State :=
  match s.loan id with
  | none => s
  | some l =>
    if l.shortfall = 0 ∧ l.outstanding = [] then
      (s.setLoan id none).post (.loanClosed id l.requested l.returned l.dropped)
    else s

/-- The programmes of a tour leave use and the tour goes FREE with TOUR_CLOSED (R97, R99). -/
def State.freeTour (s : State) (t : Nat) : State :=
  (((s.tour t).programmes.foldl (fun u p => u.leaveUse p) s).setTour t resetTour).post (.tourClosed t)

/-- The test for the completion of closing (R97). -/
def State.testTour (s : State) (t : Nat) : State :=
  if (s.tour t).state = .closing ∧ s.loansOfTour t = [] ∧ (s.tour t).programmes.all (fun p => (s.programme p).listeners == 0)
  then s.freeTour t else s

/-- The test for closing of a loan that a record has left, and the test of the tour it names (R97, R110). -/
def State.testLoan (s : State) (id : Nat) : State :=
  match s.loan id with
  | none => s
  | some l => (s.closeLoan id).testTour l.tour

/-- No record inside a range is in the outstanding list of a loan not flagged reserve (R18). -/
def State.rangeClear (s : State) (g : Range) : Bool :=
  s.loanIds.all fun id =>
    match s.loan id with
    | some l => l.reserve || l.outstanding.all (fun i => !g.has i)
    | none => true

/-- The test of a pending reserve range (R18). -/
def State.testReserve (s : State) : State :=
  match s.fleet.staged with
  | none => s
  | some g => if s.rangeClear g then { s with fleet := { s.fleet with applied := some g, staged := none } } else s

/-- The READY records that have left the reserve exclusion set at this event are offered in ascending index, but for those
already offered at it (R116). -/
def State.offerFreed (before s : State) (already : List Nat) : State :=
  (s.recordIndices.filter fun i =>
    s.recordIs i .ready && before.excluded i && !s.excluded i && !(already.contains i)).foldl State.offer s

/-- What follows a removal from loans (R109): each loan's test for closing with its tour's test, the test of a pending
reserve range, the offers of the records the event made READY in its own order, and the offers of R116 (log 10). -/
def State.settle (before s : State) (loans offers : List Nat) : State :=
  let s1 := (loans.foldl State.testLoan s).testReserve
  State.offerFreed before (offers.foldl State.offer s1) offers

/-- Of some records, those that stand READY, in the same order. -/
def State.readyOf (s : State) (l : List Nat) : List Nat := l.filter fun i => s.recordIs i .ready

/-- The loan of a record in the state before, as a list. -/
def State.loanList (s : State) (i : Nat) : List Nat := (s.loanOf i).toList

/-! ## Giving a loan up -/

/-- A loan stops wanting: its shortfall moves to dropped and it leaves the wanting queue (R98, R118). -/
def State.stopWanting (s : State) (id : Nat) : State :=
  (s.modLoan id fun l => { l with dropped := l.dropped + l.shortfall, shortfall := 0, wants := false }).setWanting
    (s.loans.wanting.filter (· != id))

/-- The queued PROGRAM of a record is removed; a GAUGE queued again at its bay stays (R51, R66). -/
def State.cancelProgram (s : State) (i : Nat) : State :=
  match (s.record i).bind Record.bay with
  | none => s
  | some p =>
    s.setChannel p.rack { s.channel p.rack with
      queue := (s.channel p.rack).queue.filter (fun q => !(q.bay == p.bay && q.kind == .program)) }

/-- A record of a cancelled loan, by its state (R118). -/
def State.cancelRecord (s : State) (i : Nat) : State :=
  match s.record i with
  | none => s
  | some x =>
    match x.state with
    | .reserved => (s.cancelProgram i).withdraw i
    | .released => s.withdraw i
    | .programming => s.flagWithdraw i
    | _ => s

/-- A record of a loan of a tour closed by force, by its state (R98). -/
def State.forceRecord (s : State) (i : Nat) : State :=
  match s.record i with
  | none => s
  | some x =>
    match x.state with
    | .onLoan | .overdue | .missing => s.leaveLoan i .absent .dropped
    | _ => s.cancelRecord i

/-- The outstanding list of a loan. -/
def State.outstandingOf (s : State) (id : Nat) : List Nat :=
  match s.loan id with
  | some l => l.outstanding
  | none => []

/-- A loan is cancelled, but for the offers and tests that follow (R118). -/
def State.cancelLoan (s : State) (id : Nat) : State :=
  (s.outstandingOf id).foldl State.cancelRecord (s.stopWanting id)

/-- A loan of a tour closed by force, but for the offers and tests that follow (R98). -/
def State.forceLoan (s : State) (id : Nat) : State :=
  (s.outstandingOf id).foldl State.forceRecord (s.stopWanting id)

end Sys2Proof.Machine
end

