-- ==== Sys2Proof/Machine/Allocator.lean ====
section
/-! DEFINITION. The charge allocator (spec/04_charge_allocation.md): demand, classes, the promoted set, stagings, the
charge frame; and the end of an event that several blocks share. -/

namespace Sys2Proof.Machine

/-! ## Demand and class -/

/-- The demand of a bound record (R72). -/
def Record.demand (x : Record) : Nat :=
  if x.state = .fault ∨ x.state = .retired then 0
  else if x.thermalHold then 0
  else
    match x.soc with
    | none => 0
    | some c => if c = 1000 then 0 else if c < 800 then 600 else 40 + 560 * (1000 - c) / 200

/-- The record a bay in OCCUPIED or LEAVING is bound to. -/
def State.boundRecord (s : State) (r b : Nat) : Option (Nat × Record) :=
  let y := s.bay r b
  if y.state = .occupied ∨ y.state = .leaving then
    match y.bound with
    | none => none
    | some i => (s.record i).map fun x => (i, x)
  else none

/-- The demand of a bay (R72). -/
def State.demand (s : State) (r b : Nat) : Nat :=
  match s.boundRecord r b with
  | some (_, x) => x.demand
  | none => 0

/-- The charge classes (R73). -/
inductive ChargeClass where
  | first | needed | topup
  deriving DecidableEq, Repr

/-- The class of a bay that has demand (R73). -/
def State.chargeClass (s : State) (r b : Nat) : ChargeClass :=
  match s.boundRecord r b with
  | some (i, x) =>
    if x.state = .reserved ∨ x.state = .programming ∨ x.state = .released ∨ s.charge.promoted.contains i then .first
    else if x.soc.getD 0 < s.settings.readyLevel then .needed
    else .topup
  | none => .topup

/-! ## The promoted set -/

/-- The sum of the shortfalls of the wanting loans (R74). -/
def State.totalShortfall (s : State) : Nat :=
  (s.loans.wanting.map fun id => match s.loan id with | some l => l.shortfall | none => 0).sum

/-- A candidate of the promoted set (R74). -/
def State.candidate (s : State) (i : Nat) : Bool :=
  match s.record i with
  | some x => x.state == .docked && !x.thermalHold && !s.excluded i
  | none => false

/-- Higher charge first, then the lower index (R74). -/
def State.chargedMore (s : State) (a b : Nat) : Bool :=
  decide (s.socOf b < s.socOf a) || (decide (s.socOf a = s.socOf b) && decide (a < b))

/-- The promoted set, in ascending order (R74). -/
def State.promotedSet (s : State) : List Nat :=
  let n := s.totalShortfall
  if n = 0 then []
  else
    let best := (sortBy s.chargedMore (s.recordIndices.filter s.candidate)).take n
    s.recordIndices.filter (best.contains ·)

/-! ## Stagings -/

/-- The number of non-empty bays of a rack (R28, R77). -/
def State.nonEmpty (s : State) (r : Nat) : Nat :=
  (bayNumbers.filter fun b => decide ((s.bay r b).state ≠ .empty)).length

/-- The demands of a rack's bays of one class (R77). -/
def State.classDemands (s : State) (r : Nat) (c : ChargeClass) : List Nat :=
  bayNumbers.map fun b => if s.chargeClass r b = c then s.demand r b else 0

/-- What a bay is given from the current available to its class, whose demands sum to `total` (R77). -/
def share (avail total demand : Nat) : Nat := if total ≤ avail then demand else demand * avail / total

/-- What a class of a staging has: the current available to it, the sum of its demands, whether it is served at all (no
earlier class was scaled). -/
structure Turn where
  avail : Nat
  total : Nat
  served : Bool
  deriving DecidableEq, Repr

/-- The class is scaled (R77). -/
def Turn.scaled (t : Turn) : Bool := t.served && decide (t.avail < t.total)

/-- What a bay of the class is given (R77). -/
def Turn.give (t : Turn) (demand : Nat) : Nat := if t.served then share t.avail t.total demand else 0

/-- The turn of the first class (R77). -/
def Turn.start (avail : Nat) (demands : List Nat) : Turn where
  avail := avail
  total := demands.sum
  served := true

/-- The turn of the class after one with given demands (R77). -/
def Turn.after (t : Turn) (given demands : List Nat) : Turn where
  avail := t.avail - (given.map t.give).sum
  total := demands.sum
  served := t.served && !t.scaled

/-- The three turns of a rack's staging (R77). -/
structure Turns where
  first : Turn
  needed : Turn
  topup : Turn
  deriving DecidableEq, Repr

/-- The available current of a rack: its staged limit less 15 mA for every non-empty bay (R77). -/
def State.available (s : State) (r : Nat) : Nat := (s.rackCharge r).stagedLimit - 15 * s.nonEmpty r

def State.turns (s : State) (r : Nat) : Turns :=
  let d1 := s.classDemands r .first
  let d2 := s.classDemands r .needed
  let d3 := s.classDemands r .topup
  let t1 := Turn.start (s.available r) d1
  let t2 := t1.after d1 d2
  { first := t1, needed := t2, topup := t2.after d2 d3 }

def Turns.of (t : Turns) : ChargeClass → Turn
  | .first => t.first
  | .needed => t.needed
  | .topup => t.topup

/-- The share of a bay in a staging (R77). -/
def State.stagedShare (s : State) (r : Nat) (t : Turns) (b : Nat) : Nat := (t.of (s.chargeClass r b)).give (s.demand r b)

/-- Staged currents written for some bays of a rack. -/
def State.stageBays (s : State) (r : Nat) (give : Nat → Nat) (bs : List Nat) : State :=
  bs.foldl (fun u b => u.setDrive r b { u.drive r b with staged := give b }) s

/-- A staging of a rack (R77): new staged currents for all its bays; RACK_SHORT if FIRST or NEEDED is scaled (R79). -/
def State.restage (s : State) (r : Nat) : State :=
  let t := s.turns r
  let s1 := s.stageBays r (s.stagedShare r t) bayNumbers
  if t.first.scaled || t.needed.scaled then s1.post (.rackShort r) else s1

/-- What a staging reads of a bay besides charge values: whether it is EMPTY, which record is bound, and that record's
state and loan (R76). -/
def State.bayView (s : State) (r b : Nat) : Bool × Option Nat × Option (RecState × Option Nat) :=
  let y := s.bay r b
  (decide (y.state = .empty), y.bound, (y.bound.bind s.record).map fun x => (x.state, x.loan))

/-- An event has changed what a staging of the rack reads (R76), found by comparing the event's two ends; the one change an
event makes and takes back, that of a PROGRAM's record at a retry, is named to `settleCharge` (log 33). -/
def State.rackDirty (before s : State) (r : Nat) : Bool :=
  (Table.keys (before.scanner r).bays ++ Table.keys (s.scanner r).bays).any fun b =>
    decide (before.bayView r b ≠ s.bayView r b)

/-- The end of an event for the allocator (R75, R76): the promoted set is recomputed; if its membership changes every rack
is restaged, else those the event changed and those `extra` names, in ascending rack number. -/
def State.settleCharge (before s : State) (extra : List Nat) : State :=
  let p := s.promotedSet
  let s1 := { s with charge := { s.charge with promoted := p } }
  let racks :=
    if p = s.charge.promoted then rackNumbers.filter fun r => extra.contains r || State.rackDirty before s r
    else rackNumbers
  racks.foldl State.restage s1

/-- The end of an event: multiplexers that neither block holds are taken (R25), the next plan shows the stacks (R156,
R157), FLOOR_CHANGED is posted for the floors changed (R133), and the allocator is brought up to date (R75, R76). -/
def State.finish (before s : State) (extra : List Nat) : State :=
  State.settleCharge before (State.finishFloors before (rackNumbers.foldl State.handOver s)) extra

/-! ## The charge frame -/

/-- The duty code of an applied current (R83). -/
def dutyOf (current : Nat) : Nat := 8 * current / 5

/-- A drive at the boundary (R82). -/
def Drive.apply (d : Drive) : Drive where
  staged := d.staged
  applied := d.staged
  duty := dutyOf d.staged

/-- A rack at the boundary (R82). -/
def State.applyRack (s : State) (r : Nat) : State :=
  let c := s.rackCharge r
  let s1 := s.setRackCharge r { c with appliedLimit := c.stagedLimit }
  (Table.keys c.drives).foldl (fun t b => t.setDrive r b (t.drive r b).apply) s1

/-- A bay's drive is cut at its departure (R85). -/
def State.cutDrive (s : State) (r b : Nat) : State := s.setDrive r b { s.drive r b with applied := 0, duty := 0 }

/-- The charge frame position: the sub-period and the count (R81). At the tick that ends the frame it is at count 0 of
sub-period 0, also before the boundary's command is taken. -/
def State.subPeriod (s : State) : Nat := s.charge.frameTime / countTicks / 256 % 4
def State.frameCount (s : State) : Nat := s.charge.frameTime / countTicks % 256

/-- A drive with a duty code is on at a count of a sub-period (R84). -/
def driveOn (duty subPeriod count : Nat) : Bool :=
  decide (count < duty / 4 + (if subPeriod < duty % 4 then 1 else 0))

/-- A bay's drive is on now (R84); every drive is off while the part is held in full reset (R187). -/
def State.charging (s : State) (r b : Nat) : Bool :=
  !s.resetHeld && driveOn (s.drive r b).duty s.subPeriod s.frameCount

end Sys2Proof.Machine
end

