-- ==== Sys2Proof/Machine/Operands.lean ====
section
/-! DEFINITION. How a command reaches its meaning (spec/10_links_access_and_notices.md): the select of its link (R172,
R186, R187), the access check (R173, R176 to R178), the lookup of a record by receiver ID (R2), the fitting of a setting's
value (R181), the response buffer, and the wrapper of an event of the part. While RSTN is held low no command changes anything (R187). -/

namespace Sys2Proof.Machine

/-! ## Outcomes -/

/-- An event of the part: taken unless the part is held in full reset (R187). -/
def State.event (s t : State) : Host.Outcome State Fault Refusal := .next (if s.resetHeld then s else t)

/-- The event of a timer: taken once the timer has run its length. An event that finds its timer short of it, another
event having started the timer again since it fell due, changes nothing (log 3). -/
def State.timed (s : State) (due : Bool) (t : State) : Host.Outcome State Fault Refusal := s.event (if due then t else s)

/-- What a request's own rule answers: the state it leaves and the response. -/
abbrev Answer := State × Response

/-- OK with results. -/
def State.ok (s : State) (results : List Byte) : Answer := (s, { status := .ok, results := results })

/-- Any other status: no results, and no state is changed (R173, R175). -/
def State.no (s : State) (status : Status) : Answer := (s, { status := status, results := [] })

/-- A port whose write transaction has carried a request to the end of its select: the response is held in place of any
before it (R173), nothing is left in the request buffer (R171), and every byte was answered with 0x00 (R188). -/
def Port.answer (p : Port) (a : Response) : Port :=
  { p with requestBuffer := [], response := some a, output := [], select := .high }

/-- The response is placed in the response buffer of its link (R173). -/
def State.respond (l : Link) (a : Answer) : State := a.1.setPort l ((a.1.port l).answer a.2)

/-! ## The select of a link -/

/-- A transaction of the link is open to a request: its select is high, or low with nothing or a write code before it. -/
def Port.hears (p : Port) : Bool :=
  match p.select with
  | .high | .low | .write => true
  | .read | .cleared | .ignored => false

/-- A request on the link is taken: the part is not held in full reset and the link's transaction is open to it. -/
def State.hears (s : State) (l : Link) : Bool := !s.resetHeld && (s.port l).hears

/-- The select of a link after a part of a transaction: high if it rises there, else what the transaction goes on as. -/
def Select.after (ends : Bool) (rest : Select) : Select := if ends then .high else rest

/-- More of a transaction that is cut short: nothing is carried and each byte is answered with 0x00 (R186). -/
def Port.carryNothing (p : Port) (ends : Bool) : Port :=
  { p with requestBuffer := [], select := Select.after ends .cleared }

/-- More of a transaction that is ignored: nothing is carried, and the part drives what it drives. -/
def Port.carryIgnored (p : Port) (driven : List Byte) (ends : Bool) : Port :=
  { p with requestBuffer := [], output := driven, select := Select.after ends .ignored }

/-- More of a transaction that opened with neither code or whose select fell while RSTN was low (R172, R187); what the part
drives in it is a free value (log 31). -/
def State.carryIgnored (s : State) (l : Link) (ends : Bool) : State :=
  let (n, s1) := s.draw
  s1.setPort l ((s1.port l).carryIgnored (Config.undrivenOutput n) ends)

/-- While RSTN is low no transaction is served: one whose select falls is ignored until it rises (R187). -/
def Port.whileHeld (p : Port) (ends : Bool) : Port := { p with select := Select.after ends .ignored }

/-- The bytes of a transaction that the part does not serve. -/
def State.passOver (s : State) (l : Link) (ends : Bool) : State :=
  if s.resetHeld then s.setPort l ((s.port l).whileHeld ends)
  else if (s.port l).select = .ignored then s.carryIgnored l ends
  else s.setPort l ((s.port l).carryNothing ends)

/-! ## The access check -/

def Right.reads : Right → Bool
  | .read | .readWrite => true
  | _ => false

def Right.writes : Right → Bool
  | .write | .readWrite => true
  | _ => false

/-- The link holds READ, or WRITE, on a group (R176, R178). -/
def State.mayRead (s : State) (l : Link) (g : Group) : Bool := ((s.rights l).on g).reads
def State.mayWrite (s : State) (l : Link) (g : Group) : Bool := ((s.rights l).on g).writes

/-- A request of no group: served on every link (R176), unless its transaction is one the part ignores (R186, R187). -/
def State.serve (s : State) (l : Link) (a : Answer) : Host.Outcome State Fault Refusal :=
  .next (if s.hears l then State.respond l a else s.passOver l true)

/-- A read-type request of a group (R178). -/
def State.serveRead (s : State) (l : Link) (g : Group) (a : Answer) : Host.Outcome State Fault Refusal :=
  s.serve l (if s.mayRead l g then a else s.no .denied)

/-- A write-type request of a group (R178). -/
def State.serveWrite (s : State) (l : Link) (g : Group) (a : Answer) : Host.Outcome State Fault Refusal :=
  s.serve l (if s.mayWrite l g then a else s.no .denied)

/-- The reserve-use test of a reserve-flagged ISSUE or ADD, after the group right (R178). -/
def State.underReserveUse (s : State) (l : Link) (flagged : Bool) (a : Answer) : Answer :=
  if flagged && !(s.rights l).reserveUse then s.no .denied else a

/-- The lock test of SET_ACCESS, SET_RESERVE and LOCK_ACCESS, after the group right (R178). -/
def State.underLock (s : State) (a : Answer) : Answer := if s.access.lock then s.no .locked else a

/-! ## Lookups -/

/-- A request that names a record by receiver ID (R2): 0 is refused with BAD_REQUEST, one held by no record with
NOT_FOUND. -/
def State.byRid (s : State) (rid : Nat) (f : Nat → Record → Answer) : Answer :=
  if rid = 0 then s.no .badRequest
  else
    match s.indexOfRid rid with
    | none => s.no .notFound
    | some i =>
      match s.record i with
      | none => s.no .notFound
      | some x => f i x

/-- A request that names a loan (R118, R119, R123). -/
def State.byLoan (s : State) (id : Nat) (f : Loan → Answer) : Answer :=
  if id = 0 ∨ 128 < id then s.no .badRequest
  else
    match s.loan id with
    | none => s.no .notFound
    | some l => f l

/-! ## Settings -/

/-- A value made to fit a setting's range (R181). -/
def fit (low high value : Nat) : Nat := max low (min high value)

/-- The value READ_SETTING returns (R181): the staged limit for RACK_LIMIT, the next plan's split for DL_SLOTS. -/
def State.settingValue (s : State) (setting rack : Nat) : Option Nat :=
  match setting with
  | 0 => if 3 < rack then none else some (s.rackCharge rack).stagedLimit
  | 1 => some s.settings.senseThreshold
  | 2 => some s.settings.baseInit
  | 3 => some s.settings.coldAfter
  | 4 => some s.settings.gaugeInterval
  | 5 => some s.settings.readyLevel
  | 6 => some s.settings.releaseWindow
  | 7 => some s.settings.missingAfter
  | 8 => some s.settings.keepalive
  | 9 => some s.air.nextPlan.split
  | 10 => some s.settings.defaultDuration
  | _ => none

end Sys2Proof.Machine
end

