-- ==== Sys2Proof/Machine/Layout.lean ====
section
/-! DEFINITION. The result bytes of the read requests and of READ_NOTICES, by the table of R189
(spec/11_formats.md). -/

namespace Sys2Proof.Machine

/-! ## Codings of R189 -/

/-- An optional field: a presence byte, then the value's bytes, 0 when absent. -/
def optBytes (absent : Nat) (value : Option (List Byte)) : List Byte :=
  match value with
  | none => bytes1 0 ++ List.replicate absent 0#8
  | some v => bytes1 1 ++ v

def opt1 (v : Option Nat) : List Byte := optBytes 1 (v.map bytes1)
def opt2 (v : Option Nat) : List Byte := optBytes 2 (v.map bytes2)
def opt4 (v : Option Nat) : List Byte := optBytes 4 (v.map bytes4)

/-- A list: a count byte, then the elements. -/
def listBytes (l : List (List Byte)) : List Byte := bytes1 l.length ++ l.flatten

def Generation.code : Generation → Nat
  | .g1 => 1
  | .g2 => 2

def RecState.code : RecState → Nat
  | .docked => 0 | .ready => 1 | .reserved => 2 | .programming => 3 | .released => 4 | .onLoan => 5
  | .overdue => 6 | .missing => 7 | .absent => 8 | .fault => 9 | .retired => 10

/-- The eleven record states in the order of R3. -/
def recStates : List RecState :=
  [.docked, .ready, .reserved, .programming, .released, .onLoan, .overdue, .missing, .absent, .fault, .retired]

def BayState.code : BayState → Nat
  | .empty => 0 | .arriving => 1 | .identifying => 2 | .occupied => 3 | .leaving => 4 | .foreign => 5 | .fault => 6

/-- The seven bay states in the order of R28. -/
def bayStates : List BayState := [.empty, .arriving, .identifying, .occupied, .leaving, .foreign, .fault]

def Phase.code : Phase → Nat
  | .sweep => 0 | .wait => 1

def Holder.code : Holder → Nat
  | .none => 0 | .scanner => 1 | .channel => 2

def Cadence.code : Cadence → Nat
  | .hot => 0 | .cold => 1

def TourState.code : TourState → Nat
  | .free => 0 | .opened => 1 | .closing => 2

def MicState.code : MicState → Nat
  | .idle => 0 | .requesting => 1 | .talking => 2 | .held => 3

/-- The status byte of a response frame (R188). -/
def Status.code : Status → Nat
  | .ok => 0 | .denied => 1 | .locked => 2 | .badRequest => 3 | .notFound => 4 | .busy => 5 | .full => 6 | .noResponse => 7

/-- A response frame (R188): status, result length, results. -/
def Response.frame (a : Response) : List Byte := bytes1 a.status.code ++ bytes2 a.results.length ++ a.results

/-! ## READ_STATUS (R185) -/

/-- The reserve status (R17): EMPTY, APPLIED or PENDING. -/
def State.reserveStatus (s : State) : Nat :=
  if s.fleet.staged.isSome then 2 else if s.fleet.applied.isSome then 1 else 0

def rangeBytes (g : Option Range) : List Byte := optBytes 4 (g.map fun g => bytes2 g.lo ++ bytes2 g.hi)

/-- The number of records in a state (R20). -/
def State.countRecords (s : State) (st : RecState) : Nat := (s.recordIndices.filter fun i => s.recordIs i st).length

/-- The number of tours in a state (R185). -/
def State.countTours (s : State) (st : TourState) : Nat :=
  ((List.range 33).drop 1 |>.filter fun t => (s.tour t).state == st).length

def State.statusBytes (s : State) : List Byte :=
  bytes4 s.age.clock ++ flagBytes s.access.lock ++ bytes1 s.reserveStatus ++ rangeBytes s.fleet.applied ++
  rangeBytes s.fleet.staged ++ (recStates.map fun st => bytes2 (s.countRecords st)).flatten ++
  bytes1 (s.countTours .opened) ++ bytes1 (s.countTours .closing) ++
  bytes1 (tourProgrammes.filter fun p => (s.programme p).inUse).length ++ bytes1 s.loanIds.length ++
  bytes1 s.loans.wanting.length ++ opt1 s.loans.wanting.head? ++ bytes2 s.age.unknownBeacons ++ bytes2 s.air.sequence

/-! ## READ_NOTICES (R184) -/

/-- The argument of a notice: 4 bytes (section 11.2). -/
def Notice.argument : Notice → List Byte
  | .loanWanting n | .loanFilled n | .tourClosed n | .floorChanged n | .floorStale n | .downlinkWait n | .rackShort n =>
      bytes1 n ++ bytes1 0 ++ bytes2 0
  | .loanClosed id q r d => bytes1 id ++ bytes1 q ++ bytes1 r ++ bytes1 d
  | .overdue i | .missing i | .found i | .unreleasedLift i | .receiverFault i => bytes2 i ++ bytes2 0
  | .bayFault r b | .foreign r b | .fleetFull r b => bytes1 r ++ bytes1 b ++ bytes2 0

def noticesBytes (l : List Notice) : List Byte := listBytes (l.map fun n => bytes1 n.kind ++ n.argument)

/-! ## READ_RECORD (R20) -/

def recordBytes (i : Nat) (x : Record) : List Byte :=
  bytes2 i ++ bytes4 x.rid ++ bytes1 x.generation.code ++ bytes1 x.state.code ++
  optBytes 2 (x.bay.map fun p => bytes1 p.rack ++ bytes1 p.bay) ++ opt2 x.soc ++ flagBytes x.thermalHold ++
  flagBytes x.usagePending ++ flagBytes x.backFromLoan ++ opt1 x.loan ++ opt1 x.programme ++ opt4 x.due ++
  flagBytes x.overdueFlag ++ opt4 x.lastHeard ++ bytes1 x.lastZone ++ bytes4 x.loansServed ++
  bytes4 x.listeningMinutes ++ bytes1 x.faultCount

/-! ## READ_BAY and READ_RACK (R44) -/

def State.bayBytes (s : State) (r b : Nat) : List Byte :=
  let y := s.bay r b
  let d := s.drive r b
  bytes1 y.state.code ++ bytes2 y.sense ++ bytes2 y.baseline ++ bytes1 y.debounce ++ flagBytes y.latchOpen ++
  opt2 y.bound ++ optBytes 2 ((s.requestAt r b).map fun q => bytes1 q.kind.cls ++ bytes1 q.attempts) ++
  bytes2 d.staged ++ bytes2 d.applied ++ bytes2 d.duty

def State.rackBytes (s : State) (r : Nat) : List Byte :=
  let c := s.scanner r
  bytes1 c.phase.code ++ bytes1 c.sweepPos ++ bytes2 (c.waitElapsed / msTicks) ++ bytes1 c.holder.code ++
  bytes1 c.cadence.code ++ bytes2 (min 65535 (c.quiet / secondTicks)) ++
  (bayStates.map fun st => bytes1 (bayNumbers.filter fun b => (s.bay r b).state == st).length).flatten ++
  bytes1 (bayNumbers.filter fun b => (s.bay r b).latchOpen).length ++ bytes1 (s.channel r).queue.length ++
  bytes2 (s.rackCharge r).stagedLimit ++ bytes2 (s.rackCharge r).appliedLimit

/-! ## READ_LOAN (R123) -/

/-- The place of an element of a list, counted from 1 at the head. -/
def placeOf (a : Nat) : Nat → List Nat → Option Nat
  | _, [] => none
  | n, b :: l => if b = a then some (n + 1) else placeOf a (n + 1) l

/-- The whole seconds left in a record's release window (R123; log 21). -/
def State.windowSeconds (s : State) (i : Nat) : Option Nat :=
  (s.timer i).map fun t => (t.length - t.elapsed) / secondTicks

def State.stateCode (s : State) (i : Nat) : Nat :=
  match s.record i with
  | some x => x.state.code
  | none => 0

def State.loanBytes (s : State) (id : Nat) (l : Loan) : List Byte :=
  bytes1 l.tour ++ bytes1 l.programme ++ flagBytes l.reserve ++ bytes1 l.requested ++ bytes1 l.shortfall ++
  bytes1 l.returned ++ bytes1 l.dropped ++ bytes1 l.lifted ++ bytes4 l.due ++ flagBytes l.wants ++
  bytes1 (if 0 < l.shortfall then 0 else 1) ++ opt1 (placeOf id 0 s.loans.wanting) ++
  listBytes (l.outstanding.map fun i => bytes2 i ++ bytes1 (s.stateCode i) ++ opt2 (s.windowSeconds i)) ++
  listBytes (l.passed.map bytes2)

/-! ## READ_TOUR and READ_PROGRAMME (R103) -/

def State.tourBytes (s : State) (t : Nat) : List Byte :=
  let x := s.tour t
  bytes1 x.state.code ++ opt2 x.duration ++
  listBytes (x.programmes.map fun p => bytes1 p ++ bytes2 (s.programme p).listeners) ++
  listBytes ((s.loansOfTour t).map bytes1)

def State.programmeBytes (s : State) (p : Nat) : List Byte :=
  let x := s.programme p
  flagBytes x.inUse ++ opt1 x.tour ++ bytes1 x.language ++ bytes2 x.key ++ bytes2 x.listeners ++ flagBytes x.relay ++
  opt1 (s.downlinkSlot p) ++ flagBytes (s.air.downlinkQueue.contains p)

/-! ## READ_FLOOR (R146) -/

def State.stackEntryBytes (s : State) : StackEntry → List Byte
  | .mic m => bytes1 m ++ bytes1 (s.priorityOf m)
  | .cascade => bytes1 0xFF ++ bytes1 0

def State.floorBytes (s : State) (p : Nat) : List Byte :=
  let f := s.floorOf p
  flagBytes (s.programme p).inUse ++ bytes1 f.mask ++ flagBytes (decide (p = 0) && s.houseLive) ++
  listBytes (f.waiting.map fun m => bytes1 m ++ bytes1 (s.priorityOf m) ++ bytes4 ((s.mic m).requestTime.getD 0)) ++
  listBytes (f.stack.reverse.map s.stackEntryBytes) ++ flagBytes (s.uplinkSlot p).isSome ++
  opt1 (placeOf p 0 s.floor.uplinkQueue) ++
  listBytes ((s.boundMics p).map fun m =>
    bytes1 m ++ bytes1 (s.priorityOf m) ++ bytes1 (s.mic m).state.code ++ opt2 ((s.mic m).keepAlive.map (· / msTicks)))

/-! ## READ_PLAN (R159) -/

/-- An entry: kind and source, programme, mic. -/
def Entry.bytes : Entry → List Byte
  | .free => [0#8, 0#8, 0#8]
  | .down p .none => bytes1 1 ++ bytes1 p ++ bytes1 0
  | .down p (.mic m) => bytes1 (1 + 16) ++ bytes1 p ++ bytes1 m
  | .down p (.house m) => bytes1 (1 + 32) ++ bytes1 p ++ bytes1 m
  | .up p m => bytes1 2 ++ bytes1 p ++ bytes1 m

def State.planBytes (s : State) : List Byte :=
  bytes2 s.air.sequence ++ bytes1 s.air.currentPlan.split ++
  (slotNumbers.map fun i => (s.air.currentPlan.entry i).bytes).flatten

end Sys2Proof.Machine
end

