-- ==== Sys2Proof/Machine/AirRequests.lean ====
section
/-! DEFINITION. The AIR requests and the RACK requests: READ_PLAN (spec/08_air_frame_plan.md, R159), REPORT_BEACON
(spec/09_presence_tracking_and_loan_aging.md, R163 to R165), READ_BAY and READ_RACK
(spec/02_bays_and_rack_scanning.md, R44). -/

namespace Sys2Proof.Machine

/-- A beacon writes the record that holds its receiver ID (R164). -/
def Record.heard (x : Record) (clock zone quality : Nat) : Record :=
  let y := { x with lastHeard := some clock, lastZone := if 0 < quality then zone else x.lastZone }
  if x.state = .missing then { y with state := if x.overdueFlag then .overdue else .onLoan } else y

/-- REPORT_BEACON (R163, R164, R165). -/
def State.reportBeacon (s : State) (rid zone quality : Nat) : Answer :=
  if rid = 0 then s.no .badRequest
  else
    match s.indexOfRid rid with
    | none =>
      ({ s with age := { s.age with unknownBeacons := min 65535 (s.age.unknownBeacons + 1) } }).ok
        (bytes1 0 ++ bytes2 0 ++ bytes1 0)
    | some i =>
      let s1 := s.modRecord i fun x => x.heard s.age.clock zone quality
      let s2 := if s.recordIs i .missing then s1.post (.found i) else s1
      s2.ok (bytes1 1 ++ bytes2 i ++ bytes1 (s2.stateCode i))

/-- READ_BAY (R44). -/
def State.readBay (s : State) (r b : Nat) : Answer :=
  if 3 < r ∨ 63 < b then s.no .badRequest else s.ok (s.bayBytes r b)

/-- READ_RACK (R44). -/
def State.readRack (s : State) (r : Nat) : Answer := if 3 < r then s.no .badRequest else s.ok (s.rackBytes r)

/-! ## Meanings -/

/-- READ_PLAN. -/
def execReadPlan (l : Link) (s : State) : Host.Outcome State Fault Refusal := s.serveRead l .air (s.ok s.planBytes)

/-- REPORT_BEACON. -/
def execReportBeacon (l : Link) (rid zone quality : Nat) (s : State) : Host.Outcome State Fault Refusal :=
  s.serveWrite l .air (s.reportBeacon rid zone quality)

/-- READ_BAY. -/
def execReadBay (l : Link) (rack bay : Nat) (s : State) : Host.Outcome State Fault Refusal :=
  s.serveRead l .rack (s.readBay rack bay)

/-- READ_RACK. -/
def execReadRack (l : Link) (rack : Nat) (s : State) : Host.Outcome State Fault Refusal :=
  s.serveRead l .rack (s.readRack rack)

end Sys2Proof.Machine
end

