-- ==== Sys2Proof/Machine/FleetRequests.lean ====
section
/-! DEFINITION. The FLEET requests and WRITE_OFF (spec/01_fleet_table.md, R5 to R13, R20). -/

namespace Sys2Proof.Machine

/-- A record's values at creation by ENROL (R1). -/
def newRecord (rid : Nat) (g : Generation) : Record where
  rid := rid
  generation := g
  state := .absent
  bay := none
  soc := none
  thermalHold := false
  usagePending := false
  backFromLoan := false
  loan := none
  programme := none
  due := none
  overdueFlag := false
  lastHeard := none
  lastZone := 0
  loansServed := 0
  listeningMinutes := 0
  faultCount := 0

/-- The generation of a code (R189). -/
def generationOf : Nat → Option Generation
  | 1 => some .g1
  | 2 => some .g2
  | _ => none

/-- READ_RECORD (R20). -/
def State.readRecord (s : State) (index : Nat) : Answer :=
  if 1023 < index then s.no .badRequest
  else
    match s.record index with
    | none => s.no .notFound
    | some x => s.ok (recordBytes index x)

/-- FIND (R20). -/
def State.findRid (s : State) (rid : Nat) : Answer :=
  s.byRid rid fun i x => s.ok (bytes2 i ++ bytes1 x.state.code)

/-- A record is placed at an index by ENROL (R6). -/
def State.enrolAt (s : State) (rid : Nat) (g : Generation) (i : Nat) : Answer :=
  (s.setRecord i (some (newRecord rid g))).ok (bytes2 i)

/-- ENROL (R6). -/
def State.enrol (s : State) (rid generation : Nat) (index : Option Nat) : Answer :=
  match generationOf generation with
  | none => s.no .badRequest
  | some g =>
    if rid = 0 then s.no .badRequest
    else
      match index with
      | some i =>
        if 1023 < i then s.no .badRequest
        else if (s.indexOfRid rid).isSome then s.no .busy
        else if (s.record i).isSome then s.no .busy
        else s.enrolAt rid g i
      | none =>
        if (s.indexOfRid rid).isSome then s.no .busy
        else
          match s.freePosition with
          | none => s.no .full
          | some i => s.enrolAt rid g i

/-- RETIRE (R7): a queued READ_USAGE or GAUGE at the record's bay is removed; one in flight runs to its end (R8). -/
def State.retire (s : State) (rid : Nat) : Answer :=
  s.byRid rid fun i x =>
    match x.state with
    | .docked | .ready | .absent | .fault =>
      (State.finish s ((s.setRecord i (some { x with state := .retired })).removeQueuedOf i) []).ok []
    | _ => s.no .busy

/-- A bound record goes DOCKED with its usage to be read, and its READ_USAGE is queued (R9, R11). -/
def State.prepareAgain (s : State) (i : Nat) (x : Record) : State :=
  (s.setRecord i (some { x with state := .docked, usagePending := true })).askReadUsage i

/-- REINSTATE (R9). -/
def State.reinstate (s : State) (rid : Nat) : Answer :=
  s.byRid rid fun i x =>
    match x.state, x.bay with
    | .retired, some p =>
      if (s.requestAt p.rack p.bay).isSome then s.no .busy
      else (State.finish s (s.prepareAgain i x) []).ok []
    | .retired, none => (s.setRecord i (some { x with state := .absent })).ok []
    | _, _ => s.no .busy

/-- An index is deleted from the passed list of every loan that holds it (R10). -/
def State.forgetPassed (s : State) (i : Nat) : State :=
  s.loanIds.foldl (fun t id => t.modLoan id fun l => { l with passed := l.passed.filter (· != i) }) s

/-- REMOVE (R10). -/
def State.removeRecord (s : State) (rid : Nat) : Answer :=
  s.byRid rid fun i x =>
    if x.bay = none ∧ (x.state = .absent ∨ x.state = .retired) then ((s.setRecord i none).forgetPassed i).ok []
    else s.no .busy

/-- CLEAR_FAULT in its record form (R11). -/
def State.clearFaultRecord (s : State) (rid : Nat) : Answer :=
  s.byRid rid fun i x =>
    if x.state = .fault then (State.finish s (s.prepareAgain i x) []).ok [] else s.no .busy

/-- CLEAR_FAULT in its bay form (R12). -/
def State.clearFaultBay (s : State) (r b : Nat) : Answer :=
  if 3 < r ∨ 63 < b then s.no .badRequest
  else if (s.bay r b).state = .fault then
    (State.finish s ((s.moveBay r b .identifying).ask r b .identify none none) []).ok []
  else s.no .busy

/-- WRITE_OFF (R13): the record leaves its loan, dropped, and goes ABSENT. -/
def State.writeOff (s : State) (rid : Nat) : Answer :=
  s.byRid rid fun i x =>
    match x.state with
    | .onLoan | .overdue | .missing =>
      (State.finish s (State.settle s (s.leaveLoan i .absent .dropped) (s.loanList i) []) []).ok []
    | _ => s.no .busy

/-! ## Meanings -/

/-- READ_RECORD. -/
def execReadRecord (l : Link) (index : Nat) (s : State) : Host.Outcome State Fault Refusal :=
  s.serveRead l .fleet (s.readRecord index)

/-- FIND. -/
def execFind (l : Link) (rid : Nat) (s : State) : Host.Outcome State Fault Refusal := s.serveRead l .fleet (s.findRid rid)

/-- ENROL. -/
def execEnrol (l : Link) (rid generation : Nat) (index : Option Nat) (s : State) : Host.Outcome State Fault Refusal :=
  s.serveWrite l .fleet (s.enrol rid generation index)

/-- RETIRE. -/
def execRetire (l : Link) (rid : Nat) (s : State) : Host.Outcome State Fault Refusal := s.serveWrite l .fleet (s.retire rid)

/-- REINSTATE. -/
def execReinstate (l : Link) (rid : Nat) (s : State) : Host.Outcome State Fault Refusal :=
  s.serveWrite l .fleet (s.reinstate rid)

/-- REMOVE. -/
def execRemove (l : Link) (rid : Nat) (s : State) : Host.Outcome State Fault Refusal :=
  s.serveWrite l .fleet (s.removeRecord rid)

/-- CLEAR_FAULT, record form. -/
def execClearFaultRecord (l : Link) (rid : Nat) (s : State) : Host.Outcome State Fault Refusal :=
  s.serveWrite l .fleet (s.clearFaultRecord rid)

/-- CLEAR_FAULT, bay form. -/
def execClearFaultBay (l : Link) (rack bay : Nat) (s : State) : Host.Outcome State Fault Refusal :=
  s.serveWrite l .fleet (s.clearFaultBay rack bay)

/-- WRITE_OFF. -/
def execWriteOff (l : Link) (rid : Nat) (s : State) : Host.Outcome State Fault Refusal :=
  s.serveWrite l .override (s.writeOff rid)

end Sys2Proof.Machine
end

