-- ==== Sys2Proof/Machine/FloorRequests.lean ====
section
/-! DEFINITION. The FLOOR requests (spec/07_talk_floor.md, R126, R127, R134 to R138, R146). -/

namespace Sys2Proof.Machine

/-- READ_FLOOR (R146). -/
def State.readFloor (s : State) (p : Nat) : Answer := if 63 < p then s.no .badRequest else s.ok (s.floorBytes p)

/-- A programme belongs to a CLOSING tour (R126). -/
def State.inClosingTour (s : State) (p : Nat) : Bool :=
  match (s.programme p).tour with
  | some t => (s.tour t).state == .closing
  | none => false

/-- BIND_MIC (R126). -/
def State.bindMic (s : State) (m p priority : Nat) : Answer :=
  if 63 < m ∨ 63 < p ∨ priority = 0 ∨ 7 < priority then s.no .badRequest
  else if !(s.programme p).inUse then s.no .notFound
  else if (s.mic m).state ≠ .idle then s.no .busy
  else if s.inClosingTour p then s.no .busy
  else if 8 ≤ ((s.boundMics p).filter (· != m)).length then s.no .full
  else (s.setMic m { s.mic m with programme := some p, priority := some priority }).ok []

/-- UNBIND_MIC (R127). -/
def State.unbindRequest (s : State) (m : Nat) : Answer :=
  if 63 < m then s.no .badRequest
  else if (s.mic m).state ≠ .idle then s.no .busy
  else (s.setMic m { s.mic m with programme := none, priority := none }).ok []

/-- The microphone's state as a result byte. -/
def State.micState (s : State) (m : Nat) : List Byte := bytes1 (s.mic m).state.code

/-- An IDLE microphone asks for its programme's floor (R134). -/
def State.requestFloor (s : State) (p m : Nat) : State :=
  let s1 := s.setMic m { s.mic m with state := .requesting, requestTime := some s.age.clock }
  State.finishFloors s ((s1.enterPending p m).reevaluate p)

/-- TALK_REQUEST (R134). -/
def State.talkRequest (s : State) (m : Nat) : Answer :=
  if 63 < m then s.no .badRequest
  else
    match (s.mic m).programme with
    | none => s.no .notFound
    | some p =>
      let t := if (s.mic m).state = .idle then s.requestFloor p m else s
      t.ok (t.micState m)

/-- TALK_ACTIVE (R135). -/
def State.talkActive (s : State) (m : Nat) : Answer :=
  if 63 < m then s.no .badRequest
  else if (s.mic m).state = .talking then (s.startTalking m).ok (flagBytes true)
  else s.ok (flagBytes false)

/-- TALK_RELEASE (R136). -/
def State.talkRelease (s : State) (m : Nat) : Answer :=
  if 63 < m then s.no .badRequest
  else
    match (s.mic m).programme with
    | none => s.no .notFound
    | some p =>
      if (s.mic m).state = .idle then s.ok []
      else (State.finishFloors s ((s.removeMic p m).settleFloor p)).ok []

/-- CUT (R137). -/
def State.cut (s : State) (p : Nat) : Answer :=
  if 63 < p then s.no .badRequest
  else if !(s.programme p).inUse then s.no .notFound
  else
    match (s.floorOf p).stack with
    | .mic m :: _ => (State.finishFloors s (s.cutTop p m)).ok (bytes1 m)
    | _ => s.no .busy

/-- SET_MASK (R138). -/
def State.setMask (s : State) (p level : Nat) : Answer :=
  if 63 < p then s.no .badRequest
  else if !(s.programme p).inUse then s.no .notFound
  else
    let v := fit 1 8 level
    (State.finishFloors s ((s.setFloor p { s.floorOf p with mask := v }).reevaluate p)).ok (bytes1 v)

/-! ## Meanings -/

/-- READ_FLOOR. -/
def execReadFloor (l : Link) (programme : Nat) (s : State) : Host.Outcome State Fault Refusal :=
  s.serveRead l .floor (s.readFloor programme)

/-- BIND_MIC. -/
def execBindMic (l : Link) (mic programme priority : Nat) (s : State) : Host.Outcome State Fault Refusal :=
  s.serveWrite l .floor (s.bindMic mic programme priority)

/-- UNBIND_MIC. -/
def execUnbindMic (l : Link) (mic : Nat) (s : State) : Host.Outcome State Fault Refusal :=
  s.serveWrite l .floor (s.unbindRequest mic)

/-- TALK_REQUEST. -/
def execTalkRequest (l : Link) (mic : Nat) (s : State) : Host.Outcome State Fault Refusal :=
  s.serveWrite l .floor (s.talkRequest mic)

/-- TALK_ACTIVE. -/
def execTalkActive (l : Link) (mic : Nat) (s : State) : Host.Outcome State Fault Refusal :=
  s.serveWrite l .floor (s.talkActive mic)

/-- TALK_RELEASE. -/
def execTalkRelease (l : Link) (mic : Nat) (s : State) : Host.Outcome State Fault Refusal :=
  s.serveWrite l .floor (s.talkRelease mic)

/-- CUT. -/
def execCut (l : Link) (programme : Nat) (s : State) : Host.Outcome State Fault Refusal :=
  s.serveWrite l .floor (s.cut programme)

/-- SET_MASK. -/
def execSetMask (l : Link) (programme level : Nat) (s : State) : Host.Outcome State Fault Refusal :=
  s.serveWrite l .floor (s.setMask programme level)

end Sys2Proof.Machine
end

