-- ==== Sys2Proof/Machine/LinkEvents.lean ====
section
/-! DEFINITION. The requests of no group, the link transactions that take no request, RESTART and the full reset
(spec/10_links_access_and_notices.md, R171 to R174, R183 to R187). -/

namespace Sys2Proof.Machine

/-! ## Status and notices -/

/-- READ_STATUS (R185). -/
def State.readStatus (s : State) : Answer := s.ok s.statusBytes

/-- READ_NOTICES (R184): every set flag of the link is returned and cleared. -/
def State.readNotices (s : State) (l : Link) : Answer :=
  (s.setPort l { s.port l with notices := [] }).ok (noticesBytes (s.port l).notices)

/-- SET_NOTICE_MASK (R183). -/
def State.setNoticeMask (s : State) (l : Link) (mask : Nat) : Answer :=
  (s.setPort l ((s.port l).withMask (BitVec.ofNat 16 mask))).ok (bytes2 (BitVec.ofNat 16 mask).toNat)

/-! ## Transactions -/

/-- A complete frame that is no request (R173): one that fails the frame check is refused before the access check; a
CLEAR_FAULT, SET_RESERVE or SET_SETTING that passes it, after (R189; log 15). -/
def State.unknownRequest (s : State) (l : Link) (code : Nat) (args : List Byte) : Answer :=
  if frameCheck code args.length && badForm code args then
    if code = 0x16 then (if s.mayWrite l .fleet then s.no .badRequest else s.no .denied)
    else if !s.mayWrite l .settings then s.no .denied
    else if code = 0x73 then s.underLock (s.no .badRequest)
    else s.no .badRequest
  else s.no .badRequest

/-- The frame a read transaction returns (R174): the response held, or NO_RESPONSE. -/
def Port.frame (p : Port) : List Byte :=
  match p.response with
  | some a => a.frame
  | none => Response.frame { status := .noResponse, results := [] }

/-- The first `n` bytes of a frame followed by zeros (R188). -/
def clocked (frame : List Byte) (n : Nat) : List Byte := frame.take n ++ List.replicate (n - frame.length) 0#8

/-- A read transaction that has clocked `n` bytes (R174): the response is released at the rise of the select if its last
byte has been carried. -/
def Port.readOut (p : Port) (n : Nat) (ends : Bool) : Port :=
  { p with
    response := if ends ∧ p.frame.length ≤ n then none else p.response
    output := clocked p.frame n
    select := Select.after ends .read }

/-- A read transaction begins, goes on or ends; it carries nothing more once it has been cut short, nor does one that a
write transaction in progress rules out (log 23). -/
def State.readTransaction (s : State) (l : Link) (n : Nat) (ends : Bool) : State :=
  match (s.port l).select with
  | .high | .low | .read => s.setPort l ((s.port l).readOut n ends)
  | .write | .cleared | .ignored => s.passOver l ends

/-- A write transaction that has gathered bytes of a request frame after its code byte (R171, R172): they are discarded at
the rise of the select. While it is clocked in, the part drives 0x00 (R188). -/
def Port.gather (p : Port) (bytes : List Byte) (ends : Bool) : Port :=
  { p with requestBuffer := if ends then [] else bytes, output := [], select := Select.after ends .write }

/-- A select that has fallen with no byte clocked in yet. -/
def Port.opened (p : Port) (ends : Bool) : Port := { p with output := [], select := Select.after ends .low }

/-- A transaction that carries no request begins, goes on or ends (R172); it is passed over once it has been cut short, and
so is one that a read transaction in progress rules out (log 23). -/
def State.abortedTransaction (s : State) (l : Link) (bytes : List Byte) (ends : Bool) : State :=
  if (s.port l).hears then
    match bytes with
    | [] => s.setPort l ((s.port l).opened ends)
    | first :: rest =>
      if first = 0xC1#8 then s.setPort l ((s.port l).gather rest ends) else s.carryIgnored l ends
  else s.passOver l ends

/-! ## Warm restart (R186) -/

/-- A record after a warm restart (R22). -/
def Record.restarted (x : Record) : Record :=
  { x with
    state := if x.state = .retired then .retired else .absent
    bay := none, soc := none, thermalHold := false, usagePending := false, loan := none, programme := none, due := none
    overdueFlag := false }

/-- The fleet table after a warm restart (R22): a pending range is applied. -/
def State.restartFleet (s : State) : State :=
  let s1 := s.recordIndices.foldl (fun t i => t.modRecord i Record.restarted) s
  { s1 with fleet :=
    { s1.fleet with applied := match s.fleet.staged with | some g => some g | none => s.fleet.applied, staged := none } }

/-- A scanner after a warm restart (R45): every bay EMPTY with its baseline at BASE_INIT. -/
def restartedScanner (baseInit : Nat) : Scanner :=
  { resetScanner with
    bays := bayNumbers.foldl (fun t b => Table.write (fun _ => resetBay) t b { resetBay with baseline := baseInit }) [] }

/-- The rack scanners and channels after a warm restart (R45, R70). -/
def State.restartRacks (s : State) : State :=
  rackNumbers.foldl (fun t r => t.setScanner r (restartedScanner s.settings.baseInit)) { s with scan := [], chan := [] }

/-- The allocator after a warm restart (R89): the limits are kept, everything else is cleared. -/
def State.restartCharge (s : State) : State :=
  let s1 := rackNumbers.foldl (fun t r => t.setRackCharge r { s.rackCharge r with drives := [] }) s
  { s1 with charge := { s1.charge with promoted := [], frameTime := 0 } }

/-- The tours and programmes after a warm restart (R104): language codes, keys and the key counter are kept. -/
def State.restartTours (s : State) : State :=
  tourProgrammes.foldl
    (fun t p => t.setProgramme p { resetProgramme p with language := (s.programme p).language, key := (s.programme p).key })
    { s with tours := { tours := [], programmes := [], nextKey := s.tours.nextKey } }

/-- The loan table, the floors, the planner and the sweep after a warm restart (R124, R147, R160, R170). -/
def State.restartRest (s : State) : State :=
  { s with
    loans := State.reset.loans
    floor := State.reset.floor
    air := resetAir s.air.nextPlan.split
    age := { clock := s.age.clock, clockPhase := 0, sweepPointer := 0, stepTime := 0, unknownBeacons := 0 } }

/-- A transaction in progress at a warm restart (R186): a write transaction is ignored until its select rises, and a read
transaction whose response is discarded is answered with 0x00 from there on. -/
def Port.cutShort (p : Port) : Select :=
  match p.select, p.response with
  | .write, _ => .cleared
  | .read, some _ => .cleared
  | x, _ => x

/-- A port after a warm restart (R171, R186). -/
def Port.restarted (p : Port) : Port :=
  { p with requestBuffer := [], response := none, notices := [], select := p.cutShort }

/-- The ports after a warm restart (R186). -/
def State.restartPorts (s : State) : State :=
  { s with ports := { desk := s.ports.desk.restarted, radio := s.ports.radio.restarted, service := s.ports.service.restarted } }

/-- The warm restart of every block (R186): settings, masks, access map and clock are kept. -/
def State.warmRestart (s : State) : State :=
  s.restartFleet.restartRacks.restartCharge.restartTours.restartRest.restartPorts

/-! ## Full reset (R187) -/

/-- A port at its reset value, with the select of its link: a transaction open at the full reset is ignored until its
select rises (R187). -/
def Port.reset (p reset : Port) : Port :=
  { reset with select := if p.select = .high then .high else .ignored }

/-- The ports at their reset values (R187). -/
def Ports.reset (p : Ports) : Ports where
  desk := p.desk.reset defaultPorts.desk
  radio := p.radio.reset defaultPorts.radio
  service := p.service.reset defaultPorts.service

/-- The part held in full reset, or released from it: every block at its reset value; the commands that wait, the count
of draws and the selects of the links are no state of the part's own. -/
def State.fullReset (s : State) (held : Bool) : State :=
  { State.reset with pending := s.pending, draws := s.draws, resetHeld := held, ports := s.ports.reset }

/-! ## Meanings -/

/-- READ_STATUS. -/
def execReadStatus (l : Link) (s : State) : Host.Outcome State Fault Refusal := s.serve l s.readStatus

/-- READ_NOTICES. -/
def execReadNotices (l : Link) (s : State) : Host.Outcome State Fault Refusal := s.serve l (s.readNotices l)

/-- SET_NOTICE_MASK. -/
def execSetNoticeMask (l : Link) (mask : Nat) (s : State) : Host.Outcome State Fault Refusal :=
  s.serve l (s.setNoticeMask l mask)

/-- UNKNOWN_REQUEST_CODE. -/
def execUnknownRequestCode (l : Link) (code : Nat) (args : List Byte) (s : State) : Host.Outcome State Fault Refusal :=
  s.serve l (s.unknownRequest l code args)

/-- READ_TRANSACTION. -/
def execReadTransaction (l : Link) (n : Clocked Nat) (s : State) : Host.Outcome State Fault Refusal :=
  .next (if s.resetHeld then s.passOver l n.ends else s.readTransaction l n.data n.ends)

/-- WRITE_TRANSACTION_ABORTED. -/
def execWriteTransactionAborted (l : Link) (bytes : Clocked (List Byte)) (s : State) :
    Host.Outcome State Fault Refusal :=
  .next (if s.resetHeld then s.passOver l bytes.ends else s.abortedTransaction l bytes.data bytes.ends)

/-- RESTART: the warm restart of every block, and the OK response held on its own link (R186). -/
def execRestart (l : Link) (s : State) : Host.Outcome State Fault Refusal := s.serveWrite l .settings (s.warmRestart.ok [])

/-- FULL_RESET: RSTN falls, or power comes on. -/
def execFullReset (s : State) : Host.Outcome State Fault Refusal := .next (s.fullReset true)

/-- FULL_RESET_END: RSTN rises. -/
def execFullResetEnd (s : State) : Host.Outcome State Fault Refusal := .next (s.fullReset false)

end Sys2Proof.Machine
end

