-- ==== Sys2Proof/Machine/LoanRequests.lean ====
section
/-! DEFINITION. The LOAN requests (spec/06_loans.md, R111, R112, R117 to R119, R123). -/

namespace Sys2Proof.Machine

/-- READ_LOAN (R123). -/
def State.readLoan (s : State) (id : Nat) : Answer := s.byLoan id fun l => s.ok (s.loanBytes id l)

/-- The lowest free loan ID (R112). -/
def State.freeLoan (s : State) : Option Nat := ((List.range 129).drop 1).find? fun id => (s.loan id).isNone

/-- A loan as ISSUE creates it (R112). -/
def newLoan (tour programme count : Nat) (reserve : Bool) (due : Nat) : Loan where
  tour := tour
  programme := programme
  reserve := reserve
  requested := count
  shortfall := count
  outstanding := []
  returned := 0
  dropped := 0
  lifted := 0
  due := due
  wants := true
  passed := []

/-- ISSUE (R111, R112), after the access check. -/
def State.issue (s : State) (tour programme count : Nat) (reserve : Bool) : Answer :=
  if tour = 0 ∨ 32 < tour ∨ 63 < programme ∨ count = 0 ∨ 64 < count then s.no .badRequest
  else if (s.tour tour).state ≠ .opened then s.no .busy
  else if programme ∉ (s.tour tour).programmes then s.no .notFound
  else
    match s.freeLoan with
    | none => s.no .full
    | some id =>
      let due := min max32 (s.age.clock + (s.tour tour).duration.getD 0 * 60)
      let t := State.finish s ((s.setLoan id (some (newLoan tour programme count reserve due))).fill id) []
      t.ok (bytes1 id ++ bytes1 (t.outstandingOf id).length ++ bytes4 due)

/-- The loan an ADD names, if its arguments name one (R178). -/
def State.addNames (s : State) (id n : Nat) : Option Loan :=
  if id = 0 ∨ 128 < id ∨ n = 0 ∨ 64 < n then none else s.loan id

/-- The shortfall of a loan. -/
def State.shortfallOf (s : State) (id : Nat) : Nat :=
  match s.loan id with
  | some l => l.shortfall
  | none => 0

/-- ADD (R117), after the access check. -/
def State.addToLoan (s : State) (id n : Nat) : Answer :=
  if id = 0 ∨ 128 < id ∨ n = 0 ∨ 64 < n then s.no .badRequest
  else
    match s.loan id with
    | none => s.no .notFound
    | some l =>
      if !l.wants then s.no .busy
      else if 255 < l.requested + n then s.no .full
      else
        let t := State.finish s
          ((s.setLoan id (some { l with requested := l.requested + n, shortfall := l.shortfall + n })).fill id) []
        t.ok (bytes1 ((t.outstandingOf id).length - l.outstanding.length) ++ bytes1 (t.shortfallOf id))

/-- CANCEL (R118): the loan is given up, the records that went READY are offered in list order, and the tests of R109
follow. -/
def State.cancel (s : State) (id : Nat) : Answer :=
  s.byLoan id fun l =>
    if !l.wants then s.no .busy
    else
      let s1 := s.cancelLoan id
      let t := State.finish s (State.settle s s1 [id] (s1.readyOf l.outstanding)) []
      t.ok (flagBytes (t.loan id).isNone ++ bytes1 (t.outstandingOf id).length)

/-- A record of an extended loan (R119). -/
def Record.extended (x : Record) (clock due : Nat) : Record :=
  let y := { x with due := some due }
  match x.state with
  | .overdue => if clock < due then { y with state := .onLoan, overdueFlag := false } else y
  | .missing => if clock < due then { y with overdueFlag := false } else y
  | _ => y

/-- EXTEND (R119). -/
def State.extend (s : State) (id due : Nat) : Answer :=
  s.byLoan id fun l =>
    let t := l.outstanding.foldl (fun t i => t.modRecord i fun x => x.extended s.age.clock due)
      (s.setLoan id (some { l with due := due }))
    t.ok (bytes1 (l.outstanding.filter fun i => s.recordIs i .overdue && t.recordIs i .onLoan).length)

/-! ## Meanings -/

/-- READ_LOAN. -/
def execReadLoan (l : Link) (loan : Nat) (s : State) : Host.Outcome State Fault Refusal :=
  s.serveRead l .loan (s.readLoan loan)

/-- ISSUE: reserve-flagged by its argument (R178). -/
def execIssue (l : Link) (tour programme count : Nat) (reserve : Bool) (s : State) : Host.Outcome State Fault Refusal :=
  s.serveWrite l .loan (s.underReserveUse l reserve (s.issue tour programme count reserve))

/-- ADD: reserve-flagged if it names a reserve-flagged loan (R178). -/
def execAdd (l : Link) (loan n : Nat) (s : State) : Host.Outcome State Fault Refusal :=
  s.serveWrite l .loan
    (s.underReserveUse l (match s.addNames loan n with | some x => x.reserve | none => false) (s.addToLoan loan n))

/-- CANCEL. -/
def execCancel (l : Link) (loan : Nat) (s : State) : Host.Outcome State Fault Refusal := s.serveWrite l .loan (s.cancel loan)

/-- EXTEND. -/
def execExtend (l : Link) (loan due : Nat) (s : State) : Host.Outcome State Fault Refusal :=
  s.serveWrite l .loan (s.extend loan due)

end Sys2Proof.Machine
end

