-- ==== Sys2Proof/Machine/RackEvents.lean ====
section
/-! DEFINITION. The events at a rack: scan completions, departures, words, the ends of transfers, the rack's timers
(spec/02_bays_and_rack_scanning.md, spec/03_dock_transfers.md). An event is taken when what it ends is under way; else it
changes nothing (log 3). -/

namespace Sys2Proof.Machine

/-! ## Readings (R27) -/

/-- deviation ≥ T. -/
def State.positive (s : State) (y : Bay) (reading : Nat) : Bool := decide (y.baseline + s.settings.senseThreshold ≤ reading)

/-- deviation ≥ floor(T / 2). -/
def State.present (s : State) (y : Bay) (reading : Nat) : Bool :=
  decide (y.baseline + s.settings.senseThreshold / 2 ≤ reading)

/-- The baseline of an EMPTY bay after a scan that is not positive (R29). -/
def State.adapted (s : State) (y : Bay) (reading : Nat) : Nat :=
  if s.present y reading then y.baseline
  else if reading + s.settings.senseThreshold ≤ y.baseline then reading
  else if y.baseline ≤ reading then y.baseline + (reading - y.baseline) / 8
  else y.baseline - (y.baseline - reading) / 8

/-! ## Departure (R37 to R39) -/

/-- The handout (R38): a RELEASED record goes ON_LOAN, its window stops and its loan counts a handout. -/
def State.handOut (s : State) (i : Nat) (x : Record) : State :=
  let s1 := (s.setTimer i none).setRecord i (some { x with state := .onLoan, lastHeard := some s.age.clock })
  match x.loan with
  | some id => s1.modLoan id fun l => { l with lifted := l.lifted + 1 }
  | none => s1

/-- The record's part of a departure, by its state (R38, R39). -/
def State.departRecord (s : State) (i : Nat) : State :=
  match s.record i with
  | none => s
  | some x =>
    match x.state with
    | .released => s.handOut i x
    | .docked | .ready => (s.setRecord i (some { x with state := .absent })).post (.unreleasedLift i)
    | .reserved | .programming =>
      State.settle s ((s.loseBeforeHandout i .absent).post (.unreleasedLift i)) (s.loanList i) []
    | .fault => s.setRecord i (some { x with state := .absent })
    | _ => s

/-- A departure of a bay (R37): the binding is broken, the drive cut, the latch closed, the queued request removed, and
the record moves by its state. -/
def State.depart (s : State) (r b : Nat) : State :=
  let bound := (s.bay r b).bound
  let s1 := s.setBay r b { s.bay r b with state := .empty, debounce := 0, latchOpen := false, bound := none }
  let s2 := ((s1.cutDrive r b).removeQueued r b).wake r
  match bound with
  | none => s2
  | some i => (s2.modRecord i fun x => { x with bay := none }).departRecord i

/-! ## Sweep scans (R24, R29 to R33) -/

/-- An absent or present reading of a bay that counts two absent scans (R31, R33). -/
def State.countAbsent (s : State) (r b : Nat) (present : Bool) : State :=
  let y := s.bay r b
  if present then s.setBay r b { y with debounce := 0 }
  else if y.debounce = 0 then s.setBay r b { y with debounce := 1 }
  else (s.moveBay r b .empty).removeQueued r b

/-- A bay is evaluated at a scan completion, under the rule for its state (R24). -/
def State.evaluate (s : State) (r b reading : Nat) : State :=
  let y := s.bay r b
  let s1 := s.setBay r b { y with sense := reading }
  match y.state with
  | .empty =>
    if s.positive y reading then s1.moveBay r b .arriving
    else s1.setBay r b { s1.bay r b with baseline := s.adapted y reading }
  | .arriving =>
    if s.positive y reading then (s1.moveBay r b .identifying).ask r b .identify none none
    else s1.moveBay r b .empty
  | .identifying | .foreign | .fault => s1.countAbsent r b (s.present y reading)
  | .occupied => if s.present y reading then s1 else s1.moveBay r b .leaving
  | .leaving => if s.present y reading then s1.moveBay r b .occupied else s1.depart r b

/-- The sweep goes on to the next bay, or ends after bay 63 (R24); the multiplexer is given up (R25). -/
def State.advanceSweep (s : State) (r : Nat) : State :=
  let c := s.scanner r
  s.setScanner r
    (if c.sweepPos < 63 then { c with sweepPos := c.sweepPos + 1, holder := .none }
     else { c with phase := .wait, waitElapsed := 0, holder := .none })

/-- A scan is in progress, or begins at once (R24, R45; log 14). -/
def State.scanning (s : State) (r : Nat) : Bool :=
  decide ((s.scanner r).phase = .sweep) && decide ((s.scanner r).holder ≠ .channel)

/-- SCAN_COMPLETION (R24). -/
def State.scanCompletion (s : State) (r reading : Nat) : State :=
  if decide (r < 4) && s.scanning r then
    State.finish s ((s.evaluate r (s.scanner r).sweepPos reading).advanceSweep r) []
  else s

/-- SWEEP_WAIT_EXPIRY (R24, R36): the scan of bay 0 is due. A wait that has not run the length of the cadence in force
goes on: the rack may have become COLD since the expiry fell due (R36). The sweep leaves wait elapsed as it stands (log
13). -/
def State.sweepWaitExpiry (s : State) (r : Nat) : State :=
  let c := s.scanner r
  if r < 4 ∧ c.phase = .wait ∧ c.waitLength ≤ c.waitElapsed then
    s.setScanner r { c with
      phase := .sweep, sweepPos := 0, holder := if c.holder = .none then .scanner else c.holder }
  else s

/-- A HOT rack whose quiet time reaches COLD_AFTER becomes COLD (R35). -/
def State.coolIfQuiet (s : State) (r : Nat) : State := if s.quietDue r then s.cool r else s

/-- COLD_AFTER_EXPIRY (R35). A rack that an event has woken since the expiry fell due, or whose quiet time is short of a
COLD_AFTER written since, stays HOT. -/
def State.coldAfterExpiry (s : State) (r : Nat) : State := if r < 4 then s.coolIfQuiet r else s

/-! ## Failed transfers (R60, R63, R67, R68) -/

/-- A fault of a receiver is counted and posted (R63, R68). -/
def State.countFault (s : State) (i : Nat) : State :=
  (s.modRecord i fun x => { x with faultCount := min 255 (x.faultCount + 1) }).post (.receiverFault i)

/-- A record of a failed READ_USAGE, GAUGE or PROGRAM, by its state (R63, R68). -/
def State.faultRecord (s : State) (i : Nat) : State :=
  let s1 := s.countFault i
  match s.record i with
  | none => s
  | some x =>
    match x.state with
    | .docked | .ready => s1.modRecord i fun x => { x with state := .fault }
    | .reserved | .programming | .released => State.settle s (s1.loseBeforeHandout i .fault) (s.loanList i) []
    | _ => s1

/-- An IDENTIFY ends failed: its bay faults (R60). -/
def State.faultBay (s : State) (r b : Nat) : State := (s.moveBay r b .fault).post (.bayFault r b)

/-- A request ends failed at its third attempt. -/
def State.failRequest (s : State) (r : Nat) (q : Req) : State :=
  match q.kind, q.record with
  | .identify, _ => s.faultBay r q.bay
  | _, some i => s.faultRecord i
  | _, none => s

/-- The record of a withdrawn PROGRAM leaves its loan at the end of the request (R62). -/
def State.endWithdrawn (s : State) (i : Nat) : State :=
  let s1 := s.withdraw i
  State.settle s s1 (s.loanList i) (s1.readyOf [i])

/-! ## The confirming scan (R26, R56) -/

/-- An absent confirming scan: the request is dropped (R26, R56). -/
def State.confirmAbsent (s : State) (r : Nat) (q : Req) : State :=
  match q.kind with
  | .identify => (s.endAttempt r).moveBay r q.bay .empty
  | _ => (s.endAttempt r).depart r q.bay

/-- A present reading at a confirming scan (R26). -/
def State.confirmBay (s : State) (r b : Nat) : State :=
  match (s.bay r b).state with
  | .leaving => s.moveBay r b .occupied
  | .identifying => s.setBay r b { s.bay r b with debounce := 0 }
  | _ => s

/-- A present confirming scan: the request ends if it is withdrawn (R62) or this was its third attempt, else it is
retried (R56). -/
def State.confirmPresent (s : State) (r : Nat) (q : Req) : State :=
  let s1 := (s.confirmBay r q.bay).endAttempt r
  if q.withdraw then
    match q.record with
    | some i => s1.endWithdrawn i
    | none => s1
  else if q.attempts < 2 then s1.requeue r q
  else s1.failRequest r q

/-- The racks staged at a present confirming scan whatever else it changes: that of a PROGRAM, whose record has left
PROGRAMMING even where the retry begins at once (R50, R56, R76), and that of a READ_USAGE or GAUGE that ends failed, also of
a RETIRED record (R68). -/
def Req.confirmRestages (q : Req) : Bool :=
  match q.kind with
  | .program => true
  | .identify => false
  | .readUsage | .gauge => decide (2 ≤ q.attempts)

/-- CONFIRMING_SCAN. -/
def State.confirmingScan (s : State) (r reading : Nat) : State :=
  match (s.channel r).inFlight with
  | none => s
  | some q =>
    if decide (r < 4) && (s.channel r).confirming then
      let y := s.bay r q.bay
      let s1 := s.setBay r q.bay { y with sense := reading }
      if s.present y reading then State.finish s (s1.confirmPresent r q) (if q.confirmRestages then [r] else [])
      else State.finish s (s1.confirmAbsent r q) []
    else s

/-! ## IDENTIFY (R5, R57 to R59) -/

/-- The values an IDENTIFY reports (R190). -/
structure Report where
  rid : Nat
  generation : Nat
  thermal : Bool
  soc : Nat
  firmware : Nat
  deriving DecidableEq, Repr

/-- The bay goes FOREIGN, with a notice (R5, R57, R58). -/
def State.foreignBay (s : State) (r b : Nat) (n : Notice) : State := (s.moveBay r b .foreign).post n

/-- What every binding writes into the record (R58). -/
def Record.bound (x : Record) (r b : Nat) (g : Generation) (v : Report) : Record :=
  { x with bay := some { rack := r, bay := b }, soc := some (min 1000 v.soc), thermalHold := v.thermal, generation := g }

/-- The bay's side of a binding (R31, R58). -/
def State.occupy (s : State) (r b i : Nat) : State :=
  let s1 := s.moveBay r b .occupied
  s1.setBay r b { s1.bay r b with bound := some i }

/-- A record is bound DOCKED with its usage to be read, and its READ_USAGE is queued (R58). -/
def State.bindDocked (s : State) (r b i : Nat) (g : Generation) (v : Report) (x : Record) : State :=
  ((s.setRecord i (some { x.bound r b g v with state := .docked, usagePending := true })).occupy r b i).ask r b
    .readUsage (some i) none

/-- A record that comes back from its loan leaves it, returned, and is bound (R59). -/
def State.bindReturned (s : State) (r b i : Nat) (g : Generation) (v : Report) : State :=
  let s1 := s.leaveLoan i .docked .returned
  let s2 := match s1.record i with
    | some y => s1.bindDocked r b i g v { y with backFromLoan := true }
    | none => s1
  State.settle s s2 (s.loanList i) []

/-- The record found is bound to the bay, by its state (R58, R59). -/
def State.bindFound (s : State) (r b i : Nat) (g : Generation) (v : Report) (x : Record) : State :=
  if x.bay.isSome then s.foreignBay r b (.foreign r b)
  else
    match x.state with
    | .absent => s.bindDocked r b i g v x
    | .onLoan | .overdue | .missing => s.bindReturned r b i g v
    | .retired => (s.setRecord i (some (x.bound r b g v))).occupy r b i
    | _ => s.foreignBay r b (.foreign r b)

/-- An IDENTIFY completes at its bay (R5, R57, R58). -/
def State.identified (s : State) (r : Nat) (q : Req) (v : Report) : State :=
  let s1 := s.endAttempt r
  match generationOf v.generation with
  | none => s1.foreignBay r q.bay (.foreign r q.bay)
  | some g =>
    if v.rid = 0 ∨ v.firmware = 0 then s1.foreignBay r q.bay (.foreign r q.bay)
    else
      match s1.indexOfRid v.rid with
      | none =>
        match s1.freePosition with
        | none => s1.foreignBay r q.bay (.fleetFull r q.bay)
        | some i => s1.bindDocked r q.bay i g v (newRecord v.rid g)
      | some i =>
        match s1.record i with
        | none => s1
        | some x => s1.bindFound r q.bay i g v x

/-! ## PROGRAM, READ_USAGE and GAUGE (R61 to R67) -/

/-- A PROGRAM completes (R61), or ends withdrawn (R62). -/
def State.programmed (s : State) (r : Nat) (q : Req) : State :=
  let s1 := s.endAttempt r
  match q.record with
  | none => s1
  | some i =>
    if q.withdraw then s1.endWithdrawn i
    else
      match s1.record i with
      | none => s1
      | some x =>
        let s2 := ((s1.setRecord i (some { x with state := .released })).setLatch r q.bay true).wake r
        let s3 := s2.setTimer i (some { length := s.settings.releaseWindow * secondTicks, elapsed := 0 })
        match x.programme with
        | some p => s3.gainListener p
        | none => s3

/-- What a READ_USAGE writes into its record (R64). -/
def Record.usageRead (x : Record) (minutes : List Nat) : Record :=
  { x with
    listeningMinutes := min max32 (x.listeningMinutes + minutes.sum)
    loansServed := if x.backFromLoan then min max32 (x.loansServed + 1) else x.loansServed
    usagePending := false
    backFromLoan := false }

/-- The record is tested for readiness, and offered if it has become READY (R14, R64, R65). -/
def State.testAndOffer (s : State) (i : Nat) : State :=
  let s1 := s.testReadiness i
  if s1.recordIs i .ready && !s.recordIs i .ready then s1.offer i else s1

/-- A READ_USAGE completes (R64). -/
def State.usageRead (s : State) (r : Nat) (q : Req) (minutes : List Nat) : State :=
  let s1 := s.endAttempt r
  match q.record with
  | none => s1
  | some i => (s1.modRecord i fun x => x.usageRead minutes).testAndOffer i

/-- The end of a GAUGE (R66): the PROGRAM of a record reserved meanwhile is queued. -/
def State.endGauge (s : State) (i : Nat) : State := if s.recordIs i .reserved then s.askProgram i else s

/-- A GAUGE completes (R65), or reports a cell fault (R67). -/
def State.gauged (s : State) (r : Nat) (q : Req) (soc : Nat) (thermal cellFault : Bool) : State :=
  let s1 := s.endAttempt r
  match q.record with
  | none => s1
  | some i =>
    if cellFault then (s1.faultRecord i).endGauge i
    else
      ((s1.modRecord i fun x => { x with soc := some (min 1000 soc), thermalHold := thermal }).endGauge i).testAndOffer i

/-! ## Words (R53 to R56) -/

/-- The completion that the words taken spell (R190; log 4). -/
def State.complete (s : State) (r : Nat) (q : Req) (ws : List Nat) : State :=
  let w := fun n => (ws[n]?).getD 0
  match q.kind with
  | .program => State.finish s (s.programmed r q) []
  | .identify =>
    State.finish s
      (s.identified r q
        { rid := w 0 + 65536 * w 1, generation := w 2 % 256, thermal := (w 2).testBit 8, soc := w 3, firmware := w 4 }) [r]
  | .readUsage => State.finish s (s.usageRead r q ((ws.drop 1).dropLast.map (· % 1024))) []
  | .gauge => State.finish s (s.gauged r q (w 0) ((w 1).testBit 0) ((w 1).testBit 1)) [r]

/-- WORD_CROSSED (R53 to R55): the attempt goes on, fails or completes. -/
def State.wordCrossed (s : State) (r word : Nat) : State :=
  let c := s.channel r
  match c.inFlight, c.crossed word with
  | some q, some w =>
    if decide (r < 4) && c.exchanging then
      if c.wordFails q.kind w then (s.setChannel r (c.took q.kind w)).failAttempt r
      else if (c.took q.kind w).wordsRemaining = 0 then s.complete r q (c.took q.kind w).words
      else s.setChannel r (c.took q.kind w)
    else s
  | _, _ => s

/-- WORD_TIMEOUT (R53). A word that has crossed since the timeout fell due has the next one waited for afresh. -/
def State.wordTimeout (s : State) (r : Nat) : State :=
  if decide (r < 4) && (s.channel r).wordDue then s.failAttempt r else s

/-- The request in flight of a kind that is still exchanging words. -/
def State.completing (s : State) (r : Nat) (kind : Kind) : Option Req :=
  if decide (r < 4) && (s.channel r).exchanging then (s.channel r).inFlight.filter (fun q => q.kind == kind) else none

/-- An IDENTIFY_COMPLETION (R57). -/
def State.identifyCompletion (s : State) (r : Nat) (v : Report) : State :=
  match s.completing r .identify with
  | some q => State.finish s (s.identified r q v) [r]
  | none => s

/-- A PROGRAM_COMPLETION (R61, R62). -/
def State.programCompletion (s : State) (r : Nat) : State :=
  match s.completing r .program with
  | some q => State.finish s (s.programmed r q) []
  | none => s

/-- A READ_USAGE_COMPLETION (R64). -/
def State.readUsageCompletion (s : State) (r : Nat) (minutes : List Nat) : State :=
  match s.completing r .readUsage with
  | some q => State.finish s (s.usageRead r q minutes) []
  | none => s

/-- A GAUGE_COMPLETION (R65 to R67). -/
def State.gaugeCompletion (s : State) (r soc : Nat) (thermal cellFault : Bool) : State :=
  match s.completing r .gauge with
  | some q => State.finish s (s.gauged r q soc thermal cellFault) [r]
  | none => s

/-! ## The gauge poll (R69) -/

/-- The record of a bay that the poll reaches: OCCUPIED, in one of four states, with no request at the bay. -/
def State.polled (s : State) (r b : Nat) : Option Nat :=
  if (s.bay r b).state = .occupied ∧ (s.requestAt r b).isNone then
    (s.bay r b).bound.filter fun i =>
      s.recordIs i .docked || s.recordIs i .ready || s.recordIs i .reserved || s.recordIs i .released
  else none

/-- The gauge poll timer of a rack fires (R69). -/
def State.firePoll (s : State) (r : Nat) : State :=
  bayNumbers.foldl (fun t b => match t.polled r b with | some i => t.ask r b .gauge (some i) none | none => t)
    (s.setChannel r { s.channel r with gaugeElapsed := 0 })

/-- GAUGE_POLL (R69). A timer that has fired at a write of GAUGE_INTERVAL, or that is short of the value written, does not
fire. -/
def State.gaugePoll (s : State) (r : Nat) : State :=
  if decide (r < 4) && s.pollDue r then State.finish s (s.firePoll r) [] else s

/-! ## Meanings -/

/-- SCAN_COMPLETION. -/
def execScanCompletion (rack reading : Nat) (s : State) : Host.Outcome State Fault Refusal :=
  s.event (s.scanCompletion rack reading)

/-- SWEEP_WAIT_EXPIRY. -/
def execSweepWaitExpiry (rack : Nat) (s : State) : Host.Outcome State Fault Refusal := s.event (s.sweepWaitExpiry rack)

/-- COLD_AFTER_EXPIRY. -/
def execColdAfterExpiry (rack : Nat) (s : State) : Host.Outcome State Fault Refusal := s.event (s.coldAfterExpiry rack)

/-- CONFIRMING_SCAN. -/
def execConfirmingScan (rack reading : Nat) (s : State) : Host.Outcome State Fault Refusal :=
  s.event (s.confirmingScan rack reading)

/-- BYTE_CROSSED (R54). -/
def execByteCrossed (rack byte : Nat) (s : State) : Host.Outcome State Fault Refusal :=
  s.event (if rack < 4 then s.takeByte rack byte else s)

/-- WORD_CROSSED. -/
def execWordCrossed (rack word : Nat) (s : State) : Host.Outcome State Fault Refusal := s.event (s.wordCrossed rack word)

/-- WORD_TIMEOUT. -/
def execWordTimeout (rack : Nat) (s : State) : Host.Outcome State Fault Refusal := s.event (s.wordTimeout rack)

/-- IDENTIFY_COMPLETION. -/
def execIdentifyCompletion (rack rid generation : Nat) (thermal : Bool) (soc firmware : Nat) (s : State) :
    Host.Outcome State Fault Refusal :=
  s.event (s.identifyCompletion rack
    { rid := rid, generation := generation, thermal := thermal, soc := soc, firmware := firmware })

/-- PROGRAM_COMPLETION. -/
def execProgramCompletion (rack : Nat) (s : State) : Host.Outcome State Fault Refusal := s.event (s.programCompletion rack)

/-- READ_USAGE_COMPLETION. -/
def execReadUsageCompletion (rack : Nat) (minutes : List Nat) (s : State) : Host.Outcome State Fault Refusal :=
  s.event (s.readUsageCompletion rack minutes)

/-- GAUGE_COMPLETION. -/
def execGaugeCompletion (rack soc : Nat) (thermal cellFault : Bool) (s : State) : Host.Outcome State Fault Refusal :=
  s.event (s.gaugeCompletion rack soc thermal cellFault)

/-- GAUGE_POLL. -/
def execGaugePoll (rack : Nat) (s : State) : Host.Outcome State Fault Refusal := s.event (s.gaugePoll rack)

end Sys2Proof.Machine
end

