-- ==== Sys2Proof/Machine/SettingsRequests.lean ====
section
/-! DEFINITION. The SETTINGS requests but for RESTART: READ_SETTING, SET_SETTING for each setting, SET_CLOCK, SET_RESERVE,
SET_ACCESS and LOCK_ACCESS (spec/10_links_access_and_notices.md, R179 to R181, and the rule of each setting). -/

namespace Sys2Proof.Machine

/-- OK with the value applied (R181). -/
def State.applied (s : State) (value : Nat) : Answer := s.ok (bytes2 value)

/-- READ_SETTING (R181). -/
def State.readSetting (s : State) (setting rack : Nat) : Answer :=
  match s.settingValue setting rack with
  | none => s.no .badRequest
  | some v => s.applied v

/-- RACK_LIMIT (R80): the staged limit, a multiple of 50, and a staging of the rack. -/
def State.setRackLimit (s : State) (rack value : Nat) : Answer :=
  if 3 < rack then s.no .badRequest
  else
    let v := fit 0 16000 value / 50 * 50
    (State.finish s (s.setRackCharge rack { s.rackCharge rack with stagedLimit := v }) [rack]).applied v

/-- SENSE_THRESHOLD (R27): used from the next scan completion. -/
def State.setSenseThreshold (s : State) (value : Nat) : Answer :=
  let v := fit 40 1000 value
  (s.setSettings { s.settings with senseThreshold := v }).applied v

/-- BASE_INIT (R45): used at the next warm restart. -/
def State.setBaseInit (s : State) (value : Nat) : Answer :=
  let v := fit 0 4095 value
  (s.setSettings { s.settings with baseInit := v }).applied v

/-- COLD_AFTER (R35): compared with every rack's quiet time at once. -/
def State.setColdAfter (s : State) (value : Nat) : Answer :=
  let v := fit 10 600 value
  (rackNumbers.foldl State.coolIfQuiet (s.setSettings { s.settings with coldAfter := v })).applied v

/-- A rack whose gauge poll elapsed reaches a GAUGE_INTERVAL just written fires (R69). -/
def State.pollIfReached (s : State) (r : Nat) : State :=
  if s.pollDue r then s.firePoll r else s

/-- GAUGE_INTERVAL (R69): compared with every rack's gauge poll elapsed at once. -/
def State.setGaugeInterval (s : State) (value : Nat) : Answer :=
  let v := fit 10 300 value
  (State.finish s (rackNumbers.foldl State.pollIfReached (s.setSettings { s.settings with gaugeInterval := v })) []).applied v

/-- READY_LEVEL (R16): every DOCKED and READY record is retested in ascending index, each offered as it becomes READY, and
every rack is restaged. -/
def State.setReadyLevel (s : State) (value : Nat) : Answer :=
  let v := fit 500 1000 value
  let s1 := s.setSettings { s.settings with readyLevel := v }
  (State.finish s (s1.recordIndices.foldl State.testAndOffer s1) rackNumbers).applied v

/-- RELEASE_WINDOW (R120): used by windows started after the write. -/
def State.setReleaseWindow (s : State) (value : Nat) : Answer :=
  let v := fit 10 300 value
  (s.setSettings { s.settings with releaseWindow := v }).applied v

/-- MISSING_AFTER (R168): used at each examination after the write. -/
def State.setMissingAfter (s : State) (value : Nat) : Answer :=
  let v := fit 60 3600 value
  (s.setSettings { s.settings with missingAfter := v }).applied v

/-- The microphones whose keep-alive reaches KEEPALIVE (R139). -/
def State.staleMics (s : State) : List Nat := (Table.keys s.floor.mics).filter s.keepAliveDue

/-- The keep-alives that reach KEEPALIVE at one write expire at that event (R139), one after another in an order the spec
leaves open, one that an earlier expiry has ended passed over (log 20). The test of R144 is the event's: a house floor that
was live and is not at its end takes the cascade entries with it, and one granted again by then has not ceased to be live. -/
def State.expireAll (s : State) (ms : List Nat) : State :=
  let s1 := if ms.length ≤ 1 then s else s.draw.2
  let s2 := (arrange (Config.simultaneousOrder s.draws) ms.length ms).foldl
    (fun t m => if t.keepAliveDue m then t.expireAmong m else t) s1
  if s.houseLive then s2.dropCascadesIfSilent else s2

/-- KEEPALIVE (R139): compared with every running keep-alive at once. -/
def State.setKeepalive (s : State) (value : Nat) : Answer :=
  let v := fit 1 10 value
  let s1 := s.setSettings { s.settings with keepalive := v }
  (State.finishFloors s (s1.expireAll s1.staleMics)).applied v

/-- The held slots of the next plan fit a split (R158). -/
def State.slotsFit (s : State) (split : Nat) : Bool :=
  s.usedSlots.all fun i =>
    match s.entry i with
    | .free => true
    | .down _ _ => decide (i < split)
    | .up _ _ => decide (split ≤ i)

/-- The state with the split of the next plan written (R158). -/
def State.setSplit (s : State) (split : Nat) : State :=
  { s with air := { s.air with nextPlan := { s.air.nextPlan with split := split } } }

/-- DL_SLOTS (R158): refused while held slots do not fit, else the free slots that change half are offered. -/
def State.setDlSlots (s : State) (value : Nat) : Answer :=
  let v := fit 16 56 value
  if s.slotsFit v then
    let s1 := s.setSplit v
    let s2 :=
      if s.air.nextPlan.split < v then serveDownlink s1.air.downlinkQueue.length s1
      else if v < s.air.nextPlan.split then s1.offerUplink
      else s1
    (State.finishFloors s s2).applied v
  else s.no .busy

/-- DEFAULT_DURATION (R94): used at each OPEN_TOUR with duration 0 after the write. -/
def State.setDefaultDuration (s : State) (value : Nat) : Answer :=
  let v := fit 10 480 value
  (s.setSettings { s.settings with defaultDuration := v }).applied v

/-- SET_CLOCK (R162): the clock is set and its sub-second phase restarts. -/
def State.setClock (s : State) (seconds : Nat) : Answer :=
  ({ s with age := { s.age with clock := seconds, clockPhase := 0 } }).ok (bytes4 seconds)

/-- The staged range of a SET_RESERVE, tested at once (R17, R18); the empty range always passes (R17). -/
def State.stageReserve (s : State) (range : Option (Nat × Nat)) : State :=
  match range with
  | none => { s with fleet := { s.fleet with applied := none } }
  | some (lo, hi) => { s with fleet := { s.fleet with staged := some { lo := lo, hi := hi } } }.testReserve

/-- A range SET_RESERVE refuses (R17). -/
def badRange : Option (Nat × Nat) → Bool
  | none => false
  | some (lo, hi) => decide (hi < lo) || decide (1023 < hi)

/-- SET_RESERVE (R17), after the access check; a bad range is refused before a pending one (log 11). -/
def State.setReserve (s : State) (range : Option (Nat × Nat)) : Answer :=
  if badRange range then s.no .badRequest
  else if s.fleet.staged.isSome then s.no .busy
  else
    let s1 := s.stageReserve range
    let s2 := State.finish s (State.offerFreed s s1 []) []
    s2.ok (bytes1 s2.reserveStatus)

/-- The link of a code (R189). -/
def linkOf : Nat → Option Link
  | 0 => some .desk
  | 1 => some .radio
  | 2 => some .service
  | _ => none

/-- The group of a code (R189). -/
def groupOf : Nat → Option Group
  | 0 => some .fleet
  | 1 => some .rack
  | 2 => some .loan
  | 3 => some .tour
  | 4 => some .floor
  | 5 => some .air
  | 6 => some .settings
  | 7 => some .override
  | _ => none

/-- The right of a code (R189). -/
def rightOf : Nat → Option Right
  | 0 => some .none
  | 1 => some .read
  | 2 => some .write
  | 3 => some .readWrite
  | _ => none

/-- SET_ACCESS (R179), after the access check. -/
def State.setAccess (s : State) (link group right : Nat) (reserveUse : Bool) : Answer :=
  match linkOf link, groupOf group, rightOf right with
  | some k, some g, some x => (s.setRights k { (s.rights k).setOn g x with reserveUse := reserveUse }).ok []
  | _, _, _ => s.no .badRequest

/-- LOCK_ACCESS (R180), after the access check. -/
def State.lockAccess (s : State) : Answer := ({ s with access := { s.access with lock := true } }).ok []

/-! ## Meanings -/

/-- READ_SETTING. -/
def execReadSetting (l : Link) (setting rack : Nat) (s : State) : Host.Outcome State Fault Refusal :=
  s.serveRead l .settings (s.readSetting setting rack)

/-- SET_SETTING, RACK_LIMIT. -/
def execSetSettingRackLimit (l : Link) (rack value : Nat) (s : State) : Host.Outcome State Fault Refusal :=
  s.serveWrite l .settings (s.setRackLimit rack value)

/-- SET_SETTING, SENSE_THRESHOLD; the rack argument is ignored (R181), here and below. -/
def execSetSettingSenseThreshold (l : Link) (_rack value : Nat) (s : State) : Host.Outcome State Fault Refusal :=
  s.serveWrite l .settings (s.setSenseThreshold value)

/-- SET_SETTING, BASE_INIT. -/
def execSetSettingBaseInit (l : Link) (_rack value : Nat) (s : State) : Host.Outcome State Fault Refusal :=
  s.serveWrite l .settings (s.setBaseInit value)

/-- SET_SETTING, COLD_AFTER. -/
def execSetSettingColdAfter (l : Link) (_rack value : Nat) (s : State) : Host.Outcome State Fault Refusal :=
  s.serveWrite l .settings (s.setColdAfter value)

/-- SET_SETTING, GAUGE_INTERVAL. -/
def execSetSettingGaugeInterval (l : Link) (_rack value : Nat) (s : State) : Host.Outcome State Fault Refusal :=
  s.serveWrite l .settings (s.setGaugeInterval value)

/-- SET_SETTING, READY_LEVEL. -/
def execSetSettingReadyLevel (l : Link) (_rack value : Nat) (s : State) : Host.Outcome State Fault Refusal :=
  s.serveWrite l .settings (s.setReadyLevel value)

/-- SET_SETTING, RELEASE_WINDOW. -/
def execSetSettingReleaseWindow (l : Link) (_rack value : Nat) (s : State) : Host.Outcome State Fault Refusal :=
  s.serveWrite l .settings (s.setReleaseWindow value)

/-- SET_SETTING, MISSING_AFTER. -/
def execSetSettingMissingAfter (l : Link) (_rack value : Nat) (s : State) : Host.Outcome State Fault Refusal :=
  s.serveWrite l .settings (s.setMissingAfter value)

/-- SET_SETTING, KEEPALIVE. -/
def execSetSettingKeepalive (l : Link) (_rack value : Nat) (s : State) : Host.Outcome State Fault Refusal :=
  s.serveWrite l .settings (s.setKeepalive value)

/-- SET_SETTING, DL_SLOTS. -/
def execSetSettingDlSlots (l : Link) (_rack value : Nat) (s : State) : Host.Outcome State Fault Refusal :=
  s.serveWrite l .settings (s.setDlSlots value)

/-- SET_SETTING, DEFAULT_DURATION. -/
def execSetSettingDefaultDuration (l : Link) (_rack value : Nat) (s : State) : Host.Outcome State Fault Refusal :=
  s.serveWrite l .settings (s.setDefaultDuration value)

/-- SET_CLOCK. -/
def execSetClock (l : Link) (seconds : Nat) (s : State) : Host.Outcome State Fault Refusal :=
  s.serveWrite l .settings (s.setClock seconds)

/-- SET_RESERVE. -/
def execSetReserve (l : Link) (range : Option (Nat × Nat)) (s : State) : Host.Outcome State Fault Refusal :=
  s.serveWrite l .settings (s.underLock (s.setReserve range))

/-- SET_ACCESS. -/
def execSetAccess (l : Link) (link group right : Nat) (reserveUse : Bool) (s : State) :
    Host.Outcome State Fault Refusal :=
  s.serveWrite l .settings (s.underLock (s.setAccess link group right reserveUse))

/-- LOCK_ACCESS. -/
def execLockAccess (l : Link) (s : State) : Host.Outcome State Fault Refusal :=
  s.serveWrite l .settings (s.underLock s.lockAccess)

end Sys2Proof.Machine
end

