-- ==== Sys2Proof/Machine/TimedEvents.lean ====
section
/-! DEFINITION. The events of the part's own timers: the charge frame (spec/04_charge_allocation.md, R82), keep-alives
(spec/07_talk_floor.md, R139), release windows (spec/06_loans.md, R121), the air frame (spec/08_air_frame_plan.md, R150,
R151), the clock and the aging sweep (spec/09_presence_tracking_and_loan_aging.md, R161, R166 to R168). -/

namespace Sys2Proof.Machine

/-- CHARGE_FRAME_BOUNDARY (R82): every rack's staged values are applied. -/
def State.chargeFrameBoundary (s : State) : State :=
  let s1 := rackNumbers.foldl State.applyRack s
  { s1 with charge := { s1.charge with frameTime := 0 } }

/-- KEEPALIVE_EXPIRY (R139). Of a microphone that is no longer TALKING, or whose keep-alive a TALK_ACTIVE has started
again, it changes nothing (R140). -/
def State.keepaliveExpiry (s : State) (m : Nat) : State :=
  if (s.mic m).state = .talking ∧ s.keepAliveDue m then State.finishFloors s (s.expireKeepAlive m) else s

/-- An index joins the passed list of a loan (R121). -/
def Loan.passOver (l : Loan) (i : Nat) : Loan := { l with passed := l.passed ++ [i] }

/-- RELEASE_WINDOW_EXPIRY (R121): the record leaves its loan, joins its passed list, and is offered if it goes READY; with
no timer the expiry does nothing. -/
def State.releaseWindowExpiry (s : State) (i : Nat) : State :=
  match s.timer i, s.loanOf i with
  | some _, some id =>
    let s1 := (s.withdraw i).modLoan id fun l => l.passOver i
    State.finish s (State.settle s s1 [id] (s1.readyOf [i])) []
  | _, _ => s

/-- COMPARE_A (R150). -/
def State.compareA (s : State) : State := { s with air := { s.air with phaseHigh := true } }

/-- FRAME_BOUNDARY (R150, R151). -/
def State.frameBoundary (s : State) : State :=
  { s with air := { s.air with
    frameTime := 0
    frameSplit := s.air.nextPlan.split
    currentPlan := s.air.nextPlan
    sequence := (s.air.sequence + 1) % 65536
    phaseHigh := false
    syncHigh := true } }

/-- CLOCK_ADVANCE (R161). -/
def State.clockAdvance (s : State) : State :=
  { s with age := { s.age with clock := (s.age.clock + 1) % 4294967296, clockPhase := 0 } }

/-- At or past its due (R168). -/
def Record.pastDue (x : Record) (now : Nat) : Bool :=
  match x.due with
  | some d => decide (d ≤ now)
  | none => false

/-- The silence of a record has reached a length; a last_heard later than now is taken as now (R168). -/
def Record.silentFor (x : Record) (now length : Nat) : Bool :=
  match x.lastHeard with
  | some h => decide (length ≤ now - h)
  | none => false

/-- Test 1 of an examination (R167). -/
def State.ageDue (s : State) (i : Nat) (x : Record) : State × Record :=
  if x.state = .onLoan ∧ x.pastDue s.age.clock then
    let y := { x with overdueFlag := true, state := .overdue }
    ((s.setRecord i (some y)).post (.overdue i), y)
  else (s, x)

/-- Tests 2 and 3 of an examination (R167). -/
def State.ageSilence (s : State) (i : Nat) (x : Record) : State :=
  if (x.state = .onLoan ∨ x.state = .overdue) ∧ x.silentFor s.age.clock s.settings.missingAfter then
    (s.setRecord i (some { x with state := .missing })).post (.missing i)
  else if x.state = .missing ∧ x.overdueFlag = false ∧ x.pastDue s.age.clock then
    s.setRecord i (some { x with overdueFlag := true })
  else s

/-- The examination of a position (R167); a free position is passed over. -/
def State.examine (s : State) (i : Nat) : State :=
  match s.record i with
  | none => s
  | some x => (s.ageDue i x).1.ageSilence i (s.ageDue i x).2

/-- SWEEP_STEP (R166): 8 positions from the pointer are examined and the pointer advances by 8. -/
def State.sweepStep (s : State) : State :=
  let p := s.age.sweepPointer
  let s1 := (List.range 8).foldl (fun t k => t.examine ((p + k) % 1024)) s
  { s1 with age := { s1.age with sweepPointer := (p + 8) % 1024, stepTime := 0 } }

/-! ## Meanings -/

/-- CHARGE_FRAME_BOUNDARY (R81): a reset taken first begins the frame afresh. -/
def execChargeFrameBoundary (s : State) : Host.Outcome State Fault Refusal :=
  s.timed (decide (chargeFrameTicks ≤ s.charge.frameTime)) s.chargeFrameBoundary

/-- KEEPALIVE_EXPIRY. -/
def execKeepaliveExpiry (mic : Nat) (s : State) : Host.Outcome State Fault Refusal := s.event (s.keepaliveExpiry mic)

/-- RELEASE_WINDOW_EXPIRY (R120): a window started since is of another handout. -/
def execReleaseWindowExpiry (index : Nat) (s : State) : Host.Outcome State Fault Refusal :=
  s.timed (s.windowDue index) (s.releaseWindowExpiry index)

/-- COMPARE_A (R150): a reset taken first begins the frame afresh. -/
def execCompareA (s : State) : Host.Outcome State Fault Refusal :=
  s.timed (decide (s.air.frameSplit * slotTicks ≤ s.air.frameTime)) s.compareA

/-- FRAME_BOUNDARY (R150): a reset taken first begins the frame afresh. -/
def execFrameBoundary (s : State) : Host.Outcome State Fault Refusal :=
  s.timed (decide (frameTicks ≤ s.air.frameTime)) s.frameBoundary

/-- CLOCK_ADVANCE (R161): one second after the last event that set the clock's phase, a SET_CLOCK or a reset. -/
def execClockAdvance (s : State) : Host.Outcome State Fault Refusal :=
  s.timed (decide (secondTicks ≤ s.age.clockPhase)) s.clockAdvance

/-- SWEEP_STEP (R166): a reset taken first begins the 250 ms afresh. -/
def execSweepStep (s : State) : Host.Outcome State Fault Refusal :=
  s.timed (decide (stepTicks ≤ s.age.stepTime)) s.sweepStep

end Sys2Proof.Machine
end

