-- ==== Sys2Proof/Machine/TourRequests.lean ====
section
/-! DEFINITION. The TOUR requests and FORCE_CLOSE (spec/05_tours_and_programmes.md, R93 to R100, R103). -/

namespace Sys2Proof.Machine

/-- READ_TOUR (R103). -/
def State.readTour (s : State) (t : Nat) : Answer :=
  if t = 0 ∨ 32 < t then s.no .badRequest else s.ok (s.tourBytes t)

/-- READ_PROGRAMME (R103). -/
def State.readProgramme (s : State) (p : Nat) : Answer := if 63 < p then s.no .badRequest else s.ok (s.programmeBytes p)

/-! ## Opening -/

/-- A tour ID is available: FREE, and named by no loan (R94). -/
def State.tourAvailable (s : State) (t : Nat) : Bool := (s.tour t).state == .free && (s.loansOfTour t).isEmpty

/-- A programme ID is available: not in use, and named by no loan (R94). -/
def State.programmeAvailable (s : State) (p : Nat) : Bool :=
  !(s.programme p).inUse &&
    s.loanIds.all (fun id => match s.loan id with | some l => l.programme != p | none => true)

/-- The duration OPEN_TOUR applies (R94). -/
def State.fitDuration (s : State) (duration : Nat) : Nat :=
  if duration = 0 then s.settings.defaultDuration else fit 10 480 duration

/-- A programme is taken into use for a tour with a language code: its key from the key counter (R93), its relay flag on,
its floor empty but for the cascade entry while the house floor is live (R95, R143). -/
def State.takeProgramme (s : State) (t : Nat) (e : Nat × Nat) : State :=
  let k := s.tours.nextKey
  let s1 := s.setProgramme e.1 { inUse := true, tour := some t, language := e.2, key := k, listeners := 0, relay := true }
  let s2 := s1.setFloor e.1 { waiting := [], stack := if s.houseLive then [.cascade] else [], mask := 8 }
  { s2 with tours := { s2.tours with nextKey := if k = 65535 then 1 else k + 1 } }

/-- OPEN_TOUR (R94, R95). It posts no notice (log 8). -/
def State.openTour (s : State) (duration : Nat) (codes : List Nat) : Answer :=
  if codes.length = 0 ∨ 4 < codes.length ∨ codes.any (fun c => decide (15 < c)) then s.no .badRequest
  else
    match ((List.range 33).drop 1).find? s.tourAvailable with
    | none => s.no .full
    | some t =>
      let ps := (tourProgrammes.filter s.programmeAvailable).take codes.length
      if ps.length < codes.length then s.no .full
      else
        let d := s.fitDuration duration
        let s1 := (ps.zip codes).foldl (fun u e => u.takeProgramme t e) s
        let s2 := s1.setTour t { state := .opened, programmes := ps, duration := some d }
        s2.ok (bytes1 t ++ bytes2 d ++ listBytes (ps.map fun p => bytes1 p ++ bytes2 (s2.programme p).key))

/-! ## Closing -/

/-- CLOSE_TOUR (R96): every loan of the tour is cancelled in ascending ID, its floors are closed (R145), and the tests and
offers follow (log 9). -/
def State.closeTour (s : State) (t : Nat) : Answer :=
  if t = 0 ∨ 32 < t then s.no .badRequest
  else if (s.tour t).state ≠ .opened then s.no .busy
  else
    let ids := s.loansOfTour t
    let held := (ids.map s.outstandingOf).flatten
    let s1 := s.setTour t { s.tour t with state := .closing }
    let s2 := (ids.foldl State.cancelLoan s1).closeFloors (s.tour t).programmes
    let s3 := (ids.foldl State.closeLoan s2).testTour t
    let s4 := State.finish s (State.settle s s3 [] (s3.readyOf held)) []
    s4.ok (bytes1 (s4.tour t).state.code)

/-- The number of records of some loans that stand in their outstanding lists. -/
def State.countOutstanding (s : State) (ids : List Nat) : Nat := (ids.map fun id => (s.outstandingOf id).length).sum

/-- FORCE_CLOSE (R98, R99): the records of its loans are accounted, its floors are closed, its programmes leave use and
the tour goes FREE. -/
def State.forceClose (s : State) (t : Nat) : Answer :=
  if t = 0 ∨ 32 < t then s.no .badRequest
  else if (s.tour t).state = .free then s.no .busy
  else
    let ids := s.loansOfTour t
    let held := (ids.map s.outstandingOf).flatten
    let s1 := ids.foldl State.forceLoan s
    let s2 := ids.foldl State.closeLoan s1
    let s3 := (s2.closeFloors (s.tour t).programmes).freeTour t
    let s4 := State.finish s (State.settle s s3 [] (s3.readyOf held)) []
    s4.ok (bytes2 (s.countOutstanding ids - s1.countOutstanding ids) ++ bytes1 (s4.loansOfTour t).length)

/-! ## Relay -/

/-- SET_RELAY (R100). -/
def State.setRelay (s : State) (p : Nat) (relay : Bool) : Answer :=
  if p = 0 ∨ 63 < p then s.no .badRequest
  else if !(s.programme p).inUse then s.no .notFound
  else
    let s1 := s.setProgramme p { s.programme p with relay := relay }
    let s2 := if (s.programme p).relay ≠ relay ∧ s.houseLive then
      (if relay then s1.pushCascade p else s1.dropCascade p) else s1
    (State.finishFloors s s2).ok []

/-! ## Meanings -/

/-- READ_TOUR. -/
def execReadTour (l : Link) (tour : Nat) (s : State) : Host.Outcome State Fault Refusal :=
  s.serveRead l .tour (s.readTour tour)

/-- READ_PROGRAMME. -/
def execReadProgramme (l : Link) (programme : Nat) (s : State) : Host.Outcome State Fault Refusal :=
  s.serveRead l .tour (s.readProgramme programme)

/-- OPEN_TOUR. -/
def execOpenTour (l : Link) (duration : Nat) (codes : List Nat) (s : State) : Host.Outcome State Fault Refusal :=
  s.serveWrite l .tour (s.openTour duration codes)

/-- CLOSE_TOUR. -/
def execCloseTour (l : Link) (tour : Nat) (s : State) : Host.Outcome State Fault Refusal :=
  s.serveWrite l .tour (s.closeTour tour)

/-- SET_RELAY. -/
def execSetRelay (l : Link) (programme : Nat) (relay : Bool) (s : State) : Host.Outcome State Fault Refusal :=
  s.serveWrite l .tour (s.setRelay programme relay)

/-- FORCE_CLOSE. -/
def execForceClose (l : Link) (tour : Nat) (s : State) : Host.Outcome State Fault Refusal :=
  s.serveWrite l .override (s.forceClose tour)

end Sys2Proof.Machine
end

