-- ==== Sys2Proof/Machine/Dispatch.lean ====
section
/-! DEFINITION. The meaning of a command: one arm per constructor, each a direct call of its own meaning. -/

namespace Sys2Proof.Machine

/-- The effect of a command on everything but the queue. -/
def exec (i : Instr) (s : State) : Host.Outcome State Fault Refusal :=
  match i with
  | .readStatus l => Sys2Proof.Machine.execReadStatus l s
  | .readNotices l => Sys2Proof.Machine.execReadNotices l s
  | .setNoticeMask l mask => Sys2Proof.Machine.execSetNoticeMask l mask s
  | .readRecord l index => Sys2Proof.Machine.execReadRecord l index s
  | .find l rid => Sys2Proof.Machine.execFind l rid s
  | .enrol l rid generation index => Sys2Proof.Machine.execEnrol l rid generation index s
  | .retire l rid => Sys2Proof.Machine.execRetire l rid s
  | .reinstate l rid => Sys2Proof.Machine.execReinstate l rid s
  | .remove l rid => Sys2Proof.Machine.execRemove l rid s
  | .clearFaultRecord l rid => Sys2Proof.Machine.execClearFaultRecord l rid s
  | .clearFaultBay l rack bay => Sys2Proof.Machine.execClearFaultBay l rack bay s
  | .writeOff l rid => Sys2Proof.Machine.execWriteOff l rid s
  | .readBay l rack bay => Sys2Proof.Machine.execReadBay l rack bay s
  | .readRack l rack => Sys2Proof.Machine.execReadRack l rack s
  | .readLoan l loan => Sys2Proof.Machine.execReadLoan l loan s
  | .issue l tour programme count reserve => Sys2Proof.Machine.execIssue l tour programme count reserve s
  | .add l loan n => Sys2Proof.Machine.execAdd l loan n s
  | .cancel l loan => Sys2Proof.Machine.execCancel l loan s
  | .extend l loan due => Sys2Proof.Machine.execExtend l loan due s
  | .readTour l tour => Sys2Proof.Machine.execReadTour l tour s
  | .readProgramme l programme => Sys2Proof.Machine.execReadProgramme l programme s
  | .openTour l duration codes => Sys2Proof.Machine.execOpenTour l duration codes s
  | .closeTour l tour => Sys2Proof.Machine.execCloseTour l tour s
  | .setRelay l programme relay => Sys2Proof.Machine.execSetRelay l programme relay s
  | .readFloor l programme => Sys2Proof.Machine.execReadFloor l programme s
  | .bindMic l mic programme priority => Sys2Proof.Machine.execBindMic l mic programme priority s
  | .unbindMic l mic => Sys2Proof.Machine.execUnbindMic l mic s
  | .talkRequest l mic => Sys2Proof.Machine.execTalkRequest l mic s
  | .talkActive l mic => Sys2Proof.Machine.execTalkActive l mic s
  | .talkRelease l mic => Sys2Proof.Machine.execTalkRelease l mic s
  | .cut l programme => Sys2Proof.Machine.execCut l programme s
  | .setMask l programme level => Sys2Proof.Machine.execSetMask l programme level s
  | .readPlan l => Sys2Proof.Machine.execReadPlan l s
  | .reportBeacon l rid zone quality => Sys2Proof.Machine.execReportBeacon l rid zone quality s
  | .readSetting l setting rack => Sys2Proof.Machine.execReadSetting l setting rack s
  | .setSettingRackLimit l rack value => Sys2Proof.Machine.execSetSettingRackLimit l rack value s
  | .setSettingSenseThreshold l rack value => Sys2Proof.Machine.execSetSettingSenseThreshold l rack value s
  | .setSettingBaseInit l rack value => Sys2Proof.Machine.execSetSettingBaseInit l rack value s
  | .setSettingColdAfter l rack value => Sys2Proof.Machine.execSetSettingColdAfter l rack value s
  | .setSettingGaugeInterval l rack value => Sys2Proof.Machine.execSetSettingGaugeInterval l rack value s
  | .setSettingReadyLevel l rack value => Sys2Proof.Machine.execSetSettingReadyLevel l rack value s
  | .setSettingReleaseWindow l rack value => Sys2Proof.Machine.execSetSettingReleaseWindow l rack value s
  | .setSettingMissingAfter l rack value => Sys2Proof.Machine.execSetSettingMissingAfter l rack value s
  | .setSettingKeepalive l rack value => Sys2Proof.Machine.execSetSettingKeepalive l rack value s
  | .setSettingDlSlots l rack value => Sys2Proof.Machine.execSetSettingDlSlots l rack value s
  | .setSettingDefaultDuration l rack value => Sys2Proof.Machine.execSetSettingDefaultDuration l rack value s
  | .setClock l seconds => Sys2Proof.Machine.execSetClock l seconds s
  | .setReserve l range => Sys2Proof.Machine.execSetReserve l range s
  | .setAccess l link group right reserveUse => Sys2Proof.Machine.execSetAccess l link group right reserveUse s
  | .lockAccess l => Sys2Proof.Machine.execLockAccess l s
  | .restart l => Sys2Proof.Machine.execRestart l s
  | .forceClose l tour => Sys2Proof.Machine.execForceClose l tour s
  | .unknownRequestCode l code args => Sys2Proof.Machine.execUnknownRequestCode l code args s
  | .readTransaction l n => Sys2Proof.Machine.execReadTransaction l n s
  | .writeTransactionAborted l bytes => Sys2Proof.Machine.execWriteTransactionAborted l bytes s
  | .fullReset => Sys2Proof.Machine.execFullReset s
  | .fullResetEnd => Sys2Proof.Machine.execFullResetEnd s
  | .scanCompletion rack reading => Sys2Proof.Machine.execScanCompletion rack reading s
  | .sweepWaitExpiry rack => Sys2Proof.Machine.execSweepWaitExpiry rack s
  | .coldAfterExpiry rack => Sys2Proof.Machine.execColdAfterExpiry rack s
  | .confirmingScan rack reading => Sys2Proof.Machine.execConfirmingScan rack reading s
  | .byteCrossed rack byte => Sys2Proof.Machine.execByteCrossed rack byte s
  | .wordCrossed rack word => Sys2Proof.Machine.execWordCrossed rack word s
  | .wordTimeout rack => Sys2Proof.Machine.execWordTimeout rack s
  | .identifyCompletion rack rid generation thermal soc firmware => Sys2Proof.Machine.execIdentifyCompletion rack rid generation thermal soc firmware s
  | .programCompletion rack => Sys2Proof.Machine.execProgramCompletion rack s
  | .readUsageCompletion rack minutes => Sys2Proof.Machine.execReadUsageCompletion rack minutes s
  | .gaugeCompletion rack soc thermal cellFault => Sys2Proof.Machine.execGaugeCompletion rack soc thermal cellFault s
  | .gaugePoll rack => Sys2Proof.Machine.execGaugePoll rack s
  | .chargeFrameBoundary => Sys2Proof.Machine.execChargeFrameBoundary s
  | .keepaliveExpiry mic => Sys2Proof.Machine.execKeepaliveExpiry mic s
  | .releaseWindowExpiry index => Sys2Proof.Machine.execReleaseWindowExpiry index s
  | .compareA => Sys2Proof.Machine.execCompareA s
  | .frameBoundary => Sys2Proof.Machine.execFrameBoundary s
  | .clockAdvance => Sys2Proof.Machine.execClockAdvance s
  | .sweepStep => Sys2Proof.Machine.execSweepStep s

end Sys2Proof.Machine
end

