-- ==== Sys2Proof/Machine/Time.lean ====
section
/-! DEFINITION. The passing of one tick of the reference clock, 1/512000 s (log 1): every counter of the part advances,
and the commands of the timers that have run their length are queued (log 2). -/

namespace Sys2Proof.Machine

/-- A rack over one tick: the wait (R24), the quiet time unless it is held at 0 (R34), the gauge poll timer (R69) and the
word in flight (R53). A scan that is due begins when neither block holds the multiplexer (R25, R45). -/
def State.advanceRack (s : State) (r : Nat) : State :=
  let c := s.scanner r
  let h := s.channel r
  (s.setScanner r { c with
    waitElapsed := if c.phase = .wait then c.waitElapsed + 1 else c.waitElapsed
    quiet := if s.heldHot r then 0 else c.quiet + 1
    holder := if c.holder = .none ∧ c.phase = .sweep then .scanner else c.holder }).setChannel r { h with
    gaugeElapsed := h.gaugeElapsed + 1
    wordElapsed := if h.exchanging then h.wordElapsed + 1 else h.wordElapsed }

/-- A keep-alive runs while it is held (R139). -/
def State.advanceMic (s : State) (m : Nat) : State :=
  s.setMic m { s.mic m with keepAlive := (s.mic m).keepAlive.map (· + 1) }

/-- A release timer runs from its start (R120). -/
def State.advanceTimer (s : State) (i : Nat) : State :=
  s.setTimer i ((s.timer i).map fun t => { t with elapsed := t.elapsed + 1 })

/-- Every counter of the part after one tick; the SYNC pulse is over (R150, log 19). -/
def State.advance (s : State) : State :=
  let s1 := rackNumbers.foldl State.advanceRack s
  let s2 := (Table.keys s1.floor.mics).foldl State.advanceMic s1
  let s3 := (Table.keys s2.loans.timers).foldl State.advanceTimer s2
  { s3 with
    charge := { s3.charge with frameTime := s3.charge.frameTime + 1 }
    air := { s3.air with frameTime := s3.air.frameTime + 1, syncHigh := false }
    age := { s3.age with clockPhase := s3.age.clockPhase + 1, stepTime := s3.age.stepTime + 1 } }

/-- The commands of a rack's timers that have run their length. -/
def State.dueOfRack (s : State) (r : Nat) : List Instr :=
  let c := s.scanner r
  let h := s.channel r
  (if c.phase = .wait ∧ c.waitLength ≤ c.waitElapsed then [Instr.sweepWaitExpiry r] else []) ++
  (if c.cadence = .hot ∧ s.settings.coldAfter * secondTicks ≤ c.quiet then [Instr.coldAfterExpiry r] else []) ++
  (if s.pollDue r then [Instr.gaugePoll r] else []) ++
  (if h.wordDue then [Instr.wordTimeout r] else [])

/-- The commands of all the timers that have run their length. -/
def State.due (s : State) : List Instr :=
  (if s.air.frameTime = s.air.frameSplit * slotTicks then [Instr.compareA] else []) ++
  (if frameTicks ≤ s.air.frameTime then [Instr.frameBoundary] else []) ++
  (if chargeFrameTicks ≤ s.charge.frameTime then [Instr.chargeFrameBoundary] else []) ++
  (if secondTicks ≤ s.age.clockPhase then [Instr.clockAdvance] else []) ++
  (if stepTicks ≤ s.age.stepTime then [Instr.sweepStep] else []) ++
  (rackNumbers.map s.dueOfRack).flatten ++
  ((Table.keys s.floor.mics).filter s.keepAliveDue).map Instr.keepaliveExpiry ++
  ((Table.keys s.loans.timers).filter s.windowDue).map Instr.releaseWindowExpiry

/-- One tick: the counters advance and the commands that fall due are queued, in an order the spec leaves open if there
are several (log 2). -/
def State.tick (s : State) : State :=
  let s1 := s.advance
  let due := s1.due
  { s1 with
    pending := s.pending ++ arrange (Config.simultaneousOrder s.draws) due.length due
    draws := if due.length ≤ 1 then s.draws else s.draws + 1 }

end Sys2Proof.Machine
end

