-- ==== Sys2Proof/Machine/Step.lean ====
section
/-! DEFINITION. One step of the part: the command at the front of the queue, or one tick of the reference clock. -/

namespace Sys2Proof.Machine

/-- A step takes the command at the front of the queue and answers its outcome on the queue's rest. On an empty queue one
tick of the reference clock passes (log 1), or nothing while the part is held in full reset (R187). -/
def step (s : State) : Host.Outcome State Fault Refusal :=
  match s.pending with
  | c :: rest => exec c { s with pending := rest }
  | [] => .next (if s.resetHeld then s else s.tick)

/-- The state with the command a word spells put at the front of its queue; no row of the table gives bits, so no word
spells one (log 25). -/
def State.withFetchWord (s : State) (nbits w : Nat) : State :=
  match decodeTableWord nbits w with
  | some c => { s with pending := c :: s.pending }
  | none => s

end Sys2Proof.Machine
end

