-- ==== Sys2Proof/Safety.lean ====
section
/-! DEFINITION. What a state of the part must satisfy, block by block, and who sends a command: the words the statements
are made of. -/

namespace Sys2Proof.Machine

/-! ## Settings (R80, R148, R181) -/

/-- A RACK_LIMIT: at most 16000 mA, a multiple of 50. -/
def LimitFits (n : Nat) : Prop := n ≤ 16000 ∧ n % 50 = 0

/-- A DL_SLOTS: 16 to 56. -/
def SplitFits (n : Nat) : Prop := 16 ≤ n ∧ n ≤ 56

/-- Each setting lies in its range (R181). -/
structure Settings.Fits (v : Settings) : Prop where
  senseThreshold : 40 ≤ v.senseThreshold ∧ v.senseThreshold ≤ 1000
  baseInit : v.baseInit ≤ 4095
  coldAfter : 10 ≤ v.coldAfter ∧ v.coldAfter ≤ 600
  gaugeInterval : 10 ≤ v.gaugeInterval ∧ v.gaugeInterval ≤ 300
  readyLevel : 500 ≤ v.readyLevel ∧ v.readyLevel ≤ 1000
  releaseWindow : 10 ≤ v.releaseWindow ∧ v.releaseWindow ≤ 300
  missingAfter : 60 ≤ v.missingAfter ∧ v.missingAfter ≤ 3600
  keepalive : 1 ≤ v.keepalive ∧ v.keepalive ≤ 10
  defaultDuration : 10 ≤ v.defaultDuration ∧ v.defaultDuration ≤ 480

/-- The settings, the splits of both plans and of the frame, and every rack's two limits lie in their ranges. -/
structure State.SettingsInRange (s : State) : Prop where
  settings : s.settings.Fits
  nextSplit : SplitFits s.air.nextPlan.split
  currentSplit : SplitFits s.air.currentPlan.split
  frameSplit : SplitFits s.air.frameSplit
  stagedLimit : ∀ r, LimitFits (s.rackCharge r).stagedLimit
  appliedLimit : ∀ r, LimitFits (s.rackCharge r).appliedLimit

/-! ## Charge (R83, R86) -/

/-- A drive's duty code belongs to its applied current, and no current exceeds 600 mA. -/
structure Drive.Agrees (d : Drive) : Prop where
  duty : d.duty = 8 * d.applied / 5
  applied : d.applied ≤ 600
  staged : d.staged ≤ 600

def State.DutiesAgree (s : State) : Prop := ∀ r b, (s.drive r b).Agrees

/-! ## Notices (R182, R183) -/

/-- A port holds notices of kinds its mask admits only, at most one of each kind, in ascending kind number. -/
structure Port.Kept (p : Port) : Prop where
  admitted : ∀ n ∈ p.notices, p.mask.getLsbD n.kind = true
  ascending : p.notices.Pairwise (fun a b => a.kind < b.kind)

def State.NoticesKept (s : State) : Prop := ∀ l, (s.port l).Kept

/-! ## Receiver IDs (R2) -/

/-- No record holds receiver ID 0 and no two records hold the same. -/
structure State.RidsUnique (s : State) : Prop where
  nonzero : ∀ i x, s.record i = some x → x.rid ≠ 0
  unique : ∀ i j x y, s.record i = some x → s.record j = some y → x.rid = y.rid → i = j

/-! ## Plans (R149) -/

/-- An entry at an index fits a split: a DOWN entry stands below it, an UP entry at or above it. -/
def Entry.FitsAt (split i : Nat) : Entry → Prop
  | .free => True
  | .down _ _ => i < split
  | .up _ _ => split ≤ i

def Plan.Halved (p : Plan) : Prop := ∀ i, (p.entry i).FitsAt p.split i

def State.PlansHalved (s : State) : Prop := s.air.nextPlan.Halved ∧ s.air.currentPlan.Halved

/-! ## Widths of counters (R1, R23, R93, R128, R148, R165, R166) -/

/-- A record's saturating counters. -/
structure Record.Fits (x : Record) : Prop where
  loansServed : x.loansServed ≤ max32
  listeningMinutes : x.listeningMinutes ≤ max32
  faultCount : x.faultCount ≤ 255

/-- The sweep's and the beacons' counters. -/
structure Age.Fits (a : Age) : Prop where
  pointer : a.sweepPointer < 1024 ∧ a.sweepPointer % 8 = 0
  unknownBeacons : a.unknownBeacons ≤ 65535

structure State.CountersFit (s : State) : Prop where
  records : ∀ i x, s.record i = some x → x.Fits
  sweepPos : ∀ r, (s.scanner r).sweepPos ≤ 63
  key : 1 ≤ s.tours.nextKey ∧ s.tours.nextKey ≤ 65535
  mask : ∀ p, 1 ≤ (s.floorOf p).mask ∧ (s.floorOf p).mask ≤ 8
  sequence : s.air.sequence < 65536
  age : s.age.Fits

/-! ## Canonical tables (log 17) -/

structure State.Canonical (s : State) : Prop where
  records : Table.wf (fun _ => none) s.fleet.records = true
  scan : Table.wf (fun _ => resetScanner) s.scan = true
  bays : ∀ r, Table.wf (fun _ => resetBay) (s.scanner r).bays = true
  chan : Table.wf (fun _ => resetChannel) s.chan = true
  racks : Table.wf (fun _ => resetRackCharge) s.charge.racks = true
  drives : ∀ r, Table.wf (fun _ => resetDrive) (s.rackCharge r).drives = true
  tours : Table.wf (fun _ => resetTour) s.tours.tours = true
  programmes : Table.wf resetProgramme s.tours.programmes = true
  loans : Table.wf (fun _ => none) s.loans.loans = true
  timers : Table.wf (fun _ => none) s.loans.timers = true
  mics : Table.wf (fun _ => resetMic) s.floor.mics = true
  floors : Table.wf (fun _ => resetFloor) s.floor.floors = true
  nextPlan : Table.wf (fun _ => Entry.free) s.air.nextPlan.entries = true
  currentPlan : Table.wf (fun _ => Entry.free) s.air.currentPlan.entries = true

/-! ## The multiplexer (R25) -/

/-- No rack leaves a request waiting while neither block holds its multiplexer. -/
def State.Served (s : State) : Prop := ∀ r, r < 4 → (s.scanner r).holder = .none → (s.channel r).queue = []

/-! ## Floors (R125, R128) -/

/-- The law of R128: the entries of a stack rise strictly in priority toward the top, so that a cascade entry is only ever
the top; a microphone stands only on the programme it is bound to, REQUESTING in a pending list, in service in a stack. -/
structure State.FloorsLawful (s : State) : Prop where
  priority : ∀ m q, (s.mic m).priority = some q → 1 ≤ q
  waiting : ∀ p m, m ∈ (s.floorOf p).waiting → (s.mic m).programme = some p ∧ (s.mic m).state = .requesting
  distinct : ∀ p, (s.floorOf p).waiting.Nodup
  serving : ∀ p m, StackEntry.mic m ∈ (s.floorOf p).stack →
    (s.mic m).programme = some p ∧ ((s.mic m).state = .talking ∨ (s.mic m).state = .held)
  ordered : ∀ p, (s.floorOf p).stack.Pairwise fun a b => s.entryPriority a < s.entryPriority b

/-! ## The laws of the part that one block keeps with another -/

/-- Bound to a bay (R3); a RETIRED record may be or not. -/
def RecState.docks : RecState → Bool
  | .docked | .ready | .reserved | .programming | .released | .fault => true
  | _ => false

/-- In a loan's outstanding list (R3, R106). -/
def RecState.lent : RecState → Bool
  | .reserved | .programming | .released | .onLoan | .overdue | .missing => true
  | _ => false

/-- Bays and records name each other, and a latch is open exactly at the bay of a RELEASED record (R3, R4, R42, R72). -/
structure State.BindingsAgree (s : State) : Prop where
  bay : ∀ r b i, (s.bay r b).bound = some i → r < 4 ∧ b < 64 ∧
    ((s.bay r b).state = .occupied ∨ (s.bay r b).state = .leaving) ∧
    ∃ x, s.record i = some x ∧ x.bay = some { rack := r, bay := b } ∧ x.soc ≠ none
  full : ∀ r b, (s.bay r b).state = .occupied ∨ (s.bay r b).state = .leaving → (s.bay r b).bound ≠ none
  record : ∀ i x p, s.record i = some x → x.bay = some p → (s.bay p.rack p.bay).bound = some i
  docks : ∀ i x, s.record i = some x → x.state.docks = true → x.bay ≠ none
  free : ∀ i x, s.record i = some x → x.state.docks = false → x.state ≠ .retired → x.bay = none
  latch : ∀ r b, (s.bay r b).latchOpen = true ↔
    ∃ i x, (s.bay r b).bound = some i ∧ s.record i = some x ∧ x.state = .released

/-- What a request at a bay of a rack finds there (R47 to R49): an IDENTIFY an IDENTIFYING bay, any other the record bound
to the bay, in a state its kind allows. -/
def State.RequestFits (s : State) (r : Nat) (q : Req) (flying : Bool) : Prop :=
  match q.kind with
  | .identify => q.record = none ∧ (s.bay r q.bay).state = .identifying
  | .program => ∃ i x, q.record = some i ∧ (s.bay r q.bay).bound = some i ∧ s.record i = some x ∧ q.loan = x.loan ∧
      x.state = if flying then .programming else .reserved
  | .readUsage => ∃ i x, q.record = some i ∧ (s.bay r q.bay).bound = some i ∧ s.record i = some x ∧
      (x.state = .retired ∨ x.state = .docked ∧ x.usagePending = true)
  | .gauge => ∃ i x, q.record = some i ∧ (s.bay r q.bay).bound = some i ∧ s.record i = some x ∧
      (x.state = .docked ∨ x.state = .ready ∨ x.state = .reserved ∨ x.state = .released ∨ x.state = .retired)

/-- Each bay has at most one request, queued or in flight, and a request in flight has the multiplexer; a queue stands in the
order of class, stamp and bay, every stamp given before the next one; the withdraw flag is set while a PROGRAM is in flight
for a loan that no longer wants (R25, R47, R49, R50, R62). -/
structure State.RequestsLawful (s : State) : Prop where
  multiplexer : ∀ r, (s.scanner r).holder = .channel ↔ (s.channel r).inFlight ≠ none
  distinct : ∀ r, (s.channel r).queue.Pairwise fun a b => a.bay ≠ b.bay
  apart : ∀ r q p, (s.channel r).inFlight = some q → p ∈ (s.channel r).queue → p.bay ≠ q.bay
  ordered : ∀ r, (s.channel r).queue.Pairwise fun a b => a.before b = true
  stamped : ∀ r q, q ∈ (s.channel r).queue ∨ (s.channel r).inFlight = some q → q.stamp < (s.channel r).nextStamp
  queued : ∀ r q, q ∈ (s.channel r).queue → s.RequestFits r q false ∧ q.withdraw = false
  flying : ∀ r q, (s.channel r).inFlight = some q → s.RequestFits r q true ∧
    (q.withdraw = true ↔ q.kind = .program ∧ ∃ id l, q.loan = some id ∧ s.loan id = some l ∧ l.wants = false)

/-- A loan and its records name each other, its four terms make up its requested count, and it stands in the wanting queue
while it has a shortfall (R105, R106, R110, R113, R118, R120). -/
structure State.LoansLawful (s : State) : Prop where
  member : ∀ id l i, s.loan id = some l → i ∈ l.outstanding → ∃ x, s.record i = some x ∧ x.loan = some id
  distinct : ∀ id l, s.loan id = some l → l.outstanding.Nodup
  listed : ∀ i x id, s.record i = some x → x.loan = some id →
    ∃ l, s.loan id = some l ∧ i ∈ l.outstanding ∧ x.programme = some l.programme ∧ x.due = some l.due
  lent : ∀ i x, s.record i = some x → (x.state.lent = true ↔ x.loan ≠ none)
  conserved : ∀ id l, s.loan id = some l → l.requested = l.shortfall + l.outstanding.length + l.returned + l.dropped
  kept : ∀ id l, s.loan id = some l → l.shortfall ≠ 0 ∨ l.outstanding ≠ []
  wants : ∀ id l, s.loan id = some l → l.shortfall ≠ 0 → l.wants = true
  given : ∀ id l i x, s.loan id = some l → l.wants = false → i ∈ l.outstanding → s.record i = some x →
    x.state ≠ .reserved ∧ x.state ≠ .released
  once : s.loans.wanting.Nodup
  wanting : ∀ id, id ∈ s.loans.wanting ↔ ∃ l, s.loan id = some l ∧ l.shortfall ≠ 0
  timers : ∀ i, s.timer i ≠ none ↔ ∃ x, s.record i = some x ∧ x.state = .released
  reserve : ∀ g id l i, s.fleet.applied = some g → s.loan id = some l → l.reserve = false → i ∈ l.outstanding →
    ¬(g.lo ≤ i ∧ i ≤ g.hi)

/-- The records counted for a programme (R101). -/
def State.listeningTo (s : State) (p : Nat) : List Nat :=
  s.recordIndices.filter fun i =>
    match s.record i with
    | some x => x.state.listening && x.programme == some p
    | none => false

/-- Tours and programmes name each other, a loan names a programme of its tour unless the tour has been closed by force
over a PROGRAM in flight, and a listener count is the number of records that listen (R90, R91, R96, R99, R101). -/
structure State.ToursLawful (s : State) : Prop where
  free : ∀ t, (s.tour t).state = .free → (s.tour t).programmes = []
  holds : ∀ t p, p ∈ (s.tour t).programmes → 1 ≤ p ∧ p ≤ 63 ∧ (s.programme p).inUse = true ∧ (s.programme p).tour = some t
  distinct : ∀ t, (s.tour t).programmes.Nodup
  belongs : ∀ p, p ≠ 0 → (s.programme p).inUse = true → ∃ t, (s.programme p).tour = some t ∧ p ∈ (s.tour t).programmes
  house : (s.programme 0).inUse = true ∧ (s.programme 0).tour = none
  loans : ∀ id l, s.loan id = some l → l.programme ∈ (s.tour l.tour).programmes ∨
    (s.tour l.tour).state = .free ∧ l.wants = false ∧ l.programme ≠ 0 ∧ (s.programme l.programme).inUse = false ∧
      ∀ i x, i ∈ l.outstanding → s.record i = some x → x.state = .programming
  closing : ∀ id l, s.loan id = some l → (s.tour l.tour).state = .closing → l.wants = false
  listeners : ∀ p, (s.programme p).listeners = (s.listeningTo p).length
  mics : ∀ m p, (s.mic m).programme = some p → m < 64 ∧ (s.programme p).inUse = true ∧
    ∀ t, (s.programme p).tour = some t → (s.tour t).state ≠ .closing

/-- The slots of the next plan: a programme with listeners holds one downlink slot or waits for it, one with a microphone
in its stack holds one uplink slot, no slot lies free while a programme waits for it, and every entry shows the stacks
(R141, R142, R149, R154, R156, R157). -/
structure State.SlotsLawful (s : State) : Prop where
  down : ∀ p, (s.programme p).listeners ≠ 0 ↔ (∃ i x, s.entry i = .down p x) ∨ p ∈ s.air.downlinkQueue
  downApart : ∀ p i x, s.entry i = .down p x → p ∉ s.air.downlinkQueue
  downOnce : ∀ p i j x y, s.entry i = .down p x → s.entry j = .down p y → i = j
  downQueue : s.air.downlinkQueue.Nodup
  downServed : s.air.downlinkQueue ≠ [] → s.freeDownlink = none
  up : ∀ p, topMic (s.floorOf p).stack ≠ none ↔ ∃ i m, s.entry i = .up p m
  upOnce : ∀ p i j m n, s.entry i = .up p m → s.entry j = .up p n → i = j
  upQueue : s.floor.uplinkQueue.Nodup
  upWaits : ∀ p, p ∈ s.floor.uplinkQueue → (s.floorOf p).stack = [] ∧ s.grantable p ≠ none
  upServed : s.floor.uplinkQueue ≠ [] → s.freeUplink = none
  shown : ∀ i, s.refreshedEntry (s.entry i) = s.entry i

/-- The rack budget: what is staged at a rack fits its staged limit less the overhead of its bays and no bay's share
exceeds its demand, and what is applied fits the applied limit (R86). -/
structure State.BudgetsKept (s : State) : Prop where
  staged : ∀ r, r < 4 → ((List.range 64).map fun b => (s.drive r b).staged).sum ≤ s.available r
  demand : ∀ r b, r < 4 → b < 64 → (s.drive r b).staged ≤ s.demand r b
  applied : ∀ r, r < 4 → ((List.range 64).map fun b => (s.drive r b).applied).sum ≤ (s.rackCharge r).appliedLimit

/-- The part's laws (R4, R18, R42, R49, R86, R101, R106, R113, R141, R154). -/
structure State.Lawful (s : State) : Prop where
  bindings : s.BindingsAgree
  requests : s.RequestsLawful
  loans : s.LoansLawful
  tours : s.ToursLawful
  slots : s.SlotsLawful
  budgets : s.BudgetsKept

/-! ## The whole -/

/-- What every step keeps, block by block. -/
structure State.Sound (s : State) : Prop where
  settings : s.SettingsInRange
  duties : s.DutiesAgree
  notices : s.NoticesKept
  rids : s.RidsUnique
  plans : s.PlansHalved
  counters : s.CountersFit
  tables : s.Canonical
  served : s.Served

/-! ## Senders and groups (R176) -/

/-- The link a request arrives on; none for the rows that are no request. -/
def sender : Instr → Option Link
  | .readStatus l | .readNotices l | .setNoticeMask l _ | .readRecord l _ | .find l _ | .enrol l _ _ _ | .retire l _
  | .reinstate l _ | .remove l _ | .clearFaultRecord l _ | .clearFaultBay l _ _ | .writeOff l _ | .readBay l _ _
  | .readRack l _ | .readLoan l _ | .issue l _ _ _ _ | .add l _ _ | .cancel l _ | .extend l _ _ | .readTour l _
  | .readProgramme l _ | .openTour l _ _ | .closeTour l _ | .setRelay l _ _ | .readFloor l _ | .bindMic l _ _ _
  | .unbindMic l _ | .talkRequest l _ | .talkActive l _ | .talkRelease l _ | .cut l _ | .setMask l _ _ | .readPlan l
  | .reportBeacon l _ _ _ | .readSetting l _ _ | .setSettingRackLimit l _ _ | .setSettingSenseThreshold l _ _
  | .setSettingBaseInit l _ _ | .setSettingColdAfter l _ _ | .setSettingGaugeInterval l _ _
  | .setSettingReadyLevel l _ _ | .setSettingReleaseWindow l _ _ | .setSettingMissingAfter l _ _
  | .setSettingKeepalive l _ _ | .setSettingDlSlots l _ _ | .setSettingDefaultDuration l _ _ | .setClock l _
  | .setReserve l _ | .setAccess l _ _ _ _ | .lockAccess l | .restart l | .forceClose l _
  | .unknownRequestCode l _ _ => some l
  | .readTransaction _ _ | .writeTransactionAborted _ _ | .fullReset | .fullResetEnd | .scanCompletion _ _
  | .sweepWaitExpiry _ | .coldAfterExpiry _ | .confirmingScan _ _ | .byteCrossed _ _ | .wordCrossed _ _
  | .wordTimeout _ | .identifyCompletion _ _ _ _ _ _ | .programCompletion _ | .readUsageCompletion _ _
  | .gaugeCompletion _ _ _ _ | .gaugePoll _ | .chargeFrameBoundary | .keepaliveExpiry _ | .releaseWindowExpiry _
  | .compareA | .frameBoundary | .clockAdvance | .sweepStep => none

/-- The right a request needs: its group and whether it is of write type (the table of R176); none for the requests of no
group and for the frames that are no request. -/
def needs : Instr → Option (Group × Bool)
  | .readRecord _ _ | .find _ _ => some (.fleet, false)
  | .enrol _ _ _ _ | .retire _ _ | .reinstate _ _ | .remove _ _ | .clearFaultRecord _ _ | .clearFaultBay _ _ _ =>
      some (.fleet, true)
  | .readBay _ _ _ | .readRack _ _ => some (.rack, false)
  | .readLoan _ _ => some (.loan, false)
  | .issue _ _ _ _ _ | .add _ _ _ | .cancel _ _ | .extend _ _ _ => some (.loan, true)
  | .readTour _ _ | .readProgramme _ _ => some (.tour, false)
  | .openTour _ _ _ | .closeTour _ _ | .setRelay _ _ _ => some (.tour, true)
  | .readFloor _ _ => some (.floor, false)
  | .bindMic _ _ _ _ | .unbindMic _ _ | .talkRequest _ _ | .talkActive _ _ | .talkRelease _ _ | .cut _ _
  | .setMask _ _ _ => some (.floor, true)
  | .readPlan _ => some (.air, false)
  | .reportBeacon _ _ _ _ => some (.air, true)
  | .readSetting _ _ _ => some (.settings, false)
  | .setSettingRackLimit _ _ _ | .setSettingSenseThreshold _ _ _ | .setSettingBaseInit _ _ _
  | .setSettingColdAfter _ _ _ | .setSettingGaugeInterval _ _ _ | .setSettingReadyLevel _ _ _
  | .setSettingReleaseWindow _ _ _ | .setSettingMissingAfter _ _ _ | .setSettingKeepalive _ _ _
  | .setSettingDlSlots _ _ _ | .setSettingDefaultDuration _ _ _ | .setClock _ _ | .setReserve _ _
  | .setAccess _ _ _ _ _ | .lockAccess _ | .restart _ => some (.settings, true)
  | .forceClose _ _ | .writeOff _ _ => some (.override, true)
  | _ => none

/-- The link holds the right that a request needs (R176). -/
def State.holds (s : State) (l : Link) : Option (Group × Bool) → Bool
  | none => true
  | some (g, true) => s.mayWrite l g
  | some (g, false) => s.mayRead l g

/-- The state with a response held by a link's port and nothing else changed but the rest of that port: the request buffer
empty once the frame is complete, the select high again, and 0x00 driven throughout (R171, R173, R188). -/
def State.answered (s : State) (l : Link) (status : Status) (results : List Byte) : State :=
  s.setPort l { s.port l with
    requestBuffer := [], response := some { status := status, results := results }, output := [], select := .high }

/-- The response a link's port holds. -/
def State.responseOf (s : State) (l : Link) : Option Response := (s.port l).response

/-- The part runs, and no read transaction, nor one that a reset has cut short, is in progress on the link: a request that
comes on it is taken (R172, R186, R187). -/
abbrev State.Hears (s : State) (l : Link) : Prop :=
  s.resetHeld = false ∧ ((s.port l).select = .high ∨ (s.port l).select = .low ∨ (s.port l).select = .write)

/-- The link is heard, and holds the right that the request it sends needs (R176, R178). -/
abbrev State.Takes (s : State) (c : Instr) (l : Link) : Prop :=
  s.Hears l ∧ sender c = some l ∧ s.holds l (needs c) = true

/-- The receiver ID by which a request names a record (R2). -/
def ridOf : Instr → Option Nat
  | .find _ rid | .retire _ rid | .reinstate _ rid | .remove _ rid | .clearFaultRecord _ rid | .writeOff _ rid => some rid
  | _ => none

/-- A reserve-flagged request (R178): an ISSUE whose flag is set, or an ADD that names a reserve-flagged loan. -/
def State.reserveFlagged (s : State) : Instr → Bool
  | .issue _ _ _ _ reserve => reserve
  | .add _ loan n => match s.addNames loan n with | some x => x.reserve | none => false
  | _ => false

/-- The requests that the lock refuses (R178). -/
def lockable : Instr → Bool
  | .setReserve _ _ | .setAccess _ _ _ _ _ | .lockAccess _ => true
  | _ => false

/-! ## What stays as it was -/

/-- The parts of a state, as the frames of the statements name them. -/
inductive Part where
  | queue | draws | reset | settings | records | ranges | scan | chan | charge | tours | loans | floor | air | age | ports
  | access
  deriving DecidableEq, Repr

/-- Two states agree on a part. -/
def State.agrees (s t : State) : Part → Prop
  | .queue => t.pending = s.pending
  | .draws => t.draws = s.draws
  | .reset => t.resetHeld = s.resetHeld
  | .settings => t.settings = s.settings
  | .records => t.fleet.records = s.fleet.records
  | .ranges => t.fleet.applied = s.fleet.applied ∧ t.fleet.staged = s.fleet.staged
  | .scan => t.scan = s.scan
  | .chan => t.chan = s.chan
  | .charge => t.charge = s.charge
  | .tours => t.tours = s.tours
  | .loans => t.loans = s.loans
  | .floor => t.floor = s.floor
  | .air => t.air = s.air
  | .age => t.age = s.age
  | .ports => t.ports = s.ports
  | .access => t.access = s.access

/-- Nothing changes but the parts listed. -/
def State.ChangesOnly (s t : State) (l : List Part) : Prop := ∀ p, p ∉ l → s.agrees t p

/-- The ports change only in notices of the kinds listed: everything else of a port and every other notice stays. -/
def State.PostsOnly (s t : State) (kinds : List Nat) : Prop :=
  ∀ l, (t.port l).requestBuffer = (s.port l).requestBuffer ∧ (t.port l).response = (s.port l).response ∧
    (t.port l).mask = (s.port l).mask ∧ (t.port l).output = (s.port l).output ∧ (t.port l).select = (s.port l).select ∧
    ∀ n : Notice, n.kind ∉ kinds → (n ∈ (t.port l).notices ↔ n ∈ (s.port l).notices)

end Sys2Proof.Machine
end

