-- ==== Sys2Proof/Certificates/Slice0/Obligations.lean ====
section
/-! DEFINITION. The statements for the provers: what each command does, what every command keeps. Each result is stated
as the conclusion that the command answers a next state. -/

open Sys2Proof Sys2Proof.Machine

/-! ## The machine -/

/-- A step takes the front of the queue and is the meaning of that command on the queue's rest. -/
def Obligations.StepRunsTheFrontCommand : Prop :=
  ∀ (c : Instr) (rest : List Instr) (s : State), s.pending = c :: rest → step s = exec c { s with pending := rest }

/-- With nothing queued one tick of 1/512000 s passes (the model's choice, log 1): every counter that runs advances by
one, a scan that is due at a free multiplexer begins (log 14), the SYNC pulse is over (log 19), and nothing else moves
but the queue. Queued, in some order (log 2), is exactly the command of each timer that has then run its length: the
downlink phase of 312.5 µs for each slot of the frame split and the air frame of 20 ms (R150), the charge frame of 250
ms (R81), the second of the clock (R161), the sweep step of 250 ms (R166); at each rack the sweep wait of 20 ms, or 400
ms on a COLD rack (R24), COLD_AFTER (R35), GAUGE_INTERVAL (R69) and the 50 ms of a word (R53); of each microphone
KEEPALIVE (R139); of each release window the length it began with (R120). -/
def Obligations.EmptyQueueStepIsOneTick : Prop :=
  ∀ s : State, s.pending = [] → s.Canonical →
    (s.resetHeld = true → step s = .next s) ∧
    (s.resetHeld = false →
      ∃ t u : State, step s = .next t ∧ u.ChangesOnly t [.queue, .draws] ∧
        s.ChangesOnly u [.scan, .chan, .charge, .loans, .floor, .air, .age] ∧
        u.charge = { s.charge with frameTime := s.charge.frameTime + 1 } ∧
        u.air = { s.air with frameTime := s.air.frameTime + 1, syncHigh := false } ∧
        u.age = { s.age with clockPhase := s.age.clockPhase + 1, stepTime := s.age.stepTime + 1 } ∧
        (∀ m, u.mic m = { s.mic m with keepAlive := (s.mic m).keepAlive.map (· + 1) }) ∧
        u.floor.floors = s.floor.floors ∧ u.floor.uplinkQueue = s.floor.uplinkQueue ∧
        (∀ i, u.timer i = (s.timer i).map fun x => { x with elapsed := x.elapsed + 1 }) ∧
        u.loans.loans = s.loans.loans ∧ u.loans.wanting = s.loans.wanting ∧
        (∀ r, r < 4 →
          (s.heldHot r = true ↔ (s.channel r).queue ≠ [] ∨ (s.channel r).inFlight ≠ none ∨
            ∃ b, (s.bay r b).latchOpen = true) ∧
          u.scanner r = { s.scanner r with
            waitElapsed := (s.scanner r).waitElapsed + (if (s.scanner r).phase = .wait then 1 else 0)
            quiet := if s.heldHot r then 0 else (s.scanner r).quiet + 1
            holder :=
              if (s.scanner r).holder = .none ∧ (s.scanner r).phase = .sweep then .scanner else (s.scanner r).holder } ∧
          u.channel r = { s.channel r with
            gaugeElapsed := (s.channel r).gaugeElapsed + 1
            wordElapsed := (s.channel r).wordElapsed +
              (if (s.channel r).inFlight ≠ none ∧ (s.channel r).confirming = false then 1 else 0) }) ∧
        (∀ r, 4 ≤ r → u.scanner r = s.scanner r ∧ u.channel r = s.channel r) ∧
        t.draws = s.draws + (if t.pending.length ≤ 1 then 0 else 1) ∧ t.pending.Nodup ∧
        ∀ c, c ∈ t.pending ↔
          (c = .compareA ∧ u.air.frameTime = u.air.frameSplit * 160) ∨
          (c = .frameBoundary ∧ 10240 ≤ u.air.frameTime) ∨
          (c = .chargeFrameBoundary ∧ 128000 ≤ u.charge.frameTime) ∨
          (c = .clockAdvance ∧ 512000 ≤ u.age.clockPhase) ∨
          (c = .sweepStep ∧ 128000 ≤ u.age.stepTime) ∨
          (∃ r, r < 4 ∧
            ((c = .sweepWaitExpiry r ∧ (u.scanner r).phase = .wait ∧
                (if (u.scanner r).cadence = .hot then 10240 else 204800) ≤ (u.scanner r).waitElapsed) ∨
              (c = .coldAfterExpiry r ∧ (u.scanner r).cadence = .hot ∧
                u.settings.coldAfter * 512000 ≤ (u.scanner r).quiet) ∨
              (c = .gaugePoll r ∧ u.settings.gaugeInterval * 512000 ≤ (u.channel r).gaugeElapsed) ∨
              (c = .wordTimeout r ∧ (u.channel r).inFlight ≠ none ∧ (u.channel r).confirming = false ∧
                25600 ≤ (u.channel r).wordElapsed))) ∨
          (∃ m e, c = .keepaliveExpiry m ∧ (u.mic m).keepAlive = some e ∧ u.settings.keepalive * 512000 ≤ e) ∨
          ∃ i x, c = .releaseWindowExpiry i ∧ u.timer i = some x ∧ x.length ≤ x.elapsed)

/-- No command is refused and none faults: each answers a next state. An event whose object is not running changes
nothing (the model's reading, log 3): no scan in progress, no attempt exchanging words or none that has failed, a
transfer of another kind, a microphone that is not TALKING. So does the event of a timer that is short of its length,
another event having started it again or lengthened it since the event fell due: a wait (R36), a quiet time or a rack
held HOT (R35), a gauge poll (R69), a word (R53), a keep-alive (R140), a release window (R120), the frames, the second
of the clock and the sweep step (R81, R150, R161, R166). -/
def Obligations.EveryCommandAnswersANextState : Prop :=
  ((∀ (c : Instr) (s : State), ∃ t, exec c s = .next t) ∧ ∀ s : State, ∃ t, step s = .next t) ∧
  (∀ (s : State) (r v : Nat), s.resetHeld = false →
     ((4 ≤ r ∨ (s.scanner r).phase = .wait ∨ (s.scanner r).holder = .channel) →
       exec (.scanCompletion r v) s = .next s) ∧
     ((4 ≤ r ∨ (s.scanner r).phase = .sweep ∨
         (s.scanner r).waitElapsed < (if (s.scanner r).cadence = .hot then 10240 else 204800)) →
       exec (.sweepWaitExpiry r) s = .next s) ∧
     ((4 ≤ r ∨ (s.scanner r).cadence = .cold ∨ s.heldHot r = true ∨
         (s.scanner r).quiet < s.settings.coldAfter * 512000) → exec (.coldAfterExpiry r) s = .next s) ∧
     ((4 ≤ r ∨ (s.channel r).gaugeElapsed < s.settings.gaugeInterval * 512000) → exec (.gaugePoll r) s = .next s) ∧
     ((4 ≤ r ∨ (s.channel r).inFlight = none ∨ (s.channel r).confirming = false) →
       exec (.confirmingScan r v) s = .next s) ∧
     ((4 ≤ r ∨ (s.channel r).inFlight = none ∨ (s.channel r).confirming = true) →
       exec (.byteCrossed r v) s = .next s ∧ exec (.wordCrossed r v) s = .next s ∧ exec (.wordTimeout r) s = .next s) ∧
     ((s.channel r).wordElapsed < 25600 → exec (.wordTimeout r) s = .next s) ∧
     ((4 ≤ r ∨ (s.channel r).confirming = true ∨ ∀ q, (s.channel r).inFlight = some q → q.kind ≠ .identify) →
       ∀ rid code soc firmware thermal, exec (.identifyCompletion r rid code thermal soc firmware) s = .next s) ∧
     ((4 ≤ r ∨ (s.channel r).confirming = true ∨ ∀ q, (s.channel r).inFlight = some q → q.kind ≠ .program) →
       exec (.programCompletion r) s = .next s) ∧
     ((4 ≤ r ∨ (s.channel r).confirming = true ∨ ∀ q, (s.channel r).inFlight = some q → q.kind ≠ .readUsage) →
       ∀ minutes, exec (.readUsageCompletion r minutes) s = .next s) ∧
     ((4 ≤ r ∨ (s.channel r).confirming = true ∨ ∀ q, (s.channel r).inFlight = some q → q.kind ≠ .gauge) →
       ∀ soc thermal cellFault, exec (.gaugeCompletion r soc thermal cellFault) s = .next s) ∧
     ∀ m, ((s.mic m).state ≠ .talking ∨ (s.mic m).keepAlive = none ∨
         ∃ e, (s.mic m).keepAlive = some e ∧ e < s.settings.keepalive * 512000) →
       exec (.keepaliveExpiry m) s = .next s) ∧
  (∀ s : State, s.resetHeld = false →
     (s.charge.frameTime < 128000 → exec .chargeFrameBoundary s = .next s) ∧
     (s.air.frameTime < s.air.frameSplit * 160 → exec .compareA s = .next s) ∧
     (s.air.frameTime < 10240 → exec .frameBoundary s = .next s) ∧
     (s.age.clockPhase < 512000 → exec .clockAdvance s = .next s) ∧
     (s.age.stepTime < 128000 → exec .sweepStep s = .next s) ∧
     ∀ i, (s.timer i = none ∨ ∃ m, s.timer i = some m ∧ m.elapsed < m.length) → exec (.releaseWindowExpiry i) s = .next s)

/-- While RSTN is held low nothing but the resets acts, no attention line is high and no drive is on; a transaction is
not served, and one still open at the rise of RSTN is ignored until its select rises (R187). A full reset puts every
block at its reset value, held or released, with a link's transaction in progress ignored from there on (R187). The
queue and the count of draws are the model's own (log 7, log 25). The part right after a full reset: the values of the
reset tables (R21, R45, R70, R88, R104, R124, R147, R160, R170, R177, R181, R183). The holder NONE is the model's
reading (log 14). -/
def Obligations.FullResetSetsEveryBlock : Prop :=
  (∀ s : State, s.resetHeld = true →
     (∀ c : Instr, c ≠ .fullReset → c ≠ .fullResetEnd → sender c = none → (∀ l n, c ≠ .readTransaction l n) →
       (∀ l n, c ≠ .writeTransactionAborted l n) → exec c s = .next s) ∧
     (∀ (c : Instr) (l : Link), sender c = some l →
       exec c s = .next (s.setPort l { s.port l with select := .high })) ∧
     (∀ (l : Link) (n : Clocked Nat), exec (.readTransaction l n) s =
       .next (s.setPort l { s.port l with select := if n.ends then .high else .ignored })) ∧
     (∀ (l : Link) (n : Clocked (List Byte)), exec (.writeTransactionAborted l n) s =
       .next (s.setPort l { s.port l with select := if n.ends then .high else .ignored })) ∧
     (∀ l, s.attention l = false) ∧ ∀ r b, s.charging r b = false) ∧
  (∀ s : State, ∃ t u : State, exec .fullReset s = .next t ∧ exec .fullResetEnd s = .next u ∧
     t.resetHeld = true ∧ u.resetHeld = false ∧
     ∀ x : State, x = t ∨ x = u →
       State.reset.ChangesOnly x [.queue, .draws, .reset, .ports] ∧ x.pending = s.pending ∧ x.draws = s.draws ∧
       ∀ l, x.port l = { State.reset.port l with
         select := if (s.port l).select = .high then .high else .ignored }) ∧
  (∃ s : State, s = State.reset ∧
     (∀ i, s.record i = none) ∧ s.fleet.applied = none ∧ s.fleet.staged = none ∧
     (∀ r b, s.bay r b =
       { state := .empty, sense := 0, baseline := 1024, debounce := 0, latchOpen := false, bound := none }) ∧
     (∀ r, (s.scanner r).phase = .sweep ∧ (s.scanner r).sweepPos = 0 ∧ (s.scanner r).waitElapsed = 0 ∧
       (s.scanner r).holder = .none ∧ (s.scanner r).cadence = .hot ∧ (s.scanner r).quiet = 0) ∧
     (∀ r, (s.channel r).queue = [] ∧ (s.channel r).inFlight = none ∧ (s.channel r).wordsRemaining = 0 ∧
       (s.channel r).width = .byte ∧ (s.channel r).lowByte = none ∧ (s.channel r).gaugeElapsed = 0) ∧
     (∀ r, (s.rackCharge r).stagedLimit = 8000 ∧ (s.rackCharge r).appliedLimit = 8000) ∧
     (∀ r b, s.drive r b = { staged := 0, applied := 0, duty := 0 }) ∧
     s.charge.promoted = [] ∧ s.charge.frameTime = 0 ∧
     (∀ t, s.tour t = { state := .free, programmes := [], duration := none }) ∧
     s.programme 0 = { inUse := true, tour := none, language := 0, key := 0, listeners := 0, relay := false } ∧
     (∀ p, 1 ≤ p →
       s.programme p = { inUse := false, tour := none, language := 0, key := 0, listeners := 0, relay := true }) ∧
     s.tours.nextKey = 1 ∧
     (∀ id, s.loan id = none) ∧ s.loans.wanting = [] ∧ (∀ i, s.timer i = none) ∧
     (∀ m, s.mic m = { programme := none, priority := none, state := .idle, requestTime := none, keepAlive := none }) ∧
     (∀ p, s.floorOf p = { waiting := [], stack := [], mask := 8 }) ∧ s.floor.uplinkQueue = [] ∧ s.houseLive = false ∧
     s.air.nextPlan.split = 40 ∧ s.air.currentPlan.split = 40 ∧ s.air.frameSplit = 40 ∧ (∀ i, s.entry i = .free) ∧
     (∀ i, s.air.currentPlan.entry i = .free) ∧ s.air.sequence = 0 ∧ s.air.downlinkQueue = [] ∧
     s.air.frameTime = 0 ∧ s.air.phaseHigh = false ∧ s.air.syncHigh = false ∧
     s.age.clock = 0 ∧ s.age.sweepPointer = 0 ∧ s.age.stepTime = 0 ∧ s.age.unknownBeacons = 0 ∧
     s.settings =
       { senseThreshold := 200, baseInit := 1024, coldAfter := 30, gaugeInterval := 30, readyLevel := 900
         releaseWindow := 60, missingAfter := 600, keepalive := 3, defaultDuration := 90 } ∧
     (s.port .desk).mask = 0x8FFF#16 ∧ (s.port .radio).mask = 0x7000#16 ∧ (s.port .service).mask = 0xFFFF#16 ∧
     (∀ l, (s.port l).requestBuffer = [] ∧ s.responseOf l = none ∧ (s.port l).notices = [] ∧ s.attention l = false ∧
       (s.port l).select = .high) ∧
     s.access.lock = false ∧
     s.access.desk =
       { fleet := .readWrite, rack := .read, loan := .readWrite, tour := .readWrite, floor := .readWrite, air := .read
         settings := .read, override := .none, reserveUse := false } ∧
     s.access.radio =
       { fleet := .read, rack := .none, loan := .read, tour := .read, floor := .readWrite, air := .readWrite
         settings := .none, override := .none, reserveUse := false } ∧
     s.access.service =
       { fleet := .readWrite, rack := .readWrite, loan := .readWrite, tour := .readWrite, floor := .readWrite, air := .read
         settings := .readWrite, override := .readWrite, reserveUse := true })

/-- RESTART restarts every block and answers OK on its own link: settings, masks, access map and clock are kept,
records keep their identity and totals, programmes their language codes and keys (R22, R45, R70, R89, R104, R124,
R147, R160, R170, R186). A write transaction in progress on a link loses its bytes, and the rest of it is ignored; a read
transaction whose response is discarded carries 0x00 from there on (R186). The holder NONE is the model's reading (log
14). -/
def Obligations.RestartKeepsSettingsAndIdentities : Prop :=
  ∀ (s : State) (l : Link), s.Takes (.restart l) l →
    ∃ t : State, exec (.restart l) s = .next (t.answered l .ok []) ∧
      s.ChangesOnly t
        [.records, .ranges, .scan, .chan, .charge, .tours, .loans, .floor, .air, .age, .ports] ∧
      (∀ i, t.record i = (s.record i).map fun x => { x with
        state := if x.state = .retired then .retired else .absent
        bay := none, soc := none, thermalHold := false, usagePending := false, loan := none, programme := none
        due := none, overdueFlag := false }) ∧
      t.fleet.staged = none ∧
      t.fleet.applied = (if s.fleet.staged = none then s.fleet.applied else s.fleet.staged) ∧
      (∀ r, r < 4 → (∀ b, b < 64 → t.bay r b =
          { state := .empty, sense := 0, baseline := s.settings.baseInit, debounce := 0, latchOpen := false
            bound := none }) ∧
        (t.scanner r).phase = .sweep ∧ (t.scanner r).sweepPos = 0 ∧ (t.scanner r).waitElapsed = 0 ∧
        (t.scanner r).holder = .none ∧ (t.scanner r).cadence = .hot ∧ (t.scanner r).quiet = 0 ∧
        (t.channel r).queue = [] ∧ (t.channel r).inFlight = none ∧ (t.channel r).wordsRemaining = 0 ∧
        (t.channel r).width = .byte ∧ (t.channel r).lowByte = none ∧ (t.channel r).gaugeElapsed = 0 ∧
        (t.rackCharge r).stagedLimit = (s.rackCharge r).stagedLimit ∧
        (t.rackCharge r).appliedLimit = (s.rackCharge r).appliedLimit ∧
        ∀ b, t.drive r b = { staged := 0, applied := 0, duty := 0 }) ∧
      t.charge.promoted = [] ∧ t.charge.frameTime = 0 ∧
      (∀ k, t.tour k = { state := .free, programmes := [], duration := none }) ∧
      t.programme 0 = { inUse := true, tour := none, language := 0, key := 0, listeners := 0, relay := false } ∧
      (∀ p, 1 ≤ p → p ≤ 63 → t.programme p =
        { inUse := false, tour := none, language := (s.programme p).language, key := (s.programme p).key
          listeners := 0, relay := true }) ∧
      t.tours.nextKey = s.tours.nextKey ∧ t.loans = State.reset.loans ∧ t.floor = State.reset.floor ∧
      t.air.nextPlan = { split := s.air.nextPlan.split, entries := [] } ∧
      t.air.currentPlan = { split := s.air.nextPlan.split, entries := [] } ∧
      t.air.frameSplit = s.air.nextPlan.split ∧ t.air.sequence = 0 ∧ t.air.downlinkQueue = [] ∧ t.air.frameTime = 0 ∧
      t.air.phaseHigh = false ∧ t.air.syncHigh = false ∧
      t.age.clock = s.age.clock ∧ t.age.clockPhase = 0 ∧ t.age.sweepPointer = 0 ∧ t.age.stepTime = 0 ∧
      t.age.unknownBeacons = 0 ∧
      ∀ k, t.port k = { s.port k with
        requestBuffer := [], response := none, notices := []
        select :=
          if (s.port k).select = .write ∨ (s.port k).select = .read ∧ (s.port k).response ≠ none then .cleared
          else (s.port k).select }

/-! ## Requests and links -/

/-- A request whose link lacks the right of its group is refused with DENIED (R176, R178). A reserve-flagged request
from a link without reserve use is refused with DENIED, whatever its other arguments (R178). A locked map refuses
SET_ACCESS, SET_RESERVE and LOCK_ACCESS with LOCKED (R178). A request by receiver ID is refused with BAD_REQUEST for 0
and with NOT_FOUND for an ID no record holds, before any test of the record's state (R2). A frame that fails the frame
check is refused with BAD_REQUEST before any access check (R173). A CLEAR_FAULT, SET_RESERVE or SET_SETTING frame of a
form or setting that is none passes it, and is refused by the request's own rule, after the access check and, for
SET_RESERVE, the lock (R181, R189, log 15). -/
def Obligations.AccessIsCheckedFirst : Prop :=
  (∀ (s : State) (c : Instr) (l : Link) (g : Group) (write : Bool),
     s.Hears l → sender c = some l → needs c = some (g, write) → s.holds l (some (g, write)) = false →
     exec c s = .next (s.answered l .denied [])) ∧
  (∀ (s : State) (c : Instr) (l : Link), s.Takes c l → s.reserveFlagged c = true → (s.rights l).reserveUse = false →
     exec c s = .next (s.answered l .denied [])) ∧
  (∀ (s : State) (c : Instr) (l : Link), s.Takes c l → s.access.lock = true → lockable c = true →
     exec c s = .next (s.answered l .locked [])) ∧
  (∀ (s : State) (c : Instr) (l : Link) (rid : Nat), s.Takes c l → ridOf c = some rid →
     (rid = 0 → exec c s = .next (s.answered l .badRequest [])) ∧
     (rid ≠ 0 → (∀ i x, s.record i = some x → x.rid ≠ rid) → exec c s = .next (s.answered l .notFound []))) ∧
  (∀ (s : State) (l : Link) (code : Nat) (args : List Byte), s.Hears l →
     (frameCheck code args.length = false →
       exec (.unknownRequestCode l code args) s = .next (s.answered l .badRequest [])) ∧
     (frameCheck code args.length = true → badForm code args = true →
       (code = 0x16 →
         exec (.unknownRequestCode l code args) s =
           .next (s.answered l (if s.mayWrite l .fleet then .badRequest else .denied) [])) ∧
       (code ≠ 0x16 →
         exec (.unknownRequestCode l code args) s =
           .next (s.answered l
             (if s.mayWrite l .settings = false then .denied
              else if code = 0x73 ∧ s.access.lock = true then .locked
              else .badRequest) []))))

/-- A refused request changes nothing but the response its link holds, and carries no results (R173, R175). A request
on a link whose transaction in progress has been cut short by a reset is not taken: nothing is answered, and only the
port changes (R186, R187); what the part drives in one ignored since a full reset is a free value (log 31). One on a
link that a read transaction holds cannot arise (R174) and is passed over in the same way (log 23). -/
def Obligations.RefusedRequestChangesOnlyItsResponse : Prop :=
  (∀ (s t : State) (c : Instr) (l : Link), s.Hears l → sender c = some l → exec c s = .next t →
    ∃ a, t.responseOf l = some a ∧ a.status ≠ .noResponse ∧
      (a.status ≠ .ok → a.results = [] ∧ t = s.answered l a.status [])) ∧
  (∀ (s : State) (c : Instr) (l : Link), s.resetHeld = false → sender c = some l →
    ((s.port l).select = .cleared ∨ (s.port l).select = .read →
      exec c s = .next (s.setPort l { s.port l with requestBuffer := [], select := .high })) ∧
    ((s.port l).select = .ignored →
      ∃ out : List Byte, exec c s = .next (({ s with draws := s.draws + 1 }).setPort l { s.port l with
        requestBuffer := [], output := out, select := .high })))

/-- SET_ACCESS writes one right and the reserve-use flag of the link named; LOCK_ACCESS sets the lock (R179, R180). -/
def Obligations.AccessMapWrites : Prop :=
  (∀ (s : State) (l k : Link) (g : Group) (x : Right) (link group right : Nat) (use : Bool),
    s.Takes (.setAccess l link group right use) l → s.access.lock = false →
    linkOf link = some k → groupOf group = some g → rightOf right = some x →
    ∃ t : State, exec (.setAccess l link group right use) s = .next (t.answered l .ok []) ∧ s.ChangesOnly t [.access] ∧
      t.access.lock = s.access.lock ∧ (t.rights k).on g = x ∧ (t.rights k).reserveUse = use ∧
      (∀ h, h ≠ g → (t.rights k).on h = (s.rights k).on h) ∧ ∀ j, j ≠ k → t.rights j = s.rights j) ∧
  (∀ (s : State) (l : Link) (link group right : Nat) (use : Bool),
    s.Takes (.setAccess l link group right use) l → s.access.lock = false →
    (linkOf link = none ∨ groupOf group = none ∨ rightOf right = none) →
    exec (.setAccess l link group right use) s = .next (s.answered l .badRequest [])) ∧
  (∀ (s : State) (l : Link), s.Takes (.lockAccess l) l → s.access.lock = false →
    exec (.lockAccess l) s = .next ({ s with access := { s.access with lock := true } }.answered l .ok []))

/-- A read transaction drives the frame held, or the NO_RESPONSE frame, then zeros, and empties the response buffer at
the rise of the select if the frame's last byte has been carried (R174, R188). A transaction that carries no request
leaves the response held: one that opened with the write code gathers its bytes until the select rises, and is answered
with 0x00 throughout (R172, R188); one that opened with neither code is ignored, and what the part drives in it is a
free value (R172, log 31). What is left of a transaction that a warm restart has cut short carries nothing and is
answered with 0x00 (R186), and of one that a full reset has reached is ignored (R187, log 31), until the select rises.
A read transaction inside a write transaction of its link cannot arise (R174), nor the other way, and is passed over
(log 23). A transaction in progress is what the select holds (log 5), and the bytes driven are kept in the port (log
18). -/
def Obligations.LinkTransactionsCarryTheFrames : Prop :=
  (∀ (s : State) (l : Link) (n : Clocked Nat), s.resetHeld = false →
     ((s.port l).select = .high ∨ (s.port l).select = .low ∨ (s.port l).select = .read) →
     ∃ (frame : List Byte),
       (∀ a, s.responseOf l = some a → frame = bytes1 a.status.code ++ bytes2 a.results.length ++ a.results) ∧
       (s.responseOf l = none → frame = [7#8, 0#8, 0#8]) ∧
       exec (.readTransaction l n) s = .next (s.setPort l { s.port l with
         response := if n.ends = true ∧ frame.length ≤ n.data then none else s.responseOf l
         output := frame.take n.data ++ List.replicate (n.data - frame.length) 0#8
         select := if n.ends then .high else .read })) ∧
  (∀ (s : State) (l : Link) (bytes : Clocked (List Byte)), s.Hears l →
     (∀ rest, bytes.data = 0xC1#8 :: rest →
       exec (.writeTransactionAborted l bytes) s = .next (s.setPort l { s.port l with
         requestBuffer := if bytes.ends then [] else rest
         output := []
         select := if bytes.ends then .high else .write })) ∧
     (bytes.data = [] →
       exec (.writeTransactionAborted l bytes) s = .next (s.setPort l { s.port l with
         output := [], select := if bytes.ends then .high else .low })) ∧
     (∀ first rest, bytes.data = first :: rest → first ≠ 0xC1#8 → first ≠ 0xC2#8 →
       ∃ out : List Byte, exec (.writeTransactionAborted l bytes) s =
         .next (({ s with draws := s.draws + 1 }).setPort l { s.port l with
           requestBuffer := [], output := out, select := if bytes.ends then .high else .ignored }))) ∧
  (∀ (s : State) (l : Link) (n : Clocked Nat) (bytes : Clocked (List Byte)), s.resetHeld = false →
     ((s.port l).select = .cleared ∨ (s.port l).select = .write →
       exec (.readTransaction l n) s = .next (s.setPort l { s.port l with
         requestBuffer := [], select := if n.ends then .high else .cleared })) ∧
     ((s.port l).select = .cleared ∨ (s.port l).select = .read →
       exec (.writeTransactionAborted l bytes) s = .next (s.setPort l { s.port l with
         requestBuffer := [], select := if bytes.ends then .high else .cleared })) ∧
     ((s.port l).select = .ignored →
       (∃ out : List Byte, exec (.readTransaction l n) s =
         .next (({ s with draws := s.draws + 1 }).setPort l { s.port l with
           requestBuffer := [], output := out, select := if n.ends then .high else .ignored })) ∧
       ∃ out : List Byte, exec (.writeTransactionAborted l bytes) s =
         .next (({ s with draws := s.draws + 1 }).setPort l { s.port l with
           requestBuffer := [], output := out, select := if bytes.ends then .high else .ignored })))

/-- A posting sets its kind's flag, with its argument in place of an earlier one, on each link whose mask holds the
kind, and leaves no trace on the others (R182). READ_NOTICES answers every set flag in ascending kind number and
clears them, and the attention line falls (R184). SET_NOTICE_MASK clears the flags of the kinds outside the new mask
and keeps the others (R183). The attention line is high while a flag is set (R183). The sixteen kinds have
the numbers 0 to 15, and each argument is four bytes (R182, R189). -/
def Obligations.NoticesArePostedReadAndMasked : Prop :=
  (∀ (s : State) (n : Notice) (l : Link), (s.port l).Kept →
     s.ChangesOnly (s.post n) [.ports] ∧ s.PostsOnly (s.post n) [n.kind] ∧
     ((s.port l).mask.getLsbD n.kind = true →
       ∀ m : Notice, m.kind = n.kind → (m ∈ ((s.post n).port l).notices ↔ m = n)) ∧
     ((s.port l).mask.getLsbD n.kind = false → (s.post n).port l = s.port l)) ∧
  (∀ (s : State) (l : Link), s.Hears l →
     ∃ t : State, exec (.readNotices l) s =
         .next ((s.setPort l { s.port l with notices := [] }).answered l .ok
           (bytes1 (s.port l).notices.length ++
             ((s.port l).notices.map fun n => bytes1 n.kind ++ n.argument).flatten)) ∧
       exec (.readNotices l) s = .next t ∧ t.attention l = false ∧ ∀ k, k ≠ l → t.attention k = s.attention k) ∧
  (∀ (s : State) (l : Link) (mask : Nat), s.Hears l → mask < 65536 →
     exec (.setNoticeMask l mask) s =
       .next ((s.setPort l { s.port l with
         mask := BitVec.ofNat 16 mask
         notices := (s.port l).notices.filter fun n => mask.testBit n.kind }).answered l .ok (bytes2 mask))) ∧
  (∀ (s : State) (l : Link), s.resetHeld = false → (s.attention l = true ↔ (s.port l).notices ≠ [])) ∧
  (∀ a b c d : Nat, [Notice.loanWanting a, .loanFilled a, .loanClosed a b c d, .tourClosed a, .overdue a, .missing a, .found a,
     .unreleasedLift a, .bayFault a b, .foreign a b, .fleetFull a b, .receiverFault a, .floorChanged a, .floorStale a,
     .downlinkWait a, .rackShort a].map Notice.kind = List.range 16) ∧
  (∀ a : Nat, ∀ n ∈ [Notice.loanWanting a, .loanFilled a, .tourClosed a, .floorChanged a, .floorStale a, .downlinkWait a,
     .rackShort a], n.argument = [BitVec.ofNat 8 a, 0#8, 0#8, 0#8]) ∧
  (∀ a : Nat, ∀ n ∈ [Notice.overdue a, .missing a, .found a, .unreleasedLift a, .receiverFault a],
     n.argument = [BitVec.ofNat 8 a, BitVec.ofNat 8 (a / 256), 0#8, 0#8]) ∧
  (∀ a b : Nat, ∀ n ∈ [Notice.bayFault a b, .foreign a b, .fleetFull a b],
     n.argument = [BitVec.ofNat 8 a, BitVec.ofNat 8 b, 0#8, 0#8]) ∧
  ∀ a b c d : Nat, (Notice.loanClosed a b c d).argument =
    [BitVec.ofNat 8 a, BitVec.ofNat 8 b, BitVec.ofNat 8 c, BitVec.ofNat 8 d]

/-- The reads of the tables answer OK with the contents of what they name and change nothing else (R20, R44, R103,
R123, R146, R159). What the reads name out of range is refused with BAD_REQUEST, and what they name that the part does
not hold with NOT_FOUND (R20, R44, R103, R123, R146). The results field by field (R189): numbers with the low byte
first, an optional field as a presence byte and its value, 0 when absent, a list as a count byte and its elements; the
times of a rack, a release window and a keep-alive in whole units, rounded down (log 21); a stack from its bottom to
its top. -/
def Obligations.TableReadsAnswerTheContents : Prop :=
  (∀ (s : State) (l : Link),
     (∀ i x, s.Takes (.readRecord l i) l → i ≤ 1023 → s.record i = some x →
       exec (.readRecord l i) s = .next (s.answered l .ok (recordBytes i x))) ∧
     (∀ rid i x, s.Takes (.find l rid) l → s.RidsUnique → rid ≠ 0 → s.record i = some x → x.rid = rid →
       exec (.find l rid) s = .next (s.answered l .ok (bytes2 i ++ bytes1 x.state.code))) ∧
     (∀ r b, s.Takes (.readBay l r b) l → r ≤ 3 → b ≤ 63 →
       exec (.readBay l r b) s = .next (s.answered l .ok (s.bayBytes r b))) ∧
     (∀ r, s.Takes (.readRack l r) l → r ≤ 3 → exec (.readRack l r) s = .next (s.answered l .ok (s.rackBytes r))) ∧
     (∀ id x, s.Takes (.readLoan l id) l → 1 ≤ id → id ≤ 128 → s.loan id = some x →
       exec (.readLoan l id) s = .next (s.answered l .ok (s.loanBytes id x))) ∧
     (∀ t, s.Takes (.readTour l t) l → 1 ≤ t → t ≤ 32 →
       exec (.readTour l t) s = .next (s.answered l .ok (s.tourBytes t))) ∧
     (∀ p, s.Takes (.readProgramme l p) l → p ≤ 63 →
       exec (.readProgramme l p) s = .next (s.answered l .ok (s.programmeBytes p))) ∧
     (∀ p, s.Takes (.readFloor l p) l → p ≤ 63 →
       exec (.readFloor l p) s = .next (s.answered l .ok (s.floorBytes p))) ∧
     (s.Takes (.readPlan l) l → exec (.readPlan l) s = .next (s.answered l .ok s.planBytes))) ∧
  (∀ (s : State) (l : Link),
     (∀ i, s.Takes (.readRecord l i) l → 1023 < i → exec (.readRecord l i) s = .next (s.answered l .badRequest [])) ∧
     (∀ i, s.Takes (.readRecord l i) l → i ≤ 1023 → s.record i = none →
       exec (.readRecord l i) s = .next (s.answered l .notFound [])) ∧
     (∀ r b, s.Takes (.readBay l r b) l → (3 < r ∨ 63 < b) →
       exec (.readBay l r b) s = .next (s.answered l .badRequest [])) ∧
     (∀ r, s.Takes (.readRack l r) l → 3 < r → exec (.readRack l r) s = .next (s.answered l .badRequest [])) ∧
     (∀ id, s.Takes (.readLoan l id) l → (id = 0 ∨ 128 < id) →
       exec (.readLoan l id) s = .next (s.answered l .badRequest [])) ∧
     (∀ id, s.Takes (.readLoan l id) l → 1 ≤ id → id ≤ 128 → s.loan id = none →
       exec (.readLoan l id) s = .next (s.answered l .notFound [])) ∧
     (∀ t, s.Takes (.readTour l t) l → (t = 0 ∨ 32 < t) →
       exec (.readTour l t) s = .next (s.answered l .badRequest [])) ∧
     (∀ p, s.Takes (.readProgramme l p) l → 63 < p →
       exec (.readProgramme l p) s = .next (s.answered l .badRequest [])) ∧
     (∀ p, s.Takes (.readFloor l p) l → 63 < p → exec (.readFloor l p) s = .next (s.answered l .badRequest []))) ∧
  ((∀ n, bytes1 n = [BitVec.ofNat 8 n] ∧ bytes2 n = [BitVec.ofNat 8 n, BitVec.ofNat 8 (n / 256)] ∧
     bytes4 n = [BitVec.ofNat 8 n, BitVec.ofNat 8 (n / 256), BitVec.ofNat 8 (n / 65536), BitVec.ofNat 8 (n / 16777216)] ∧
     opt1 (some n) = 1#8 :: bytes1 n ∧ opt2 (some n) = 1#8 :: bytes2 n ∧ opt4 (some n) = 1#8 :: bytes4 n) ∧
   opt1 none = List.replicate 2 0#8 ∧ opt2 none = List.replicate 3 0#8 ∧ opt4 none = List.replicate 5 0#8 ∧
   flagBytes true = [1#8] ∧ flagBytes false = [0#8] ∧ (∀ items, listBytes items = bytes1 items.length ++ items.flatten)) ∧
  ((∀ (i : Nat) (x : Record), recordBytes i x =
     bytes2 i ++ bytes4 x.rid ++ bytes1 (if x.generation = .g1 then 1 else 2) ++ bytes1 x.state.code ++
       (match x.bay with | some p => 1#8 :: (bytes1 p.rack ++ bytes1 p.bay) | none => List.replicate 3 0#8) ++ opt2 x.soc ++
       flagBytes x.thermalHold ++ flagBytes x.usagePending ++ flagBytes x.backFromLoan ++ opt1 x.loan ++
       opt1 x.programme ++ opt4 x.due ++ flagBytes x.overdueFlag ++ opt4 x.lastHeard ++ bytes1 x.lastZone ++
       bytes4 x.loansServed ++ bytes4 x.listeningMinutes ++ bytes1 x.faultCount) ∧
   [RecState.docked, .ready, .reserved, .programming, .released, .onLoan, .overdue, .missing, .absent, .fault,
     .retired].map RecState.code = List.range 11 ∧
   [BayState.empty, .arriving, .identifying, .occupied, .leaving, .foreign, .fault].map BayState.code = List.range 7) ∧
  (∀ (s : State) (r b : Nat),
     s.bayBytes r b =
       bytes1 (s.bay r b).state.code ++ bytes2 (s.bay r b).sense ++ bytes2 (s.bay r b).baseline ++
         bytes1 (s.bay r b).debounce ++ flagBytes (s.bay r b).latchOpen ++ opt2 (s.bay r b).bound ++
         (match s.requestAt r b with
          | some q => 1#8 :: (bytes1 q.kind.cls ++ bytes1 q.attempts)
          | none => List.replicate 3 0#8) ++
         bytes2 (s.drive r b).staged ++ bytes2 (s.drive r b).applied ++ bytes2 (s.drive r b).duty ∧
     s.rackBytes r =
       bytes1 (if (s.scanner r).phase = .sweep then 0 else 1) ++ bytes1 (s.scanner r).sweepPos ++
         bytes2 ((s.scanner r).waitElapsed / 512) ++
         bytes1 (match (s.scanner r).holder with | .none => 0 | .scanner => 1 | .channel => 2) ++
         bytes1 (if (s.scanner r).cadence = .hot then 0 else 1) ++ bytes2 (min 65535 ((s.scanner r).quiet / 512000)) ++
         ([BayState.empty, .arriving, .identifying, .occupied, .leaving, .foreign, .fault].map fun st =>
           bytes1 ((List.range 64).filter fun c => (s.bay r c).state == st).length).flatten ++
         bytes1 ((List.range 64).filter fun c => (s.bay r c).latchOpen).length ++
         bytes1 (s.channel r).queue.length ++ bytes2 (s.rackCharge r).stagedLimit ++
         bytes2 (s.rackCharge r).appliedLimit) ∧
  (∀ (s : State) (id p t : Nat) (l : Loan),
     s.loanBytes id l =
       bytes1 l.tour ++ bytes1 l.programme ++ flagBytes l.reserve ++ bytes1 l.requested ++ bytes1 l.shortfall ++
         bytes1 l.returned ++ bytes1 l.dropped ++ bytes1 l.lifted ++ bytes4 l.due ++ flagBytes l.wants ++
         bytes1 (if 0 < l.shortfall then 0 else 1) ++
         opt1 (if id ∈ s.loans.wanting then some (s.loans.wanting.idxOf id + 1) else none) ++
         listBytes (l.outstanding.map fun i =>
           bytes2 i ++ bytes1 (((s.record i).map fun x => x.state.code).getD 0) ++
             opt2 ((s.timer i).map fun w => (w.length - w.elapsed) / 512000)) ++
         listBytes (l.passed.map bytes2) ∧
     s.tourBytes t =
       bytes1 (match (s.tour t).state with | .free => 0 | .opened => 1 | .closing => 2) ++ opt2 (s.tour t).duration ++
         listBytes ((s.tour t).programmes.map fun q => bytes1 q ++ bytes2 (s.programme q).listeners) ++
         listBytes ((s.loansOfTour t).map bytes1) ∧
     s.programmeBytes p =
       flagBytes (s.programme p).inUse ++ opt1 (s.programme p).tour ++ bytes1 (s.programme p).language ++
         bytes2 (s.programme p).key ++ bytes2 (s.programme p).listeners ++ flagBytes (s.programme p).relay ++
         opt1 (s.downlinkSlot p) ++ flagBytes (s.air.downlinkQueue.contains p)) ∧
  (∀ (s : State) (p : Nat),
     s.floorBytes p =
       flagBytes (s.programme p).inUse ++ bytes1 (s.floorOf p).mask ++ flagBytes (decide (p = 0) && s.houseLive) ++
         listBytes ((s.floorOf p).waiting.map fun m =>
           bytes1 m ++ bytes1 (s.priorityOf m) ++ bytes4 ((s.mic m).requestTime.getD 0)) ++
         listBytes ((s.floorOf p).stack.reverse.map fun e =>
           match e with | .mic m => bytes1 m ++ bytes1 (s.priorityOf m) | .cascade => [0xFF#8, 0#8]) ++
         flagBytes (s.uplinkSlot p).isSome ++
         opt1 (if p ∈ s.floor.uplinkQueue then some (s.floor.uplinkQueue.idxOf p + 1) else none) ++
         listBytes ((s.boundMics p).map fun m =>
           bytes1 m ++ bytes1 (s.priorityOf m) ++
             bytes1 (match (s.mic m).state with | .idle => 0 | .requesting => 1 | .talking => 2 | .held => 3) ++
             opt2 ((s.mic m).keepAlive.map (· / 512))) ∧
     s.planBytes =
       bytes2 s.air.sequence ++ bytes1 s.air.currentPlan.split ++
         ((List.range 64).map fun i =>
           match s.air.currentPlan.entry i with
           | .free => [0#8, 0#8, 0#8]
           | .down q .none => [1#8] ++ bytes1 q ++ [0#8]
           | .down q (.mic m) => [0x11#8] ++ bytes1 q ++ bytes1 m
           | .down q (.house m) => [0x21#8] ++ bytes1 q ++ bytes1 m
           | .up q m => [2#8] ++ bytes1 q ++ bytes1 m).flatten)

/-- READ_STATUS is served on every link; READ_SETTING answers the value in force, the staged limit of the rack for
RACK_LIMIT and the split of the next plan for DL_SLOTS (R181, R185). The fixed layouts take the lengths of the format
table (R189). READ_STATUS carries, field by field, the clock, the lock, the reserve status (EMPTY 0, APPLIED 1, PENDING
2) with its two ranges, the number of records in each state, of tours OPEN and CLOSING, of tour programmes in use and
of loans, the wanting queue's length and head, the unknown-beacon counter and the plan sequence number (R185). -/
def Obligations.StatusAndSettingReads : Prop :=
  (∀ (s : State) (l : Link), s.Hears l →
     exec (.readStatus l) s = .next (s.answered l .ok s.statusBytes) ∧
     (s.mayRead l .settings = true →
       (∀ r, r ≤ 3 → exec (.readSetting l 0 r) s = .next (s.answered l .ok (bytes2 (s.rackCharge r).stagedLimit))) ∧
       (∀ r, 3 < r → exec (.readSetting l 0 r) s = .next (s.answered l .badRequest [])) ∧
       (∀ r,
         exec (.readSetting l 1 r) s = .next (s.answered l .ok (bytes2 s.settings.senseThreshold)) ∧
         exec (.readSetting l 2 r) s = .next (s.answered l .ok (bytes2 s.settings.baseInit)) ∧
         exec (.readSetting l 3 r) s = .next (s.answered l .ok (bytes2 s.settings.coldAfter)) ∧
         exec (.readSetting l 4 r) s = .next (s.answered l .ok (bytes2 s.settings.gaugeInterval)) ∧
         exec (.readSetting l 5 r) s = .next (s.answered l .ok (bytes2 s.settings.readyLevel)) ∧
         exec (.readSetting l 6 r) s = .next (s.answered l .ok (bytes2 s.settings.releaseWindow)) ∧
         exec (.readSetting l 7 r) s = .next (s.answered l .ok (bytes2 s.settings.missingAfter)) ∧
         exec (.readSetting l 8 r) s = .next (s.answered l .ok (bytes2 s.settings.keepalive)) ∧
         exec (.readSetting l 9 r) s = .next (s.answered l .ok (bytes2 s.air.nextPlan.split)) ∧
         exec (.readSetting l 10 r) s = .next (s.answered l .ok (bytes2 s.settings.defaultDuration))) ∧
       (∀ k r, 10 < k → exec (.readSetting l k r) s = .next (s.answered l .badRequest [])))) ∧
  ((∀ i x, (recordBytes i x).length = 42) ∧
   ∀ s : State, s.planBytes.length = 195 ∧ (∀ r b, (s.bayBytes r b).length = 19) ∧ (∀ r, (s.rackBytes r).length = 21) ∧
     s.statusBytes.length = 49) ∧
  (∀ s : State, s.statusBytes =
     bytes4 s.age.clock ++ flagBytes s.access.lock ++
       bytes1 (if s.fleet.staged ≠ none then 2 else if s.fleet.applied ≠ none then 1 else 0) ++
       (match s.fleet.applied with | some g => 1#8 :: (bytes2 g.lo ++ bytes2 g.hi) | none => List.replicate 5 0#8) ++
       (match s.fleet.staged with | some g => 1#8 :: (bytes2 g.lo ++ bytes2 g.hi) | none => List.replicate 5 0#8) ++
       ([RecState.docked, .ready, .reserved, .programming, .released, .onLoan, .overdue, .missing, .absent, .fault,
         .retired].map fun st => bytes2 (s.recordIndices.filter fun i => s.recordIs i st).length).flatten ++
       bytes1 (((List.range 33).drop 1).filter fun t => (s.tour t).state == .opened).length ++
       bytes1 (((List.range 33).drop 1).filter fun t => (s.tour t).state == .closing).length ++
       bytes1 (((List.range 64).drop 1).filter fun p => (s.programme p).inUse).length ++ bytes1 s.loanIds.length ++
       bytes1 s.loans.wanting.length ++ opt1 s.loans.wanting.head? ++ bytes2 s.age.unknownBeacons ++
       bytes2 s.air.sequence) ∧
  ∀ s : State, s.Canonical →
    s.recordIndices.Nodup ∧ (∀ i, i ∈ s.recordIndices ↔ s.record i ≠ none) ∧
    s.loanIds.Nodup ∧ ∀ id, id ∈ s.loanIds ↔ s.loan id ≠ none

/-! ## Fleet table -/

/-- ENROL places a new ABSENT record at the index given, or at the lowest free index outside the reserve exclusion set
(R1, R6). ENROL's four tests, the first that fails giving the response (R6). -/
def Obligations.EnrolPlacesANewRecord : Prop :=
  (∀ (s : State) (l : Link) (rid code : Nat) (g : Generation) (index : Option Nat) (i : Nat),
     s.Takes (.enrol l rid code index) l → rid ≠ 0 → generationOf code = some g →
     (∀ j x, s.record j = some x → x.rid ≠ rid) → s.record i = none → i ≤ 1023 →
     (index = some i ∨ (index = none ∧ s.excluded i = false ∧
       ∀ j, j < i → s.excluded j = true ∨ s.record j ≠ none)) →
     exec (.enrol l rid code index) s =
       .next ((s.setRecord i (some
         { rid := rid, generation := g, state := .absent, bay := none, soc := none, thermalHold := false,
           usagePending := false, backFromLoan := false, loan := none, programme := none, due := none,
           overdueFlag := false, lastHeard := none, lastZone := 0, loansServed := 0, listeningMinutes := 0,
           faultCount := 0 })).answered l .ok (bytes2 i))) ∧
  (∀ (s : State) (l : Link) (rid code : Nat) (index : Option Nat), s.Takes (.enrol l rid code index) l →
     ((rid = 0 ∨ generationOf code = none ∨ (∃ i, index = some i ∧ 1023 < i)) →
       exec (.enrol l rid code index) s = .next (s.answered l .badRequest [])) ∧
     (rid ≠ 0 → generationOf code ≠ none → (∀ i, index = some i → i ≤ 1023) →
       ((∃ j x, s.record j = some x ∧ x.rid = rid) →
         exec (.enrol l rid code index) s = .next (s.answered l .busy [])) ∧
       (∀ i, index = some i → s.record i ≠ none → exec (.enrol l rid code index) s = .next (s.answered l .busy [])) ∧
       ((∀ j x, s.record j = some x → x.rid ≠ rid) → index = none →
         (∀ i, i ≤ 1023 → s.excluded i = true ∨ s.record i ≠ none) →
         exec (.enrol l rid code index) s = .next (s.answered l .full []))))

/-- RETIRE takes a DOCKED, READY, ABSENT or FAULT record to RETIRED, keeps its other fields and every other record,
and removes the request queued at its bay; in every other state it is refused with BUSY (R7). REMOVE frees the
position of an unbound ABSENT or RETIRED record and deletes its index from every passed list; any other record is
refused with BUSY (R10). WRITE_OFF takes a record on loan to ABSENT out of its loan, keeping its identity and totals,
and the tests that follow a removal are made; any other record is refused with BUSY (R13). -/
def Obligations.RetireRemoveAndWriteOff : Prop :=
  (∀ (s : State) (l : Link) (i : Nat) (x : Record), s.Takes (.retire l x.rid) l → s.RidsUnique → s.record i = some x →
     ((x.state = .docked ∨ x.state = .ready ∨ x.state = .absent ∨ x.state = .fault) → s.Served →
       ∃ t : State, exec (.retire l x.rid) s = .next (t.answered l .ok []) ∧
         t.record i = some { x with state := .retired } ∧ (∀ j, j ≠ i → t.record j = s.record j) ∧
         (∀ p, x.bay = some p → t.queuedAt p.rack p.bay = none) ∧
         s.ChangesOnly t [.records, .scan, .chan, .charge, .air, .ports] ∧ s.PostsOnly t [15]) ∧
     ((x.state ≠ .docked ∧ x.state ≠ .ready ∧ x.state ≠ .absent ∧ x.state ≠ .fault) →
       exec (.retire l x.rid) s = .next (s.answered l .busy []))) ∧
  (∀ (s : State) (l : Link) (i : Nat) (x : Record), s.Takes (.remove l x.rid) l → s.RidsUnique → s.record i = some x →
     (x.bay = none → (x.state = .absent ∨ x.state = .retired) →
       ∃ t : State, exec (.remove l x.rid) s = .next (t.answered l .ok []) ∧ t.record i = none ∧
         (∀ j, j ≠ i → t.record j = s.record j) ∧
         (∀ id, t.loan id = (s.loan id).map fun y => { y with passed := y.passed.filter (· != i) }) ∧
         t.loans.wanting = s.loans.wanting ∧ t.loans.timers = s.loans.timers ∧ s.ChangesOnly t [.records, .loans]) ∧
     ((x.bay ≠ none ∨ (x.state ≠ .absent ∧ x.state ≠ .retired)) →
       exec (.remove l x.rid) s = .next (s.answered l .busy []))) ∧
  (∀ (s : State) (l : Link) (i : Nat) (x : Record), s.Takes (.writeOff l x.rid) l → s.RidsUnique → s.record i = some x →
     ((x.state = .onLoan ∨ x.state = .overdue ∨ x.state = .missing) →
       exec (.writeOff l x.rid) s =
         .next ((State.finish s (State.settle s (s.leaveLoan i .absent .dropped) (s.loanList i) []) []).answered l .ok []) ∧
       (s.leaveLoan i .absent .dropped).record i = some
         { x with state := .absent, loan := none, programme := none, due := none, overdueFlag := false }) ∧
     ((x.state ≠ .onLoan ∧ x.state ≠ .overdue ∧ x.state ≠ .missing) →
       exec (.writeOff l x.rid) s = .next (s.answered l .busy [])))

/-- REINSTATE sends a bound RETIRED record, with no request at its bay, to DOCKED with its usage to be read by a
READ_USAGE there, and an unbound one to ABSENT; CLEAR_FAULT does the first for a FAULT record. Else BUSY (R9, R11).
CLEAR_FAULT in its bay form sends a FAULT bay to IDENTIFYING with a fresh IDENTIFY, and refuses any other bay (R12).
-/
def Obligations.ReinstateAndClearFaultPrepareAgain : Prop :=
  (∀ (s : State) (l : Link) (i : Nat) (x : Record), s.RidsUnique → s.record i = some x →
     (∀ c, (c = .reinstate l x.rid ∧ x.state = .retired) ∨ (c = .clearFaultRecord l x.rid ∧ x.state = .fault) →
       s.Takes c l → s.Served → ∀ p, p.rack < 4 → x.bay = some p → s.requestAt p.rack p.bay = none →
       ∃ t q, exec c s = .next (t.answered l .ok []) ∧
         t.record i = some { x with state := .docked, usagePending := true } ∧
         (∀ j, j ≠ i → t.record j = s.record j) ∧
         t.requestAt p.rack p.bay = some q ∧ q.kind = .readUsage ∧ q.record = some i ∧ q.attempts = 0 ∧
         s.ChangesOnly t [.records, .scan, .chan, .charge, .air, .ports] ∧ s.PostsOnly t [15]) ∧
     (s.Takes (.reinstate l x.rid) l →
       (x.state = .retired → x.bay = none →
         exec (.reinstate l x.rid) s = .next ((s.setRecord i (some { x with state := .absent })).answered l .ok [])) ∧
       ((x.state ≠ .retired ∨ ∃ p, x.bay = some p ∧ s.requestAt p.rack p.bay ≠ none) →
         exec (.reinstate l x.rid) s = .next (s.answered l .busy []))) ∧
     (s.Takes (.clearFaultRecord l x.rid) l → x.state ≠ .fault →
       exec (.clearFaultRecord l x.rid) s = .next (s.answered l .busy []))) ∧
  (∀ (s : State) (l : Link) (r b : Nat), s.Takes (.clearFaultBay l r b) l →
     ((3 < r ∨ 63 < b) → exec (.clearFaultBay l r b) s = .next (s.answered l .badRequest [])) ∧
     (r ≤ 3 → b ≤ 63 → (s.bay r b).state ≠ .fault → exec (.clearFaultBay l r b) s = .next (s.answered l .busy [])) ∧
     (r ≤ 3 → b ≤ 63 → (s.bay r b).state = .fault → s.Served → s.requestAt r b = none →
       ∃ t q, exec (.clearFaultBay l r b) s = .next (t.answered l .ok []) ∧
         t.bay r b = { s.bay r b with state := .identifying, debounce := 0 } ∧
         (∀ k c, (k, c) ≠ (r, b) → t.bay k c = s.bay k c) ∧
         t.requestAt r b = some q ∧ q.kind = .identify ∧ q.attempts = 0 ∧
         s.ChangesOnly t [.scan, .chan, .charge, .air, .ports] ∧ s.PostsOnly t [15]))

/-- A DOCKED record goes READY exactly when its charge is present and at least READY_LEVEL, its usage is read and no
thermal hold is set; a READY record goes DOCKED when its charge is below READY_LEVEL less 50, or a hold is set, or
usage is pending; no other record is moved (R14, R15). READY_LEVEL is fitted to 500 to 1000; every record is tested in
ascending index, each offered as it becomes READY, and every rack is staged again (R16). -/
def Obligations.ReadinessHasAFiftyPermilleBand : Prop :=
  (∀ (s : State) (i : Nat) (x : Record), s.record i = some x →
     (s.testReadiness i).record i = some { x with state :=
       if x.state = .docked ∧ (∃ c, x.soc = some c ∧ s.settings.readyLevel ≤ c) ∧ x.usagePending = false ∧
           x.thermalHold = false then .ready
       else if x.state = .ready ∧ ((∃ c, x.soc = some c ∧ c + 50 < s.settings.readyLevel) ∨ x.thermalHold = true ∨
           x.usagePending = true) then .docked
       else x.state } ∧
     (∀ j, j ≠ i → (s.testReadiness i).record j = s.record j) ∧ s.ChangesOnly (s.testReadiness i) [.records]) ∧
  (∀ (s : State) (l : Link) (r v : Nat), s.Takes (.setSettingReadyLevel l r v) l →
     ∃ u t, u = s.setSettings { s.settings with readyLevel := max 500 (min 1000 v) } ∧
       t = State.finish s (u.recordIndices.foldl State.testAndOffer u) [0, 1, 2, 3] ∧
       exec (.setSettingReadyLevel l r v) s = .next (t.answered l .ok (bytes2 (max 500 (min 1000 v)))) ∧
       t.settings = { s.settings with readyLevel := max 500 (min 1000 v) } ∧
       ∀ k b, k < 4 → b < 64 → (t.drive k b).staged = t.stagedShare k (t.turns k) b)

/-- SET_RESERVE refuses a bad range with BAD_REQUEST and, while a range is pending, every range with BUSY; else the
empty range is applied at once, and a range is applied if no loan not flagged reserve holds a record inside it and
stays pending otherwise (R17, R18; the order of the two refusals is the model's, log 11). The test of a pending range
applies it exactly then (R18). The reserve exclusion set is the applied range with the pending one (R19), and the READY
records that an event has taken out of it are offered in ascending index, but for those already offered at it (R116). -/
def Obligations.SetReserveStagesARange : Prop :=
  (∀ (s : State) (l : Link) (range : Option (Nat × Nat)), s.Takes (.setReserve l range) l → s.access.lock = false →
    (∀ lo hi, range = some (lo, hi) → (hi < lo ∨ 1023 < hi) →
      exec (.setReserve l range) s = .next (s.answered l .badRequest [])) ∧
    ((∀ lo hi, range = some (lo, hi) → lo ≤ hi ∧ hi ≤ 1023) → s.fleet.staged ≠ none →
      exec (.setReserve l range) s = .next (s.answered l .busy [])) ∧
    ((∀ lo hi, range = some (lo, hi) → lo ≤ hi ∧ hi ≤ 1023) → s.fleet.staged = none →
      ∃ u t, exec (.setReserve l range) s = .next (t.answered l .ok (bytes1 t.reserveStatus)) ∧
        t = State.finish s (State.offerFreed s u []) [] ∧ s.ChangesOnly u [.ranges] ∧
        t.fleet.applied = u.fleet.applied ∧ t.fleet.staged = u.fleet.staged ∧
        (range = none → u.fleet.applied = none ∧ u.fleet.staged = none) ∧
        ∀ lo hi, range = some (lo, hi) →
          ((∀ id x i, s.loan id = some x → x.reserve = false → i ∈ x.outstanding → ¬(lo ≤ i ∧ i ≤ hi)) →
            u.fleet.applied = some { lo := lo, hi := hi } ∧ u.fleet.staged = none) ∧
          ((∃ id x i, s.loan id = some x ∧ x.reserve = false ∧ i ∈ x.outstanding ∧ lo ≤ i ∧ i ≤ hi) →
            u.fleet.applied = s.fleet.applied ∧ u.fleet.staged = some { lo := lo, hi := hi }))) ∧
  (∀ s : State,
    (s.fleet.staged = none → s.testReserve = s) ∧
    ∀ g, s.fleet.staged = some g →
      ((∀ id x i, s.loan id = some x → x.reserve = false → i ∈ x.outstanding → ¬(g.lo ≤ i ∧ i ≤ g.hi)) →
        s.testReserve = { s with fleet := { s.fleet with applied := some g, staged := none } }) ∧
      ((∃ id x i, s.loan id = some x ∧ x.reserve = false ∧ i ∈ x.outstanding ∧ g.lo ≤ i ∧ i ≤ g.hi) →
        s.testReserve = s)) ∧
  (∀ before s : State, s.Canonical → ∀ already : List Nat,
    (∀ i, s.excluded i = true ↔ ∃ g : Range, (s.fleet.applied = some g ∨ s.fleet.staged = some g) ∧ g.lo ≤ i ∧ i ≤ g.hi) ∧
    ∃ freed : List Nat, State.offerFreed before s already = freed.foldl State.offer s ∧ freed.Pairwise (· < ·) ∧
      ∀ i, i ∈ freed ↔ (∃ x, s.record i = some x ∧ x.state = .ready) ∧ before.excluded i = true ∧
        s.excluded i = false ∧ i ∉ already)

/-! ## Settings and clock -/

/-- A setting with no effect of its own at the write takes the value made to fit its range, and the response carries it
(R181). The settings compared with running timers at the write: COLD_AFTER cools the HOT racks whose quiet time has
reached it, GAUGE_INTERVAL fires the polls whose time has reached it, KEEPALIVE expires the keep-alives that have
reached it (R35, R69, R139), one after another in an order the spec leaves open, passing over one that an earlier
expiry has ended (log 20). An expiry cuts the programme of its TALKING microphone, which goes IDLE, and posts
FLOOR_STALE (R137, R139); TurnsEndWithTheMicrophoneIdle says what State.settleOwnFloor does. The test of R144 is made
once, at the end of the event: a house floor that was live and is no longer takes every cascade entry with it. -/
def Obligations.SettingsAreFittedAndCompared : Prop :=
  (∀ (s : State) (l : Link) (r v : Nat), s.Hears l → s.mayWrite l .settings = true →
     exec (.setSettingSenseThreshold l r v) s =
       .next ((s.setSettings { s.settings with senseThreshold := max 40 (min 1000 v) }).answered l .ok
         (bytes2 (max 40 (min 1000 v)))) ∧
     exec (.setSettingBaseInit l r v) s =
       .next ((s.setSettings { s.settings with baseInit := max 0 (min 4095 v) }).answered l .ok
         (bytes2 (max 0 (min 4095 v)))) ∧
     exec (.setSettingReleaseWindow l r v) s =
       .next ((s.setSettings { s.settings with releaseWindow := max 10 (min 300 v) }).answered l .ok
         (bytes2 (max 10 (min 300 v)))) ∧
     exec (.setSettingMissingAfter l r v) s =
       .next ((s.setSettings { s.settings with missingAfter := max 60 (min 3600 v) }).answered l .ok
         (bytes2 (max 60 (min 3600 v)))) ∧
     exec (.setSettingDefaultDuration l r v) s =
       .next ((s.setSettings { s.settings with defaultDuration := max 10 (min 480 v) }).answered l .ok
         (bytes2 (max 10 (min 480 v))))) ∧
  (∀ (s : State) (l : Link) (r v : Nat), s.Hears l → s.mayWrite l .settings = true →
     (∃ t, exec (.setSettingColdAfter l r v) s = .next (t.answered l .ok (bytes2 (max 10 (min 600 v)))) ∧
       t.settings = { s.settings with coldAfter := max 10 (min 600 v) } ∧ s.ChangesOnly t [.settings, .scan] ∧
       ∀ k, k < 4 → t.scanner k =
         { s.scanner k with cadence :=
           if (s.scanner k).cadence = .hot ∧ s.heldHot k = false ∧ max 10 (min 600 v) * 512000 ≤ (s.scanner k).quiet then
             .cold else (s.scanner k).cadence }) ∧
     (∃ u, u = s.setSettings { s.settings with gaugeInterval := max 10 (min 300 v) } ∧
       exec (.setSettingGaugeInterval l r v) s =
         .next ((State.finish s
           ([0, 1, 2, 3].foldl (fun t k =>
             if max 10 (min 300 v) * 512000 ≤ (s.channel k).gaugeElapsed then t.firePoll k else t) u) []).answered l .ok
           (bytes2 (max 10 (min 300 v))))) ∧
     (∃ (u w : State) (ms : List Nat), u = s.setSettings { s.settings with keepalive := max 1 (min 10 v) } ∧
       (∀ m, m ∈ ms ↔ ∃ e, (s.mic m).keepAlive = some e ∧ max 1 (min 10 v) * 512000 ≤ e) ∧
       (s.Canonical → ms.Nodup) ∧
       w = ms.foldl (fun t m => if t.keepAliveDue m then t.expireAmong m else t)
         { u with draws := u.draws + (if ms.length ≤ 1 then 0 else 1) } ∧
       exec (.setSettingKeepalive l r v) s =
         .next ((State.finishFloors s (if s.houseLive then w.dropCascadesIfSilent else w)).answered l .ok
           (bytes2 (max 1 (min 10 v)))))) ∧
  (∀ (t : State) (m : Nat),
     (t.keepAliveDue m = true ↔ ∃ e, (t.mic m).keepAlive = some e ∧ t.settings.keepalive * 512000 ≤ e) ∧
     ((t.mic m).state ≠ .talking → t.expireAmong m = t) ∧
     ∀ p, (t.mic m).state = .talking → (t.mic m).programme = some p →
       t.expireAmong m =
         ((((t.setFloor p { t.floorOf p with
           waiting := (t.floorOf p).waiting.filter (· != m)
           stack := (t.floorOf p).stack.filter (· != .mic m) }).setMic m
             { t.mic m with state := .idle, requestTime := none, keepAlive := none }).settleOwnFloor p).post (.floorStale m)))

/-- SET_CLOCK sets the clock and restarts its sub-second phase, and the response carries the value (R162). A second
after the event that set its phase the clock advances by 1, from 4294967295 to 0 (R161); an advance that a SET_CLOCK has
overtaken is in EveryCommandAnswersANextState. -/
def Obligations.ClockIsSetAndAdvances : Prop :=
  (∀ (s : State) (l : Link) (n : Nat), s.Takes (.setClock l n) l →
     exec (.setClock l n) s = .next ({ s with age := { s.age with clock := n, clockPhase := 0 } }.answered l .ok (bytes4 n))) ∧
  (∀ s : State, s.resetHeld = false → 512000 ≤ s.age.clockPhase → s.age.clock ≤ 4294967295 →
     exec .clockAdvance s = .next { s with age := { s.age with
       clock := if s.age.clock = 4294967295 then 0 else s.age.clock + 1
       clockPhase := 0 } })

/-- RACK_LIMIT is fitted to 0 to 16000 and rounded down to a multiple of 50; it becomes the staged limit, the applied
limits stay, and the rack is staged at once (R80, R181). DL_SLOTS is fitted to 16 to 56; while a held slot does not
fit the new split it is refused with BUSY, else it is written into the next plan alone, and the free slots that change
half serve the wait queues: a split raised serves the downlink queue, its head taking the lowest free slot, and one
lowered the uplink queue, its head taken out and its floor evaluated, until the queue is empty or no slot is free (R141,
R152, R158). -/
def Obligations.LimitsAndSplitWaitForABoundary : Prop :=
  (∀ (s : State) (l : Link) (r v : Nat), s.Takes (.setSettingRackLimit l r v) l →
     (3 < r → exec (.setSettingRackLimit l r v) s = .next (s.answered l .badRequest [])) ∧
     (r ≤ 3 →
       ∃ t : State, exec (.setSettingRackLimit l r v) s = .next (t.answered l .ok (bytes2 (min 16000 v / 50 * 50))) ∧
         (t.rackCharge r).stagedLimit = min 16000 v / 50 * 50 ∧
         (∀ k, k ≠ r → (t.rackCharge k).stagedLimit = (s.rackCharge k).stagedLimit) ∧
         (∀ k, (t.rackCharge k).appliedLimit = (s.rackCharge k).appliedLimit) ∧
         (∀ b, b < 64 → (t.drive r b).staged = t.stagedShare r (t.turns r) b) ∧
         s.ChangesOnly t [.records, .scan, .chan, .charge, .air, .ports] ∧ s.PostsOnly t [15])) ∧
  (∀ (s : State) (l : Link) (r v d : Nat), s.Takes (.setSettingDlSlots l r v) l → d = max 16 (min 56 v) →
     ((∃ i, ¬(s.entry i).FitsAt d i) → exec (.setSettingDlSlots l r v) s = .next (s.answered l .busy [])) ∧
     ((∀ i, (s.entry i).FitsAt d i) →
       ∃ u w t : State, u = { s with air := { s.air with nextPlan := { s.air.nextPlan with split := d } } } ∧
         w = (if s.air.nextPlan.split < d then serveDownlink s.air.downlinkQueue.length u
           else if d < s.air.nextPlan.split then u.offerUplink
           else u) ∧
         t = State.finishFloors s w ∧ exec (.setSettingDlSlots l r v) s = .next (t.answered l .ok (bytes2 d)) ∧
         (s.air.nextPlan.split < d → w.air.downlinkQueue = [] ∨ w.freeDownlink = none) ∧
         (d < s.air.nextPlan.split → w.floor.uplinkQueue = [] ∨ w.freeUplink = none) ∧
         t.air.nextPlan.split = d ∧ t.air.frameSplit = s.air.frameSplit ∧ t.air.currentPlan = s.air.currentPlan ∧
         s.ChangesOnly t [.air, .floor, .ports] ∧ s.PostsOnly t [12])) ∧
  (∀ (s : State) (n : Nat),
     (∀ i, s.freeDownlink = some i ↔ i < 64 ∧ i < s.air.nextPlan.split ∧ s.entry i = .free ∧
       ∀ j, j < i → s.entry j ≠ .free) ∧
     (s.air.downlinkQueue = [] ∨ s.freeDownlink = none → serveDownlink n s = s) ∧
     ∀ q rest i, s.air.downlinkQueue = q :: rest → s.freeDownlink = some i →
       serveDownlink (n + 1) s = serveDownlink n ((s.setDownlinkQueue rest).setEntry i (.down q (s.sourceOf q)))) ∧
  (∀ (s : State) (n : Nat),
     s.offerUplink = serveUplink s.floor.uplinkQueue.length s ∧
     (s.floor.uplinkQueue = [] ∨ s.freeUplink = none → serveUplink n s = s) ∧
     ∀ q rest, s.floor.uplinkQueue = q :: rest → s.freeUplink ≠ none →
       serveUplink (n + 1) s = serveUplink n ((s.setUplinkQueue rest).reevaluate q))

/-- At the end of an event that racks, floors or the allocator can feel: a multiplexer that neither block holds is
taken by the channel if a request waits (R25), a PROGRAM that begins makes its record PROGRAMMING (R50), the next
plan's entries show the stacks (R156, R157), the promoted set is that of the state (R74, R75), and nothing else moves
but stagings, FLOOR_CHANGED and RACK_SHORT. Every rack is staged again if the promoted set changes its membership, else
the racks that the event names and those at which a bay has come to be or ceased to be EMPTY, a bay's binding has
changed, or a bound record's state or loan (R75, R76), found by comparing the two ends of the event (log 33).
FLOOR_CHANGED is posted for each programme whose top entry, topmost microphone or holding of an uplink slot the event
has changed, again by comparing the two ends (R133, log 28), in ascending programme ID, and then RACK_SHORT for each
rack whose staging scales FIRST or NEEDED, in ascending rack number (R76, R79). A DOWN entry shows what its programme's
stack has on top, the house floor's topmost microphone in place of a cascade entry; an UP entry shows the topmost
microphone (R149, R156, R157). -/
def Obligations.EndOfEventFrame : Prop :=
  (∀ (before u : State) (extra : List Nat), ∃ t, t = State.finish before u extra ∧
    u.ChangesOnly t [.records, .scan, .chan, .charge, .air, .ports] ∧ u.PostsOnly t [12, 15] ∧ t.Served ∧
    (∀ r b, t.bay r b = u.bay r b) ∧
    (∀ r, r < 4 → (u.scanner r).holder ≠ .none →
      t.scanner r = u.scanner r ∧ (t.channel r).queue = (u.channel r).queue ∧
        (t.channel r).inFlight = (u.channel r).inFlight) ∧
    (∀ i, t.record i = u.record i ∨
      ∃ x r q, r < 4 ∧ u.record i = some x ∧ t.record i = some { x with state := .programming } ∧
        (u.scanner r).holder = .none ∧ q ∈ (u.channel r).queue ∧ q.kind = .program ∧ q.record = some i ∧
        (t.channel r).inFlight = some q) ∧
    (∀ i, t.entry i = t.refreshedEntry (u.entry i)) ∧ t.air.nextPlan.split = u.air.nextPlan.split ∧
    t.air = { u.air with nextPlan := t.air.nextPlan } ∧
    (∀ r b, (t.drive r b).applied = (u.drive r b).applied ∧ (t.drive r b).duty = (u.drive r b).duty) ∧
    (∀ r, (t.rackCharge r).stagedLimit = (u.rackCharge r).stagedLimit ∧
      (t.rackCharge r).appliedLimit = (u.rackCharge r).appliedLimit) ∧
    t.charge.promoted = t.promotedSet ∧
    ∃ restaged floors short : List Nat,
      (∀ r, r ∈ restaged ↔ r < 4 ∧
        (t.charge.promoted ≠ u.charge.promoted ∨ r ∈ extra ∨
          ∃ b, ¬((before.bay r b).state = .empty ↔ (t.bay r b).state = .empty) ∨
            (before.bay r b).bound ≠ (t.bay r b).bound ∨
            ((before.bay r b).bound.bind before.record).map (fun x => (x.state, x.loan)) ≠
              ((t.bay r b).bound.bind t.record).map (fun x => (x.state, x.loan)))) ∧
      (∀ r b, r < 4 → b < 64 → r ∈ restaged → (t.drive r b).staged = t.stagedShare r (t.turns r) b) ∧
      (∀ r, r ∉ restaged → t.rackCharge r = u.rackCharge r) ∧
      (∀ p, p ∈ floors ↔ p < 64 ∧
        ((before.floorOf p).stack.head? ≠ (t.floorOf p).stack.head? ∨
          topMic (before.floorOf p).stack ≠ topMic (t.floorOf p).stack ∨
          ¬((∃ i m, before.entry i = .up p m) ↔ ∃ i m, t.entry i = .up p m))) ∧
      (∀ r, r ∈ short ↔ r ∈ restaged ∧
        (t.available r < (t.classDemands r .first).sum ∨
          t.available r - (t.classDemands r .first).sum < (t.classDemands r .needed).sum)) ∧
      floors.Pairwise (· < ·) ∧ short.Pairwise (· < ·) ∧
      t.ports = (short.foldl (fun w r => w.post (.rackShort r))
        (floors.foldl (fun w p => w.post (.floorChanged p)) u)).ports) ∧
  (∀ (before u : State), ∃ (t : State) (floors : List Nat), t = State.finishFloors before u ∧
    u.ChangesOnly t [.air, .ports] ∧ (∀ i, t.entry i = t.refreshedEntry (u.entry i)) ∧
    t.air = { u.air with nextPlan := t.air.nextPlan } ∧ t.air.nextPlan.split = u.air.nextPlan.split ∧
    (∀ p, p ∈ floors ↔ p < 64 ∧
      ((before.floorOf p).stack.head? ≠ (t.floorOf p).stack.head? ∨
        topMic (before.floorOf p).stack ≠ topMic (t.floorOf p).stack ∨
        ¬((∃ i m, before.entry i = .up p m) ↔ ∃ i m, t.entry i = .up p m))) ∧
    floors.Pairwise (· < ·) ∧ t.ports = (floors.foldl (fun w p => w.post (.floorChanged p)) u).ports) ∧
  (∀ s : State,
    s.refreshedEntry .free = .free ∧
    (∀ p x, s.refreshedEntry (.down p x) = .down p (s.sourceOf p)) ∧
    (∀ p m, (∀ k, topMic (s.floorOf p).stack = some k → s.refreshedEntry (.up p m) = .up p k) ∧
      (topMic (s.floorOf p).stack = none → s.refreshedEntry (.up p m) = .up p m)) ∧
    ∀ p, ((s.floorOf p).stack = [] → s.sourceOf p = .none) ∧
      (∀ m rest, (s.floorOf p).stack = .mic m :: rest → s.sourceOf p = .mic m) ∧
      ∀ rest, (s.floorOf p).stack = .cascade :: rest →
        (∀ h, topMic (s.floorOf 0).stack = some h → s.sourceOf p = .house h) ∧
        (topMic (s.floorOf 0).stack = none → s.sourceOf p = .none)) ∧
  (topMic [] = none ∧ (∀ m rest, topMic (.mic m :: rest) = some m) ∧ ∀ rest, topMic (.cascade :: rest) = topMic rest)

/-! ## Bays and scanning -/

/-- A scan completion of an EMPTY bay (R29): the deviation from the baseline decides between ARRIVING, no change, a
move of the baseline by an eighth truncated toward zero, and the sense value taken as baseline; the baseline stays
between its old value and the sense value. The move
to ARRIVING wakes the rack, and a scan that leaves the bay EMPTY leaves cadence and quiet time (the parts of R34 and R35
that fall here). -/
def Obligations.EmptyBayScanFollowsTheDeviation : Prop :=
  ∀ (s : State) (r b reading : Nat), s.resetHeld = false → r < 4 → (s.scanner r).phase = .sweep →
    (s.scanner r).holder ≠ .channel → (s.scanner r).sweepPos = b → (s.bay r b).state = .empty →
    ∃ (t : State) (d T : Int), exec (.scanCompletion r reading) s = .next t ∧
      d = (reading : Int) - ((s.bay r b).baseline : Int) ∧ T = (s.settings.senseThreshold : Int) ∧
      (t.bay r b).sense = reading ∧
      (T ≤ d → (t.bay r b).state = .arriving ∧ (t.bay r b).baseline = (s.bay r b).baseline) ∧
      (d < T → (t.bay r b).state = .empty) ∧
      (T / 2 ≤ d → d < T → (t.bay r b).baseline = (s.bay r b).baseline) ∧
      (-T < d → d < T / 2 → ((t.bay r b).baseline : Int) = ((s.bay r b).baseline : Int) + d.tdiv 8) ∧
      (d ≤ -T → d < T / 2 → (t.bay r b).baseline = reading) ∧
      min (s.bay r b).baseline reading ≤ (t.bay r b).baseline ∧
      (t.bay r b).baseline ≤ max (s.bay r b).baseline reading ∧
      (t.bay r b).bound = (s.bay r b).bound ∧ (t.bay r b).latchOpen = (s.bay r b).latchOpen ∧
      (T ≤ d → (t.scanner r).cadence = .hot ∧ (t.scanner r).quiet = 0) ∧
      (d < T → (t.scanner r).cadence = (s.scanner r).cadence ∧ (t.scanner r).quiet = (s.scanner r).quiet) ∧
      (∀ k c, (k, c) ≠ (r, b) → t.bay k c = s.bay k c) ∧
      s.ChangesOnly t [.records, .scan, .chan, .charge, .air, .ports]

/-- The scan completions of the other bay states (R30 to R33): a positive reading confirms an arrival, two absent
readings empty an IDENTIFYING, FOREIGN or FAULT bay, one absent reading makes an OCCUPIED bay LEAVING and the next is
its departure (R37). A change of the bay's state wakes the rack, HOT with quiet time 0, and a scan that changes none
leaves both (R34, R35). At each scan completion the sweep position advances, and after bay 63 the wait begins (R24). -/
def Obligations.HeldBayScansFollowTheirState : Prop :=
  (∀ (s : State) (r b reading : Nat), s.resetHeld = false → r < 4 → (s.scanner r).phase = .sweep →
     (s.scanner r).holder ≠ .channel → (s.scanner r).sweepPos = b →
     ∃ u : State, exec (.scanCompletion r reading) s = .next (State.finish s (u.advanceSweep r) []) ∧
       ((s.bay r b).state = .arriving →
         (if (s.bay r b).baseline + s.settings.senseThreshold ≤ reading then
           u.bay r b = { s.bay r b with sense := reading, state := .identifying, debounce := 0 } ∧
           ∃ q, q ∈ (u.channel r).queue ∧ q.kind = .identify ∧ q.bay = b ∧ q.attempts = 0
         else u.bay r b = { s.bay r b with sense := reading, state := .empty, debounce := 0 })) ∧
       ((s.bay r b).state = .identifying ∨ (s.bay r b).state = .foreign ∨ (s.bay r b).state = .fault →
         (if (s.bay r b).baseline + s.settings.senseThreshold / 2 ≤ reading then
           u.bay r b = { s.bay r b with sense := reading, debounce := 0 }
         else if (s.bay r b).debounce = 0 then u.bay r b = { s.bay r b with sense := reading, debounce := 1 }
         else u.bay r b = { s.bay r b with sense := reading, state := .empty, debounce := 0 } ∧
           u.queuedAt r b = none)) ∧
       ((s.bay r b).state = .occupied →
         (if (s.bay r b).baseline + s.settings.senseThreshold / 2 ≤ reading then
           u.bay r b = { s.bay r b with sense := reading }
         else u.bay r b = { s.bay r b with sense := reading, state := .leaving, debounce := 0 })) ∧
       ((s.bay r b).state = .leaving →
         (if (s.bay r b).baseline + s.settings.senseThreshold / 2 ≤ reading then
           u.bay r b = { s.bay r b with sense := reading, state := .occupied, debounce := 0 }
         else u = (s.setBay r b { s.bay r b with sense := reading }).depart r b)) ∧
       ((s.bay r b).state ≠ .leaving → ∀ k c, (k, c) ≠ (r, b) → u.bay k c = s.bay k c) ∧
       ((u.bay r b).state ≠ (s.bay r b).state → (u.scanner r).cadence = .hot ∧ (u.scanner r).quiet = 0) ∧
       ((u.bay r b).state = (s.bay r b).state →
         (u.scanner r).cadence = (s.scanner r).cadence ∧ (u.scanner r).quiet = (s.scanner r).quiet)) ∧
  (∀ (s : State) (r reading : Nat), s.resetHeld = false → r < 4 → (s.scanner r).phase = .sweep →
     (s.scanner r).holder ≠ .channel →
     ∃ t : State, exec (.scanCompletion r reading) s = .next t ∧
       ((s.scanner r).sweepPos < 63 →
         (t.scanner r).phase = .sweep ∧ (t.scanner r).sweepPos = (s.scanner r).sweepPos + 1 ∧
           (t.scanner r).holder ≠ .none) ∧
       ((s.scanner r).sweepPos = 63 → (t.scanner r).phase = .wait ∧ (t.scanner r).waitElapsed = 0))

/-- The timers of a rack: the end of the wait, which is 20 ms while the rack is HOT and 400 ms while it is COLD, makes
the scan of bay 0 due, and it begins at once unless the channel holds the multiplexer (R24, R25, R36; that wait elapsed
keeps its value in the sweep is the model's choice, log 13); the quiet time reaching COLD_AFTER makes a HOT rack COLD
unless it is held at 0 (R34, R35); the gauge poll timer starts again and asks for a GAUGE at each polled bay, and for
nothing at a bay that is not OCCUPIED, has a request, or holds a record in another state, such as FAULT, RETIRED or
PROGRAMMING (R69). A rack woken is HOT with quiet time 0, and a wait that has lasted 20 ms or more on a COLD rack ends
(R34 to R36). -/
def Obligations.RackTimersActAtTheirEnd : Prop :=
  (∀ (s : State) (r : Nat), s.resetHeld = false → r < 4 →
     ((s.scanner r).phase = .wait →
       (if (s.scanner r).cadence = .hot then 10240 else 204800) ≤ (s.scanner r).waitElapsed →
       exec (.sweepWaitExpiry r) s = .next (s.setScanner r { s.scanner r with
         phase := .sweep, sweepPos := 0,
         holder := if (s.scanner r).holder = .none then .scanner else (s.scanner r).holder })) ∧
     ((s.scanner r).cadence = .hot → s.heldHot r = false → s.settings.coldAfter * 512000 ≤ (s.scanner r).quiet →
       exec (.coldAfterExpiry r) s = .next (s.setScanner r { s.scanner r with cadence := .cold })) ∧
     (s.settings.gaugeInterval * 512000 ≤ (s.channel r).gaugeElapsed →
       ∃ u, exec (.gaugePoll r) s = .next (State.finish s u []) ∧ s.ChangesOnly u [.scan, .chan] ∧
       (u.channel r).gaugeElapsed = 0 ∧ (∀ k b, u.bay k b = s.bay k b) ∧
       (∀ q, q ∈ (s.channel r).queue → q ∈ (u.channel r).queue) ∧
       ∀ b, b < 64 →
         (∀ i x, (s.bay r b).state = .occupied → (s.bay r b).bound = some i → s.requestAt r b = none →
           s.record i = some x →
           (x.state = .docked ∨ x.state = .ready ∨ x.state = .reserved ∨ x.state = .released) →
           ∃ q, u.requestAt r b = some q ∧ q.kind = .gauge ∧ q.record = some i ∧ q.attempts = 0) ∧
         (s.requestAt r b ≠ none ∨ (s.bay r b).state ≠ .occupied ∨ (s.bay r b).bound = none ∨
             (∃ i x, (s.bay r b).bound = some i ∧ s.record i = some x ∧
               x.state ≠ .docked ∧ x.state ≠ .ready ∧ x.state ≠ .reserved ∧ x.state ≠ .released) →
           u.requestAt r b = s.requestAt r b))) ∧
  (∀ (s : State) (r : Nat),
     ((s.wake r).scanner r).cadence = .hot ∧ ((s.wake r).scanner r).quiet = 0 ∧
     ((s.scanner r).cadence = .cold → (s.scanner r).phase = .wait → 10240 ≤ (s.scanner r).waitElapsed →
       ((s.wake r).scanner r).phase = .sweep ∧ ((s.wake r).scanner r).sweepPos = 0) ∧
     ((s.scanner r).cadence = .hot ∨ (s.scanner r).phase = .sweep ∨ (s.scanner r).waitElapsed < 10240 →
       (s.wake r).scanner r = { s.scanner r with cadence := .hot, quiet := 0 }) ∧
     (∀ k, k ≠ r → (s.wake r).scanner k = s.scanner k) ∧ s.ChangesOnly (s.wake r) [.scan])

/-- A departure breaks the binding, cuts the drive and closes the latch at once, and moves the record by its state: the
handout of a RELEASED record, ABSENT for the others but RETIRED (R37, R38, R39). A record lost before its handout
raises the shortfall of a loan that wants, which is filled again by selection and stands in the wanting queue if a
shortfall remains, and is counted dropped in a loan that does not (R115); the tests and offers of a removal follow
(R109). -/
def Obligations.DepartureMovesTheRecordByItsState : Prop :=
  (∀ (s : State) (r b i : Nat) (x : Record), (s.bay r b).bound = some i → s.record i = some x →
    ∃ t, t = s.depart r b ∧
      t.bay r b = { s.bay r b with state := .empty, debounce := 0, latchOpen := false, bound := none } ∧
      t.drive r b = { s.drive r b with applied := 0, duty := 0 } ∧
      (x.state = .released →
        t.record i = some { x with bay := none, state := .onLoan, lastHeard := some s.age.clock } ∧ t.timer i = none ∧
        (∀ id y, x.loan = some id → s.loan id = some y → t.loan id = some { y with lifted := y.lifted + 1 }) ∧
        t.ports = s.ports ∧ t.tours = s.tours) ∧
      (x.state = .docked ∨ x.state = .ready → t.record i = some { x with bay := none, state := .absent } ∧
        t.ports = (s.post (.unreleasedLift i)).ports) ∧
      (x.state = .fault → t.record i = some { x with bay := none, state := .absent } ∧ t.ports = s.ports) ∧
      (x.state = .retired → t.record i = some { x with bay := none } ∧ t.ports = s.ports) ∧
      (x.state = .reserved ∨ x.state = .programming →
        t.record i = some
          { x with bay := none, state := .absent, loan := none, programme := none, due := none, overdueFlag := false } ∧
        ∃ u : State, s.ChangesOnly u [.records, .scan, .chan, .charge] ∧ u.record i = some { x with bay := none } ∧
          (∀ j, j ≠ i → u.record j = s.record j) ∧ u.queuedAt r b = none ∧
          t = State.settle u ((u.loseBeforeHandout i .absent).post (.unreleasedLift i)) x.loan.toList []) ∧
      (x.state ≠ .reserved → x.state ≠ .programming →
        t.queuedAt r b = none ∧ ∀ j, j ≠ i → t.record j = s.record j)) ∧
  (∀ (s : State) (i id : Nat) (dest : RecState) (x : Record) (l : Loan), s.record i = some x → x.loan = some id →
    s.loan id = some l →
    (l.wants = true → s.loseBeforeHandout i dest = (s.leaveLoan i dest .shortfall).fill id) ∧
    (l.wants = false → s.loseBeforeHandout i dest = s.leaveLoan i dest .dropped)) ∧
  ∀ (s : State) (id : Nat) (l : Loan), s.loan id = some l → s.fill id = (s.select id l.shortfall).enterWanting id

/-! ## Dock transfers -/

/-- A transfer queue stands in the order of class (PROGRAM 1, IDENTIFY 2, READ_USAGE 3, GAUGE 4), then enqueue stamp,
then bay for the requests of one event (R48, R50; the tie of bays, log 12), and a request that joins it takes its place
there: a fresh one with no failed attempt and the rack's next stamp (R47, R49), which wakes the rack (R34, R35;
RackTimersActAtTheirEnd). That every queue stands so is a law of the part, which every step keeps
(EveryStepKeepsTheLawsOfThePart). An attempt begins at the head of the queue with the word count and the width of its
kind; the nine words of a PROGRAM are formed from the loan, the record and the programme, and its record goes
PROGRAMMING (R48, R50, R52). In BYTE width the low byte crosses first and is held (R54): the byte presented, or that of
the word the channel drives. A word that has crossed whole lowers words remaining by 1 and starts the wait for the
next; the count of a READ_USAGE is added to words remaining, and one above 48 fails the attempt and is not added (log
32); the third word of an IDENTIFY sets the width of the rest (R53 to R55). A word that the channel drives in a PROGRAM
crosses with the value the channel formed, whatever value the command carries (R52, R53; the model's reading, log 26).
-/
def Obligations.WordsCrossOneAtATime : Prop :=
  ((∀ a b : Req, a.before b = true ↔
     a.kind.cls < b.kind.cls ∨
       a.kind.cls = b.kind.cls ∧ (a.stamp < b.stamp ∨ a.stamp = b.stamp ∧ a.bay < b.bay)) ∧
   Kind.cls .program = 1 ∧ Kind.cls .identify = 2 ∧ Kind.cls .readUsage = 3 ∧ Kind.cls .gauge = 4) ∧
  (∀ (q : Req) (l : List Req), l.Pairwise (fun a b => b.before a = false) →
     (insertBy Req.before q l).Pairwise (fun a b => b.before a = false) ∧ (insertBy Req.before q l).Perm (q :: l)) ∧
  (∀ (s : State) (r b : Nat) (kind : Kind) (record loan : Option Nat),
     ∃ (t : State) (q : Req), t = s.ask r b kind record loan ∧ s.ChangesOnly t [.scan, .chan] ∧
       q = { kind := kind, bay := b, record := record, loan := loan, attempts := 0, stamp := (s.channel r).nextStamp,
             withdraw := false } ∧
       t.channel r = { s.channel r with queue := insertBy Req.before q (s.channel r).queue } ∧
       (∀ k, k ≠ r → t.channel k = s.channel k) ∧ t.scanner r = (s.wake r).scanner r ∧
       (t.scanner r).cadence = .hot ∧ (t.scanner r).quiet = 0 ∧ ∀ k, k ≠ r → t.scanner k = s.scanner k) ∧
  (∀ (s : State) (r : Nat) (q : Req) (rest : List Req), (s.channel r).queue = q :: rest →
     ∃ t, t = s.beginAttempt r ∧ s.ChangesOnly t [.records, .scan, .chan] ∧
       (t.scanner r).holder = .channel ∧ (t.channel r).inFlight = some q ∧ (t.channel r).queue = rest ∧
       (t.channel r).words = [] ∧ (t.channel r).lowByte = none ∧
       (q.kind = .identify → (t.channel r).wordsRemaining = 6 ∧ (t.channel r).width = .byte) ∧
       (q.kind = .readUsage → (t.channel r).wordsRemaining = 2) ∧
       (q.kind = .gauge → (t.channel r).wordsRemaining = 3) ∧
       (∀ i x, q.kind ≠ .identify → q.record = some i → s.record i = some x →
         (t.channel r).width = (if x.generation = .g1 then .byte else .word)) ∧
       (∀ i x id y p due, q.kind = .program → q.record = some i → s.record i = some x → q.loan = some id →
         s.loan id = some y → x.programme = some p → x.due = some due →
         t.record i = some { x with state := .programming } ∧ (t.channel r).wordsRemaining = 10 ∧
         (t.channel r).formed =
           [id, y.tour, p, (s.programme p).key, (s.programme p).language, 8, due % 65536, due / 65536,
             (id + y.tour + p + (s.programme p).key + (s.programme p).language + 8 + due % 65536 + due / 65536) % 65536])) ∧
  (∀ (s : State) (r byte : Nat) (q : Req), s.resetHeld = false → r < 4 → (s.channel r).inFlight = some q →
     (s.channel r).confirming = false → (s.channel r).width = .byte → (s.channel r).lowByte = none →
     ((s.channel r).driven = none →
       exec (.byteCrossed r byte) s = .next (s.setChannel r { s.channel r with lowByte := some byte })) ∧
     (∀ w, (s.channel r).driven = some w →
       exec (.byteCrossed r byte) s = .next (s.setChannel r { s.channel r with lowByte := some (w % 256) }))) ∧
  (∀ (s : State) (r word : Nat) (q : Req) (c : Channel), s.resetHeld = false → r < 4 → s.channel r = c →
     c.inFlight = some q → c.confirming = false → word < 65536 → c.driven = none →
     (c.width = .word ∨ c.lowByte = some (word % 256)) → 2 ≤ c.wordsRemaining →
     (q.kind ≠ .readUsage ∨ c.words ≠ [] →
       exec (.wordCrossed r word) s = .next (s.setChannel r { c with
         words := c.words ++ [word], lowByte := none, wordElapsed := 0, wordsRemaining := c.wordsRemaining - 1
         width := if q.kind = .identify ∧ c.words.length = 2 then (if word % 256 = 2 then .word else .byte)
           else c.width })) ∧
     (q.kind = .readUsage → c.words = [] → word ≤ 48 →
       exec (.wordCrossed r word) s = .next (s.setChannel r { c with
         words := [word], lowByte := none, wordElapsed := 0, wordsRemaining := c.wordsRemaining - 1 + word })) ∧
     (q.kind = .readUsage → c.words = [] → 48 < word →
       exec (.wordCrossed r word) s = .next (s.setChannel r { c with
         words := [], lowByte := none, wordElapsed := 0, wordsRemaining := c.wordsRemaining - 1, confirming := true }))) ∧
  (∀ (s : State) (r word w low : Nat) (q : Req) (c : Channel), s.resetHeld = false → r < 4 → s.channel r = c →
     c.inFlight = some q → q.kind = .program → c.confirming = false → c.driven = some w → 2 ≤ c.wordsRemaining →
     (c.width = .word ∨ c.lowByte = some low) →
     exec (.wordCrossed r word) s = .next (s.setChannel r { c with
       words := c.words ++ [w], lowByte := none, wordElapsed := 0, wordsRemaining := c.wordsRemaining - 1 }))

/-- The last word must be the check of the words before it, or in a PROGRAM the acknowledge equal to the check
written; then the crossing is the completion of the transfer, with the values the words spell, and otherwise the
attempt fails, the word having crossed (R53, R55, R190; that the crossing takes the completion itself is the model's
reading, log 4). A word that has not crossed within 50 ms fails the attempt; the channel keeps the multiplexer for the
confirming scan (R53, R56). -/
def Obligations.LastWordIsChecked : Prop :=
  (∀ (s : State) (r word : Nat) (q : Req) (c : Channel), s.resetHeld = false → r < 4 → s.channel r = c →
     c.inFlight = some q → c.confirming = false → word < 65536 → c.driven = none →
     (c.width = .word ∨ c.lowByte = some (word % 256)) → c.wordsRemaining = 1 →
     (∀ lo hi g soc firmware, q.kind = .identify → c.words = [lo, hi, g, soc, firmware] →
       word = (lo + hi + g + soc + firmware) % 65536 →
       exec (.wordCrossed r word) s =
         exec (.identifyCompletion r (lo + 65536 * hi) (g % 256) (g.testBit 8) soc firmware) s) ∧
     (∀ soc flags, q.kind = .gauge → c.words = [soc, flags] → word = (soc + flags) % 65536 →
       exec (.wordCrossed r word) s = exec (.gaugeCompletion r soc (flags.testBit 0) (flags.testBit 1)) s) ∧
     (∀ n entries, q.kind = .readUsage → c.words = n :: entries → word = (n + entries.sum) % 65536 →
       exec (.wordCrossed r word) s = exec (.readUsageCompletion r (entries.map (· % 1024))) s) ∧
     (q.kind = .program → c.formed.getLast? = some word →
       exec (.wordCrossed r word) s = exec (.programCompletion r) s) ∧
     ((q.kind = .program ∧ c.formed.getLast? ≠ some word) ∨
         (q.kind ≠ .program ∧ c.words ≠ [] ∧ c.words.sum % 65536 ≠ word) →
       exec (.wordCrossed r word) s = .next (s.setChannel r { c with
         words := [], lowByte := none, wordElapsed := 0, wordsRemaining := 0, confirming := true
         width := if q.kind = .identify ∧ c.words.length = 2 then (if word % 256 = 2 then .word else .byte)
           else c.width }))) ∧
  (∀ (s : State) (r : Nat) (q : Req), s.resetHeld = false → r < 4 → (s.channel r).inFlight = some q →
     (s.channel r).confirming = false → 25600 ≤ (s.channel r).wordElapsed →
     exec (.wordTimeout r) s = .next (s.setChannel r { s.channel r with
       words := [], lowByte := none, wordElapsed := 0, confirming := true }))

/-- The confirming scan after a failed attempt (R26, R56): absent, the request is dropped, with the departure of a
bound bay or the bay of an IDENTIFY EMPTY; present, a withdrawn PROGRAM ends (R62), a first or second failure goes back
to the queue, and a third ends the request failed (R60, R63, R68). The rack is staged again at a present scan of a
PROGRAM, whose record has left PROGRAMMING, and where a READ_USAGE or GAUGE ends failed, also of a RETIRED record (R68,
R76; log 33). A transfer that ends failed counts a fault of the receiver and posts RECEIVER_FAULT; a DOCKED or READY
record goes FAULT, one that stands in a loan before its handout goes FAULT out of its loan, with the accounting of R115
and the tests and offers of a removal, and a RETIRED one stays RETIRED (R8, R63, R68). -/
def Obligations.ConfirmingScanDecidesTheRetry : Prop :=
  (∀ (s : State) (r reading : Nat) (q : Req), s.resetHeld = false → r < 4 → (s.channel r).inFlight = some q →
     (s.channel r).confirming = true →
     ∃ u v, v = s.setBay r q.bay { s.bay r q.bay with sense := reading } ∧
       (reading < (s.bay r q.bay).baseline + s.settings.senseThreshold / 2 →
         exec (.confirmingScan r reading) s = .next (State.finish s u []) ∧
         (q.kind = .identify → u.bay r q.bay = { s.bay r q.bay with sense := reading, state := .empty, debounce := 0 } ∧
           (u.channel r).inFlight = none ∧ (u.channel r).queue = (s.channel r).queue) ∧
         (q.kind ≠ .identify → u = (v.endAttempt r).depart r q.bay)) ∧
       ((s.bay r q.bay).baseline + s.settings.senseThreshold / 2 ≤ reading →
         exec (.confirmingScan r reading) s = .next (State.finish s u
           (if q.kind = .program ∨ ((q.kind = .readUsage ∨ q.kind = .gauge) ∧ 2 ≤ q.attempts) then [r] else [])) ∧
         (q.withdraw = false → q.attempts < 2 →
           (u.channel r).queue = insertBy Req.before { q with attempts := q.attempts + 1 } (s.channel r).queue ∧
           (u.channel r).inFlight = none ∧
           (u.bay r q.bay).state = (if (s.bay r q.bay).state = .leaving then .occupied else (s.bay r q.bay).state) ∧
           ∀ i x, q.kind = .program → q.record = some i → s.record i = some x → x.state = .programming →
             u.record i = some { x with state := .reserved }) ∧
         (q.withdraw = false → 2 ≤ q.attempts →
           (q.kind = .identify → (u.bay r q.bay).state = .fault ∧ (u.bay r q.bay).debounce = 0 ∧
             u.ports = (s.post (.bayFault r q.bay)).ports ∧ (u.channel r).inFlight = none) ∧
           ∀ i, q.kind ≠ .identify → q.record = some i → u = ((v.confirmBay r q.bay).endAttempt r).faultRecord i) ∧
         (q.withdraw = true → ∀ i, q.record = some i →
           u = ((v.confirmBay r q.bay).endAttempt r).endWithdrawn i))) ∧
  (∀ (s : State) (i : Nat) (x : Record), s.record i = some x →
     ∃ t, t = s.faultRecord i ∧
       (x.state = .docked ∨ x.state = .ready →
         t.record i = some { x with state := .fault, faultCount := min 255 (x.faultCount + 1) } ∧
         t.ports = (s.post (.receiverFault i)).ports) ∧
       (x.state = .reserved ∨ x.state = .programming ∨ x.state = .released →
         t.record i = some
           { x with state := .fault, faultCount := min 255 (x.faultCount + 1), loan := none, programme := none,
                    due := none, overdueFlag := false } ∧
         t = State.settle s
           ((((s.setRecord i (some { x with faultCount := min 255 (x.faultCount + 1) })).post
             (.receiverFault i)).loseBeforeHandout i .fault)) x.loan.toList []) ∧
       (x.state = .released → t.timer i = none ∧ ∀ p, x.bay = some p → (t.bay p.rack p.bay).latchOpen = false) ∧
       (x.state = .retired →
         t.record i = some { x with faultCount := min 255 (x.faultCount + 1) } ∧
         t.ports = (s.post (.receiverFault i)).ports)) ∧
  (∀ (s : State) (i id : Nat) (dest : RecState) (x : Record) (l : Loan), s.record i = some x → x.loan = some id →
    s.loan id = some l →
    (l.wants = true → s.loseBeforeHandout i dest = (s.leaveLoan i dest .shortfall).fill id) ∧
    (l.wants = false → s.loseBeforeHandout i dest = s.leaveLoan i dest .dropped))

/-- An IDENTIFY completes (R5, R57 to R59): a report with rid 0, no known generation or firmware 0 makes the bay
FOREIGN; an unknown rid is created DOCKED at the lowest free index outside the exclusion set, or FLEET_FULL is posted;
an ABSENT record is bound DOCKED with a READ_USAGE queued at its bay; one on loan is a return: it leaves its loan,
counted returned, its programme loses a listener, it is bound DOCKED in the same way, and the tests and offers of a
removal follow (R59, R102, R109); an unbound RETIRED one is bound; a bound one leaves the bay FOREIGN. The change of
the bay's state wakes the rack (R34). -/
def Obligations.IdentifyBindsByReceiverId : Prop :=
  ∀ (s : State) (r rid code soc firmware : Nat) (thermal : Bool) (q : Req), s.resetHeld = false → r < 4 →
    (s.channel r).inFlight = some q → q.kind = .identify → (s.channel r).confirming = false →
    ∃ u : State, exec (.identifyCompletion r rid code thermal soc firmware) s = .next (State.finish s u [r]) ∧
      (u.scanner r).cadence = .hot ∧ (u.scanner r).quiet = 0 ∧
      ((rid = 0 ∨ firmware = 0 ∨ generationOf code = none) →
        (u.bay r q.bay).state = .foreign ∧ (u.bay r q.bay).debounce = 0 ∧ (∀ i, u.record i = s.record i) ∧
        u.ports = (s.post (.foreign r q.bay)).ports) ∧
      ∀ g, generationOf code = some g → rid ≠ 0 → firmware ≠ 0 →
        ((∀ i x, s.record i = some x → x.rid ≠ rid) →
          (∀ i, s.freePosition = some i →
            u.record i = some { newRecord rid g with
              state := .docked, bay := some { rack := r, bay := q.bay }, soc := some (min 1000 soc),
              thermalHold := thermal, usagePending := true } ∧
            (u.bay r q.bay).state = .occupied ∧ (u.bay r q.bay).bound = some i ∧
            ∃ p, p ∈ (u.channel r).queue ∧ p.kind = .readUsage ∧ p.bay = q.bay ∧ p.record = some i) ∧
          (s.freePosition = none → (u.bay r q.bay).state = .foreign ∧ (∀ i, u.record i = s.record i) ∧
            u.ports = (s.post (.fleetFull r q.bay)).ports)) ∧
        ∀ i x, s.RidsUnique → s.record i = some x → x.rid = rid →
          (x.bay ≠ none → (u.bay r q.bay).state = .foreign ∧ (∀ j, u.record j = s.record j) ∧
            u.ports = (s.post (.foreign r q.bay)).ports) ∧
          (x.bay = none → x.state = .absent →
            u.record i = some { x with state := .docked, bay := some { rack := r, bay := q.bay }
                                       soc := some (min 1000 soc), thermalHold := thermal, generation := g
                                       usagePending := true } ∧
            (u.bay r q.bay).state = .occupied ∧ (u.bay r q.bay).bound = some i ∧ s.loans = u.loans ∧
            ∃ p, p ∈ (u.channel r).queue ∧ p.kind = .readUsage ∧ p.bay = q.bay ∧ p.record = some i ∧ p.attempts = 0) ∧
          (x.bay = none → (x.state = .onLoan ∨ x.state = .overdue ∨ x.state = .missing) →
            u.record i = some { x with state := .docked, bay := some { rack := r, bay := q.bay }
                                       soc := some (min 1000 soc), thermalHold := thermal, generation := g
                                       usagePending := true, backFromLoan := true, loan := none, programme := none
                                       due := none, overdueFlag := false } ∧
            (u.bay r q.bay).state = .occupied ∧ (u.bay r q.bay).bound = some i ∧
            ∀ id y p, x.loan = some id → s.loan id = some y → x.programme = some p →
              ∃ v : State, u = State.settle s v [id] [] ∧ v.record i = u.record i ∧
                (∀ j, j ≠ i → v.record j = s.record j) ∧
                v.loan id = some { y with
                  outstanding := y.outstanding.filter (· != i), returned := y.returned + 1 } ∧
                (∀ k, k ≠ id → v.loan k = s.loan k) ∧ v.loans.wanting = s.loans.wanting ∧
                (v.programme p).listeners = (s.programme p).listeners - 1 ∧
                (∀ k, k ≠ p → v.programme k = s.programme k) ∧
                ∃ a, a ∈ (v.channel r).queue ∧ a.kind = .readUsage ∧ a.bay = q.bay ∧ a.record = some i ∧
                  a.attempts = 0) ∧
          (x.bay = none → x.state = .retired →
            u.record i = some { x with bay := some { rack := r, bay := q.bay }, soc := some (min 1000 soc)
                                       thermalHold := thermal, generation := g } ∧
            (u.bay r q.bay).state = .occupied ∧ (u.bay r q.bay).bound = some i ∧ s.loans = u.loans)

/-- A PROGRAM completes (R61): the record goes RELEASED, the latch opens, the release window starts with the length in
force and the programme gains a listener. With its withdraw flag set the record leaves its loan instead (R62): by
readiness, out of the outstanding list with dropped 1 more; no latch opens, no window starts and no listener is
counted; the tests that follow a removal are made, and the record is offered if it has gone READY (R109, R114). -/
def Obligations.ProgramReleasesTheRecord : Prop :=
  (∀ (s : State) (r i : Nat) (q : Req) (x : Record), s.resetHeld = false → r < 4 →
    (s.channel r).inFlight = some q → q.kind = .program → (s.channel r).confirming = false → q.record = some i →
    s.record i = some x →
    (q.withdraw = false →
      ∃ u : State, exec (.programCompletion r) s = .next (State.finish s u []) ∧
        u.record i = some { x with state := .released } ∧ (∀ j, j ≠ i → u.record j = s.record j) ∧
        u.bay r q.bay = { s.bay r q.bay with latchOpen := true } ∧
        u.timer i = some { length := s.settings.releaseWindow * 512000, elapsed := 0 } ∧
        (∀ p, x.programme = some p → (u.programme p).listeners = (s.programme p).listeners + 1) ∧
        (u.channel r).inFlight = none ∧ (u.channel r).queue = (s.channel r).queue ∧
        (u.scanner r).cadence = .hot ∧ (∀ id, u.loan id = s.loan id)) ∧
    (q.withdraw = true →
      exec (.programCompletion r) s = .next (State.finish s ((s.endAttempt r).endWithdrawn i) []))) ∧
  (∀ (s : State) (i id : Nat) (x : Record) (l : Loan), s.record i = some x → x.state = .programming → x.loan = some id →
    s.loan id = some l →
    ∃ u : State, s.endWithdrawn i = State.settle s u [id] (if s.meetsReady x then [i] else []) ∧
      s.ChangesOnly u [.records, .loans] ∧
      u.record i = some { x with
        state := (if s.meetsReady x then .ready else .docked), loan := none, programme := none, due := none,
        overdueFlag := false } ∧
      (∀ j, j ≠ i → u.record j = s.record j) ∧
      u.loan id = some { l with outstanding := l.outstanding.filter (· != i), dropped := l.dropped + 1 } ∧
      (∀ k, k ≠ id → u.loan k = s.loan k) ∧ u.loans.wanting = s.loans.wanting ∧ u.loans.timers = s.loans.timers ∧
      (s.meetsReady x = false → (s.endWithdrawn i).record i = u.record i) ∧
      (∀ r b, (s.endWithdrawn i).bay r b = s.bay r b) ∧ (s.endWithdrawn i).loans.timers = s.loans.timers ∧
      ∀ p, ((s.endWithdrawn i).programme p).listeners = (s.programme p).listeners)

/-- A READ_USAGE adds its minutes and a loan served after a return, clears both usage flags and tests for readiness; a
GAUGE writes charge and thermal hold, queues the PROGRAM of a record reserved meanwhile and tests for readiness; a cell
fault is taken as a failed transfer (R64 to R67). The test for readiness (ReadinessHasAFiftyPermilleBand) is followed
by an offer if the record has become READY by it (R14, R64, R65). At the end of a GAUGE a RESERVED record has its
PROGRAM queued at its bay, and no other record has anything queued (R66). -/
def Obligations.UsageAndGaugeAreWritten : Prop :=
  (∀ (s : State) (r i : Nat) (q : Req) (x : Record), s.resetHeld = false → r < 4 →
    (s.channel r).inFlight = some q → (s.channel r).confirming = false → q.record = some i → s.record i = some x →
    (∀ minutes, q.kind = .readUsage →
      exec (.readUsageCompletion r minutes) s = .next (State.finish s
        (((s.endAttempt r).setRecord i (some { x with
          listeningMinutes := min 4294967295 (x.listeningMinutes + minutes.sum)
          loansServed := if x.backFromLoan then min 4294967295 (x.loansServed + 1) else x.loansServed
          usagePending := false, backFromLoan := false })).testAndOffer i) [])) ∧
    (∀ soc thermal, q.kind = .gauge →
      exec (.gaugeCompletion r soc thermal false) s = .next (State.finish s
        ((((s.endAttempt r).setRecord i (some { x with soc := some (min 1000 soc), thermalHold := thermal })).endGauge
          i).testAndOffer i) [r]) ∧
      exec (.gaugeCompletion r soc thermal true) s =
        .next (State.finish s (((s.endAttempt r).faultRecord i).endGauge i) [r]))) ∧
  (∀ (s : State) (i : Nat) (x y : Record), s.record i = some x → (s.testReadiness i).record i = some y →
    (x.state ≠ .ready → y.state = .ready → s.testAndOffer i = (s.testReadiness i).offer i) ∧
    ((x.state = .ready ∨ y.state ≠ .ready) → s.testAndOffer i = s.testReadiness i)) ∧
  (∀ (s : State) (i : Nat) (x : Record), s.record i = some x →
    (x.state ≠ .reserved → s.endGauge i = s) ∧
    ∀ p, x.state = .reserved → x.bay = some p → s.inFlightAt p.rack p.bay = none →
      ∃ (t : State) (q : Req), t = s.endGauge i ∧ s.ChangesOnly t [.scan, .chan] ∧
        q = { kind := .program, bay := p.bay, record := some i, loan := x.loan, attempts := 0,
              stamp := (s.channel p.rack).nextStamp, withdraw := false } ∧
        (∀ a, a ∈ (t.channel p.rack).queue ↔ a = q ∨ a ∈ (s.channel p.rack).queue ∧ a.bay ≠ p.bay) ∧
        (t.channel p.rack).inFlight = (s.channel p.rack).inFlight ∧ ∀ k, k ≠ p.rack → t.channel k = s.channel k)

/-! ## Charge allocation -/

/-- The demand of a bay, by the conditions of R72 in their order. The class of a bay's record (R73). The promoted set
is the S candidates of highest charge, the lower index first among equals, S being the sum of the shortfalls of the
loans in the wanting queue (R74). -/
def Obligations.ChargeClassesFollowTheRecords : Prop :=
  (∀ (s : State) (r b : Nat),
     ((s.bay r b).state ≠ .occupied → (s.bay r b).state ≠ .leaving → s.demand r b = 0) ∧
     ∀ i x c, ((s.bay r b).state = .occupied ∨ (s.bay r b).state = .leaving) → (s.bay r b).bound = some i →
       s.record i = some x → x.soc = some c → c ≤ 1000 →
       s.demand r b =
         (if x.state = .fault ∨ x.state = .retired then 0
         else if x.thermalHold then 0
         else if c = 1000 then 0
         else if c < 800 then 600
         else 40 + 560 * (1000 - c) / 200)) ∧
  (∀ (s : State) (r b i : Nat) (x : Record) (c : Nat), ((s.bay r b).state = .occupied ∨ (s.bay r b).state = .leaving) →
     (s.bay r b).bound = some i → s.record i = some x → x.soc = some c →
     s.chargeClass r b =
       (if x.state = .reserved ∨ x.state = .programming ∨ x.state = .released ∨ i ∈ s.charge.promoted then .first
       else if c < s.settings.readyLevel then .needed
       else .topup)) ∧
  (∀ s : State, s.Canonical →
     s.promotedSet.Nodup ∧ (∀ i, i ∈ s.promotedSet → s.candidate i = true) ∧
     s.promotedSet.length = min s.totalShortfall (s.recordIndices.filter s.candidate).length ∧
     s.totalShortfall = (s.loans.wanting.map fun id => ((s.loan id).map (·.shortfall)).getD 0).sum ∧
     (∀ i j, i ∈ s.promotedSet → s.candidate j = true → j ∉ s.promotedSet →
       s.socOf j < s.socOf i ∨ (s.socOf i = s.socOf j ∧ i < j)) ∧
     ∀ i x, s.record i = some x →
       (s.candidate i = true ↔ x.state = .docked ∧ x.thermalHold = false ∧ s.excluded i = false))

/-- A staging gives a class its demands if they fit what is available, else shares of it, and gives nothing to the
classes after a scaled one; RACK_SHORT is posted exactly if FIRST or NEEDED is scaled (R73, R77, R79). After its
staging the currents of a rack sum to at most its limit less 15 mA for each non-empty bay, and none exceeds its demand
or 600 mA (R77, R86). -/
def Obligations.StagingServesTheClassesInOrder : Prop :=
  (∀ (s : State) (r : Nat),
     ∃ t avail d1 d2 d3, t = s.restage r ∧ s.ChangesOnly t [.charge, .ports] ∧
       avail = (s.rackCharge r).stagedLimit - 15 * s.nonEmpty r ∧
       d1 = (s.classDemands r .first).sum ∧ d2 = (s.classDemands r .needed).sum ∧ d3 = (s.classDemands r .topup).sum ∧
       (∀ b, b < 64 → (t.drive r b).applied = (s.drive r b).applied ∧ (t.drive r b).duty = (s.drive r b).duty ∧
         (s.demand r b = 0 → (t.drive r b).staged = 0) ∧
         (s.chargeClass r b = .first →
           (t.drive r b).staged = (if d1 ≤ avail then s.demand r b else s.demand r b * avail / d1)) ∧
         (s.chargeClass r b = .needed →
           (t.drive r b).staged =
             (if avail < d1 then 0
             else if d2 ≤ avail - d1 then s.demand r b
             else s.demand r b * (avail - d1) / d2)) ∧
         (s.chargeClass r b = .topup →
           (t.drive r b).staged =
             (if avail < d1 ∨ avail - d1 < d2 then 0
             else if d3 ≤ avail - d1 - d2 then s.demand r b
             else s.demand r b * (avail - d1 - d2) / d3))) ∧
       t.ports = (if avail < d1 ∨ avail - d1 < d2 then (s.post (.rackShort r)).ports else s.ports) ∧
       (∀ k, k ≠ r → t.rackCharge k = s.rackCharge k) ∧
       (t.rackCharge r).stagedLimit = (s.rackCharge r).stagedLimit ∧
       (t.rackCharge r).appliedLimit = (s.rackCharge r).appliedLimit) ∧
  (∀ (s : State) (r : Nat),
     ((List.range 64).map fun b => ((s.restage r).drive r b).staged).sum ≤
       (s.rackCharge r).stagedLimit - 15 * s.nonEmpty r ∧
     ∀ b, b < 64 → ((s.restage r).drive r b).staged ≤ s.demand r b ∧ ((s.restage r).drive r b).staged ≤ 600)

/-- A charge frame boundary applies every rack's staged limit and staged currents, sets the duty codes and begins a
new frame (R81, R82). -/
def Obligations.BoundaryAppliesTheStaging : Prop :=
  ∀ s : State, s.resetHeld = false → 128000 ≤ s.charge.frameTime →
    ∃ t : State, exec .chargeFrameBoundary s = .next t ∧ s.ChangesOnly t [.charge] ∧ t.charge.frameTime = 0 ∧
      t.charge.promoted = s.charge.promoted ∧
      ∀ r, r < 4 → (t.rackCharge r).stagedLimit = (s.rackCharge r).stagedLimit ∧
        (t.rackCharge r).appliedLimit = (s.rackCharge r).stagedLimit ∧
        ∀ b,
          t.drive r b = { staged := (s.drive r b).staged, applied := (s.drive r b).staged
                          duty := 8 * (s.drive r b).staged / 5 }

/-- The duty code of a bay (R83), for drives whose codes belong to their applied currents, as those of every reached
state do: floor(8 × I / 5), the number of counts of the frame for which the drive is on; the average current 640 ×
duty / 1024 is at most I and short of it by less than 0.625; 600 mA gives 960, the highest, and 0 gives 0. -/
def Obligations.DutyCodeOfTheAppliedCurrent : Prop :=
  (∀ (s : State) (r b : Nat), s.DutiesAgree →
    (s.drive r b).duty = 8 * (s.drive r b).applied / 5 ∧
    (((List.range 4).map fun p => ((List.range 256).filter fun c => driveOn (s.drive r b).duty p c).length).sum =
      (s.drive r b).duty) ∧
    640 * (s.drive r b).duty ≤ 1024 * (s.drive r b).applied ∧
    1024 * (s.drive r b).applied < 640 * (s.drive r b).duty + 640 ∧
    (s.drive r b).duty ≤ 960) ∧
  dutyOf 0 = 0 ∧ dutyOf 1 = 1 ∧ dutyOf 195 = 312 ∧ dutyOf 312 = 499 ∧ dutyOf 460 = 736 ∧ dutyOf 600 = 960

/-- A duty code is spread over the four sub-periods (R84): H + 1 counts in the first Lo of them and H in the rest, 4 ×
H + Lo in all; off for the last 16 counts at the highest code, off throughout at 0 and after a departure's cut. -/
def Obligations.DutyCodeIsSpreadOverTheSubPeriods : Prop :=
  (∀ (duty p c : Nat), p < 4 → c < 256 →
    (driveOn duty p c = true ↔ c < duty / 4 + (if p < duty % 4 then 1 else 0))) ∧
  (∀ duty, duty ≤ 960 →
    ((List.range 4).map fun p => ((List.range 256).filter fun c => driveOn duty p c).length).sum = duty ∧
    ∀ p c, p < 4 → 240 ≤ c → driveOn 960 p c = false) ∧
  (∀ p c, driveOn 0 p c = false) ∧
  (∀ (s : State) (r b : Nat), s.resetHeld = false →
    s.charging r b = driveOn (s.drive r b).duty (s.charge.frameTime / 125 / 256 % 4) (s.charge.frameTime / 125 % 256)) ∧
  ∀ (s : State) (r b n : Nat),
    { s.cutDrive r b with charge := { (s.cutDrive r b).charge with frameTime := n } }.charging r b = false

/-! ## Tours and programmes -/

/-- OPEN_TOUR takes the lowest available tour and the lowest available programmes, in list order, with keys from the
counter, relay on and the cascade entry alone while the house floor is live (R93 to R95). It posts no notice; that this
holds of FLOOR_CHANGED under a live house floor, against R133, is the model's reading (log 8). OPEN_TOUR's tests (R94):
a tour is available if it is FREE and no loan names it, a programme if it is not in use and no loan names it. -/
def Obligations.OpenTourTakesTheLowestAvailable : Prop :=
  (∀ (s : State) (l : Link) (duration t : Nat) (codes ps : List Nat), s.Takes (.openTour l duration codes) l →
     1 ≤ s.tours.nextKey → s.tours.nextKey ≤ 65535 →
     1 ≤ codes.length → codes.length ≤ 4 → (∀ c ∈ codes, c ≤ 15) →
     1 ≤ t → t ≤ 32 → s.tourAvailable t = true → (∀ k, 1 ≤ k → k < t → s.tourAvailable k = false) →
     ps = ((List.range 64).filter fun p => p != 0 && s.programmeAvailable p).take codes.length →
     ps.length = codes.length →
     ∃ (u : State) (d : Nat), d = (if duration = 0 then s.settings.defaultDuration else max 10 (min 480 duration)) ∧
       exec (.openTour l duration codes) s = .next (u.answered l .ok
         (bytes1 t ++ bytes2 d ++ (bytes1 ps.length ++
           (ps.map fun p => bytes1 p ++ bytes2 (u.programme p).key).flatten))) ∧
       s.ChangesOnly u [.tours, .floor] ∧
       u.tour t = { state := .opened, programmes := ps, duration := some d } ∧ (∀ k, k ≠ t → u.tour k = s.tour k) ∧
       u.tours.nextKey = (s.tours.nextKey - 1 + ps.length) % 65535 + 1 ∧
       (∀ n p c, ps[n]? = some p → codes[n]? = some c →
         u.programme p = { inUse := true, tour := some t, language := c
                           key := (s.tours.nextKey - 1 + n) % 65535 + 1, listeners := 0, relay := true } ∧
         u.floorOf p = { waiting := [], stack := if s.houseLive then [.cascade] else [], mask := 8 }) ∧
       (∀ p, p ∉ ps → u.programme p = s.programme p ∧ u.floorOf p = s.floorOf p) ∧
       u.floor.mics = s.floor.mics ∧ u.floor.uplinkQueue = s.floor.uplinkQueue) ∧
  (∀ (s : State) (l : Link) (duration : Nat) (codes : List Nat), s.Takes (.openTour l duration codes) l →
     ((codes.length = 0 ∨ 4 < codes.length ∨ ∃ c ∈ codes, 15 < c) →
       exec (.openTour l duration codes) s = .next (s.answered l .badRequest [])) ∧
     (1 ≤ codes.length → codes.length ≤ 4 → (∀ c ∈ codes, c ≤ 15) →
       ((∀ t, 1 ≤ t → t ≤ 32 → s.tourAvailable t = false) ∨
         ((List.range 64).filter fun p => p != 0 && s.programmeAvailable p).length < codes.length) →
       exec (.openTour l duration codes) s = .next (s.answered l .full []))) ∧
  ∀ s : State,
    (∀ t, s.tourAvailable t = true ↔ (s.tour t).state = .free ∧ ∀ id y, s.loan id = some y → y.tour ≠ t) ∧
    ∀ p, s.programmeAvailable p = true ↔
      (s.programme p).inUse = false ∧ ∀ id y, s.loan id = some y → y.programme ≠ p

/-- CLOSE_TOUR of an OPEN tour cancels each of its loans, in ascending ID, and unbinds its microphones (R96): records,
bays with their latches, transfer queues, release timers, listeners and outstanding lists are as the cancels leave
them, each loan of the tour then settled closes, and the offers of the records that have gone READY follow, in the
order of log 9, with the tests after them (log 10). If every one of its loans is then settled, with no shortfall and
nothing outstanding, and no programme of it has a listener, its closing completes at once and it is FREE; else it is
CLOSING. The response carries that state (R96, R97). No loan of it is left wanting. The completion of closing: a
CLOSING tour that no loan names and whose programmes have no listeners goes FREE with its programmes out of use and
TOUR_CLOSED posted; any other stays as it is (R97). -/
def Obligations.CloseTourStopsTheTour : Prop :=
  (∀ (s : State) (l : Link) (t : Nat), s.Takes (.closeTour l t) l →
     ((t = 0 ∨ 32 < t) → exec (.closeTour l t) s = .next (s.answered l .badRequest [])) ∧
     (1 ≤ t → t ≤ 32 → (s.tour t).state ≠ .opened → exec (.closeTour l t) s = .next (s.answered l .busy [])) ∧
     (1 ≤ t → t ≤ 32 → (s.tour t).state = .opened →
       ∃ v w u : State, v = (s.loansOfTour t).foldl State.cancelLoan (s.setTour t { s.tour t with state := .closing }) ∧
         v.ChangesOnly w [.draws, .tours, .loans, .floor, .air, .ports] ∧ (∀ i, w.record i = v.record i) ∧
         (∀ r b, w.bay r b = v.bay r b) ∧ (∀ i, w.timer i = v.timer i) ∧ w.loans.wanting = v.loans.wanting ∧
         (∀ id, w.loan id =
           if id ∈ s.loansOfTour t ∧ v.shortfallOf id = 0 ∧ v.outstandingOf id = [] then none else v.loan id) ∧
         (∀ p, (w.programme p).listeners = (v.programme p).listeners) ∧
         u = State.finish s
           (State.settle s w [] (((s.loansOfTour t).map s.outstandingOf).flatten.filter fun i => w.recordIs i .ready)) [] ∧
         exec (.closeTour l t) s = .next (u.answered l .ok (bytes1 (u.tour t).state.code)) ∧
         ((∀ id, id ∈ s.loansOfTour t → v.shortfallOf id = 0 ∧ v.outstandingOf id = []) →
           (∀ p, p ∈ (s.tour t).programmes → (v.programme p).listeners = 0) →
           u.tour t = { state := .free, programmes := [], duration := none }) ∧
         ((∃ id, id ∈ s.loansOfTour t ∧ (v.shortfallOf id ≠ 0 ∨ v.outstandingOf id ≠ [])) ∨
             (∃ p, p ∈ (s.tour t).programmes ∧ (v.programme p).listeners ≠ 0) →
           u.tour t = { s.tour t with state := .closing } ∧
             ∀ p, (u.programme p).inUse = (s.programme p).inUse ∧ (u.programme p).relay = (s.programme p).relay) ∧
         (∀ p, (u.programme p).key = (s.programme p).key ∧ (u.programme p).language = (s.programme p).language) ∧
         (∀ id y, u.loan id = some y → y.tour = t → y.wants = false ∧ y.shortfall = 0 ∧ id ∉ u.loans.wanting) ∧
         (∀ m p, m < 64 → (s.mic m).programme = some p → p ∈ (s.tour t).programmes → (u.mic m).programme = none) ∧
         u.settings = s.settings ∧ u.age = s.age ∧ u.access = s.access ∧ u.tours.nextKey = s.tours.nextKey)) ∧
  (∀ (s : State) (t id : Nat),
     (id ∈ s.loansOfTour t ↔ ∃ y, s.loan id = some y ∧ y.tour = t) ∧
     ∀ y, s.loan id = some y →
       s.cancelLoan id = y.outstanding.foldl State.cancelRecord
         ((s.setLoan id (some { y with dropped := y.dropped + y.shortfall, shortfall := 0, wants := false })).setWanting
           (s.loans.wanting.filter (· != id)))) ∧
  (∀ (s : State) (t : Nat),
     ((s.tour t).state = .closing → (∀ id y, s.loan id = some y → y.tour ≠ t) →
       (∀ p ∈ (s.tour t).programmes, (s.programme p).listeners = 0) →
       ((s.testTour t).tour t = { state := .free, programmes := [], duration := none } ∧
         (∀ k, k ≠ t → (s.testTour t).tour k = s.tour k) ∧
         (∀ p, p ∈ (s.tour t).programmes →
           ((s.testTour t).programme p).inUse = false ∧ ((s.testTour t).programme p).tour = none ∧
           ((s.testTour t).programme p).listeners = 0 ∧
           (s.testTour t).floorOf p = { waiting := [], stack := [], mask := 8 }) ∧
         (∀ p, p ∉ (s.tour t).programmes →
           (s.testTour t).programme p = s.programme p ∧ (s.testTour t).floorOf p = s.floorOf p) ∧
         (s.testTour t).ports = (s.post (.tourClosed t)).ports ∧
         s.ChangesOnly (s.testTour t) [.tours, .floor, .draws, .ports])) ∧
     (((s.tour t).state ≠ .closing ∨ (∃ id y, s.loan id = some y ∧ y.tour = t) ∨
         ∃ p ∈ (s.tour t).programmes, (s.programme p).listeners ≠ 0) → s.testTour t = s))

/-- FORCE_CLOSE frees an OPEN or CLOSING tour at once (R98, R99): each of its loans, in ascending ID, stops wanting,
its shortfall counted dropped, and gives up its records by their states; its microphones are unbound, its programmes
leave use with no listeners and empty floors, TOUR_CLOSED is posted, and the offers and tests follow. The response
carries the number of records that have left the loans and the number of loans that still name the tour. -/
def Obligations.ForceCloseFreesTheTour : Prop :=
  (∀ (s : State) (l : Link) (t : Nat), s.Takes (.forceClose l t) l →
    ((t = 0 ∨ 32 < t) → exec (.forceClose l t) s = .next (s.answered l .badRequest [])) ∧
    (1 ≤ t → t ≤ 32 → (s.tour t).state = .free → exec (.forceClose l t) s = .next (s.answered l .busy [])) ∧
    (1 ≤ t → t ≤ 32 → (s.tour t).state ≠ .free →
      ∃ (v w u : State) (n : Nat), v = (s.loansOfTour t).foldl State.forceLoan s ∧
        n = ((s.loansOfTour t).map fun id => (s.outstandingOf id).length).sum -
          ((s.loansOfTour t).map fun id => (v.outstandingOf id).length).sum ∧
        (∀ i, w.record i = v.record i) ∧ w.loans.wanting = v.loans.wanting ∧
        (∀ id, w.loan id =
          if id ∈ s.loansOfTour t ∧ v.shortfallOf id = 0 ∧ v.outstandingOf id = [] then none else v.loan id) ∧
        u = State.finish s
          (State.settle s w [] (((s.loansOfTour t).map s.outstandingOf).flatten.filter fun i => w.recordIs i .ready)) [] ∧
        exec (.forceClose l t) s = .next (u.answered l .ok (bytes2 n ++ bytes1 (u.loansOfTour t).length)) ∧
        (∀ k, (s.port k).mask.getLsbD 3 = true → .tourClosed t ∈ (u.port k).notices) ∧
        u.tour t = { state := .free, programmes := [], duration := none } ∧
        (∀ p, p ∈ (s.tour t).programmes →
          (u.programme p).inUse = false ∧ (u.programme p).tour = none ∧ (u.programme p).listeners = 0 ∧
          (u.programme p).key = (s.programme p).key ∧ (u.programme p).language = (s.programme p).language ∧
          u.floorOf p = { waiting := [], stack := [], mask := 8 }) ∧
        (∀ id y, u.loan id = some y → y.tour = t → y.wants = false ∧ y.shortfall = 0 ∧ id ∉ u.loans.wanting) ∧
        (∀ m p, m < 64 → (s.mic m).programme = some p → p ∈ (s.tour t).programmes → (u.mic m).programme = none) ∧
        u.settings = s.settings ∧ u.age = s.age ∧ u.access = s.access ∧ u.tours.nextKey = s.tours.nextKey)) ∧
  (∀ (s : State) (id : Nat) (y : Loan), s.loan id = some y →
    s.forceLoan id = y.outstanding.foldl State.forceRecord
      ((s.setLoan id (some { y with dropped := y.dropped + y.shortfall, shortfall := 0, wants := false })).setWanting
        (s.loans.wanting.filter (· != id))))

/-- SET_RELAY writes the flag of a tour programme in use. While the house floor is not live, or if the flag does not
change, no floor changes; else a cascade entry is pushed on top, or removed and the floor evaluated again (R100, R143,
R144). -/
def Obligations.SetRelayMovesTheCascade : Prop :=
  ∀ (s : State) (l : Link) (p : Nat) (relay : Bool), s.Takes (.setRelay l p relay) l →
    ((p = 0 ∨ 63 < p) → exec (.setRelay l p relay) s = .next (s.answered l .badRequest [])) ∧
    (1 ≤ p → p ≤ 63 → (s.programme p).inUse = false →
      exec (.setRelay l p relay) s = .next (s.answered l .notFound [])) ∧
    (1 ≤ p → p ≤ 63 → (s.programme p).inUse = true →
      ∃ t : State, exec (.setRelay l p relay) s = .next (t.answered l .ok []) ∧
        t.programme p = { s.programme p with relay := relay } ∧ (∀ q, q ≠ p → t.programme q = s.programme q) ∧
        s.ChangesOnly t [.tours, .floor, .air, .ports] ∧ s.PostsOnly t [12] ∧
        ((s.houseLive = false ∨ (s.programme p).relay = relay) → t.floor = s.floor ∧ t.ports = s.ports) ∧
        (s.houseLive = true → (s.programme p).relay = false → relay = true →
          (t.floorOf p).stack.head? = some .cascade ∧ (t.floorOf p).waiting = (s.floorOf p).waiting ∧
          ((s.floorOf p).stack.head? ≠ some .cascade →
            (t.floorOf p).stack = .cascade :: (s.floorOf p).stack ∧ p ∉ t.floor.uplinkQueue ∧
            ∀ m rest, (s.floorOf p).stack = .mic m :: rest → (t.mic m).state = .held ∧ (t.mic m).keepAlive = none)) ∧
        (s.houseLive = true → (s.programme p).relay = true → relay = false →
          t = State.finishFloors s ((s.setProgramme p { s.programme p with relay := false }).dropCascade p)))

/-! ## Loans -/

/-- Selection takes the eligible READY records that rank first, as many as asked or as there are: outside the
exclusion set before inside it, then by charge, then by index; each joins the loan in that order (R107). -/
def Obligations.SelectionTakesTheBestRanked : Prop :=
  ∀ (s : State) (id k : Nat) (l : Loan), s.Canonical → s.loan id = some l →
    ∃ taken : List Nat, s.select id k = taken.foldl (fun t i => t.joinLoan id i) s ∧ taken.Nodup ∧
      (∀ i, i ∈ taken → s.eligible l i = true) ∧
      taken.length = min k (s.recordIndices.filter (s.eligible l)).length ∧
      taken.Pairwise (fun i j => s.ranksBefore i j = true) ∧
      (∀ i j, i ∈ taken → s.eligible l j = true → j ∉ taken → s.ranksBefore i j = true) ∧
      (∀ i, s.eligible l i = true ↔
        (∃ x, s.record i = some x ∧ x.state = .ready) ∧ i ∉ l.passed ∧ (l.reserve = true ∨ s.excluded i = false)) ∧
      ∀ i j, (s.ranksBefore i j = true ↔
        (s.excluded i = false ∧ s.excluded j = true) ∨
        (s.excluded i = s.excluded j ∧ (s.socOf j < s.socOf i ∨ (s.socOf i = s.socOf j ∧ i < j))))

/-- A record joins a loan (R108): RESERVED with the loan, programme and due, at the tail of the outstanding list,
shortfall 1 less, its PROGRAM queued unless a transfer is in flight at its bay (R49); a loan filled so leaves the
wanting queue with LOAN_FILLED (R113). A record offered is taken by the first loan of the wanting queue for which it
is eligible, and by none if there is none (R114). -/
def Obligations.JoiningALoanReservesTheRecord : Prop :=
  (∀ (s : State) (id i : Nat) (l : Loan) (x : Record), s.loan id = some l → s.record i = some x →
     ∃ t, t = s.joinLoan id i ∧
       t.record i = some { x with state := .reserved, loan := some id, programme := some l.programme, due := some l.due } ∧
       (∀ j, j ≠ i → t.record j = s.record j) ∧
       t.loan id = some { l with outstanding := l.outstanding ++ [i], shortfall := l.shortfall - 1 } ∧
       (∀ k, k ≠ id → t.loan k = s.loan k) ∧
       (l.shortfall ≤ 1 → id ∈ s.loans.wanting →
         t.loans.wanting = s.loans.wanting.filter (· != id) ∧ t.ports = (s.post (.loanFilled id)).ports) ∧
       ((1 < l.shortfall ∨ id ∉ s.loans.wanting) → t.loans.wanting = s.loans.wanting ∧ t.ports = s.ports) ∧
       (∀ p, x.bay = some p →
         (s.inFlightAt p.rack p.bay = none →
           ∃ q, t.queuedAt p.rack p.bay = some q ∧ q.kind = .program ∧ q.record = some i ∧ q.loan = some id ∧
             q.attempts = 0 ∧ q.withdraw = false) ∧
         (s.inFlightAt p.rack p.bay ≠ none → t.chan = s.chan)) ∧
       s.ChangesOnly t [.records, .loans, .scan, .chan, .ports] ∧ t.loans.timers = s.loans.timers) ∧
  (∀ (s : State) (i : Nat),
     ((∀ id l, id ∈ s.loans.wanting → s.loan id = some l → s.eligible l i = false) → s.offer i = s) ∧
     ∀ front id rest l, s.loans.wanting = front ++ id :: rest → s.loan id = some l → s.eligible l i = true →
       (∀ k y, k ∈ front → s.loan k = some y → s.eligible y i = false) → s.offer i = s.joinLoan id i)

/-- A record leaves its loan (R109): out of the outstanding list with one term risen, its loan fields absent; a
listener is taken from its programme if it was counted (R102), and a RELEASED record's timer stops and its latch closes
(R42, R120). A loan with no shortfall and nothing outstanding closes with LOAN_CLOSED; any other stays (R110). After a
removal each loan is tested for closing and its tour for the completion of closing (R97, R109), the pending reserve
range is tested (R18), and the records that went READY are offered, then those that have left the exclusion set (R109,
R114, R116; the order of the three, log 10). -/
def Obligations.LeavingALoanCountsOnce : Prop :=
  (∀ (s : State) (i id p : Nat) (dest : RecState) (e : Term) (x : Record) (l : Loan), s.record i = some x →
     x.loan = some id → x.programme = some p → s.loan id = some l →
     ∃ t, t = s.leaveLoan i dest e ∧
       t.record i = some { x with state := dest, loan := none, programme := none, due := none, overdueFlag := false } ∧
       (∀ j, j ≠ i → t.record j = s.record j) ∧
       t.loan id = some { l with
         outstanding := l.outstanding.filter (· != i)
         returned := l.returned + (if e = .returned then 1 else 0)
         dropped := l.dropped + (if e = .dropped then 1 else 0)
         shortfall := l.shortfall + (if e = .shortfall then 1 else 0) } ∧
       (∀ k, k ≠ id → t.loan k = s.loan k) ∧ t.loans.wanting = s.loans.wanting ∧
       ((t.programme p).listeners =
         if x.state = .released ∨ x.state = .onLoan ∨ x.state = .overdue ∨ x.state = .missing then
           (s.programme p).listeners - 1 else (s.programme p).listeners) ∧
       (x.state = .released → t.timer i = none ∧ ∀ b, x.bay = some b → (t.bay b.rack b.bay).latchOpen = false) ∧
       (x.state ≠ .released → t.loans.timers = s.loans.timers ∧ t.scan = s.scan) ∧
       s.ChangesOnly t [.records, .loans, .tours, .scan, .air, .ports] ∧ t.ports = s.ports) ∧
  (∀ (s : State) (id : Nat) (l : Loan), s.loan id = some l →
     (l.shortfall = 0 → l.outstanding = [] →
       s.closeLoan id = (s.setLoan id none).post (.loanClosed id l.requested l.returned l.dropped)) ∧
     ((l.shortfall ≠ 0 ∨ l.outstanding ≠ []) → s.closeLoan id = s) ∧
     s.testLoan id = (s.closeLoan id).testTour l.tour) ∧
  (∀ (s : State) (id : Nat), s.loan id = none → s.testLoan id = s) ∧
  ∀ (before s : State) (loans offers : List Nat),
    State.settle before s loans offers =
      State.offerFreed before (offers.foldl State.offer ((loans.foldl State.testLoan s).testReserve)) offers

/-- ISSUE's tests in order, then the loan created at the lowest free ID, filled by selection, and put at the tail of
the wanting queue with LOAN_WANTING if a shortfall remains (R111 to R113). ADD's tests in order, then the counts
raised by n and the loan filled again by selection (R117). -/
def Obligations.IssueAndAddFillALoan : Prop :=
  (∀ (s : State) (l : Link) (t p n : Nat) (f : Bool), s.Takes (.issue l t p n f) l →
     (f = true → (s.rights l).reserveUse = true) →
     ((t = 0 ∨ 32 < t ∨ 63 < p ∨ n = 0 ∨ 64 < n) →
       exec (.issue l t p n f) s = .next (s.answered l .badRequest [])) ∧
     (1 ≤ t → t ≤ 32 → p ≤ 63 → 1 ≤ n → n ≤ 64 →
       ((s.tour t).state ≠ .opened → exec (.issue l t p n f) s = .next (s.answered l .busy [])) ∧
       ((s.tour t).state = .opened → p ∉ (s.tour t).programmes →
         exec (.issue l t p n f) s = .next (s.answered l .notFound [])) ∧
       ((s.tour t).state = .opened → p ∈ (s.tour t).programmes →
         ((∀ id, 1 ≤ id → id ≤ 128 → s.loan id ≠ none) →
           exec (.issue l t p n f) s = .next (s.answered l .full [])) ∧
         ∀ id minutes due, 1 ≤ id → id ≤ 128 → s.loan id = none → (∀ k, 1 ≤ k → k < id → s.loan k ≠ none) →
           (s.tour t).duration = some minutes → due = min 4294967295 (s.age.clock + minutes * 60) →
           ∃ u v : State, u = s.setLoan id (some
               { tour := t, programme := p, reserve := f, requested := n, shortfall := n, outstanding := []
                 returned := 0, dropped := 0, lifted := 0, due := due, wants := true, passed := [] }) ∧
             v = State.finish s ((u.select id n).enterWanting id) [] ∧
             exec (.issue l t p n f) s =
               .next (v.answered l .ok (bytes1 id ++ bytes1 (v.outstandingOf id).length ++ bytes4 due)))) ∧
     ∀ (u : State) (id : Nat) (y : Loan), u.loan id = some y →
       u.enterWanting id =
         (if 0 < y.shortfall ∧ id ∉ u.loans.wanting then
           (u.setWanting (u.loans.wanting ++ [id])).post (.loanWanting id) else u)) ∧
  (∀ (s : State) (l : Link) (id n : Nat), s.Takes (.add l id n) l →
     ((id = 0 ∨ 128 < id ∨ n = 0 ∨ 64 < n) → exec (.add l id n) s = .next (s.answered l .badRequest [])) ∧
     (1 ≤ id → id ≤ 128 → 1 ≤ n → n ≤ 64 →
       (s.loan id = none → exec (.add l id n) s = .next (s.answered l .notFound [])) ∧
       ∀ y, s.loan id = some y → (y.reserve = true → (s.rights l).reserveUse = true) →
         (y.wants = false → exec (.add l id n) s = .next (s.answered l .busy [])) ∧
         (y.wants = true → 255 < y.requested + n → exec (.add l id n) s = .next (s.answered l .full [])) ∧
         (y.wants = true → y.requested + n ≤ 255 →
           ∃ u v : State, u = s.setLoan id (some { y with requested := y.requested + n, shortfall := y.shortfall + n }) ∧
             v = State.finish s ((u.select id (y.shortfall + n)).enterWanting id) [] ∧
             exec (.add l id n) s = .next (v.answered l .ok
               (bytes1 ((v.outstandingOf id).length - y.outstanding.length) ++ bytes1 (v.shortfallOf id))))))

/-- CANCEL refuses a loan that is not there or no longer wants; else the shortfall moves to dropped, each record is
given up by its state, and the offers and tests follow (R118; the order of the reserve test and the offers, log 10).
What a cancelled loan does with a record, by its state (R118), and a tour closed by force in addition (R98). -/
def Obligations.CancelGivesTheLoanUp : Prop :=
  (∀ (s : State) (l : Link) (id : Nat), s.Takes (.cancel l id) l →
     ((id = 0 ∨ 128 < id) → exec (.cancel l id) s = .next (s.answered l .badRequest [])) ∧
     (1 ≤ id → id ≤ 128 →
       (s.loan id = none → exec (.cancel l id) s = .next (s.answered l .notFound [])) ∧
       ∀ y, s.loan id = some y →
         (y.wants = false → exec (.cancel l id) s = .next (s.answered l .busy [])) ∧
         (y.wants = true →
           ∃ u v t : State, u = (s.setLoan id (some { y with dropped := y.dropped + y.shortfall, shortfall := 0, wants := false
               })).setWanting (s.loans.wanting.filter (· != id)) ∧
             v = y.outstanding.foldl State.cancelRecord u ∧
             t = State.finish s (State.settle s v [id] (y.outstanding.filter fun i => v.recordIs i .ready)) [] ∧
             exec (.cancel l id) s =
               .next (t.answered l .ok (bytes1 (if t.loan id = none then 1 else 0) ++ bytes1 (t.outstandingOf id).length))))) ∧
  (∀ (s : State) (i : Nat) (x : Record), s.record i = some x →
     (x.state = .reserved ∨ x.state = .released →
       (s.cancelRecord i).record i = some
         { x with state := (if s.meetsReady x then .ready else .docked), loan := none, programme := none, due := none
                  overdueFlag := false } ∧
       (∀ id y, x.loan = some id → s.loan id = some y → (s.cancelRecord i).loan id = some
         { y with outstanding := y.outstanding.filter (· != i), dropped := y.dropped + 1 }) ∧
       s.forceRecord i = s.cancelRecord i) ∧
     (x.state = .reserved → ∀ p q, x.bay = some p → q ∈ ((s.cancelRecord i).channel p.rack).queue →
       ¬(q.bay = p.bay ∧ q.kind = .program)) ∧
     (x.state = .released → (s.cancelRecord i).timer i = none ∧
       ∀ p, x.bay = some p → ((s.cancelRecord i).bay p.rack p.bay).latchOpen = false) ∧
     (x.state = .programming →
       s.ChangesOnly (s.cancelRecord i) [.chan] ∧ s.forceRecord i = s.cancelRecord i ∧
       ∀ p q, x.bay = some p → (s.channel p.rack).inFlight = some q → q.bay = p.bay →
         ((s.cancelRecord i).channel p.rack).inFlight = some { q with withdraw := true }) ∧
     (x.state = .onLoan ∨ x.state = .overdue ∨ x.state = .missing →
       s.cancelRecord i = s ∧
       (s.forceRecord i).record i = some
         { x with state := .absent, loan := none, programme := none, due := none, overdueFlag := false } ∧
       ∀ id y, x.loan = some id → s.loan id = some y → (s.forceRecord i).loan id = some
         { y with outstanding := y.outstanding.filter (· != i), dropped := y.dropped + 1 }))

/-- EXTEND moves the due time of a loan and of its records; an OVERDUE record whose new due is later than the clock
goes ON_LOAN, a MISSING one clears its flag; no count changes and no notice is posted (R119). A release window
expires: the record leaves its loan, dropped, by readiness, joins the passed list, its latch closes and it is offered
if READY; with no timer the expiry does nothing (R121). -/
def Obligations.DueTimesAndReleaseWindows : Prop :=
  (∀ (s : State) (l : Link) (id due : Nat), s.Takes (.extend l id due) l →
     ((id = 0 ∨ 128 < id) → exec (.extend l id due) s = .next (s.answered l .badRequest [])) ∧
     (1 ≤ id → id ≤ 128 → s.loan id = none → exec (.extend l id due) s = .next (s.answered l .notFound [])) ∧
     (∀ y, 1 ≤ id → id ≤ 128 → s.loan id = some y →
       ∃ t : State, exec (.extend l id due) s = .next (t.answered l .ok
           (bytes1 (y.outstanding.filter fun i => s.recordIs i .overdue && t.recordIs i .onLoan).length)) ∧
         s.ChangesOnly t [.records, .loans] ∧ t.loan id = some { y with due := due } ∧
         (∀ k, k ≠ id → t.loan k = s.loan k) ∧ t.loans.wanting = s.loans.wanting ∧ t.loans.timers = s.loans.timers ∧
         (∀ i, i ∉ y.outstanding → t.record i = s.record i) ∧
         ∀ i x, i ∈ y.outstanding → s.record i = some x →
           t.record i = some { x with
             due := some due
             state := if x.state = .overdue ∧ s.age.clock < due then .onLoan else x.state
             overdueFlag :=
               if (x.state = .overdue ∨ x.state = .missing) ∧ s.age.clock < due then false else x.overdueFlag })) ∧
  (∀ (s : State) (i : Nat), s.resetHeld = false →
     (s.timer i = none → exec (.releaseWindowExpiry i) s = .next s) ∧
     ∀ (x : Record) (id : Nat) (y : Loan) (m : Timer), s.timer i = some m → m.length ≤ m.elapsed →
       s.record i = some x → x.state = .released →
       x.loan = some id → s.loan id = some y →
       ∃ u : State, exec (.releaseWindowExpiry i) s =
           .next (State.finish s (State.settle s u [id] (if s.meetsReady x then [i] else [])) []) ∧
         u.record i = some { x with state := (if s.meetsReady x then .ready else .docked), loan := none, programme := none
                                    due := none, overdueFlag := false } ∧
         (∀ j, j ≠ i → u.record j = s.record j) ∧
         u.loan id = some { y with outstanding := y.outstanding.filter (· != i), dropped := y.dropped + 1
                                   passed := y.passed ++ [i] } ∧
         u.timer i = none ∧ (∀ p, x.bay = some p → (u.bay p.rack p.bay).latchOpen = false) ∧
         ∀ p, x.programme = some p → (u.programme p).listeners = (s.programme p).listeners - 1)

/-! ## Talk floor -/

/-- BIND_MIC tests in the order of R126, then binds the microphone, or moves it, with no floor touched. UNBIND_MIC
(R127): above 63 BAD_REQUEST, not IDLE BUSY, unbound OK and unchanged, else programme and priority become absent and
the programme counts one bound microphone fewer. -/
def Obligations.MicrophonesAreBoundAndUnbound : Prop :=
  (∀ (s : State) (l : Link) (m p q : Nat), s.Takes (.bindMic l m p q) l →
     ((63 < m ∨ 63 < p ∨ q = 0 ∨ 7 < q) → exec (.bindMic l m p q) s = .next (s.answered l .badRequest [])) ∧
     (m ≤ 63 → p ≤ 63 → 1 ≤ q → q ≤ 7 →
       ((s.programme p).inUse = false → exec (.bindMic l m p q) s = .next (s.answered l .notFound [])) ∧
       ((s.programme p).inUse = true →
         ((s.mic m).state ≠ .idle ∨ (∃ t, (s.programme p).tour = some t ∧ (s.tour t).state = .closing) →
           exec (.bindMic l m p q) s = .next (s.answered l .busy [])) ∧
         ((s.mic m).state = .idle → (∀ t, (s.programme p).tour = some t → (s.tour t).state ≠ .closing) →
           (8 ≤ ((List.range 64).filter fun k => k != m && (s.mic k).programme == some p).length →
             exec (.bindMic l m p q) s = .next (s.answered l .full [])) ∧
           (((List.range 64).filter fun k => k != m && (s.mic k).programme == some p).length < 8 →
             exec (.bindMic l m p q) s =
               .next ((s.setMic m { s.mic m with programme := some p, priority := some q }).answered l .ok [])))))) ∧
  (∀ (s : State) (l : Link) (m : Nat), s.Takes (.unbindMic l m) l →
     (63 < m → exec (.unbindMic l m) s = .next (s.answered l .badRequest [])) ∧
     (m ≤ 63 → (s.mic m).state ≠ .idle → exec (.unbindMic l m) s = .next (s.answered l .busy [])) ∧
     (m ≤ 63 → (s.mic m).state = .idle → (s.mic m).programme = none → (s.mic m).priority = none → s.Canonical →
       exec (.unbindMic l m) s = .next (s.answered l .ok [])) ∧
     (m ≤ 63 → (s.mic m).state = .idle → ∀ p, (s.mic m).programme = some p →
       ∃ t : State, exec (.unbindMic l m) s = .next (t.answered l .ok []) ∧
         t = s.setMic m { s.mic m with programme := none, priority := none } ∧
         (t.boundMics p).length + 1 = (s.boundMics p).length))

/-- TALK_REQUEST (R129, R134): an IDLE microphone goes REQUESTING at its place in the pending list, behind its equals,
and the floor is evaluated; one that is not IDLE is not changed. SET_MASK takes the level fitted to 1 to 8 as the mask
level, answers it, and evaluates the floor; no microphone leaves its stack for it (R138). -/
def Obligations.TalkRequestEntersThePendingList : Prop :=
  (∀ (s : State) (l : Link) (m : Nat), s.Takes (.talkRequest l m) l →
     (63 < m → exec (.talkRequest l m) s = .next (s.answered l .badRequest [])) ∧
     (m ≤ 63 → (s.mic m).programme = none → exec (.talkRequest l m) s = .next (s.answered l .notFound [])) ∧
     ∀ p, m ≤ 63 → (s.mic m).programme = some p →
       ((s.mic m).state ≠ .idle →
         exec (.talkRequest l m) s = .next (s.answered l .ok (bytes1 (s.mic m).state.code))) ∧
       ((s.mic m).state = .idle →
         ∃ (u v t : State) (front back : List Nat),
           u = s.setMic m { s.mic m with state := .requesting, requestTime := some s.age.clock } ∧
           (s.floorOf p).waiting = front ++ back ∧
           v = u.setFloor p { s.floorOf p with waiting := front ++ m :: back } ∧
           (∀ k ∈ front, ¬(u.priorityOf m < u.priorityOf k ∨ u.priorityOf m = u.priorityOf k ∧
             s.age.clock < (u.mic k).requestTime.getD 0)) ∧
           (∀ k, back.head? = some k → u.priorityOf m < u.priorityOf k ∨ u.priorityOf m = u.priorityOf k ∧
             s.age.clock < (u.mic k).requestTime.getD 0) ∧
           t = State.finishFloors s (v.reevaluate p) ∧
           exec (.talkRequest l m) s = .next (t.answered l .ok (bytes1 (t.mic m).state.code)))) ∧
  (∀ (s : State) (l : Link) (p level : Nat), s.Takes (.setMask l p level) l →
     (63 < p → exec (.setMask l p level) s = .next (s.answered l .badRequest [])) ∧
     (p ≤ 63 → (s.programme p).inUse = false → exec (.setMask l p level) s = .next (s.answered l .notFound [])) ∧
     (p ≤ 63 → (s.programme p).inUse = true →
       exec (.setMask l p level) s = .next
         ((State.finishFloors s
           ((s.setFloor p { s.floorOf p with mask := max 1 (min 8 level) }).reevaluate p)).answered l .ok
             (bytes1 (max 1 (min 8 level))))))

/-- TALK_ACTIVE (R135): above 63 BAD_REQUEST; a TALKING microphone's keep-alive returns to 0; else nothing changes;
the response says which. -/
def Obligations.TalkActiveRestartsTheKeepAlive : Prop :=
  ∀ (s : State) (l : Link) (m : Nat), s.Takes (.talkActive l m) l →
    (63 < m → exec (.talkActive l m) s = .next (s.answered l .badRequest [])) ∧
    (m ≤ 63 → (s.mic m).state = .talking →
      exec (.talkActive l m) s = .next ((s.setMic m { s.mic m with keepAlive := some 0 }).answered l .ok [1#8])) ∧
    (m ≤ 63 → (s.mic m).state ≠ .talking → exec (.talkActive l m) s = .next (s.answered l .ok [0#8]))

/-- The ends of a turn: TALK_RELEASE takes its microphone out wherever it stands (R136), CUT takes the top one (R137),
and a keep-alive that has reached KEEPALIVE cuts its programme with FLOOR_STALE (R139, R140). The microphone goes IDLE
and the floor is settled. What settling a floor does after an entry has left (R136, R141): a microphone that has become
the top goes TALKING with a fresh keep-alive; a programme with no microphone entry frees its uplink slot, which is
offered to the queue before the programme itself is evaluated; under a cascade entry a microphone goes on waiting for its
turn. On the house programme the test of R144 comes last: if it is no longer live, every cascade entry is dropped. -/
def Obligations.TurnsEndWithTheMicrophoneIdle : Prop :=
  (∀ (s : State) (l : Link),
     (∀ m, s.Takes (.talkRelease l m) l →
       (63 < m → exec (.talkRelease l m) s = .next (s.answered l .badRequest [])) ∧
       (m ≤ 63 → (s.mic m).programme = none → exec (.talkRelease l m) s = .next (s.answered l .notFound [])) ∧
       (∀ p, m ≤ 63 → (s.mic m).programme = some p → (s.mic m).state = .idle →
         exec (.talkRelease l m) s = .next (s.answered l .ok []))) ∧
     (∀ p, s.Takes (.cut l p) l →
       (63 < p → exec (.cut l p) s = .next (s.answered l .badRequest [])) ∧
       (p ≤ 63 → (s.programme p).inUse = false → exec (.cut l p) s = .next (s.answered l .notFound [])) ∧
       (p ≤ 63 → (s.programme p).inUse = true →
         ((s.floorOf p).stack = [] ∨ (s.floorOf p).stack.head? = some .cascade) →
         exec (.cut l p) s = .next (s.answered l .busy []))) ∧
     ∀ m p, ∃ u : State,
       u = (s.setFloor p { s.floorOf p with
         waiting := (s.floorOf p).waiting.filter (· != m)
         stack := (s.floorOf p).stack.filter (· != .mic m) }).setMic m
           { s.mic m with state := .idle, requestTime := none, keepAlive := none } ∧
       (s.Takes (.talkRelease l m) l → m ≤ 63 → (s.mic m).programme = some p → (s.mic m).state ≠ .idle →
         exec (.talkRelease l m) s = .next ((State.finishFloors s (u.settleFloor p)).answered l .ok [])) ∧
       (s.Takes (.cut l p) l → p ≤ 63 → (s.programme p).inUse = true → (s.floorOf p).stack.head? = some (.mic m) →
         exec (.cut l p) s = .next ((State.finishFloors s (u.settleFloor p)).answered l .ok (bytes1 m))) ∧
       (s.resetHeld = false → (s.mic m).programme = some p → (s.mic m).state = .talking →
         (∃ e, (s.mic m).keepAlive = some e ∧ s.settings.keepalive * 512000 ≤ e) →
         exec (.keepaliveExpiry m) s = .next (State.finishFloors s ((u.settleFloor p).post (.floorStale m))))) ∧
  (∀ (s : State) (p : Nat),
     s.settleFloor p = (if p = 0 then (s.settleOwnFloor p).dropCascadesIfSilent else s.settleOwnFloor p) ∧
     (∀ m rest, (s.floorOf p).stack = .mic m :: rest →
       ∃ u : State, s.settleOwnFloor p = u.reevaluate p ∧ s.ChangesOnly u [.floor] ∧ u.floor.floors = s.floor.floors ∧
         u.floor.uplinkQueue = s.floor.uplinkQueue ∧
         u.mic m = { s.mic m with
           state := .talking, keepAlive := if (s.mic m).state = .talking then (s.mic m).keepAlive else some 0 } ∧
         ∀ k, k ≠ m → u.mic k = s.mic k) ∧
     (∀ rest, (s.floorOf p).stack = .cascade :: rest → topMic rest ≠ none → s.settleOwnFloor p = s.reevaluate p) ∧
     (topMic (s.floorOf p).stack = none →
       (∀ i, s.uplinkSlot p = some i → s.settleOwnFloor p = ((s.setEntry i .free).offerUplink).reevaluate p) ∧
       (s.uplinkSlot p = none → s.settleOwnFloor p = s.reevaluate p))) ∧
  (∀ s : State,
     (∀ q rest, s.floor.uplinkQueue = q :: rest → s.freeUplink ≠ none →
       s.offerUplink = serveUplink rest.length ((s.setUplinkQueue rest).reevaluate q)) ∧
     (s.floor.uplinkQueue = [] ∨ s.freeUplink = none → s.offerUplink = s))

/-- The evaluation of a floor (R131, R132): the head is granted if its priority is below the mask and above the top's,
at once over a microphone, or onto an empty stack with the highest free uplink slot (R155); with no free slot the
programme joins the uplink wait queue; with nothing grantable it leaves it. A grant of the house floor pushes the
cascades (R143). -/
def Obligations.EvaluationGrantsThePendingHead : Prop :=
  ∀ (s : State) (p : Nat),
    (∀ m, s.grantable p = some m ↔ (s.floorOf p).waiting.head? = some m ∧ s.priorityOf m < (s.floorOf p).mask ∧
      ∀ e, (s.floorOf p).stack.head? = some e → s.priorityOf m < s.entryPriority e) ∧
    (∀ i, s.freeUplink = some i ↔ i < 64 ∧ s.air.nextPlan.split ≤ i ∧ s.entry i = .free ∧
      ∀ j, i < j → j < 64 → s.entry j ≠ .free) ∧
    (s.grantable p = none → s.reevaluate p = s.setUplinkQueue (s.floor.uplinkQueue.filter (· != p))) ∧
    ∀ m, s.grantable p = some m →
      (∀ k rest, (s.floorOf p).stack = .mic k :: rest → k ≠ m →
        ∃ t : State, t = s.reevaluate p ∧ s.ChangesOnly t [.floor] ∧ t.floor.uplinkQueue = s.floor.uplinkQueue ∧
          t.floorOf p = { s.floorOf p with
            waiting := (s.floorOf p).waiting.tail, stack := .mic m :: .mic k :: rest } ∧
          (∀ q, q ≠ p → t.floorOf q = s.floorOf q) ∧
          t.mic m = { s.mic m with state := .talking, keepAlive := some 0 } ∧
          t.mic k = { s.mic k with state := .held, keepAlive := none } ∧
          ∀ j, j ≠ m → j ≠ k → t.mic j = s.mic j) ∧
      (∀ i, (s.floorOf p).stack = [] → s.freeUplink = some i →
        ∃ u : State, s.reevaluate p = (if p = 0 then u.pushCascades else u) ∧ s.ChangesOnly u [.floor, .air] ∧
          u.entry i = .up p m ∧ (∀ j, j ≠ i → u.entry j = s.entry j) ∧
          u.air = { s.air with nextPlan := u.air.nextPlan } ∧ u.air.nextPlan.split = s.air.nextPlan.split ∧
          u.floor.uplinkQueue = s.floor.uplinkQueue.filter (· != p) ∧
          u.floorOf p = { s.floorOf p with waiting := (s.floorOf p).waiting.tail, stack := [.mic m] } ∧
          (∀ q, q ≠ p → u.floorOf q = s.floorOf q) ∧
          u.mic m = { s.mic m with state := .talking, keepAlive := some 0 } ∧ ∀ j, j ≠ m → u.mic j = s.mic j) ∧
      ((s.floorOf p).stack = [] → s.freeUplink = none →
        s.reevaluate p = (if p ∈ s.floor.uplinkQueue then s else s.setUplinkQueue (s.floor.uplinkQueue ++ [p])))

/-- The house cascade: when the house floor goes live every relaying programme in use takes the cascade entry on top,
its microphone held, and leaves the uplink wait queue (R143); when it is no longer live every tour programme loses its
cascade entry and is evaluated again (R144). -/
def Obligations.HouseFloorMovesTheCascades : Prop :=
  ∀ s : State,
    (∃ t : State, t = s.pushCascades ∧ s.ChangesOnly t [.floor] ∧
      (∀ p, 1 ≤ p → p ≤ 63 → (s.programme p).inUse = true → (s.programme p).relay = true →
        (s.floorOf p).stack.head? ≠ some .cascade →
        t.floorOf p = { s.floorOf p with stack := .cascade :: (s.floorOf p).stack } ∧ p ∉ t.floor.uplinkQueue ∧
        ∀ m rest, (s.floorOf p).stack = .mic m :: rest →
          t.mic m = { s.mic m with state := .held, keepAlive := none }) ∧
      (∀ p, (p = 0 ∨ 63 < p ∨ (s.programme p).inUse = false ∨ (s.programme p).relay = false) →
        t.floorOf p = s.floorOf p) ∧
      ∀ m, (∀ p rest, (s.floorOf p).stack ≠ .mic m :: rest) → t.mic m = s.mic m) ∧
    (s.houseLive = true → s.dropCascadesIfSilent = s) ∧
    (s.houseLive = false → s.FloorsLawful → ∀ p, 1 ≤ p → p ≤ 63 →
      ∃ t : State, t = s.dropCascadesIfSilent ∧ .cascade ∉ (t.floorOf p).stack ∧
        ((s.floorOf p).stack.head? = some .cascade →
          (t.floorOf p).stack = (s.floorOf p).stack.tail ∨
            ∃ m, (s.floorOf p).waiting.head? = some m ∧ (t.floorOf p).stack = .mic m :: (s.floorOf p).stack.tail) ∧
        ∀ m rest, (t.floorOf p).stack = .mic m :: rest → (s.floorOf p).stack.head? = some .cascade →
          (t.mic m).state = .talking)

/-! ## Air frame plan -/

/-- A frame boundary copies the next plan, split and entries, into the current plan in one step, takes its split as
the frame split and advances the sequence number by 1, from 65535 to 0; the next plan is left as it stands (R151).
PHASE goes low, SYNC gives its pulse and frame time returns to 0 (R150); that SYNC stays high until the next tick is the
model's choice (log 19). -/
def Obligations.FrameBoundaryCopiesTheNextPlan : Prop :=
  ∀ s : State, s.resetHeld = false → 10240 ≤ s.air.frameTime → s.air.sequence ≤ 65535 →
    exec .frameBoundary s = .next { s with air := { s.air with
      currentPlan := s.air.nextPlan
      frameSplit := s.air.nextPlan.split
      sequence := if s.air.sequence = 65535 then 0 else s.air.sequence + 1
      frameTime := 0
      phaseHigh := false
      syncHigh := true } }

/-- The listener count and the downlink half: a rise from 0 takes the lowest free downlink slot, or the tail of the
wait queue with DOWNLINK_WAIT (R101, R152); a fall to 0 frees the slot, which goes to the head of the queue, or leaves
the queue (R102, R153); no other change of the count reaches the planner. Compare A ends the downlink phase: PHASE
goes high and nothing else changes (R150). -/
def Obligations.ListenersTakeAndFreeDownlinkSlots : Prop :=
  (∀ (s : State) (p : Nat),
     (∀ i, s.freeDownlink = some i ↔ i < 64 ∧ i < s.air.nextPlan.split ∧ s.entry i = .free ∧
       ∀ j, j < i → s.entry j ≠ .free) ∧
     (∃ t : State, t = s.gainListener p ∧ s.ChangesOnly t [.tours, .air, .ports] ∧
       t.programme p = { s.programme p with listeners := (s.programme p).listeners + 1 } ∧
       (∀ q, q ≠ p → t.programme q = s.programme q) ∧
       ((s.programme p).listeners ≠ 0 → t.air = s.air ∧ t.ports = s.ports) ∧
       ((s.programme p).listeners = 0 →
         (∀ i, s.freeDownlink = some i → t.entry i = .down p (s.sourceOf p) ∧ (∀ j, j ≠ i → t.entry j = s.entry j) ∧
           t.air = { s.air with nextPlan := t.air.nextPlan } ∧ t.ports = s.ports) ∧
         (s.freeDownlink = none → t.air = { s.air with downlinkQueue := s.air.downlinkQueue ++ [p] } ∧
           t.ports = (s.post (.downlinkWait p)).ports))) ∧
     ∃ t : State, t = s.loseListener p ∧ s.ChangesOnly t [.tours, .air] ∧
       t.programme p = { s.programme p with listeners := (s.programme p).listeners - 1 } ∧
       (∀ q, q ≠ p → t.programme q = s.programme q) ∧
       ((s.programme p).listeners ≠ 1 → t.air = s.air) ∧
       ((s.programme p).listeners = 1 →
         (∀ i, s.downlinkSlot p = some i → (∀ j, j ≠ i → t.entry j = s.entry j) ∧
           (s.air.downlinkQueue = [] → t.entry i = .free ∧ t.air.downlinkQueue = []) ∧
           ∀ q rest, s.air.downlinkQueue = q :: rest →
             t.entry i = .down q (s.sourceOf q) ∧ t.air.downlinkQueue = rest) ∧
         (s.downlinkSlot p = none →
           t.air = { s.air with downlinkQueue := s.air.downlinkQueue.filter (· != p) }))) ∧
  (∀ s : State, s.resetHeld = false → s.air.frameSplit * 160 ≤ s.air.frameTime →
     exec .compareA s = .next { s with air := { s.air with phaseHigh := true } })

/-! ## Presence and aging -/

/-- REPORT_BEACON (R163 to R165): rid 0 is refused; an unknown rid is counted, to at most 65535; a known one writes
last_heard, and last_zone if the quality is above 0, and brings a MISSING record back with FOUND. A sweep step
examines the 8 positions from the pointer, wrapping at 1024, and the pointer advances by 8 (R166). An examined record
that is ON_LOAN and at its due goes OVERDUE with its flag set; one ON_LOAN or OVERDUE whose silence has reached
MISSING_AFTER goes MISSING; one MISSING and at its due takes its flag (R167, R168). An examination posts OVERDUE, then
MISSING, each for the move the record made (R167). -/
def Obligations.BeaconsAndAgingWriteTheRecords : Prop :=
  (∀ (s : State) (l : Link) (rid zone quality : Nat), s.Takes (.reportBeacon l rid zone quality) l →
     (rid = 0 → exec (.reportBeacon l rid zone quality) s = .next (s.answered l .badRequest [])) ∧
     (rid ≠ 0 → (∀ i x, s.record i = some x → x.rid ≠ rid) →
       exec (.reportBeacon l rid zone quality) s =
         .next ({ s with age := { s.age with unknownBeacons := min 65535 (s.age.unknownBeacons + 1) } }.answered l .ok
           [0#8, 0#8, 0#8, 0#8])) ∧
     ∀ i x, rid ≠ 0 → s.RidsUnique → s.record i = some x → x.rid = rid →
       ∃ (t : State) (y : Record), exec (.reportBeacon l rid zone quality) s =
           .next (t.answered l .ok ([1#8] ++ bytes2 i ++ bytes1 y.state.code)) ∧
         y = { x with
           lastHeard := some s.age.clock
           lastZone := if 0 < quality then zone else x.lastZone
           state := if x.state = .missing then (if x.overdueFlag then .overdue else .onLoan) else x.state } ∧
         t.record i = some y ∧ (∀ j, j ≠ i → t.record j = s.record j) ∧
         s.ChangesOnly t [.records, .ports] ∧
         t.ports = (if x.state = .missing then (s.post (.found i)).ports else s.ports)) ∧
  (∀ s : State, s.resetHeld = false → 128000 ≤ s.age.stepTime →
     ∃ t : State, exec .sweepStep s = .next t ∧ s.ChangesOnly t [.records, .age, .ports] ∧ s.PostsOnly t [4, 5] ∧
       t.age = { s.age with sweepPointer := (s.age.sweepPointer + 8) % 1024, stepTime := 0 } ∧
       (∀ i, (∀ k, k < 8 → i ≠ (s.age.sweepPointer + k) % 1024) → t.record i = s.record i) ∧
       ∀ i k, k < 8 → i = (s.age.sweepPointer + k) % 1024 →
         (s.record i = none → t.record i = none) ∧
         (∀ x, s.record i = some x → x.state ≠ .onLoan → x.state ≠ .overdue → x.state ≠ .missing →
           t.record i = some x) ∧
         ∀ x d h, s.record i = some x → x.due = some d → x.lastHeard = some h →
           (x.state = .onLoan → t.record i = some { x with
             overdueFlag := if d ≤ s.age.clock then true else x.overdueFlag
             state := if s.settings.missingAfter ≤ s.age.clock - h then .missing
               else if d ≤ s.age.clock then .overdue else .onLoan }) ∧
           (x.state = .overdue → t.record i = some { x with
             state := if s.settings.missingAfter ≤ s.age.clock - h then .missing else .overdue }) ∧
           (x.state = .missing → t.record i = some { x with
             overdueFlag := if d ≤ s.age.clock then true else x.overdueFlag })) ∧
  (∀ (s : State) (i d h : Nat) (x : Record), s.record i = some x → x.due = some d → x.lastHeard = some h →
     (x.state = .onLoan → d ≤ s.age.clock → s.settings.missingAfter ≤ s.age.clock - h →
       (s.examine i).ports = ((s.post (.overdue i)).post (.missing i)).ports) ∧
     (x.state = .onLoan → d ≤ s.age.clock → s.age.clock - h < s.settings.missingAfter →
       (s.examine i).ports = (s.post (.overdue i)).ports) ∧
     ((x.state = .overdue ∨ x.state = .onLoan ∧ s.age.clock < d) → s.settings.missingAfter ≤ s.age.clock - h →
       (s.examine i).ports = (s.post (.missing i)).ports) ∧
     (x.state ≠ .onLoan → x.state ≠ .overdue → (s.examine i).ports = s.ports))

/-! ## Formats -/

/-- The write transaction of every well-formed request is that request again: each field at every value it admits
(R188, R189). -/
def Obligations.EncodedRequestsDecodeToThemselves : Prop :=
  ∀ (i : Instr) (l : Link) (bytes : List Byte), i.wellFormed = true → encodeTransaction i = some (l, bytes) →
    decodeTransaction l bytes = i

/-! ## What every step keeps -/

/-- Settings and limits in their ranges, duty codes of the applied currents, notices inside the masks, receiver IDs
unique, downlink entries below the split and uplink entries above it, counters inside their widths, tables in
canonical form and no request waiting at a free multiplexer: every step keeps all of it. -/
def Obligations.EveryStepKeepsTheStateSound : Prop := ∀ s t : State, s.Sound → step s = .next t → t.Sound

/-- Every step keeps the law of the floors: stacks strictly ordered by priority, a cascade entry only ever the top,
each microphone in at most one place and only on the programme it is bound to (R128). -/
def Obligations.EveryStepKeepsTheFloorsLawful : Prop := ∀ s t : State, s.FloorsLawful → step s = .next t → t.FloorsLawful

/-- Every step keeps the laws that one block of the part keeps with another: a bay and its record name each other (R4),
a latch is open only while the record bound to its bay is RELEASED (R42), a bay has at most one request (R49), a
transfer queue stands in the order of class, stamp and bay, every stamp below the rack's next one (R47, R48), the
staged and applied currents fit the rack's limits (R86), the listener counts are the numbers of records that listen
(R101), a loan's terms make up its requested count (R106), it stands in the wanting queue while it has a shortfall
(R113), the applied reserve range holds no record of a loan not flagged reserve (R18), and no slot lies free while a
programme waits for it (R141, R154). -/
def Obligations.EveryStepKeepsTheLawsOfThePart : Prop :=
  ∀ s t : State, s.Sound → s.FloorsLawful → s.Lawful → step s = .next t → t.Lawful

/-- The part right after a full reset is sound, its floors are lawful and its laws hold. -/
def Obligations.ResetStateIsSound : Prop := State.reset.Sound ∧ State.reset.FloorsLawful ∧ State.reset.Lawful
end

