-- ==== Sys2Proof/Laws/Table.lean ====
section
/-! SUPPORT. The laws of a table: what a read answers after a write, and that a write keeps the canonical form. -/

namespace Sys2Proof.Machine

variable {α : Type}

theorem Table.read_erase (d : Nat → α) (t : Table α) (k j : Nat) :
    Table.read d (Table.erase t k) j = if k = j then d j else Table.read d t j := by
  induction t with
  | nil => simp [Table.erase, Table.read]
  | cons e t ih =>
    obtain ⟨a, v⟩ := e
    by_cases h : a = k
    · rw [show Table.erase ((a, v) :: t) k = Table.erase t k by simp [Table.erase, h], ih]
      by_cases hj : k = j
      · simp [hj]
      · simp [Table.read, hj, show a ≠ j from fun e => hj (h ▸ e)]
    · rw [show Table.erase ((a, v) :: t) k = (a, v) :: Table.erase t k by simp [Table.erase, h]]
      by_cases ha : a = j
      · simp [Table.read, ha, show k ≠ j from fun e => h (ha.trans e.symm)]
      · simp [Table.read, ha, ih]

theorem Table.read_insert (d : Nat → α) (t : Table α) (k : Nat) (v : α) (j : Nat) (h : k ∉ Table.keys t) :
    Table.read d (Table.insert t k v) j = if k = j then v else Table.read d t j := by
  induction t with
  | nil => simp [Table.insert, Table.read]
  | cons e t ih =>
    obtain ⟨a, w⟩ := e
    simp only [Table.keys, List.map_cons, List.mem_cons, not_or] at h
    have ih := ih h.2
    unfold Table.insert
    split
    · simp [Table.read]
    · by_cases ha : a = j
      · have : k ≠ j := fun e => h.1 (by omega)
        simp [Table.read, ha, this]
      · simp [Table.read, ha, ih]

theorem Table.notMem_keys_erase (t : Table α) (k : Nat) : k ∉ Table.keys (Table.erase t k) := by
  induction t with
  | nil => simp [Table.erase, Table.keys]
  | cons e t ih =>
    obtain ⟨a, w⟩ := e
    by_cases h : a = k
    · simp [Table.erase, h, ih]
    · simp only [Table.erase, if_neg h, Table.keys, List.map_cons, List.mem_cons, not_or]
      exact ⟨fun e => h e.symm, ih⟩

/-- A read after a write: the value written at its key, and what was read before everywhere else. -/
@[simp] theorem Table.read_write [DecidableEq α] (d : Nat → α) (t : Table α) (k : Nat) (v : α) (j : Nat) :
    Table.read d (Table.write d t k v) j = if k = j then v else Table.read d t j := by
  unfold Table.write
  split
  · rename_i h; rw [Table.read_erase]; split <;> simp_all
  · rw [Table.read_insert _ _ _ _ _ (Table.notMem_keys_erase t k), Table.read_erase]; split <;> rfl

/-- A key that is not listed reads as its default. -/
theorem Table.read_of_notMem_keys (d : Nat → α) (t : Table α) (k : Nat) (h : k ∉ Table.keys t) : Table.read d t k = d k := by
  induction t with
  | nil => rfl
  | cons e t ih =>
    obtain ⟨a, w⟩ := e
    simp only [Table.keys, List.map_cons, List.mem_cons, not_or] at h
    have ha : a ≠ k := fun e => h.1 e.symm
    rw [Table.read, if_neg ha]
    exact ih h.2

/-- A bound from below may be weakened. -/
theorem Table.wfAbove_weaken [DecidableEq α] (d : Nat → α) (low : Option Nat) (k : Nat) (t : Table α)
    (hl : ∀ m, low = some m → m < k) (h : Table.wfAbove d (some k) t = true) : Table.wfAbove d low t = true := by
  cases t with
  | nil => rfl
  | cons e t =>
    obtain ⟨a, v⟩ := e
    simp only [Table.wfAbove, Bool.and_eq_true, decide_eq_true_eq] at h ⊢
    refine ⟨⟨?_, h.1.2⟩, h.2⟩
    cases low with
    | none => rfl
    | some m => have := hl m rfl; simp; omega

theorem Table.wfAbove_erase [DecidableEq α] (d : Nat → α) (k : Nat) :
    ∀ (low : Option Nat) (t : Table α), Table.wfAbove d low t = true → Table.wfAbove d low (Table.erase t k) = true
  | _, [], _ => rfl
  | low, (a, v) :: t, h => by
    simp only [Table.wfAbove, Bool.and_eq_true, decide_eq_true_eq] at h
    by_cases hk : a = k
    · simp only [Table.erase, hk, if_true]
      have := Table.wfAbove_erase d k (some a) t h.2
      rw [hk] at this
      cases low with
      | none => exact Table.wfAbove_weaken d none _ _ (by intro m hm; cases hm) this
      | some m => exact Table.wfAbove_weaken d (some m) _ _ (by intro x hx; cases hx; simp at h; omega) this
    · simp only [Table.erase, if_neg hk, Table.wfAbove, Bool.and_eq_true, decide_eq_true_eq]
      exact ⟨h.1, Table.wfAbove_erase d k (some a) t h.2⟩

theorem Table.wfAbove_insert [DecidableEq α] (d : Nat → α) (k : Nat) (v : α) (hv : v ≠ d k) :
    ∀ (low : Option Nat) (t : Table α), (∀ m, low = some m → m < k) → k ∉ Table.keys t →
      Table.wfAbove d low t = true → Table.wfAbove d low (Table.insert t k v) = true
  | low, [], hl, _, _ => by
    cases low with
    | none => simp [Table.insert, Table.wfAbove, hv]
    | some m => simp [Table.insert, Table.wfAbove, hv, hl m rfl]
  | low, (a, w) :: t, hl, hk, h => by
    simp only [Table.keys, List.map_cons, List.mem_cons, not_or] at hk
    simp only [Table.wfAbove, Bool.and_eq_true, decide_eq_true_eq] at h
    unfold Table.insert
    split
    · rename_i hlt
      simp only [Table.wfAbove, Bool.and_eq_true, decide_eq_true_eq]
      refine ⟨⟨?_, hv⟩, ⟨hlt, h.1.2⟩, h.2⟩
      cases low with
      | none => rfl
      | some m => simp [hl m rfl]
    · rename_i hge
      simp only [Table.wfAbove, Bool.and_eq_true, decide_eq_true_eq]
      exact ⟨h.1, Table.wfAbove_insert d k v hv (some a) t (by intro m hm; cases hm; omega) hk.2 h.2⟩

/-- A write keeps the canonical form. -/
theorem Table.wf_write [DecidableEq α] (d : Nat → α) (t : Table α) (k : Nat) (v : α) (h : Table.wf d t = true) :
    Table.wf d (Table.write d t k v) = true := by
  unfold Table.write
  have he := Table.wfAbove_erase d k none t h
  split
  · exact he
  · rename_i hv
    exact Table.wfAbove_insert d k v hv none _ (by intro m hm; cases hm) (Table.notMem_keys_erase t k) he

/-- What holds of every default and of every entry holds of every reading. -/
theorem Table.forall_read {P : Nat → α → Prop} (d : Nat → α) (hd : ∀ k, P k (d k)) :
    ∀ t : Table α, (∀ e ∈ t, P e.1 e.2) → ∀ k, P k (Table.read d t k)
  | [], _, k => hd k
  | (j, v) :: t, h, k => by
    unfold Table.read
    split
    · rename_i e; exact e ▸ h (j, v) (List.mem_cons_self ..)
    · exact Table.forall_read d hd t (fun e he => h e (List.mem_cons_of_mem _ he)) k

/-- In the canonical form the keys rise strictly, each above the bound from below. -/
theorem Table.keys_rise [DecidableEq α] (d : Nat → α) : ∀ (low : Option Nat) (t : Table α), Table.wfAbove d low t = true →
    (Table.keys t).Pairwise (· < ·) ∧ ∀ m, low = some m → ∀ k ∈ Table.keys t, m < k
  | _, [], _ => ⟨.nil, fun _ _ _ h => nomatch h⟩
  | low, (a, v) :: t, h => by
    simp only [Table.wfAbove, Bool.and_eq_true, decide_eq_true_eq] at h
    have ih := Table.keys_rise d (some a) t h.2
    refine ⟨List.pairwise_cons.mpr ⟨ih.2 a rfl, ih.1⟩, fun m hm k hk => ?_⟩
    subst hm
    have hma : m < a := by simpa using h.1.1
    rcases List.mem_cons.mp hk with rfl | hk
    · exact hma
    · exact Nat.lt_trans hma (ih.2 a rfl k hk)

/-- In the canonical form a key is listed exactly where the table reads other than its default. -/
theorem Table.mem_keys_iff [DecidableEq α] (d : Nat → α) : ∀ (low : Option Nat) (t : Table α), Table.wfAbove d low t = true →
    ∀ k, k ∈ Table.keys t ↔ Table.read d t k ≠ d k
  | _, [], _, k => ⟨fun h => (List.not_mem_nil h).elim, fun h => (h rfl).elim⟩
  | low, (a, v) :: t, h, k => by
    have hw := h
    simp only [Table.wfAbove, Bool.and_eq_true, decide_eq_true_eq] at h
    have ih := Table.mem_keys_iff d (some a) t h.2 k
    show k ∈ a :: Table.keys t ↔ _
    rw [List.mem_cons, Table.read]
    by_cases e : a = k
    · subst e; simpa using h.1.2
    · rw [if_neg e, ← ih]; exact ⟨fun h => h.resolve_left fun h => e h.symm, .inr⟩

end Sys2Proof.Machine
end

