-- ==== Sys2Proof/Laws/State.lean ====
section
/-! SUPPORT. One lemma per field per update: what a named write leaves of each block, and what a named read answers after
it. -/

namespace Sys2Proof.Machine

variable (s : State)

/-! ## setRecord -/

@[simp] theorem pending_setRecord (i : Nat) (v : Option Record) : (s.setRecord i v).pending = s.pending := rfl
@[simp] theorem draws_setRecord (i : Nat) (v : Option Record) : (s.setRecord i v).draws = s.draws := rfl
@[simp] theorem resetHeld_setRecord (i : Nat) (v : Option Record) : (s.setRecord i v).resetHeld = s.resetHeld := rfl
@[simp] theorem settings_setRecord (i : Nat) (v : Option Record) : (s.setRecord i v).settings = s.settings := rfl
@[simp] theorem scan_setRecord (i : Nat) (v : Option Record) : (s.setRecord i v).scan = s.scan := rfl
@[simp] theorem chan_setRecord (i : Nat) (v : Option Record) : (s.setRecord i v).chan = s.chan := rfl
@[simp] theorem charge_setRecord (i : Nat) (v : Option Record) : (s.setRecord i v).charge = s.charge := rfl
@[simp] theorem tours_setRecord (i : Nat) (v : Option Record) : (s.setRecord i v).tours = s.tours := rfl
@[simp] theorem loans_setRecord (i : Nat) (v : Option Record) : (s.setRecord i v).loans = s.loans := rfl
@[simp] theorem floor_setRecord (i : Nat) (v : Option Record) : (s.setRecord i v).floor = s.floor := rfl
@[simp] theorem air_setRecord (i : Nat) (v : Option Record) : (s.setRecord i v).air = s.air := rfl
@[simp] theorem age_setRecord (i : Nat) (v : Option Record) : (s.setRecord i v).age = s.age := rfl
@[simp] theorem ports_setRecord (i : Nat) (v : Option Record) : (s.setRecord i v).ports = s.ports := rfl
@[simp] theorem access_setRecord (i : Nat) (v : Option Record) : (s.setRecord i v).access = s.access := rfl

/-! ## setScanner -/

@[simp] theorem pending_setScanner (r : Nat) (v : Scanner) : (s.setScanner r v).pending = s.pending := rfl
@[simp] theorem draws_setScanner (r : Nat) (v : Scanner) : (s.setScanner r v).draws = s.draws := rfl
@[simp] theorem resetHeld_setScanner (r : Nat) (v : Scanner) : (s.setScanner r v).resetHeld = s.resetHeld := rfl
@[simp] theorem settings_setScanner (r : Nat) (v : Scanner) : (s.setScanner r v).settings = s.settings := rfl
@[simp] theorem fleet_setScanner (r : Nat) (v : Scanner) : (s.setScanner r v).fleet = s.fleet := rfl
@[simp] theorem chan_setScanner (r : Nat) (v : Scanner) : (s.setScanner r v).chan = s.chan := rfl
@[simp] theorem charge_setScanner (r : Nat) (v : Scanner) : (s.setScanner r v).charge = s.charge := rfl
@[simp] theorem tours_setScanner (r : Nat) (v : Scanner) : (s.setScanner r v).tours = s.tours := rfl
@[simp] theorem loans_setScanner (r : Nat) (v : Scanner) : (s.setScanner r v).loans = s.loans := rfl
@[simp] theorem floor_setScanner (r : Nat) (v : Scanner) : (s.setScanner r v).floor = s.floor := rfl
@[simp] theorem air_setScanner (r : Nat) (v : Scanner) : (s.setScanner r v).air = s.air := rfl
@[simp] theorem age_setScanner (r : Nat) (v : Scanner) : (s.setScanner r v).age = s.age := rfl
@[simp] theorem ports_setScanner (r : Nat) (v : Scanner) : (s.setScanner r v).ports = s.ports := rfl
@[simp] theorem access_setScanner (r : Nat) (v : Scanner) : (s.setScanner r v).access = s.access := rfl

/-! ## setBay -/

@[simp] theorem pending_setBay (r b : Nat) (v : Bay) : (s.setBay r b v).pending = s.pending := rfl
@[simp] theorem draws_setBay (r b : Nat) (v : Bay) : (s.setBay r b v).draws = s.draws := rfl
@[simp] theorem resetHeld_setBay (r b : Nat) (v : Bay) : (s.setBay r b v).resetHeld = s.resetHeld := rfl
@[simp] theorem settings_setBay (r b : Nat) (v : Bay) : (s.setBay r b v).settings = s.settings := rfl
@[simp] theorem fleet_setBay (r b : Nat) (v : Bay) : (s.setBay r b v).fleet = s.fleet := rfl
@[simp] theorem chan_setBay (r b : Nat) (v : Bay) : (s.setBay r b v).chan = s.chan := rfl
@[simp] theorem charge_setBay (r b : Nat) (v : Bay) : (s.setBay r b v).charge = s.charge := rfl
@[simp] theorem tours_setBay (r b : Nat) (v : Bay) : (s.setBay r b v).tours = s.tours := rfl
@[simp] theorem loans_setBay (r b : Nat) (v : Bay) : (s.setBay r b v).loans = s.loans := rfl
@[simp] theorem floor_setBay (r b : Nat) (v : Bay) : (s.setBay r b v).floor = s.floor := rfl
@[simp] theorem air_setBay (r b : Nat) (v : Bay) : (s.setBay r b v).air = s.air := rfl
@[simp] theorem age_setBay (r b : Nat) (v : Bay) : (s.setBay r b v).age = s.age := rfl
@[simp] theorem ports_setBay (r b : Nat) (v : Bay) : (s.setBay r b v).ports = s.ports := rfl
@[simp] theorem access_setBay (r b : Nat) (v : Bay) : (s.setBay r b v).access = s.access := rfl

/-! ## setHolder -/

@[simp] theorem pending_setHolder (r : Nat) (v : Holder) : (s.setHolder r v).pending = s.pending := rfl
@[simp] theorem draws_setHolder (r : Nat) (v : Holder) : (s.setHolder r v).draws = s.draws := rfl
@[simp] theorem resetHeld_setHolder (r : Nat) (v : Holder) : (s.setHolder r v).resetHeld = s.resetHeld := rfl
@[simp] theorem settings_setHolder (r : Nat) (v : Holder) : (s.setHolder r v).settings = s.settings := rfl
@[simp] theorem fleet_setHolder (r : Nat) (v : Holder) : (s.setHolder r v).fleet = s.fleet := rfl
@[simp] theorem chan_setHolder (r : Nat) (v : Holder) : (s.setHolder r v).chan = s.chan := rfl
@[simp] theorem charge_setHolder (r : Nat) (v : Holder) : (s.setHolder r v).charge = s.charge := rfl
@[simp] theorem tours_setHolder (r : Nat) (v : Holder) : (s.setHolder r v).tours = s.tours := rfl
@[simp] theorem loans_setHolder (r : Nat) (v : Holder) : (s.setHolder r v).loans = s.loans := rfl
@[simp] theorem floor_setHolder (r : Nat) (v : Holder) : (s.setHolder r v).floor = s.floor := rfl
@[simp] theorem air_setHolder (r : Nat) (v : Holder) : (s.setHolder r v).air = s.air := rfl
@[simp] theorem age_setHolder (r : Nat) (v : Holder) : (s.setHolder r v).age = s.age := rfl
@[simp] theorem ports_setHolder (r : Nat) (v : Holder) : (s.setHolder r v).ports = s.ports := rfl
@[simp] theorem access_setHolder (r : Nat) (v : Holder) : (s.setHolder r v).access = s.access := rfl

/-! ## setChannel -/

@[simp] theorem pending_setChannel (r : Nat) (v : Channel) : (s.setChannel r v).pending = s.pending := rfl
@[simp] theorem draws_setChannel (r : Nat) (v : Channel) : (s.setChannel r v).draws = s.draws := rfl
@[simp] theorem resetHeld_setChannel (r : Nat) (v : Channel) : (s.setChannel r v).resetHeld = s.resetHeld := rfl
@[simp] theorem settings_setChannel (r : Nat) (v : Channel) : (s.setChannel r v).settings = s.settings := rfl
@[simp] theorem fleet_setChannel (r : Nat) (v : Channel) : (s.setChannel r v).fleet = s.fleet := rfl
@[simp] theorem scan_setChannel (r : Nat) (v : Channel) : (s.setChannel r v).scan = s.scan := rfl
@[simp] theorem charge_setChannel (r : Nat) (v : Channel) : (s.setChannel r v).charge = s.charge := rfl
@[simp] theorem tours_setChannel (r : Nat) (v : Channel) : (s.setChannel r v).tours = s.tours := rfl
@[simp] theorem loans_setChannel (r : Nat) (v : Channel) : (s.setChannel r v).loans = s.loans := rfl
@[simp] theorem floor_setChannel (r : Nat) (v : Channel) : (s.setChannel r v).floor = s.floor := rfl
@[simp] theorem air_setChannel (r : Nat) (v : Channel) : (s.setChannel r v).air = s.air := rfl
@[simp] theorem age_setChannel (r : Nat) (v : Channel) : (s.setChannel r v).age = s.age := rfl
@[simp] theorem ports_setChannel (r : Nat) (v : Channel) : (s.setChannel r v).ports = s.ports := rfl
@[simp] theorem access_setChannel (r : Nat) (v : Channel) : (s.setChannel r v).access = s.access := rfl

/-! ## setRackCharge -/

@[simp] theorem pending_setRackCharge (r : Nat) (v : RackCharge) : (s.setRackCharge r v).pending = s.pending := rfl
@[simp] theorem draws_setRackCharge (r : Nat) (v : RackCharge) : (s.setRackCharge r v).draws = s.draws := rfl
@[simp] theorem resetHeld_setRackCharge (r : Nat) (v : RackCharge) : (s.setRackCharge r v).resetHeld = s.resetHeld := rfl
@[simp] theorem settings_setRackCharge (r : Nat) (v : RackCharge) : (s.setRackCharge r v).settings = s.settings := rfl
@[simp] theorem fleet_setRackCharge (r : Nat) (v : RackCharge) : (s.setRackCharge r v).fleet = s.fleet := rfl
@[simp] theorem scan_setRackCharge (r : Nat) (v : RackCharge) : (s.setRackCharge r v).scan = s.scan := rfl
@[simp] theorem chan_setRackCharge (r : Nat) (v : RackCharge) : (s.setRackCharge r v).chan = s.chan := rfl
@[simp] theorem tours_setRackCharge (r : Nat) (v : RackCharge) : (s.setRackCharge r v).tours = s.tours := rfl
@[simp] theorem loans_setRackCharge (r : Nat) (v : RackCharge) : (s.setRackCharge r v).loans = s.loans := rfl
@[simp] theorem floor_setRackCharge (r : Nat) (v : RackCharge) : (s.setRackCharge r v).floor = s.floor := rfl
@[simp] theorem air_setRackCharge (r : Nat) (v : RackCharge) : (s.setRackCharge r v).air = s.air := rfl
@[simp] theorem age_setRackCharge (r : Nat) (v : RackCharge) : (s.setRackCharge r v).age = s.age := rfl
@[simp] theorem ports_setRackCharge (r : Nat) (v : RackCharge) : (s.setRackCharge r v).ports = s.ports := rfl
@[simp] theorem access_setRackCharge (r : Nat) (v : RackCharge) : (s.setRackCharge r v).access = s.access := rfl

/-! ## setDrive -/

@[simp] theorem pending_setDrive (r b : Nat) (v : Drive) : (s.setDrive r b v).pending = s.pending := rfl
@[simp] theorem draws_setDrive (r b : Nat) (v : Drive) : (s.setDrive r b v).draws = s.draws := rfl
@[simp] theorem resetHeld_setDrive (r b : Nat) (v : Drive) : (s.setDrive r b v).resetHeld = s.resetHeld := rfl
@[simp] theorem settings_setDrive (r b : Nat) (v : Drive) : (s.setDrive r b v).settings = s.settings := rfl
@[simp] theorem fleet_setDrive (r b : Nat) (v : Drive) : (s.setDrive r b v).fleet = s.fleet := rfl
@[simp] theorem scan_setDrive (r b : Nat) (v : Drive) : (s.setDrive r b v).scan = s.scan := rfl
@[simp] theorem chan_setDrive (r b : Nat) (v : Drive) : (s.setDrive r b v).chan = s.chan := rfl
@[simp] theorem tours_setDrive (r b : Nat) (v : Drive) : (s.setDrive r b v).tours = s.tours := rfl
@[simp] theorem loans_setDrive (r b : Nat) (v : Drive) : (s.setDrive r b v).loans = s.loans := rfl
@[simp] theorem floor_setDrive (r b : Nat) (v : Drive) : (s.setDrive r b v).floor = s.floor := rfl
@[simp] theorem air_setDrive (r b : Nat) (v : Drive) : (s.setDrive r b v).air = s.air := rfl
@[simp] theorem age_setDrive (r b : Nat) (v : Drive) : (s.setDrive r b v).age = s.age := rfl
@[simp] theorem ports_setDrive (r b : Nat) (v : Drive) : (s.setDrive r b v).ports = s.ports := rfl
@[simp] theorem access_setDrive (r b : Nat) (v : Drive) : (s.setDrive r b v).access = s.access := rfl

/-! ## setTour -/

@[simp] theorem pending_setTour (t : Nat) (v : Tour) : (s.setTour t v).pending = s.pending := rfl
@[simp] theorem draws_setTour (t : Nat) (v : Tour) : (s.setTour t v).draws = s.draws := rfl
@[simp] theorem resetHeld_setTour (t : Nat) (v : Tour) : (s.setTour t v).resetHeld = s.resetHeld := rfl
@[simp] theorem settings_setTour (t : Nat) (v : Tour) : (s.setTour t v).settings = s.settings := rfl
@[simp] theorem fleet_setTour (t : Nat) (v : Tour) : (s.setTour t v).fleet = s.fleet := rfl
@[simp] theorem scan_setTour (t : Nat) (v : Tour) : (s.setTour t v).scan = s.scan := rfl
@[simp] theorem chan_setTour (t : Nat) (v : Tour) : (s.setTour t v).chan = s.chan := rfl
@[simp] theorem charge_setTour (t : Nat) (v : Tour) : (s.setTour t v).charge = s.charge := rfl
@[simp] theorem loans_setTour (t : Nat) (v : Tour) : (s.setTour t v).loans = s.loans := rfl
@[simp] theorem floor_setTour (t : Nat) (v : Tour) : (s.setTour t v).floor = s.floor := rfl
@[simp] theorem air_setTour (t : Nat) (v : Tour) : (s.setTour t v).air = s.air := rfl
@[simp] theorem age_setTour (t : Nat) (v : Tour) : (s.setTour t v).age = s.age := rfl
@[simp] theorem ports_setTour (t : Nat) (v : Tour) : (s.setTour t v).ports = s.ports := rfl
@[simp] theorem access_setTour (t : Nat) (v : Tour) : (s.setTour t v).access = s.access := rfl

/-! ## setProgramme -/

@[simp] theorem pending_setProgramme (p : Nat) (v : Programme) : (s.setProgramme p v).pending = s.pending := rfl
@[simp] theorem draws_setProgramme (p : Nat) (v : Programme) : (s.setProgramme p v).draws = s.draws := rfl
@[simp] theorem resetHeld_setProgramme (p : Nat) (v : Programme) : (s.setProgramme p v).resetHeld = s.resetHeld := rfl
@[simp] theorem settings_setProgramme (p : Nat) (v : Programme) : (s.setProgramme p v).settings = s.settings := rfl
@[simp] theorem fleet_setProgramme (p : Nat) (v : Programme) : (s.setProgramme p v).fleet = s.fleet := rfl
@[simp] theorem scan_setProgramme (p : Nat) (v : Programme) : (s.setProgramme p v).scan = s.scan := rfl
@[simp] theorem chan_setProgramme (p : Nat) (v : Programme) : (s.setProgramme p v).chan = s.chan := rfl
@[simp] theorem charge_setProgramme (p : Nat) (v : Programme) : (s.setProgramme p v).charge = s.charge := rfl
@[simp] theorem loans_setProgramme (p : Nat) (v : Programme) : (s.setProgramme p v).loans = s.loans := rfl
@[simp] theorem floor_setProgramme (p : Nat) (v : Programme) : (s.setProgramme p v).floor = s.floor := rfl
@[simp] theorem air_setProgramme (p : Nat) (v : Programme) : (s.setProgramme p v).air = s.air := rfl
@[simp] theorem age_setProgramme (p : Nat) (v : Programme) : (s.setProgramme p v).age = s.age := rfl
@[simp] theorem ports_setProgramme (p : Nat) (v : Programme) : (s.setProgramme p v).ports = s.ports := rfl
@[simp] theorem access_setProgramme (p : Nat) (v : Programme) : (s.setProgramme p v).access = s.access := rfl

/-! ## setLoan -/

@[simp] theorem pending_setLoan (i : Nat) (v : Option Loan) : (s.setLoan i v).pending = s.pending := rfl
@[simp] theorem draws_setLoan (i : Nat) (v : Option Loan) : (s.setLoan i v).draws = s.draws := rfl
@[simp] theorem resetHeld_setLoan (i : Nat) (v : Option Loan) : (s.setLoan i v).resetHeld = s.resetHeld := rfl
@[simp] theorem settings_setLoan (i : Nat) (v : Option Loan) : (s.setLoan i v).settings = s.settings := rfl
@[simp] theorem fleet_setLoan (i : Nat) (v : Option Loan) : (s.setLoan i v).fleet = s.fleet := rfl
@[simp] theorem scan_setLoan (i : Nat) (v : Option Loan) : (s.setLoan i v).scan = s.scan := rfl
@[simp] theorem chan_setLoan (i : Nat) (v : Option Loan) : (s.setLoan i v).chan = s.chan := rfl
@[simp] theorem charge_setLoan (i : Nat) (v : Option Loan) : (s.setLoan i v).charge = s.charge := rfl
@[simp] theorem tours_setLoan (i : Nat) (v : Option Loan) : (s.setLoan i v).tours = s.tours := rfl
@[simp] theorem floor_setLoan (i : Nat) (v : Option Loan) : (s.setLoan i v).floor = s.floor := rfl
@[simp] theorem air_setLoan (i : Nat) (v : Option Loan) : (s.setLoan i v).air = s.air := rfl
@[simp] theorem age_setLoan (i : Nat) (v : Option Loan) : (s.setLoan i v).age = s.age := rfl
@[simp] theorem ports_setLoan (i : Nat) (v : Option Loan) : (s.setLoan i v).ports = s.ports := rfl
@[simp] theorem access_setLoan (i : Nat) (v : Option Loan) : (s.setLoan i v).access = s.access := rfl

/-! ## setWanting -/

@[simp] theorem pending_setWanting (q : List Nat) : (s.setWanting q).pending = s.pending := rfl
@[simp] theorem draws_setWanting (q : List Nat) : (s.setWanting q).draws = s.draws := rfl
@[simp] theorem resetHeld_setWanting (q : List Nat) : (s.setWanting q).resetHeld = s.resetHeld := rfl
@[simp] theorem settings_setWanting (q : List Nat) : (s.setWanting q).settings = s.settings := rfl
@[simp] theorem fleet_setWanting (q : List Nat) : (s.setWanting q).fleet = s.fleet := rfl
@[simp] theorem scan_setWanting (q : List Nat) : (s.setWanting q).scan = s.scan := rfl
@[simp] theorem chan_setWanting (q : List Nat) : (s.setWanting q).chan = s.chan := rfl
@[simp] theorem charge_setWanting (q : List Nat) : (s.setWanting q).charge = s.charge := rfl
@[simp] theorem tours_setWanting (q : List Nat) : (s.setWanting q).tours = s.tours := rfl
@[simp] theorem floor_setWanting (q : List Nat) : (s.setWanting q).floor = s.floor := rfl
@[simp] theorem air_setWanting (q : List Nat) : (s.setWanting q).air = s.air := rfl
@[simp] theorem age_setWanting (q : List Nat) : (s.setWanting q).age = s.age := rfl
@[simp] theorem ports_setWanting (q : List Nat) : (s.setWanting q).ports = s.ports := rfl
@[simp] theorem access_setWanting (q : List Nat) : (s.setWanting q).access = s.access := rfl

/-! ## setTimer -/

@[simp] theorem pending_setTimer (i : Nat) (v : Option Timer) : (s.setTimer i v).pending = s.pending := rfl
@[simp] theorem draws_setTimer (i : Nat) (v : Option Timer) : (s.setTimer i v).draws = s.draws := rfl
@[simp] theorem resetHeld_setTimer (i : Nat) (v : Option Timer) : (s.setTimer i v).resetHeld = s.resetHeld := rfl
@[simp] theorem settings_setTimer (i : Nat) (v : Option Timer) : (s.setTimer i v).settings = s.settings := rfl
@[simp] theorem fleet_setTimer (i : Nat) (v : Option Timer) : (s.setTimer i v).fleet = s.fleet := rfl
@[simp] theorem scan_setTimer (i : Nat) (v : Option Timer) : (s.setTimer i v).scan = s.scan := rfl
@[simp] theorem chan_setTimer (i : Nat) (v : Option Timer) : (s.setTimer i v).chan = s.chan := rfl
@[simp] theorem charge_setTimer (i : Nat) (v : Option Timer) : (s.setTimer i v).charge = s.charge := rfl
@[simp] theorem tours_setTimer (i : Nat) (v : Option Timer) : (s.setTimer i v).tours = s.tours := rfl
@[simp] theorem floor_setTimer (i : Nat) (v : Option Timer) : (s.setTimer i v).floor = s.floor := rfl
@[simp] theorem air_setTimer (i : Nat) (v : Option Timer) : (s.setTimer i v).air = s.air := rfl
@[simp] theorem age_setTimer (i : Nat) (v : Option Timer) : (s.setTimer i v).age = s.age := rfl
@[simp] theorem ports_setTimer (i : Nat) (v : Option Timer) : (s.setTimer i v).ports = s.ports := rfl
@[simp] theorem access_setTimer (i : Nat) (v : Option Timer) : (s.setTimer i v).access = s.access := rfl

/-! ## setMic -/

@[simp] theorem pending_setMic (m : Nat) (v : Mic) : (s.setMic m v).pending = s.pending := rfl
@[simp] theorem draws_setMic (m : Nat) (v : Mic) : (s.setMic m v).draws = s.draws := rfl
@[simp] theorem resetHeld_setMic (m : Nat) (v : Mic) : (s.setMic m v).resetHeld = s.resetHeld := rfl
@[simp] theorem settings_setMic (m : Nat) (v : Mic) : (s.setMic m v).settings = s.settings := rfl
@[simp] theorem fleet_setMic (m : Nat) (v : Mic) : (s.setMic m v).fleet = s.fleet := rfl
@[simp] theorem scan_setMic (m : Nat) (v : Mic) : (s.setMic m v).scan = s.scan := rfl
@[simp] theorem chan_setMic (m : Nat) (v : Mic) : (s.setMic m v).chan = s.chan := rfl
@[simp] theorem charge_setMic (m : Nat) (v : Mic) : (s.setMic m v).charge = s.charge := rfl
@[simp] theorem tours_setMic (m : Nat) (v : Mic) : (s.setMic m v).tours = s.tours := rfl
@[simp] theorem loans_setMic (m : Nat) (v : Mic) : (s.setMic m v).loans = s.loans := rfl
@[simp] theorem air_setMic (m : Nat) (v : Mic) : (s.setMic m v).air = s.air := rfl
@[simp] theorem age_setMic (m : Nat) (v : Mic) : (s.setMic m v).age = s.age := rfl
@[simp] theorem ports_setMic (m : Nat) (v : Mic) : (s.setMic m v).ports = s.ports := rfl
@[simp] theorem access_setMic (m : Nat) (v : Mic) : (s.setMic m v).access = s.access := rfl

/-! ## setFloor -/

@[simp] theorem pending_setFloor (p : Nat) (v : Floor) : (s.setFloor p v).pending = s.pending := rfl
@[simp] theorem draws_setFloor (p : Nat) (v : Floor) : (s.setFloor p v).draws = s.draws := rfl
@[simp] theorem resetHeld_setFloor (p : Nat) (v : Floor) : (s.setFloor p v).resetHeld = s.resetHeld := rfl
@[simp] theorem settings_setFloor (p : Nat) (v : Floor) : (s.setFloor p v).settings = s.settings := rfl
@[simp] theorem fleet_setFloor (p : Nat) (v : Floor) : (s.setFloor p v).fleet = s.fleet := rfl
@[simp] theorem scan_setFloor (p : Nat) (v : Floor) : (s.setFloor p v).scan = s.scan := rfl
@[simp] theorem chan_setFloor (p : Nat) (v : Floor) : (s.setFloor p v).chan = s.chan := rfl
@[simp] theorem charge_setFloor (p : Nat) (v : Floor) : (s.setFloor p v).charge = s.charge := rfl
@[simp] theorem tours_setFloor (p : Nat) (v : Floor) : (s.setFloor p v).tours = s.tours := rfl
@[simp] theorem loans_setFloor (p : Nat) (v : Floor) : (s.setFloor p v).loans = s.loans := rfl
@[simp] theorem air_setFloor (p : Nat) (v : Floor) : (s.setFloor p v).air = s.air := rfl
@[simp] theorem age_setFloor (p : Nat) (v : Floor) : (s.setFloor p v).age = s.age := rfl
@[simp] theorem ports_setFloor (p : Nat) (v : Floor) : (s.setFloor p v).ports = s.ports := rfl
@[simp] theorem access_setFloor (p : Nat) (v : Floor) : (s.setFloor p v).access = s.access := rfl

/-! ## setUplinkQueue -/

@[simp] theorem pending_setUplinkQueue (q : List Nat) : (s.setUplinkQueue q).pending = s.pending := rfl
@[simp] theorem draws_setUplinkQueue (q : List Nat) : (s.setUplinkQueue q).draws = s.draws := rfl
@[simp] theorem resetHeld_setUplinkQueue (q : List Nat) : (s.setUplinkQueue q).resetHeld = s.resetHeld := rfl
@[simp] theorem settings_setUplinkQueue (q : List Nat) : (s.setUplinkQueue q).settings = s.settings := rfl
@[simp] theorem fleet_setUplinkQueue (q : List Nat) : (s.setUplinkQueue q).fleet = s.fleet := rfl
@[simp] theorem scan_setUplinkQueue (q : List Nat) : (s.setUplinkQueue q).scan = s.scan := rfl
@[simp] theorem chan_setUplinkQueue (q : List Nat) : (s.setUplinkQueue q).chan = s.chan := rfl
@[simp] theorem charge_setUplinkQueue (q : List Nat) : (s.setUplinkQueue q).charge = s.charge := rfl
@[simp] theorem tours_setUplinkQueue (q : List Nat) : (s.setUplinkQueue q).tours = s.tours := rfl
@[simp] theorem loans_setUplinkQueue (q : List Nat) : (s.setUplinkQueue q).loans = s.loans := rfl
@[simp] theorem air_setUplinkQueue (q : List Nat) : (s.setUplinkQueue q).air = s.air := rfl
@[simp] theorem age_setUplinkQueue (q : List Nat) : (s.setUplinkQueue q).age = s.age := rfl
@[simp] theorem ports_setUplinkQueue (q : List Nat) : (s.setUplinkQueue q).ports = s.ports := rfl
@[simp] theorem access_setUplinkQueue (q : List Nat) : (s.setUplinkQueue q).access = s.access := rfl

/-! ## setEntry -/

@[simp] theorem pending_setEntry (i : Nat) (e : Entry) : (s.setEntry i e).pending = s.pending := rfl
@[simp] theorem draws_setEntry (i : Nat) (e : Entry) : (s.setEntry i e).draws = s.draws := rfl
@[simp] theorem resetHeld_setEntry (i : Nat) (e : Entry) : (s.setEntry i e).resetHeld = s.resetHeld := rfl
@[simp] theorem settings_setEntry (i : Nat) (e : Entry) : (s.setEntry i e).settings = s.settings := rfl
@[simp] theorem fleet_setEntry (i : Nat) (e : Entry) : (s.setEntry i e).fleet = s.fleet := rfl
@[simp] theorem scan_setEntry (i : Nat) (e : Entry) : (s.setEntry i e).scan = s.scan := rfl
@[simp] theorem chan_setEntry (i : Nat) (e : Entry) : (s.setEntry i e).chan = s.chan := rfl
@[simp] theorem charge_setEntry (i : Nat) (e : Entry) : (s.setEntry i e).charge = s.charge := rfl
@[simp] theorem tours_setEntry (i : Nat) (e : Entry) : (s.setEntry i e).tours = s.tours := rfl
@[simp] theorem loans_setEntry (i : Nat) (e : Entry) : (s.setEntry i e).loans = s.loans := rfl
@[simp] theorem floor_setEntry (i : Nat) (e : Entry) : (s.setEntry i e).floor = s.floor := rfl
@[simp] theorem age_setEntry (i : Nat) (e : Entry) : (s.setEntry i e).age = s.age := rfl
@[simp] theorem ports_setEntry (i : Nat) (e : Entry) : (s.setEntry i e).ports = s.ports := rfl
@[simp] theorem access_setEntry (i : Nat) (e : Entry) : (s.setEntry i e).access = s.access := rfl

/-! ## setDownlinkQueue -/

@[simp] theorem pending_setDownlinkQueue (q : List Nat) : (s.setDownlinkQueue q).pending = s.pending := rfl
@[simp] theorem draws_setDownlinkQueue (q : List Nat) : (s.setDownlinkQueue q).draws = s.draws := rfl
@[simp] theorem resetHeld_setDownlinkQueue (q : List Nat) : (s.setDownlinkQueue q).resetHeld = s.resetHeld := rfl
@[simp] theorem settings_setDownlinkQueue (q : List Nat) : (s.setDownlinkQueue q).settings = s.settings := rfl
@[simp] theorem fleet_setDownlinkQueue (q : List Nat) : (s.setDownlinkQueue q).fleet = s.fleet := rfl
@[simp] theorem scan_setDownlinkQueue (q : List Nat) : (s.setDownlinkQueue q).scan = s.scan := rfl
@[simp] theorem chan_setDownlinkQueue (q : List Nat) : (s.setDownlinkQueue q).chan = s.chan := rfl
@[simp] theorem charge_setDownlinkQueue (q : List Nat) : (s.setDownlinkQueue q).charge = s.charge := rfl
@[simp] theorem tours_setDownlinkQueue (q : List Nat) : (s.setDownlinkQueue q).tours = s.tours := rfl
@[simp] theorem loans_setDownlinkQueue (q : List Nat) : (s.setDownlinkQueue q).loans = s.loans := rfl
@[simp] theorem floor_setDownlinkQueue (q : List Nat) : (s.setDownlinkQueue q).floor = s.floor := rfl
@[simp] theorem age_setDownlinkQueue (q : List Nat) : (s.setDownlinkQueue q).age = s.age := rfl
@[simp] theorem ports_setDownlinkQueue (q : List Nat) : (s.setDownlinkQueue q).ports = s.ports := rfl
@[simp] theorem access_setDownlinkQueue (q : List Nat) : (s.setDownlinkQueue q).access = s.access := rfl

/-! ## setSplit -/

@[simp] theorem pending_setSplit (n : Nat) : (s.setSplit n).pending = s.pending := rfl
@[simp] theorem draws_setSplit (n : Nat) : (s.setSplit n).draws = s.draws := rfl
@[simp] theorem resetHeld_setSplit (n : Nat) : (s.setSplit n).resetHeld = s.resetHeld := rfl
@[simp] theorem settings_setSplit (n : Nat) : (s.setSplit n).settings = s.settings := rfl
@[simp] theorem fleet_setSplit (n : Nat) : (s.setSplit n).fleet = s.fleet := rfl
@[simp] theorem scan_setSplit (n : Nat) : (s.setSplit n).scan = s.scan := rfl
@[simp] theorem chan_setSplit (n : Nat) : (s.setSplit n).chan = s.chan := rfl
@[simp] theorem charge_setSplit (n : Nat) : (s.setSplit n).charge = s.charge := rfl
@[simp] theorem tours_setSplit (n : Nat) : (s.setSplit n).tours = s.tours := rfl
@[simp] theorem loans_setSplit (n : Nat) : (s.setSplit n).loans = s.loans := rfl
@[simp] theorem floor_setSplit (n : Nat) : (s.setSplit n).floor = s.floor := rfl
@[simp] theorem age_setSplit (n : Nat) : (s.setSplit n).age = s.age := rfl
@[simp] theorem ports_setSplit (n : Nat) : (s.setSplit n).ports = s.ports := rfl
@[simp] theorem access_setSplit (n : Nat) : (s.setSplit n).access = s.access := rfl

/-! ## setSettings -/

@[simp] theorem pending_setSettings (v : Settings) : (s.setSettings v).pending = s.pending := rfl
@[simp] theorem draws_setSettings (v : Settings) : (s.setSettings v).draws = s.draws := rfl
@[simp] theorem resetHeld_setSettings (v : Settings) : (s.setSettings v).resetHeld = s.resetHeld := rfl
@[simp] theorem fleet_setSettings (v : Settings) : (s.setSettings v).fleet = s.fleet := rfl
@[simp] theorem scan_setSettings (v : Settings) : (s.setSettings v).scan = s.scan := rfl
@[simp] theorem chan_setSettings (v : Settings) : (s.setSettings v).chan = s.chan := rfl
@[simp] theorem charge_setSettings (v : Settings) : (s.setSettings v).charge = s.charge := rfl
@[simp] theorem tours_setSettings (v : Settings) : (s.setSettings v).tours = s.tours := rfl
@[simp] theorem loans_setSettings (v : Settings) : (s.setSettings v).loans = s.loans := rfl
@[simp] theorem floor_setSettings (v : Settings) : (s.setSettings v).floor = s.floor := rfl
@[simp] theorem air_setSettings (v : Settings) : (s.setSettings v).air = s.air := rfl
@[simp] theorem age_setSettings (v : Settings) : (s.setSettings v).age = s.age := rfl
@[simp] theorem ports_setSettings (v : Settings) : (s.setSettings v).ports = s.ports := rfl
@[simp] theorem access_setSettings (v : Settings) : (s.setSettings v).access = s.access := rfl

/-! ## post -/

@[simp] theorem pending_post (n : Notice) : (s.post n).pending = s.pending := rfl
@[simp] theorem draws_post (n : Notice) : (s.post n).draws = s.draws := rfl
@[simp] theorem resetHeld_post (n : Notice) : (s.post n).resetHeld = s.resetHeld := rfl
@[simp] theorem settings_post (n : Notice) : (s.post n).settings = s.settings := rfl
@[simp] theorem fleet_post (n : Notice) : (s.post n).fleet = s.fleet := rfl
@[simp] theorem scan_post (n : Notice) : (s.post n).scan = s.scan := rfl
@[simp] theorem chan_post (n : Notice) : (s.post n).chan = s.chan := rfl
@[simp] theorem charge_post (n : Notice) : (s.post n).charge = s.charge := rfl
@[simp] theorem tours_post (n : Notice) : (s.post n).tours = s.tours := rfl
@[simp] theorem loans_post (n : Notice) : (s.post n).loans = s.loans := rfl
@[simp] theorem floor_post (n : Notice) : (s.post n).floor = s.floor := rfl
@[simp] theorem air_post (n : Notice) : (s.post n).air = s.air := rfl
@[simp] theorem age_post (n : Notice) : (s.post n).age = s.age := rfl
@[simp] theorem access_post (n : Notice) : (s.post n).access = s.access := rfl

/-! ## setPort -/

@[simp] theorem pending_setPort (l : Link) (v : Port) : (s.setPort l v).pending = s.pending := by cases l <;> rfl
@[simp] theorem draws_setPort (l : Link) (v : Port) : (s.setPort l v).draws = s.draws := by cases l <;> rfl
@[simp] theorem resetHeld_setPort (l : Link) (v : Port) : (s.setPort l v).resetHeld = s.resetHeld := by cases l <;> rfl
@[simp] theorem settings_setPort (l : Link) (v : Port) : (s.setPort l v).settings = s.settings := by cases l <;> rfl
@[simp] theorem fleet_setPort (l : Link) (v : Port) : (s.setPort l v).fleet = s.fleet := by cases l <;> rfl
@[simp] theorem scan_setPort (l : Link) (v : Port) : (s.setPort l v).scan = s.scan := by cases l <;> rfl
@[simp] theorem chan_setPort (l : Link) (v : Port) : (s.setPort l v).chan = s.chan := by cases l <;> rfl
@[simp] theorem charge_setPort (l : Link) (v : Port) : (s.setPort l v).charge = s.charge := by cases l <;> rfl
@[simp] theorem tours_setPort (l : Link) (v : Port) : (s.setPort l v).tours = s.tours := by cases l <;> rfl
@[simp] theorem loans_setPort (l : Link) (v : Port) : (s.setPort l v).loans = s.loans := by cases l <;> rfl
@[simp] theorem floor_setPort (l : Link) (v : Port) : (s.setPort l v).floor = s.floor := by cases l <;> rfl
@[simp] theorem air_setPort (l : Link) (v : Port) : (s.setPort l v).air = s.air := by cases l <;> rfl
@[simp] theorem age_setPort (l : Link) (v : Port) : (s.setPort l v).age = s.age := by cases l <;> rfl
@[simp] theorem access_setPort (l : Link) (v : Port) : (s.setPort l v).access = s.access := by cases l <;> rfl

/-! ## setRights -/

@[simp] theorem pending_setRights (l : Link) (v : Rights) : (s.setRights l v).pending = s.pending := by cases l <;> rfl
@[simp] theorem draws_setRights (l : Link) (v : Rights) : (s.setRights l v).draws = s.draws := by cases l <;> rfl
@[simp] theorem resetHeld_setRights (l : Link) (v : Rights) : (s.setRights l v).resetHeld = s.resetHeld := by cases l <;> rfl
@[simp] theorem settings_setRights (l : Link) (v : Rights) : (s.setRights l v).settings = s.settings := by cases l <;> rfl
@[simp] theorem fleet_setRights (l : Link) (v : Rights) : (s.setRights l v).fleet = s.fleet := by cases l <;> rfl
@[simp] theorem scan_setRights (l : Link) (v : Rights) : (s.setRights l v).scan = s.scan := by cases l <;> rfl
@[simp] theorem chan_setRights (l : Link) (v : Rights) : (s.setRights l v).chan = s.chan := by cases l <;> rfl
@[simp] theorem charge_setRights (l : Link) (v : Rights) : (s.setRights l v).charge = s.charge := by cases l <;> rfl
@[simp] theorem tours_setRights (l : Link) (v : Rights) : (s.setRights l v).tours = s.tours := by cases l <;> rfl
@[simp] theorem loans_setRights (l : Link) (v : Rights) : (s.setRights l v).loans = s.loans := by cases l <;> rfl
@[simp] theorem floor_setRights (l : Link) (v : Rights) : (s.setRights l v).floor = s.floor := by cases l <;> rfl
@[simp] theorem air_setRights (l : Link) (v : Rights) : (s.setRights l v).air = s.air := by cases l <;> rfl
@[simp] theorem age_setRights (l : Link) (v : Rights) : (s.setRights l v).age = s.age := by cases l <;> rfl
@[simp] theorem ports_setRights (l : Link) (v : Rights) : (s.setRights l v).ports = s.ports := by cases l <;> rfl

/-! ## Reads after writes -/

@[simp] theorem record_setRecord (i : Nat) (v : Option Record) (j : Nat) :
    (s.setRecord i v).record j = if i = j then v else s.record j := by simp [State.record, State.setRecord]

@[simp] theorem scanner_setScanner (r : Nat) (v : Scanner) (q : Nat) :
    (s.setScanner r v).scanner q = if r = q then v else s.scanner q := by simp [State.scanner, State.setScanner]

@[simp] theorem bay_setScanner (r : Nat) (v : Scanner) (q b : Nat) :
    (s.setScanner r v).bay q b = if r = q then Table.read (fun _ => resetBay) v.bays b else s.bay q b := by
  unfold State.bay; rw [scanner_setScanner]; split <;> rfl

@[simp] theorem scanner_setBay (r b : Nat) (v : Bay) (q : Nat) :
    (s.setBay r b v).scanner q =
      if r = q then { s.scanner q with bays := Table.write (fun _ => resetBay) (s.scanner q).bays b v }
      else s.scanner q := by
  unfold State.setBay; rw [scanner_setScanner]; split
  · rename_i h; subst h; rfl
  · rfl

@[simp] theorem bay_setBay (r b : Nat) (v : Bay) (q c : Nat) :
    (s.setBay r b v).bay q c = if r = q ∧ b = c then v else s.bay q c := by
  unfold State.bay; rw [scanner_setBay]
  by_cases h : r = q
  · by_cases hb : b = c <;> simp [h, hb]
  · simp [h]

@[simp] theorem channel_setChannel (r : Nat) (v : Channel) (q : Nat) :
    (s.setChannel r v).channel q = if r = q then v else s.channel q := by simp [State.channel, State.setChannel]

@[simp] theorem rackCharge_setRackCharge (r : Nat) (v : RackCharge) (q : Nat) :
    (s.setRackCharge r v).rackCharge q = if r = q then v else s.rackCharge q := by
  simp [State.rackCharge, State.setRackCharge]

@[simp] theorem rackCharge_setDrive (r b : Nat) (v : Drive) (q : Nat) :
    (s.setDrive r b v).rackCharge q =
      if r = q then { s.rackCharge q with drives := Table.write (fun _ => resetDrive) (s.rackCharge q).drives b v }
      else s.rackCharge q := by
  unfold State.setDrive; rw [rackCharge_setRackCharge]; split
  · rename_i h; subst h; rfl
  · rfl

@[simp] theorem drive_setDrive (r b : Nat) (v : Drive) (q c : Nat) :
    (s.setDrive r b v).drive q c = if r = q ∧ b = c then v else s.drive q c := by
  unfold State.drive; rw [rackCharge_setDrive]
  by_cases h : r = q
  · by_cases hb : b = c <;> simp [h, hb]
  · simp [h]

@[simp] theorem tour_setTour (t : Nat) (v : Tour) (u : Nat) :
    (s.setTour t v).tour u = if t = u then v else s.tour u := by simp [State.tour, State.setTour]

@[simp] theorem programme_setProgramme (p : Nat) (v : Programme) (q : Nat) :
    (s.setProgramme p v).programme q = if p = q then v else s.programme q := by
  simp [State.programme, State.setProgramme]

@[simp] theorem programme_setTour (t : Nat) (v : Tour) (q : Nat) : (s.setTour t v).programme q = s.programme q := rfl
@[simp] theorem tour_setProgramme (p : Nat) (v : Programme) (u : Nat) : (s.setProgramme p v).tour u = s.tour u := rfl

@[simp] theorem loan_setLoan (i : Nat) (v : Option Loan) (j : Nat) :
    (s.setLoan i v).loan j = if i = j then v else s.loan j := by simp [State.loan, State.setLoan]

@[simp] theorem timer_setTimer (i : Nat) (v : Option Timer) (j : Nat) :
    (s.setTimer i v).timer j = if i = j then v else s.timer j := by simp [State.timer, State.setTimer]

@[simp] theorem loan_setWanting (q : List Nat) (j : Nat) : (s.setWanting q).loan j = s.loan j := rfl
@[simp] theorem loan_setTimer (i : Nat) (v : Option Timer) (j : Nat) : (s.setTimer i v).loan j = s.loan j := rfl
@[simp] theorem timer_setLoan (i : Nat) (v : Option Loan) (j : Nat) : (s.setLoan i v).timer j = s.timer j := rfl
@[simp] theorem timer_setWanting (q : List Nat) (j : Nat) : (s.setWanting q).timer j = s.timer j := rfl
@[simp] theorem wanting_setWanting (q : List Nat) : (s.setWanting q).loans.wanting = q := rfl
@[simp] theorem wanting_setLoan (i : Nat) (v : Option Loan) : (s.setLoan i v).loans.wanting = s.loans.wanting := rfl
@[simp] theorem wanting_setTimer (i : Nat) (v : Option Timer) : (s.setTimer i v).loans.wanting = s.loans.wanting := rfl

@[simp] theorem mic_setMic (m : Nat) (v : Mic) (n : Nat) :
    (s.setMic m v).mic n = if m = n then v else s.mic n := by simp [State.mic, State.setMic]

@[simp] theorem floorOf_setFloor (p : Nat) (v : Floor) (q : Nat) :
    (s.setFloor p v).floorOf q = if p = q then v else s.floorOf q := by simp [State.floorOf, State.setFloor]

@[simp] theorem mic_setFloor (p : Nat) (v : Floor) (n : Nat) : (s.setFloor p v).mic n = s.mic n := rfl
@[simp] theorem mic_setUplinkQueue (q : List Nat) (n : Nat) : (s.setUplinkQueue q).mic n = s.mic n := rfl
@[simp] theorem floorOf_setMic (m : Nat) (v : Mic) (p : Nat) : (s.setMic m v).floorOf p = s.floorOf p := rfl
@[simp] theorem floorOf_setUplinkQueue (q : List Nat) (p : Nat) : (s.setUplinkQueue q).floorOf p = s.floorOf p := rfl
@[simp] theorem uplinkQueue_setUplinkQueue (q : List Nat) : (s.setUplinkQueue q).floor.uplinkQueue = q := rfl
@[simp] theorem uplinkQueue_setMic (m : Nat) (v : Mic) : (s.setMic m v).floor.uplinkQueue = s.floor.uplinkQueue := rfl
@[simp] theorem uplinkQueue_setFloor (p : Nat) (v : Floor) : (s.setFloor p v).floor.uplinkQueue = s.floor.uplinkQueue := rfl

@[simp] theorem entry_setEntry (i : Nat) (e : Entry) (j : Nat) :
    (s.setEntry i e).entry j = if i = j then e else s.entry j := by simp [State.entry, State.setEntry, Plan.entry]

@[simp] theorem split_setEntry (i : Nat) (e : Entry) : (s.setEntry i e).air.nextPlan.split = s.air.nextPlan.split := rfl

@[simp] theorem port_setPort (l : Link) (v : Port) (k : Link) :
    (s.setPort l v).port k = if l = k then v else s.port k := by cases l <;> cases k <;> rfl

@[simp] theorem port_post (n : Notice) (k : Link) : (s.post n).port k = (s.port k).post n := by cases k <;> rfl

@[simp] theorem rights_setRights (l : Link) (v : Rights) (k : Link) :
    (s.setRights l v).rights k = if l = k then v else s.rights k := by cases l <;> cases k <;> rfl

@[simp] theorem on_setOn (r : Rights) (g : Group) (v : Right) (h : Group) :
    (r.setOn g v).on h = if g = h then v else r.on h := by cases g <;> cases h <;> rfl

/-! ## A read depends on its own block -/

theorem record_congr {s t : State} (h : t.fleet = s.fleet) (i : Nat) : t.record i = s.record i := by
  simp [State.record, h]
theorem scanner_congr {s t : State} (h : t.scan = s.scan) (i : Nat) : t.scanner i = s.scanner i := by
  simp [State.scanner, h]
theorem channel_congr {s t : State} (h : t.chan = s.chan) (i : Nat) : t.channel i = s.channel i := by
  simp [State.channel, h]
theorem rackCharge_congr {s t : State} (h : t.charge = s.charge) (i : Nat) : t.rackCharge i = s.rackCharge i := by
  simp [State.rackCharge, h]
theorem tour_congr {s t : State} (h : t.tours = s.tours) (i : Nat) : t.tour i = s.tour i := by
  simp [State.tour, h]
theorem programme_congr {s t : State} (h : t.tours = s.tours) (i : Nat) : t.programme i = s.programme i := by
  simp [State.programme, h]
theorem loan_congr {s t : State} (h : t.loans = s.loans) (i : Nat) : t.loan i = s.loan i := by
  simp [State.loan, h]
theorem timer_congr {s t : State} (h : t.loans = s.loans) (i : Nat) : t.timer i = s.timer i := by
  simp [State.timer, h]
theorem mic_congr {s t : State} (h : t.floor = s.floor) (i : Nat) : t.mic i = s.mic i := by
  simp [State.mic, h]
theorem floorOf_congr {s t : State} (h : t.floor = s.floor) (i : Nat) : t.floorOf i = s.floorOf i := by
  simp [State.floorOf, h]
theorem entry_congr {s t : State} (h : t.air = s.air) (i : Nat) : t.entry i = s.entry i := by
  simp [State.entry, h]
theorem port_congr {s t : State} (h : t.ports = s.ports) (i : Link) : t.port i = s.port i := by
  cases i <;> simp [State.port, h]
theorem rights_congr {s t : State} (h : t.access = s.access) (i : Link) : t.rights i = s.rights i := by
  cases i <;> simp [State.rights, h]
theorem bay_congr {s t : State} (h : t.scan = s.scan) (r b : Nat) : t.bay r b = s.bay r b := by
  simp [State.bay, State.scanner, h]
theorem drive_congr {s t : State} (h : t.charge = s.charge) (r b : Nat) : t.drive r b = s.drive r b := by
  simp [State.drive, State.rackCharge, h]

/-! ## The folds at the end of an event, to be rewritten with and not unfolded -/

theorem restage_eq (s : State) (r : Nat) : s.restage r =
    if (s.turns r).first.scaled || (s.turns r).needed.scaled then
      (s.stageBays r (s.stagedShare r (s.turns r)) bayNumbers).post (.rackShort r)
    else s.stageBays r (s.stagedShare r (s.turns r)) bayNumbers := rfl

theorem settleCharge_eq (before s : State) (l : List Nat) : State.settleCharge before s l =
    (if s.promotedSet = s.charge.promoted then rackNumbers.filter fun r => l.contains r || State.rackDirty before s r
      else rackNumbers).foldl State.restage { s with charge := { s.charge with promoted := s.promotedSet } } := rfl

theorem handOvers_eq (s : State) :
    rackNumbers.foldl State.handOver s = (((s.handOver 0).handOver 1).handOver 2).handOver 3 := by
  simp only [rackNumbers, List.foldl]

end Sys2Proof.Machine
end

