-- ==== Sys2Proof/Laws/Reads.lean ====
section
/-! SUPPORT. A named read is not touched by a named write of another block: one lemma per pair. -/

namespace Sys2Proof.Machine

variable (s : State)

/-! ## setRecord -/

@[simp] theorem scanner_setRecord (i : Nat) (v : Option Record) (j : Nat) : (s.setRecord i v).scanner j = s.scanner j := rfl
@[simp] theorem bay_setRecord (i : Nat) (v : Option Record) (j c : Nat) : (s.setRecord i v).bay j c = s.bay j c := rfl
@[simp] theorem channel_setRecord (i : Nat) (v : Option Record) (j : Nat) : (s.setRecord i v).channel j = s.channel j := rfl
@[simp] theorem rackCharge_setRecord (i : Nat) (v : Option Record) (j : Nat) : (s.setRecord i v).rackCharge j = s.rackCharge j := rfl
@[simp] theorem drive_setRecord (i : Nat) (v : Option Record) (j c : Nat) : (s.setRecord i v).drive j c = s.drive j c := rfl
@[simp] theorem tour_setRecord (i : Nat) (v : Option Record) (j : Nat) : (s.setRecord i v).tour j = s.tour j := rfl
@[simp] theorem programme_setRecord (i : Nat) (v : Option Record) (j : Nat) : (s.setRecord i v).programme j = s.programme j := rfl
@[simp] theorem loan_setRecord (i : Nat) (v : Option Record) (j : Nat) : (s.setRecord i v).loan j = s.loan j := rfl
@[simp] theorem timer_setRecord (i : Nat) (v : Option Record) (j : Nat) : (s.setRecord i v).timer j = s.timer j := rfl
@[simp] theorem mic_setRecord (i : Nat) (v : Option Record) (j : Nat) : (s.setRecord i v).mic j = s.mic j := rfl
@[simp] theorem floorOf_setRecord (i : Nat) (v : Option Record) (j : Nat) : (s.setRecord i v).floorOf j = s.floorOf j := rfl
@[simp] theorem entry_setRecord (i : Nat) (v : Option Record) (j : Nat) : (s.setRecord i v).entry j = s.entry j := rfl
@[simp] theorem port_setRecord (i : Nat) (v : Option Record) (j : Link) : (s.setRecord i v).port j = s.port j := rfl
@[simp] theorem rights_setRecord (i : Nat) (v : Option Record) (j : Link) : (s.setRecord i v).rights j = s.rights j := rfl
@[simp] theorem excluded_setRecord (i : Nat) (v : Option Record) (j : Nat) : (s.setRecord i v).excluded j = s.excluded j := rfl

/-! ## setScanner -/

@[simp] theorem record_setScanner (r : Nat) (v : Scanner) (j : Nat) : (s.setScanner r v).record j = s.record j := rfl
@[simp] theorem channel_setScanner (r : Nat) (v : Scanner) (j : Nat) : (s.setScanner r v).channel j = s.channel j := rfl
@[simp] theorem rackCharge_setScanner (r : Nat) (v : Scanner) (j : Nat) : (s.setScanner r v).rackCharge j = s.rackCharge j := rfl
@[simp] theorem drive_setScanner (r : Nat) (v : Scanner) (j c : Nat) : (s.setScanner r v).drive j c = s.drive j c := rfl
@[simp] theorem tour_setScanner (r : Nat) (v : Scanner) (j : Nat) : (s.setScanner r v).tour j = s.tour j := rfl
@[simp] theorem programme_setScanner (r : Nat) (v : Scanner) (j : Nat) : (s.setScanner r v).programme j = s.programme j := rfl
@[simp] theorem loan_setScanner (r : Nat) (v : Scanner) (j : Nat) : (s.setScanner r v).loan j = s.loan j := rfl
@[simp] theorem timer_setScanner (r : Nat) (v : Scanner) (j : Nat) : (s.setScanner r v).timer j = s.timer j := rfl
@[simp] theorem mic_setScanner (r : Nat) (v : Scanner) (j : Nat) : (s.setScanner r v).mic j = s.mic j := rfl
@[simp] theorem floorOf_setScanner (r : Nat) (v : Scanner) (j : Nat) : (s.setScanner r v).floorOf j = s.floorOf j := rfl
@[simp] theorem entry_setScanner (r : Nat) (v : Scanner) (j : Nat) : (s.setScanner r v).entry j = s.entry j := rfl
@[simp] theorem port_setScanner (r : Nat) (v : Scanner) (j : Link) : (s.setScanner r v).port j = s.port j := rfl
@[simp] theorem rights_setScanner (r : Nat) (v : Scanner) (j : Link) : (s.setScanner r v).rights j = s.rights j := rfl
@[simp] theorem excluded_setScanner (r : Nat) (v : Scanner) (j : Nat) : (s.setScanner r v).excluded j = s.excluded j := rfl

/-! ## setBay -/

@[simp] theorem record_setBay (r b : Nat) (v : Bay) (j : Nat) : (s.setBay r b v).record j = s.record j := rfl
@[simp] theorem channel_setBay (r b : Nat) (v : Bay) (j : Nat) : (s.setBay r b v).channel j = s.channel j := rfl
@[simp] theorem rackCharge_setBay (r b : Nat) (v : Bay) (j : Nat) : (s.setBay r b v).rackCharge j = s.rackCharge j := rfl
@[simp] theorem drive_setBay (r b : Nat) (v : Bay) (j c : Nat) : (s.setBay r b v).drive j c = s.drive j c := rfl
@[simp] theorem tour_setBay (r b : Nat) (v : Bay) (j : Nat) : (s.setBay r b v).tour j = s.tour j := rfl
@[simp] theorem programme_setBay (r b : Nat) (v : Bay) (j : Nat) : (s.setBay r b v).programme j = s.programme j := rfl
@[simp] theorem loan_setBay (r b : Nat) (v : Bay) (j : Nat) : (s.setBay r b v).loan j = s.loan j := rfl
@[simp] theorem timer_setBay (r b : Nat) (v : Bay) (j : Nat) : (s.setBay r b v).timer j = s.timer j := rfl
@[simp] theorem mic_setBay (r b : Nat) (v : Bay) (j : Nat) : (s.setBay r b v).mic j = s.mic j := rfl
@[simp] theorem floorOf_setBay (r b : Nat) (v : Bay) (j : Nat) : (s.setBay r b v).floorOf j = s.floorOf j := rfl
@[simp] theorem entry_setBay (r b : Nat) (v : Bay) (j : Nat) : (s.setBay r b v).entry j = s.entry j := rfl
@[simp] theorem port_setBay (r b : Nat) (v : Bay) (j : Link) : (s.setBay r b v).port j = s.port j := rfl
@[simp] theorem rights_setBay (r b : Nat) (v : Bay) (j : Link) : (s.setBay r b v).rights j = s.rights j := rfl
@[simp] theorem excluded_setBay (r b : Nat) (v : Bay) (j : Nat) : (s.setBay r b v).excluded j = s.excluded j := rfl

/-! ## setChannel -/

@[simp] theorem record_setChannel (r : Nat) (v : Channel) (j : Nat) : (s.setChannel r v).record j = s.record j := rfl
@[simp] theorem scanner_setChannel (r : Nat) (v : Channel) (j : Nat) : (s.setChannel r v).scanner j = s.scanner j := rfl
@[simp] theorem bay_setChannel (r : Nat) (v : Channel) (j c : Nat) : (s.setChannel r v).bay j c = s.bay j c := rfl
@[simp] theorem rackCharge_setChannel (r : Nat) (v : Channel) (j : Nat) : (s.setChannel r v).rackCharge j = s.rackCharge j := rfl
@[simp] theorem drive_setChannel (r : Nat) (v : Channel) (j c : Nat) : (s.setChannel r v).drive j c = s.drive j c := rfl
@[simp] theorem tour_setChannel (r : Nat) (v : Channel) (j : Nat) : (s.setChannel r v).tour j = s.tour j := rfl
@[simp] theorem programme_setChannel (r : Nat) (v : Channel) (j : Nat) : (s.setChannel r v).programme j = s.programme j := rfl
@[simp] theorem loan_setChannel (r : Nat) (v : Channel) (j : Nat) : (s.setChannel r v).loan j = s.loan j := rfl
@[simp] theorem timer_setChannel (r : Nat) (v : Channel) (j : Nat) : (s.setChannel r v).timer j = s.timer j := rfl
@[simp] theorem mic_setChannel (r : Nat) (v : Channel) (j : Nat) : (s.setChannel r v).mic j = s.mic j := rfl
@[simp] theorem floorOf_setChannel (r : Nat) (v : Channel) (j : Nat) : (s.setChannel r v).floorOf j = s.floorOf j := rfl
@[simp] theorem entry_setChannel (r : Nat) (v : Channel) (j : Nat) : (s.setChannel r v).entry j = s.entry j := rfl
@[simp] theorem port_setChannel (r : Nat) (v : Channel) (j : Link) : (s.setChannel r v).port j = s.port j := rfl
@[simp] theorem rights_setChannel (r : Nat) (v : Channel) (j : Link) : (s.setChannel r v).rights j = s.rights j := rfl
@[simp] theorem excluded_setChannel (r : Nat) (v : Channel) (j : Nat) : (s.setChannel r v).excluded j = s.excluded j := rfl

/-! ## setRackCharge -/

@[simp] theorem record_setRackCharge (r : Nat) (v : RackCharge) (j : Nat) : (s.setRackCharge r v).record j = s.record j := rfl
@[simp] theorem scanner_setRackCharge (r : Nat) (v : RackCharge) (j : Nat) : (s.setRackCharge r v).scanner j = s.scanner j := rfl
@[simp] theorem bay_setRackCharge (r : Nat) (v : RackCharge) (j c : Nat) : (s.setRackCharge r v).bay j c = s.bay j c := rfl
@[simp] theorem channel_setRackCharge (r : Nat) (v : RackCharge) (j : Nat) : (s.setRackCharge r v).channel j = s.channel j := rfl
@[simp] theorem tour_setRackCharge (r : Nat) (v : RackCharge) (j : Nat) : (s.setRackCharge r v).tour j = s.tour j := rfl
@[simp] theorem programme_setRackCharge (r : Nat) (v : RackCharge) (j : Nat) : (s.setRackCharge r v).programme j = s.programme j := rfl
@[simp] theorem loan_setRackCharge (r : Nat) (v : RackCharge) (j : Nat) : (s.setRackCharge r v).loan j = s.loan j := rfl
@[simp] theorem timer_setRackCharge (r : Nat) (v : RackCharge) (j : Nat) : (s.setRackCharge r v).timer j = s.timer j := rfl
@[simp] theorem mic_setRackCharge (r : Nat) (v : RackCharge) (j : Nat) : (s.setRackCharge r v).mic j = s.mic j := rfl
@[simp] theorem floorOf_setRackCharge (r : Nat) (v : RackCharge) (j : Nat) : (s.setRackCharge r v).floorOf j = s.floorOf j := rfl
@[simp] theorem entry_setRackCharge (r : Nat) (v : RackCharge) (j : Nat) : (s.setRackCharge r v).entry j = s.entry j := rfl
@[simp] theorem port_setRackCharge (r : Nat) (v : RackCharge) (j : Link) : (s.setRackCharge r v).port j = s.port j := rfl
@[simp] theorem rights_setRackCharge (r : Nat) (v : RackCharge) (j : Link) : (s.setRackCharge r v).rights j = s.rights j := rfl
@[simp] theorem excluded_setRackCharge (r : Nat) (v : RackCharge) (j : Nat) : (s.setRackCharge r v).excluded j = s.excluded j := rfl

/-! ## setDrive -/

@[simp] theorem record_setDrive (r b : Nat) (v : Drive) (j : Nat) : (s.setDrive r b v).record j = s.record j := rfl
@[simp] theorem scanner_setDrive (r b : Nat) (v : Drive) (j : Nat) : (s.setDrive r b v).scanner j = s.scanner j := rfl
@[simp] theorem bay_setDrive (r b : Nat) (v : Drive) (j c : Nat) : (s.setDrive r b v).bay j c = s.bay j c := rfl
@[simp] theorem channel_setDrive (r b : Nat) (v : Drive) (j : Nat) : (s.setDrive r b v).channel j = s.channel j := rfl
@[simp] theorem tour_setDrive (r b : Nat) (v : Drive) (j : Nat) : (s.setDrive r b v).tour j = s.tour j := rfl
@[simp] theorem programme_setDrive (r b : Nat) (v : Drive) (j : Nat) : (s.setDrive r b v).programme j = s.programme j := rfl
@[simp] theorem loan_setDrive (r b : Nat) (v : Drive) (j : Nat) : (s.setDrive r b v).loan j = s.loan j := rfl
@[simp] theorem timer_setDrive (r b : Nat) (v : Drive) (j : Nat) : (s.setDrive r b v).timer j = s.timer j := rfl
@[simp] theorem mic_setDrive (r b : Nat) (v : Drive) (j : Nat) : (s.setDrive r b v).mic j = s.mic j := rfl
@[simp] theorem floorOf_setDrive (r b : Nat) (v : Drive) (j : Nat) : (s.setDrive r b v).floorOf j = s.floorOf j := rfl
@[simp] theorem entry_setDrive (r b : Nat) (v : Drive) (j : Nat) : (s.setDrive r b v).entry j = s.entry j := rfl
@[simp] theorem port_setDrive (r b : Nat) (v : Drive) (j : Link) : (s.setDrive r b v).port j = s.port j := rfl
@[simp] theorem rights_setDrive (r b : Nat) (v : Drive) (j : Link) : (s.setDrive r b v).rights j = s.rights j := rfl
@[simp] theorem excluded_setDrive (r b : Nat) (v : Drive) (j : Nat) : (s.setDrive r b v).excluded j = s.excluded j := rfl

/-! ## setTour -/

@[simp] theorem record_setTour (t : Nat) (v : Tour) (j : Nat) : (s.setTour t v).record j = s.record j := rfl
@[simp] theorem scanner_setTour (t : Nat) (v : Tour) (j : Nat) : (s.setTour t v).scanner j = s.scanner j := rfl
@[simp] theorem bay_setTour (t : Nat) (v : Tour) (j c : Nat) : (s.setTour t v).bay j c = s.bay j c := rfl
@[simp] theorem channel_setTour (t : Nat) (v : Tour) (j : Nat) : (s.setTour t v).channel j = s.channel j := rfl
@[simp] theorem rackCharge_setTour (t : Nat) (v : Tour) (j : Nat) : (s.setTour t v).rackCharge j = s.rackCharge j := rfl
@[simp] theorem drive_setTour (t : Nat) (v : Tour) (j c : Nat) : (s.setTour t v).drive j c = s.drive j c := rfl
@[simp] theorem loan_setTour (t : Nat) (v : Tour) (j : Nat) : (s.setTour t v).loan j = s.loan j := rfl
@[simp] theorem timer_setTour (t : Nat) (v : Tour) (j : Nat) : (s.setTour t v).timer j = s.timer j := rfl
@[simp] theorem mic_setTour (t : Nat) (v : Tour) (j : Nat) : (s.setTour t v).mic j = s.mic j := rfl
@[simp] theorem floorOf_setTour (t : Nat) (v : Tour) (j : Nat) : (s.setTour t v).floorOf j = s.floorOf j := rfl
@[simp] theorem entry_setTour (t : Nat) (v : Tour) (j : Nat) : (s.setTour t v).entry j = s.entry j := rfl
@[simp] theorem port_setTour (t : Nat) (v : Tour) (j : Link) : (s.setTour t v).port j = s.port j := rfl
@[simp] theorem rights_setTour (t : Nat) (v : Tour) (j : Link) : (s.setTour t v).rights j = s.rights j := rfl
@[simp] theorem excluded_setTour (t : Nat) (v : Tour) (j : Nat) : (s.setTour t v).excluded j = s.excluded j := rfl

/-! ## setProgramme -/

@[simp] theorem record_setProgramme (p : Nat) (v : Programme) (j : Nat) : (s.setProgramme p v).record j = s.record j := rfl
@[simp] theorem scanner_setProgramme (p : Nat) (v : Programme) (j : Nat) : (s.setProgramme p v).scanner j = s.scanner j := rfl
@[simp] theorem bay_setProgramme (p : Nat) (v : Programme) (j c : Nat) : (s.setProgramme p v).bay j c = s.bay j c := rfl
@[simp] theorem channel_setProgramme (p : Nat) (v : Programme) (j : Nat) : (s.setProgramme p v).channel j = s.channel j := rfl
@[simp] theorem rackCharge_setProgramme (p : Nat) (v : Programme) (j : Nat) : (s.setProgramme p v).rackCharge j = s.rackCharge j := rfl
@[simp] theorem drive_setProgramme (p : Nat) (v : Programme) (j c : Nat) : (s.setProgramme p v).drive j c = s.drive j c := rfl
@[simp] theorem loan_setProgramme (p : Nat) (v : Programme) (j : Nat) : (s.setProgramme p v).loan j = s.loan j := rfl
@[simp] theorem timer_setProgramme (p : Nat) (v : Programme) (j : Nat) : (s.setProgramme p v).timer j = s.timer j := rfl
@[simp] theorem mic_setProgramme (p : Nat) (v : Programme) (j : Nat) : (s.setProgramme p v).mic j = s.mic j := rfl
@[simp] theorem floorOf_setProgramme (p : Nat) (v : Programme) (j : Nat) : (s.setProgramme p v).floorOf j = s.floorOf j := rfl
@[simp] theorem entry_setProgramme (p : Nat) (v : Programme) (j : Nat) : (s.setProgramme p v).entry j = s.entry j := rfl
@[simp] theorem port_setProgramme (p : Nat) (v : Programme) (j : Link) : (s.setProgramme p v).port j = s.port j := rfl
@[simp] theorem rights_setProgramme (p : Nat) (v : Programme) (j : Link) : (s.setProgramme p v).rights j = s.rights j := rfl
@[simp] theorem excluded_setProgramme (p : Nat) (v : Programme) (j : Nat) : (s.setProgramme p v).excluded j = s.excluded j := rfl

/-! ## setLoan -/

@[simp] theorem record_setLoan (i : Nat) (v : Option Loan) (j : Nat) : (s.setLoan i v).record j = s.record j := rfl
@[simp] theorem scanner_setLoan (i : Nat) (v : Option Loan) (j : Nat) : (s.setLoan i v).scanner j = s.scanner j := rfl
@[simp] theorem bay_setLoan (i : Nat) (v : Option Loan) (j c : Nat) : (s.setLoan i v).bay j c = s.bay j c := rfl
@[simp] theorem channel_setLoan (i : Nat) (v : Option Loan) (j : Nat) : (s.setLoan i v).channel j = s.channel j := rfl
@[simp] theorem rackCharge_setLoan (i : Nat) (v : Option Loan) (j : Nat) : (s.setLoan i v).rackCharge j = s.rackCharge j := rfl
@[simp] theorem drive_setLoan (i : Nat) (v : Option Loan) (j c : Nat) : (s.setLoan i v).drive j c = s.drive j c := rfl
@[simp] theorem tour_setLoan (i : Nat) (v : Option Loan) (j : Nat) : (s.setLoan i v).tour j = s.tour j := rfl
@[simp] theorem programme_setLoan (i : Nat) (v : Option Loan) (j : Nat) : (s.setLoan i v).programme j = s.programme j := rfl
@[simp] theorem mic_setLoan (i : Nat) (v : Option Loan) (j : Nat) : (s.setLoan i v).mic j = s.mic j := rfl
@[simp] theorem floorOf_setLoan (i : Nat) (v : Option Loan) (j : Nat) : (s.setLoan i v).floorOf j = s.floorOf j := rfl
@[simp] theorem entry_setLoan (i : Nat) (v : Option Loan) (j : Nat) : (s.setLoan i v).entry j = s.entry j := rfl
@[simp] theorem port_setLoan (i : Nat) (v : Option Loan) (j : Link) : (s.setLoan i v).port j = s.port j := rfl
@[simp] theorem rights_setLoan (i : Nat) (v : Option Loan) (j : Link) : (s.setLoan i v).rights j = s.rights j := rfl
@[simp] theorem excluded_setLoan (i : Nat) (v : Option Loan) (j : Nat) : (s.setLoan i v).excluded j = s.excluded j := rfl

/-! ## setWanting -/

@[simp] theorem record_setWanting (q : List Nat) (j : Nat) : (s.setWanting q).record j = s.record j := rfl
@[simp] theorem scanner_setWanting (q : List Nat) (j : Nat) : (s.setWanting q).scanner j = s.scanner j := rfl
@[simp] theorem bay_setWanting (q : List Nat) (j c : Nat) : (s.setWanting q).bay j c = s.bay j c := rfl
@[simp] theorem channel_setWanting (q : List Nat) (j : Nat) : (s.setWanting q).channel j = s.channel j := rfl
@[simp] theorem rackCharge_setWanting (q : List Nat) (j : Nat) : (s.setWanting q).rackCharge j = s.rackCharge j := rfl
@[simp] theorem drive_setWanting (q : List Nat) (j c : Nat) : (s.setWanting q).drive j c = s.drive j c := rfl
@[simp] theorem tour_setWanting (q : List Nat) (j : Nat) : (s.setWanting q).tour j = s.tour j := rfl
@[simp] theorem programme_setWanting (q : List Nat) (j : Nat) : (s.setWanting q).programme j = s.programme j := rfl
@[simp] theorem mic_setWanting (q : List Nat) (j : Nat) : (s.setWanting q).mic j = s.mic j := rfl
@[simp] theorem floorOf_setWanting (q : List Nat) (j : Nat) : (s.setWanting q).floorOf j = s.floorOf j := rfl
@[simp] theorem entry_setWanting (q : List Nat) (j : Nat) : (s.setWanting q).entry j = s.entry j := rfl
@[simp] theorem port_setWanting (q : List Nat) (j : Link) : (s.setWanting q).port j = s.port j := rfl
@[simp] theorem rights_setWanting (q : List Nat) (j : Link) : (s.setWanting q).rights j = s.rights j := rfl
@[simp] theorem excluded_setWanting (q : List Nat) (j : Nat) : (s.setWanting q).excluded j = s.excluded j := rfl

/-! ## setTimer -/

@[simp] theorem record_setTimer (i : Nat) (v : Option Timer) (j : Nat) : (s.setTimer i v).record j = s.record j := rfl
@[simp] theorem scanner_setTimer (i : Nat) (v : Option Timer) (j : Nat) : (s.setTimer i v).scanner j = s.scanner j := rfl
@[simp] theorem bay_setTimer (i : Nat) (v : Option Timer) (j c : Nat) : (s.setTimer i v).bay j c = s.bay j c := rfl
@[simp] theorem channel_setTimer (i : Nat) (v : Option Timer) (j : Nat) : (s.setTimer i v).channel j = s.channel j := rfl
@[simp] theorem rackCharge_setTimer (i : Nat) (v : Option Timer) (j : Nat) : (s.setTimer i v).rackCharge j = s.rackCharge j := rfl
@[simp] theorem drive_setTimer (i : Nat) (v : Option Timer) (j c : Nat) : (s.setTimer i v).drive j c = s.drive j c := rfl
@[simp] theorem tour_setTimer (i : Nat) (v : Option Timer) (j : Nat) : (s.setTimer i v).tour j = s.tour j := rfl
@[simp] theorem programme_setTimer (i : Nat) (v : Option Timer) (j : Nat) : (s.setTimer i v).programme j = s.programme j := rfl
@[simp] theorem mic_setTimer (i : Nat) (v : Option Timer) (j : Nat) : (s.setTimer i v).mic j = s.mic j := rfl
@[simp] theorem floorOf_setTimer (i : Nat) (v : Option Timer) (j : Nat) : (s.setTimer i v).floorOf j = s.floorOf j := rfl
@[simp] theorem entry_setTimer (i : Nat) (v : Option Timer) (j : Nat) : (s.setTimer i v).entry j = s.entry j := rfl
@[simp] theorem port_setTimer (i : Nat) (v : Option Timer) (j : Link) : (s.setTimer i v).port j = s.port j := rfl
@[simp] theorem rights_setTimer (i : Nat) (v : Option Timer) (j : Link) : (s.setTimer i v).rights j = s.rights j := rfl
@[simp] theorem excluded_setTimer (i : Nat) (v : Option Timer) (j : Nat) : (s.setTimer i v).excluded j = s.excluded j := rfl

/-! ## setMic -/

@[simp] theorem record_setMic (m : Nat) (v : Mic) (j : Nat) : (s.setMic m v).record j = s.record j := rfl
@[simp] theorem scanner_setMic (m : Nat) (v : Mic) (j : Nat) : (s.setMic m v).scanner j = s.scanner j := rfl
@[simp] theorem bay_setMic (m : Nat) (v : Mic) (j c : Nat) : (s.setMic m v).bay j c = s.bay j c := rfl
@[simp] theorem channel_setMic (m : Nat) (v : Mic) (j : Nat) : (s.setMic m v).channel j = s.channel j := rfl
@[simp] theorem rackCharge_setMic (m : Nat) (v : Mic) (j : Nat) : (s.setMic m v).rackCharge j = s.rackCharge j := rfl
@[simp] theorem drive_setMic (m : Nat) (v : Mic) (j c : Nat) : (s.setMic m v).drive j c = s.drive j c := rfl
@[simp] theorem tour_setMic (m : Nat) (v : Mic) (j : Nat) : (s.setMic m v).tour j = s.tour j := rfl
@[simp] theorem programme_setMic (m : Nat) (v : Mic) (j : Nat) : (s.setMic m v).programme j = s.programme j := rfl
@[simp] theorem loan_setMic (m : Nat) (v : Mic) (j : Nat) : (s.setMic m v).loan j = s.loan j := rfl
@[simp] theorem timer_setMic (m : Nat) (v : Mic) (j : Nat) : (s.setMic m v).timer j = s.timer j := rfl
@[simp] theorem entry_setMic (m : Nat) (v : Mic) (j : Nat) : (s.setMic m v).entry j = s.entry j := rfl
@[simp] theorem port_setMic (m : Nat) (v : Mic) (j : Link) : (s.setMic m v).port j = s.port j := rfl
@[simp] theorem rights_setMic (m : Nat) (v : Mic) (j : Link) : (s.setMic m v).rights j = s.rights j := rfl
@[simp] theorem excluded_setMic (m : Nat) (v : Mic) (j : Nat) : (s.setMic m v).excluded j = s.excluded j := rfl

/-! ## setFloor -/

@[simp] theorem record_setFloor (p : Nat) (v : Floor) (j : Nat) : (s.setFloor p v).record j = s.record j := rfl
@[simp] theorem scanner_setFloor (p : Nat) (v : Floor) (j : Nat) : (s.setFloor p v).scanner j = s.scanner j := rfl
@[simp] theorem bay_setFloor (p : Nat) (v : Floor) (j c : Nat) : (s.setFloor p v).bay j c = s.bay j c := rfl
@[simp] theorem channel_setFloor (p : Nat) (v : Floor) (j : Nat) : (s.setFloor p v).channel j = s.channel j := rfl
@[simp] theorem rackCharge_setFloor (p : Nat) (v : Floor) (j : Nat) : (s.setFloor p v).rackCharge j = s.rackCharge j := rfl
@[simp] theorem drive_setFloor (p : Nat) (v : Floor) (j c : Nat) : (s.setFloor p v).drive j c = s.drive j c := rfl
@[simp] theorem tour_setFloor (p : Nat) (v : Floor) (j : Nat) : (s.setFloor p v).tour j = s.tour j := rfl
@[simp] theorem programme_setFloor (p : Nat) (v : Floor) (j : Nat) : (s.setFloor p v).programme j = s.programme j := rfl
@[simp] theorem loan_setFloor (p : Nat) (v : Floor) (j : Nat) : (s.setFloor p v).loan j = s.loan j := rfl
@[simp] theorem timer_setFloor (p : Nat) (v : Floor) (j : Nat) : (s.setFloor p v).timer j = s.timer j := rfl
@[simp] theorem entry_setFloor (p : Nat) (v : Floor) (j : Nat) : (s.setFloor p v).entry j = s.entry j := rfl
@[simp] theorem port_setFloor (p : Nat) (v : Floor) (j : Link) : (s.setFloor p v).port j = s.port j := rfl
@[simp] theorem rights_setFloor (p : Nat) (v : Floor) (j : Link) : (s.setFloor p v).rights j = s.rights j := rfl
@[simp] theorem excluded_setFloor (p : Nat) (v : Floor) (j : Nat) : (s.setFloor p v).excluded j = s.excluded j := rfl

/-! ## setUplinkQueue -/

@[simp] theorem record_setUplinkQueue (q : List Nat) (j : Nat) : (s.setUplinkQueue q).record j = s.record j := rfl
@[simp] theorem scanner_setUplinkQueue (q : List Nat) (j : Nat) : (s.setUplinkQueue q).scanner j = s.scanner j := rfl
@[simp] theorem bay_setUplinkQueue (q : List Nat) (j c : Nat) : (s.setUplinkQueue q).bay j c = s.bay j c := rfl
@[simp] theorem channel_setUplinkQueue (q : List Nat) (j : Nat) : (s.setUplinkQueue q).channel j = s.channel j := rfl
@[simp] theorem rackCharge_setUplinkQueue (q : List Nat) (j : Nat) : (s.setUplinkQueue q).rackCharge j = s.rackCharge j := rfl
@[simp] theorem drive_setUplinkQueue (q : List Nat) (j c : Nat) : (s.setUplinkQueue q).drive j c = s.drive j c := rfl
@[simp] theorem tour_setUplinkQueue (q : List Nat) (j : Nat) : (s.setUplinkQueue q).tour j = s.tour j := rfl
@[simp] theorem programme_setUplinkQueue (q : List Nat) (j : Nat) : (s.setUplinkQueue q).programme j = s.programme j := rfl
@[simp] theorem loan_setUplinkQueue (q : List Nat) (j : Nat) : (s.setUplinkQueue q).loan j = s.loan j := rfl
@[simp] theorem timer_setUplinkQueue (q : List Nat) (j : Nat) : (s.setUplinkQueue q).timer j = s.timer j := rfl
@[simp] theorem entry_setUplinkQueue (q : List Nat) (j : Nat) : (s.setUplinkQueue q).entry j = s.entry j := rfl
@[simp] theorem port_setUplinkQueue (q : List Nat) (j : Link) : (s.setUplinkQueue q).port j = s.port j := rfl
@[simp] theorem rights_setUplinkQueue (q : List Nat) (j : Link) : (s.setUplinkQueue q).rights j = s.rights j := rfl
@[simp] theorem excluded_setUplinkQueue (q : List Nat) (j : Nat) : (s.setUplinkQueue q).excluded j = s.excluded j := rfl

/-! ## setEntry -/

@[simp] theorem record_setEntry (i : Nat) (e : Entry) (j : Nat) : (s.setEntry i e).record j = s.record j := rfl
@[simp] theorem scanner_setEntry (i : Nat) (e : Entry) (j : Nat) : (s.setEntry i e).scanner j = s.scanner j := rfl
@[simp] theorem bay_setEntry (i : Nat) (e : Entry) (j c : Nat) : (s.setEntry i e).bay j c = s.bay j c := rfl
@[simp] theorem channel_setEntry (i : Nat) (e : Entry) (j : Nat) : (s.setEntry i e).channel j = s.channel j := rfl
@[simp] theorem rackCharge_setEntry (i : Nat) (e : Entry) (j : Nat) : (s.setEntry i e).rackCharge j = s.rackCharge j := rfl
@[simp] theorem drive_setEntry (i : Nat) (e : Entry) (j c : Nat) : (s.setEntry i e).drive j c = s.drive j c := rfl
@[simp] theorem tour_setEntry (i : Nat) (e : Entry) (j : Nat) : (s.setEntry i e).tour j = s.tour j := rfl
@[simp] theorem programme_setEntry (i : Nat) (e : Entry) (j : Nat) : (s.setEntry i e).programme j = s.programme j := rfl
@[simp] theorem loan_setEntry (i : Nat) (e : Entry) (j : Nat) : (s.setEntry i e).loan j = s.loan j := rfl
@[simp] theorem timer_setEntry (i : Nat) (e : Entry) (j : Nat) : (s.setEntry i e).timer j = s.timer j := rfl
@[simp] theorem mic_setEntry (i : Nat) (e : Entry) (j : Nat) : (s.setEntry i e).mic j = s.mic j := rfl
@[simp] theorem floorOf_setEntry (i : Nat) (e : Entry) (j : Nat) : (s.setEntry i e).floorOf j = s.floorOf j := rfl
@[simp] theorem port_setEntry (i : Nat) (e : Entry) (j : Link) : (s.setEntry i e).port j = s.port j := rfl
@[simp] theorem rights_setEntry (i : Nat) (e : Entry) (j : Link) : (s.setEntry i e).rights j = s.rights j := rfl
@[simp] theorem excluded_setEntry (i : Nat) (e : Entry) (j : Nat) : (s.setEntry i e).excluded j = s.excluded j := rfl

/-! ## setDownlinkQueue -/

@[simp] theorem record_setDownlinkQueue (q : List Nat) (j : Nat) : (s.setDownlinkQueue q).record j = s.record j := rfl
@[simp] theorem scanner_setDownlinkQueue (q : List Nat) (j : Nat) : (s.setDownlinkQueue q).scanner j = s.scanner j := rfl
@[simp] theorem bay_setDownlinkQueue (q : List Nat) (j c : Nat) : (s.setDownlinkQueue q).bay j c = s.bay j c := rfl
@[simp] theorem channel_setDownlinkQueue (q : List Nat) (j : Nat) : (s.setDownlinkQueue q).channel j = s.channel j := rfl
@[simp] theorem rackCharge_setDownlinkQueue (q : List Nat) (j : Nat) : (s.setDownlinkQueue q).rackCharge j = s.rackCharge j := rfl
@[simp] theorem drive_setDownlinkQueue (q : List Nat) (j c : Nat) : (s.setDownlinkQueue q).drive j c = s.drive j c := rfl
@[simp] theorem tour_setDownlinkQueue (q : List Nat) (j : Nat) : (s.setDownlinkQueue q).tour j = s.tour j := rfl
@[simp] theorem programme_setDownlinkQueue (q : List Nat) (j : Nat) : (s.setDownlinkQueue q).programme j = s.programme j := rfl
@[simp] theorem loan_setDownlinkQueue (q : List Nat) (j : Nat) : (s.setDownlinkQueue q).loan j = s.loan j := rfl
@[simp] theorem timer_setDownlinkQueue (q : List Nat) (j : Nat) : (s.setDownlinkQueue q).timer j = s.timer j := rfl
@[simp] theorem mic_setDownlinkQueue (q : List Nat) (j : Nat) : (s.setDownlinkQueue q).mic j = s.mic j := rfl
@[simp] theorem floorOf_setDownlinkQueue (q : List Nat) (j : Nat) : (s.setDownlinkQueue q).floorOf j = s.floorOf j := rfl
@[simp] theorem port_setDownlinkQueue (q : List Nat) (j : Link) : (s.setDownlinkQueue q).port j = s.port j := rfl
@[simp] theorem rights_setDownlinkQueue (q : List Nat) (j : Link) : (s.setDownlinkQueue q).rights j = s.rights j := rfl
@[simp] theorem excluded_setDownlinkQueue (q : List Nat) (j : Nat) : (s.setDownlinkQueue q).excluded j = s.excluded j := rfl

/-! ## setPort -/

@[simp] theorem record_setPort (l : Link) (v : Port) (j : Nat) : (s.setPort l v).record j = s.record j := by cases l <;> rfl
@[simp] theorem scanner_setPort (l : Link) (v : Port) (j : Nat) : (s.setPort l v).scanner j = s.scanner j := by cases l <;> rfl
@[simp] theorem bay_setPort (l : Link) (v : Port) (j c : Nat) : (s.setPort l v).bay j c = s.bay j c := by cases l <;> rfl
@[simp] theorem channel_setPort (l : Link) (v : Port) (j : Nat) : (s.setPort l v).channel j = s.channel j := by cases l <;> rfl
@[simp] theorem rackCharge_setPort (l : Link) (v : Port) (j : Nat) : (s.setPort l v).rackCharge j = s.rackCharge j := by cases l <;> rfl
@[simp] theorem drive_setPort (l : Link) (v : Port) (j c : Nat) : (s.setPort l v).drive j c = s.drive j c := by cases l <;> rfl
@[simp] theorem tour_setPort (l : Link) (v : Port) (j : Nat) : (s.setPort l v).tour j = s.tour j := by cases l <;> rfl
@[simp] theorem programme_setPort (l : Link) (v : Port) (j : Nat) : (s.setPort l v).programme j = s.programme j := by cases l <;> rfl
@[simp] theorem loan_setPort (l : Link) (v : Port) (j : Nat) : (s.setPort l v).loan j = s.loan j := by cases l <;> rfl
@[simp] theorem timer_setPort (l : Link) (v : Port) (j : Nat) : (s.setPort l v).timer j = s.timer j := by cases l <;> rfl
@[simp] theorem mic_setPort (l : Link) (v : Port) (j : Nat) : (s.setPort l v).mic j = s.mic j := by cases l <;> rfl
@[simp] theorem floorOf_setPort (l : Link) (v : Port) (j : Nat) : (s.setPort l v).floorOf j = s.floorOf j := by cases l <;> rfl
@[simp] theorem entry_setPort (l : Link) (v : Port) (j : Nat) : (s.setPort l v).entry j = s.entry j := by cases l <;> rfl
@[simp] theorem rights_setPort (l : Link) (v : Port) (j : Link) : (s.setPort l v).rights j = s.rights j := by cases l <;> rfl
@[simp] theorem excluded_setPort (l : Link) (v : Port) (j : Nat) : (s.setPort l v).excluded j = s.excluded j := by cases l <;> rfl

/-! ## post -/

@[simp] theorem record_post (n : Notice) (j : Nat) : (s.post n).record j = s.record j := rfl
@[simp] theorem scanner_post (n : Notice) (j : Nat) : (s.post n).scanner j = s.scanner j := rfl
@[simp] theorem bay_post (n : Notice) (j c : Nat) : (s.post n).bay j c = s.bay j c := rfl
@[simp] theorem channel_post (n : Notice) (j : Nat) : (s.post n).channel j = s.channel j := rfl
@[simp] theorem rackCharge_post (n : Notice) (j : Nat) : (s.post n).rackCharge j = s.rackCharge j := rfl
@[simp] theorem drive_post (n : Notice) (j c : Nat) : (s.post n).drive j c = s.drive j c := rfl
@[simp] theorem tour_post (n : Notice) (j : Nat) : (s.post n).tour j = s.tour j := rfl
@[simp] theorem programme_post (n : Notice) (j : Nat) : (s.post n).programme j = s.programme j := rfl
@[simp] theorem loan_post (n : Notice) (j : Nat) : (s.post n).loan j = s.loan j := rfl
@[simp] theorem timer_post (n : Notice) (j : Nat) : (s.post n).timer j = s.timer j := rfl
@[simp] theorem mic_post (n : Notice) (j : Nat) : (s.post n).mic j = s.mic j := rfl
@[simp] theorem floorOf_post (n : Notice) (j : Nat) : (s.post n).floorOf j = s.floorOf j := rfl
@[simp] theorem entry_post (n : Notice) (j : Nat) : (s.post n).entry j = s.entry j := rfl
@[simp] theorem rights_post (n : Notice) (j : Link) : (s.post n).rights j = s.rights j := rfl
@[simp] theorem excluded_post (n : Notice) (j : Nat) : (s.post n).excluded j = s.excluded j := rfl

/-! ## setSettings -/

@[simp] theorem record_setSettings (v : Settings) (j : Nat) : (s.setSettings v).record j = s.record j := rfl
@[simp] theorem scanner_setSettings (v : Settings) (j : Nat) : (s.setSettings v).scanner j = s.scanner j := rfl
@[simp] theorem bay_setSettings (v : Settings) (j c : Nat) : (s.setSettings v).bay j c = s.bay j c := rfl
@[simp] theorem channel_setSettings (v : Settings) (j : Nat) : (s.setSettings v).channel j = s.channel j := rfl
@[simp] theorem rackCharge_setSettings (v : Settings) (j : Nat) : (s.setSettings v).rackCharge j = s.rackCharge j := rfl
@[simp] theorem drive_setSettings (v : Settings) (j c : Nat) : (s.setSettings v).drive j c = s.drive j c := rfl
@[simp] theorem tour_setSettings (v : Settings) (j : Nat) : (s.setSettings v).tour j = s.tour j := rfl
@[simp] theorem programme_setSettings (v : Settings) (j : Nat) : (s.setSettings v).programme j = s.programme j := rfl
@[simp] theorem loan_setSettings (v : Settings) (j : Nat) : (s.setSettings v).loan j = s.loan j := rfl
@[simp] theorem timer_setSettings (v : Settings) (j : Nat) : (s.setSettings v).timer j = s.timer j := rfl
@[simp] theorem mic_setSettings (v : Settings) (j : Nat) : (s.setSettings v).mic j = s.mic j := rfl
@[simp] theorem floorOf_setSettings (v : Settings) (j : Nat) : (s.setSettings v).floorOf j = s.floorOf j := rfl
@[simp] theorem entry_setSettings (v : Settings) (j : Nat) : (s.setSettings v).entry j = s.entry j := rfl
@[simp] theorem port_setSettings (v : Settings) (j : Link) : (s.setSettings v).port j = s.port j := rfl
@[simp] theorem rights_setSettings (v : Settings) (j : Link) : (s.setSettings v).rights j = s.rights j := rfl
@[simp] theorem excluded_setSettings (v : Settings) (j : Nat) : (s.setSettings v).excluded j = s.excluded j := rfl

/-! ## Within a block -/

@[simp] theorem entry_setDownlinkQueue (q : List Nat) (j : Nat) : (s.setDownlinkQueue q).entry j = s.entry j := rfl
@[simp] theorem downlinkQueue_setDownlinkQueue (q : List Nat) : (s.setDownlinkQueue q).air.downlinkQueue = q := rfl
@[simp] theorem downlinkQueue_setEntry (i : Nat) (e : Entry) : (s.setEntry i e).air.downlinkQueue = s.air.downlinkQueue := rfl
@[simp] theorem drive_setRackCharge (r : Nat) (v : RackCharge) (q b : Nat) :
    (s.setRackCharge r v).drive q b = if r = q then Table.read (fun _ => resetDrive) v.drives b else s.drive q b := by
  unfold State.drive; rw [rackCharge_setRackCharge]; split <;> rfl
@[simp] theorem uplinkQueue_setEntry (i : Nat) (e : Entry) : (s.setEntry i e).floor.uplinkQueue = s.floor.uplinkQueue := rfl

end Sys2Proof.Machine
end

