-- ==== Sys2Proof/Laws/Answers.lean ====
section
/-! SUPPORT. How a request comes to its answer: the access check that passes, the record or loan it names, the response it
leaves. -/

namespace Sys2Proof.Machine

variable (s : State)

theorem event_of_running (t : State) (h : s.resetHeld = false) : s.event t = .next t := by simp [State.event, h]

/-- A timer's event on a running part: its effect once the timer has run its length, nothing before. -/
theorem timed_of_due {due : Bool} (t : State) (h : s.resetHeld = false) (hd : due = true) : s.timed due t = .next t := by
  subst hd; exact event_of_running s t h

theorem timed_of_short {due : Bool} (t : State) (hd : due = false) : s.timed due t = .next s := by
  subst hd; simp [State.timed, State.event]

theorem respond_ok (l : Link) (t : State) (b : List Byte) : State.respond l (t.ok b) = t.answered l .ok b := rfl

theorem respond_no (l : Link) (e : Status) : State.respond l (s.no e) = s.answered l e [] := rfl

/-! ## A request that is heard, and one that is not (R172, R186, R187) -/

theorem hears_iff (l : Link) : s.hears l = true ↔ s.Hears l := by
  unfold State.hears Port.hears State.Hears
  cases s.resetHeld <;> cases (s.port l).select <;> simp

theorem serve_of_heard (l : Link) (a : Answer) (h : s.Hears l) : s.serve l a = .next (State.respond l a) := by
  unfold State.serve
  rw [if_pos ((hears_iff s l).mpr h)]

theorem serve_of_unheard (l : Link) (a : Answer) (h : ¬s.Hears l) : s.serve l a = .next (s.passOver l true) := by
  unfold State.serve
  rw [if_neg (fun k => h ((hears_iff s l).mp k))]

theorem serveRead_of_right (l : Link) (g : Group) (a : Answer) (h : s.Hears l) (hr : s.mayRead l g = true) :
    s.serveRead l g a = .next (State.respond l a) := by
  unfold State.serveRead
  rw [if_pos hr, serve_of_heard s l a h]

theorem serveWrite_of_right (l : Link) (g : Group) (a : Answer) (h : s.Hears l) (hr : s.mayWrite l g = true) :
    s.serveWrite l g a = .next (State.respond l a) := by
  unfold State.serveWrite
  rw [if_pos hr, serve_of_heard s l a h]

theorem serveRead_of_none (l : Link) (g : Group) (a : Answer) (h : s.Hears l) (hr : s.mayRead l g = false) :
    s.serveRead l g a = .next (s.answered l .denied []) := by
  unfold State.serveRead
  rw [hr, serve_of_heard s l _ h]
  rfl

theorem serveWrite_of_none (l : Link) (g : Group) (a : Answer) (h : s.Hears l) (hr : s.mayWrite l g = false) :
    s.serveWrite l g a = .next (s.answered l .denied []) := by
  unfold State.serveWrite
  rw [hr, serve_of_heard s l _ h]
  rfl

/-! ## The record a receiver ID names -/

theorem mem_recordIndices_of_record {i : Nat} {x : Record} (h : s.record i = some x) : i ∈ s.recordIndices := by
  refine Classical.byContradiction fun hn => ?_
  have := Table.read_of_notMem_keys (fun _ => (none : Option Record)) s.fleet.records i hn
  unfold State.record at h
  rw [this] at h
  cases h

theorem indexOfRid_eq_none (rid : Nat) : s.indexOfRid rid = none ↔ ∀ i x, s.record i = some x → x.rid ≠ rid := by
  unfold State.indexOfRid
  rw [List.find?_eq_none]
  constructor
  · intro h i x hx hr
    have := h i (mem_recordIndices_of_record s hx)
    simp [hx, hr] at this
  · intro h i _
    cases hx : s.record i with
    | none => simp
    | some x => simpa [hx] using h i x hx

theorem indexOfRid_eq_some (hu : s.RidsUnique) {i : Nat} {x : Record} (hx : s.record i = some x) :
    s.indexOfRid x.rid = some i := by
  cases h : s.indexOfRid x.rid with
  | none => exact absurd rfl ((indexOfRid_eq_none s x.rid).mp h i x hx)
  | some j =>
    have hj := List.find?_some h
    cases hy : s.record j with
    | none => simp [hy] at hj
    | some y =>
      simp only [hy, beq_iff_eq] at hj
      rw [hu.unique j i y x hy hx hj]

theorem byRid_zero (f : Nat → Record → Answer) : s.byRid 0 f = s.no .badRequest := rfl

theorem byRid_unknown (rid : Nat) (f : Nat → Record → Answer) (h0 : rid ≠ 0)
    (h : ∀ i x, s.record i = some x → x.rid ≠ rid) : s.byRid rid f = s.no .notFound := by
  unfold State.byRid
  rw [if_neg h0, (indexOfRid_eq_none s rid).mpr h]

theorem byRid_known (hu : s.RidsUnique) {i : Nat} {x : Record} (hx : s.record i = some x) (f : Nat → Record → Answer) :
    s.byRid x.rid f = f i x := by
  unfold State.byRid
  rw [if_neg (hu.nonzero i x hx), indexOfRid_eq_some s hu hx]
  simp only [hx]

/-! ## The loan an ID names -/

theorem byLoan_bad (id : Nat) (f : Loan → Answer) (h : id = 0 ∨ 128 < id) : s.byLoan id f = s.no .badRequest := by
  unfold State.byLoan
  rw [if_pos h]

theorem byLoan_free (id : Nat) (f : Loan → Answer) (h1 : 1 ≤ id) (h2 : id ≤ 128) (h : s.loan id = none) :
    s.byLoan id f = s.no .notFound := by
  unfold State.byLoan
  rw [if_neg (by omega), h]

theorem byLoan_held (id : Nat) (f : Loan → Answer) (h1 : 1 ≤ id) (h2 : id ≤ 128) {x : Loan} (h : s.loan id = some x) :
    s.byLoan id f = f x := by
  unfold State.byLoan
  rw [if_neg (by omega), h]

/-! ## A response touches nothing but its link's port -/

@[simp] theorem record_answered (l : Link) (e : Status) (b : List Byte) (i : Nat) :
    (s.answered l e b).record i = s.record i := by cases l <;> rfl

theorem responseOf_answered (l : Link) (e : Status) (b : List Byte) :
    (s.answered l e b).responseOf l = some { status := e, results := b } := by cases l <;> rfl

end Sys2Proof.Machine
end

