-- ==== Sys2Proof/Laws/Frames.lean ====
section
/-! SUPPORT. What each shared operation of the part leaves as it was: one frame per operation, by the parts of `Part`. -/

namespace Sys2Proof.Machine

/-! ## Frames compose -/

theorem State.agrees.refl (s : State) (p : Part) : s.agrees s p := by cases p <;> first | rfl | exact ⟨rfl, rfl⟩

theorem State.agrees.trans {s t u : State} {p : Part} (h : s.agrees t p) (k : t.agrees u p) : s.agrees u p := by
  cases p <;> first | exact Eq.trans k h | exact ⟨k.1.trans h.1, k.2.trans h.2⟩

theorem State.ChangesOnly.refl (s : State) (l : List Part) : s.ChangesOnly s l := fun p _ => .refl s p

theorem State.ChangesOnly.trans {s t u : State} {l : List Part} (h : s.ChangesOnly t l) (k : t.ChangesOnly u l) :
    s.ChangesOnly u l := fun p hp => (h p hp).trans (k p hp)

theorem State.ChangesOnly.mono {s t : State} {l m : List Part} (h : s.ChangesOnly t l) (k : l ⊆ m) : s.ChangesOnly t m :=
  fun p hp => h p fun hl => hp (k hl)

theorem State.ChangesOnly.foldl {α : Type} {l : List Part} (f : State → α → State) (h : ∀ (t : State) (a : α), t.ChangesOnly (f t a) l)
    (as : List α) (s : State) : s.ChangesOnly (as.foldl f s) l := by
  induction as generalizing s with
  | nil => exact .refl s l
  | cons a as ih => exact (h s a).trans (ih (f s a))

theorem State.ChangesOnly.ite {s t u : State} {l : List Part} (c : Prop) [Decidable c] (ht : s.ChangesOnly t l)
    (hu : s.ChangesOnly u l) : s.ChangesOnly (if c then t else u) l := by
  split
  · exact ht
  · exact hu

/-! ## The named writes -/

section
variable (s : State)

theorem frame_setRecord (i : Nat) (v : Option Record) : s.ChangesOnly (s.setRecord i v) [.records] := by
  intro p hp; cases p <;> first | rfl | exact ⟨rfl, rfl⟩ | exact absurd (by decide) hp

theorem frame_setScanner (r : Nat) (v : Scanner) : s.ChangesOnly (s.setScanner r v) [.scan] := by
  intro p hp; cases p <;> first | rfl | exact ⟨rfl, rfl⟩ | exact absurd (by decide) hp

theorem frame_setBay (r b : Nat) (v : Bay) : s.ChangesOnly (s.setBay r b v) [.scan] := by
  intro p hp; cases p <;> first | rfl | exact ⟨rfl, rfl⟩ | exact absurd (by decide) hp

theorem frame_setChannel (r : Nat) (v : Channel) : s.ChangesOnly (s.setChannel r v) [.chan] := by
  intro p hp; cases p <;> first | rfl | exact ⟨rfl, rfl⟩ | exact absurd (by decide) hp

theorem frame_setRackCharge (r : Nat) (v : RackCharge) : s.ChangesOnly (s.setRackCharge r v) [.charge] := by
  intro p hp; cases p <;> first | rfl | exact ⟨rfl, rfl⟩ | exact absurd (by decide) hp

theorem frame_setDrive (r b : Nat) (v : Drive) : s.ChangesOnly (s.setDrive r b v) [.charge] := by
  intro p hp; cases p <;> first | rfl | exact ⟨rfl, rfl⟩ | exact absurd (by decide) hp

theorem frame_setTour (t : Nat) (v : Tour) : s.ChangesOnly (s.setTour t v) [.tours] := by
  intro p hp; cases p <;> first | rfl | exact ⟨rfl, rfl⟩ | exact absurd (by decide) hp

theorem frame_setProgramme (p : Nat) (v : Programme) : s.ChangesOnly (s.setProgramme p v) [.tours] := by
  intro p hp; cases p <;> first | rfl | exact ⟨rfl, rfl⟩ | exact absurd (by decide) hp

theorem frame_setLoan (i : Nat) (v : Option Loan) : s.ChangesOnly (s.setLoan i v) [.loans] := by
  intro p hp; cases p <;> first | rfl | exact ⟨rfl, rfl⟩ | exact absurd (by decide) hp

theorem frame_setWanting (q : List Nat) : s.ChangesOnly (s.setWanting q) [.loans] := by
  intro p hp; cases p <;> first | rfl | exact ⟨rfl, rfl⟩ | exact absurd (by decide) hp

theorem frame_setTimer (i : Nat) (v : Option Timer) : s.ChangesOnly (s.setTimer i v) [.loans] := by
  intro p hp; cases p <;> first | rfl | exact ⟨rfl, rfl⟩ | exact absurd (by decide) hp

theorem frame_setMic (m : Nat) (v : Mic) : s.ChangesOnly (s.setMic m v) [.floor] := by
  intro p hp; cases p <;> first | rfl | exact ⟨rfl, rfl⟩ | exact absurd (by decide) hp

theorem frame_setFloor (p : Nat) (v : Floor) : s.ChangesOnly (s.setFloor p v) [.floor] := by
  intro p hp; cases p <;> first | rfl | exact ⟨rfl, rfl⟩ | exact absurd (by decide) hp

theorem frame_setUplinkQueue (q : List Nat) : s.ChangesOnly (s.setUplinkQueue q) [.floor] := by
  intro p hp; cases p <;> first | rfl | exact ⟨rfl, rfl⟩ | exact absurd (by decide) hp

theorem frame_setEntry (i : Nat) (e : Entry) : s.ChangesOnly (s.setEntry i e) [.air] := by
  intro p hp; cases p <;> first | rfl | exact ⟨rfl, rfl⟩ | exact absurd (by decide) hp

theorem frame_setDownlinkQueue (q : List Nat) : s.ChangesOnly (s.setDownlinkQueue q) [.air] := by
  intro p hp; cases p <;> first | rfl | exact ⟨rfl, rfl⟩ | exact absurd (by decide) hp

theorem frame_post (n : Notice) : s.ChangesOnly (s.post n) [.ports] := by
  intro p hp; cases p <;> first | rfl | exact ⟨rfl, rfl⟩ | exact absurd (by decide) hp

theorem frame_setSettings (v : Settings) : s.ChangesOnly (s.setSettings v) [.settings] := by
  intro p hp; cases p <;> first | rfl | exact ⟨rfl, rfl⟩ | exact absurd (by decide) hp

theorem frame_setSplit (n : Nat) : s.ChangesOnly (s.setSplit n) [.air] := by
  intro p hp; cases p <;> first | rfl | exact ⟨rfl, rfl⟩ | exact absurd (by decide) hp

theorem frame_setPort (l : Link) (v : Port) : s.ChangesOnly (s.setPort l v) [.ports] := by
  intro p hp; cases l <;> cases p <;> first | rfl | exact ⟨rfl, rfl⟩ | exact absurd (by decide) hp

theorem frame_answered (l : Link) (st : Status) (b : List Byte) : s.ChangesOnly (s.answered l st b) [.ports] :=
  frame_setPort s l _

theorem frame_modRecord (i : Nat) (f : Record → Record) : s.ChangesOnly (s.modRecord i f) [.records] := by
  unfold State.modRecord
  split
  · exact .refl s _
  · exact frame_setRecord s i _

theorem frame_modLoan (i : Nat) (f : Loan → Loan) : s.ChangesOnly (s.modLoan i f) [.loans] := by
  unfold State.modLoan
  split
  · exact .refl s _
  · exact frame_setLoan s i _

/-! ## Racks -/

/-- A rack woken is HOT with quiet time 0, and the other racks are as they were (R34, R35). -/
theorem scanner_wake (r : Nat) : ((s.wake r).scanner r).cadence = .hot ∧ ((s.wake r).scanner r).quiet = 0 ∧
    ∀ k, k ≠ r → (s.wake r).scanner k = s.scanner k := by
  unfold State.wake
  dsimp only
  refine ⟨?_, ?_, fun k h => ?_⟩
  · rw [scanner_setScanner, if_pos rfl]; split <;> rfl
  · rw [scanner_setScanner, if_pos rfl]; split <;> rfl
  · rw [scanner_setScanner, if_neg (Ne.symm h)]

theorem frame_wake (r : Nat) : s.ChangesOnly (s.wake r) [.scan] := frame_setScanner s r _

theorem frame_moveBay (r b : Nat) (dest : BayState) : s.ChangesOnly (s.moveBay r b dest) [.scan] :=
  (frame_setBay s r b _).trans (frame_wake _ r)

theorem frame_setLatch (r b : Nat) (o : Bool) : s.ChangesOnly (s.setLatch r b o) [.scan] := frame_setBay s r b _

theorem frame_closeLatchOf (i : Nat) : s.ChangesOnly (s.closeLatchOf i) [.scan] := by
  unfold State.closeLatchOf
  split
  · exact frame_setLatch s _ _ _
  · exact .refl s _

theorem frame_enqueue (r : Nat) (q : Req) : s.ChangesOnly (s.enqueue r q) [.chan] := frame_setChannel s r _

theorem frame_ask (r b : Nat) (k : Kind) (i l : Option Nat) : s.ChangesOnly (s.ask r b k i l) [.scan, .chan] :=
  ((frame_enqueue s r _).mono (by decide)).trans ((frame_wake _ r).mono (by decide))

theorem frame_removeQueued (r b : Nat) : s.ChangesOnly (s.removeQueued r b) [.chan] := frame_setChannel s r _

theorem frame_removeQueuedOf (i : Nat) : s.ChangesOnly (s.removeQueuedOf i) [.chan] := by
  unfold State.removeQueuedOf
  split
  · exact frame_removeQueued s _ _
  · exact .refl s _

theorem frame_askReadUsage (i : Nat) : s.ChangesOnly (s.askReadUsage i) [.scan, .chan] := by
  unfold State.askReadUsage
  split
  · exact frame_ask s _ _ _ _ _
  · exact .refl s _

theorem frame_askProgram (i : Nat) : s.ChangesOnly (s.askProgram i) [.scan, .chan] := by
  unfold State.askProgram
  split
  · exact .refl s _
  · split
    · exact .refl s _
    · exact .ite _ (.refl s _) (((frame_removeQueued s _ _).mono (by decide)).trans (frame_ask _ _ _ _ _ _))

theorem frame_flagWithdraw (i : Nat) : s.ChangesOnly (s.flagWithdraw i) [.chan] := by
  unfold State.flagWithdraw
  split
  · exact .refl s _
  · split
    · exact .refl s _
    · exact frame_setChannel s _ _

theorem frame_setHolder (r : Nat) (h : Holder) : s.ChangesOnly (s.setHolder r h) [.scan] := frame_setScanner s r _

theorem frame_beginAttempt (r : Nat) : s.ChangesOnly (s.beginAttempt r) [.records, .scan, .chan] := by
  unfold State.beginAttempt
  dsimp only
  split
  · exact .refl s _
  · split
    · exact (((frame_setChannel s r _).mono (by decide)).trans ((frame_setHolder _ r _).mono (by decide))).trans
        ((frame_modRecord _ _ _).mono (by decide))
    · exact ((frame_setChannel s r _).mono (by decide)).trans ((frame_setHolder _ r _).mono (by decide))

theorem frame_sealStamp (r : Nat) : s.ChangesOnly (s.sealStamp r) [.chan] :=
  .ite _ (frame_setChannel s r _) (.refl s _)

theorem frame_handOver (r : Nat) : s.ChangesOnly (s.handOver r) [.records, .scan, .chan] := by
  have h := (frame_sealStamp s r).mono (m := [.records, .scan, .chan]) (by decide)
  exact .ite _ (.ite _ (.ite _ (h.trans ((frame_setHolder _ r _).mono (by decide))) h) (h.trans (frame_beginAttempt _ r))) h

theorem frame_endAttempt (r : Nat) : s.ChangesOnly (s.endAttempt r) [.scan, .chan] :=
  ((frame_setChannel s r _).mono (by decide)).trans ((frame_setHolder _ r _).mono (by decide))

theorem frame_failAttempt (r : Nat) : s.ChangesOnly (s.failAttempt r) [.chan] := frame_setChannel s r _

theorem frame_requeue (r : Nat) (q : Req) : s.ChangesOnly (s.requeue r q) [.records, .chan] := by
  unfold State.requeue
  split
  · exact ((frame_enqueue s r _).mono (by decide)).trans ((frame_modRecord _ _ _).mono (by decide))
  · exact (frame_enqueue s r _).mono (by decide)

/-! ## Downlink slots -/

theorem frame_takeDownlink (p i : Nat) : s.ChangesOnly (s.takeDownlink p i) [.air] := frame_setEntry s i _

theorem frame_needDownlink (p : Nat) : s.ChangesOnly (s.needDownlink p) [.air, .ports] := by
  unfold State.needDownlink
  split
  · exact (frame_takeDownlink s p _).mono (by decide)
  · exact ((frame_setDownlinkQueue s _).mono (by decide)).trans ((frame_post _ _).mono (by decide))

theorem frame_handOnDownlink (i : Nat) : s.ChangesOnly (s.handOnDownlink i) [.air] := by
  unfold State.handOnDownlink
  split
  · exact frame_setEntry s i _
  · exact (frame_setDownlinkQueue s _).trans (frame_takeDownlink _ _ _)

theorem frame_dropDownlink (p : Nat) : s.ChangesOnly (s.dropDownlink p) [.air] := by
  unfold State.dropDownlink
  split
  · exact frame_handOnDownlink s _
  · exact frame_setDownlinkQueue s _

theorem frame_gainListener (p : Nat) : s.ChangesOnly (s.gainListener p) [.tours, .air, .ports] := by
  have h := (frame_setProgramme s p { s.programme p with listeners := (s.programme p).listeners + 1 }).mono
    (m := [.tours, .air, .ports]) (by decide)
  exact .ite _ (h.trans ((frame_needDownlink _ p).mono (by decide))) h

theorem frame_loseListener (p : Nat) : s.ChangesOnly (s.loseListener p) [.tours, .air] := by
  have h := (frame_setProgramme s p { s.programme p with listeners := (s.programme p).listeners - 1 }).mono
    (m := [.tours, .air]) (by decide)
  exact .ite _ (h.trans ((frame_dropDownlink _ p).mono (by decide))) h

theorem frame_syncPlan : s.ChangesOnly s.syncPlan [.air] := .foldl _ (fun t i => frame_setEntry t i _) _ s

/-! ## Floors -/

theorem frame_holdTop (p : Nat) : s.ChangesOnly (s.holdTop p) [.floor] := by
  unfold State.holdTop
  split
  · exact frame_setMic s _ _
  · exact .refl s _

theorem frame_wakeTop (p : Nat) : s.ChangesOnly (s.wakeTop p) [.floor] := by
  unfold State.wakeTop
  split
  · exact .ite _ (.refl s _) (frame_setMic s _ _)
  · exact .refl s _

theorem frame_pushHead (p m : Nat) : s.ChangesOnly (s.pushHead p m) [.floor] :=
  ((frame_holdTop s p).trans (frame_setFloor _ p _)).trans (frame_setMic _ m _)

theorem frame_leaveUplinkQueue (p : Nat) : s.ChangesOnly (s.leaveUplinkQueue p) [.floor] := frame_setUplinkQueue s _

theorem frame_pushCascade (p : Nat) : s.ChangesOnly (s.pushCascade p) [.floor] := by
  unfold State.pushCascade
  dsimp only
  split
  · exact .refl s _
  · exact ((frame_holdTop s p).trans (frame_setFloor _ p _)).trans (frame_leaveUplinkQueue _ p)

theorem frame_pushCascades : s.ChangesOnly s.pushCascades [.floor] :=
  .foldl _ (fun t p => .ite _ (frame_pushCascade t p) (.refl t _)) _ s

theorem frame_grantSlot (p m i : Nat) : s.ChangesOnly (s.grantSlot p m i) [.floor, .air] := by
  have h : s.ChangesOnly (((s.setEntry i (.up p m)).pushHead p m).leaveUplinkQueue p) [.floor, .air] :=
    (((frame_setEntry s i _).mono (by decide)).trans ((frame_pushHead _ p m).mono (by decide))).trans
      ((frame_leaveUplinkQueue _ p).mono (by decide))
  exact .ite _ (h.trans ((frame_pushCascades _).mono (by decide))) h

theorem frame_reevaluate (p : Nat) : s.ChangesOnly (s.reevaluate p) [.floor, .air] := by
  unfold State.reevaluate
  split
  · exact (frame_leaveUplinkQueue s p).mono (by decide)
  · refine .ite _ ((frame_pushHead s p _).mono (by decide)) ?_
    split
    · exact frame_grantSlot s p _ _
    · exact .ite _ (.refl s _) ((frame_setUplinkQueue s _).mono (by decide))

theorem frame_serveUplink (n : Nat) : ∀ s : State, s.ChangesOnly (serveUplink n s) [.floor, .air] := by
  induction n with
  | zero => exact fun s => .refl s _
  | succ n ih =>
    intro s
    unfold serveUplink
    split
    · exact .refl s _
    · exact .ite _ ((((frame_setUplinkQueue s _).mono (by decide)).trans (frame_reevaluate _ _)).trans (ih _)) (.refl s _)

theorem frame_offerUplink : s.ChangesOnly s.offerUplink [.floor, .air] := frame_serveUplink _ s

theorem frame_freeIfSilent (p : Nat) : s.ChangesOnly (s.freeIfSilent p) [.floor, .air] := by
  unfold State.freeIfSilent
  refine .ite _ (.refl s _) ?_
  split
  · exact ((frame_setEntry s _ _).mono (by decide)).trans (frame_offerUplink _)
  · exact .refl s _

theorem frame_dropCascade (p : Nat) : s.ChangesOnly (s.dropCascade p) [.floor, .air] :=
  .ite _ ((((frame_setFloor s p _).mono (by decide)).trans ((frame_wakeTop _ p).mono (by decide))).trans
    (frame_reevaluate _ p)) (.refl s _)

theorem frame_dropCascadesIfSilent : s.ChangesOnly s.dropCascadesIfSilent [.floor, .air] :=
  .ite _ (.refl s _) (.foldl _ (fun t p => frame_dropCascade t p) _ s)

theorem frame_settleOwnFloor (p : Nat) : s.ChangesOnly (s.settleOwnFloor p) [.floor, .air] :=
  (((frame_wakeTop s p).mono (by decide)).trans (frame_freeIfSilent _ p)).trans (frame_reevaluate _ p)

theorem frame_settleFloor (p : Nat) : s.ChangesOnly (s.settleFloor p) [.floor, .air] :=
  .ite _ ((frame_settleOwnFloor s p).trans (frame_dropCascadesIfSilent _)) (frame_settleOwnFloor s p)

theorem frame_removeMic (p m : Nat) : s.ChangesOnly (s.removeMic p m) [.floor] :=
  (frame_setFloor s p _).trans (frame_setMic _ m _)

theorem frame_cutTop (p m : Nat) : s.ChangesOnly (s.cutTop p m) [.floor, .air] :=
  ((frame_removeMic s p m).mono (by decide)).trans (frame_settleFloor _ p)

theorem frame_endStaleTurn {settle : State → Nat → State} (h : ∀ t p, State.ChangesOnly t (settle t p) [.floor, .air])
    (m : Nat) : s.ChangesOnly (s.endStaleTurn settle m) [.floor, .air, .ports] := by
  unfold State.endStaleTurn
  refine .ite _ ?_ (.refl s _)
  split
  · exact ((((frame_removeMic s _ m).mono (by decide)).trans (h _ _)).mono (by decide)).trans
      ((frame_post _ _).mono (by decide))
  · exact .refl s _

theorem frame_expireKeepAlive (m : Nat) : s.ChangesOnly (s.expireKeepAlive m) [.floor, .air, .ports] :=
  frame_endStaleTurn s frame_settleFloor m

theorem frame_expireAmong (m : Nat) : s.ChangesOnly (s.expireAmong m) [.floor, .air, .ports] :=
  frame_endStaleTurn s frame_settleOwnFloor m

theorem frame_unbindTourMics (ps : List Nat) : s.ChangesOnly (s.unbindTourMics ps) [.floor] := by
  refine .foldl _ (fun t m => ?_) _ s
  split
  · exact .ite _ ((frame_removeMic t _ m).trans (frame_setMic _ m _)) (.refl t _)
  · exact .refl t _

theorem frame_settleClosing (p : Nat) : s.ChangesOnly (s.settleClosing p) [.floor, .air] := by
  unfold State.settleClosing
  dsimp only
  have h (v : Floor) : s.ChangesOnly ((s.setFloor p v).leaveUplinkQueue p) [.floor, .air] :=
    ((frame_setFloor s p v).trans (frame_leaveUplinkQueue _ p)).mono (by decide)
  split
  · exact ((h _).trans ((frame_setEntry _ _ _).mono (by decide))).trans (frame_offerUplink _)
  · exact h _

theorem frame_closeFloors (ps : List Nat) : s.ChangesOnly (s.closeFloors ps) [.floor, .air] :=
  ((frame_unbindTourMics s ps).mono (by decide)).trans (.foldl _ (fun t p => frame_settleClosing t p) _ _)

theorem frame_leaveUse (p : Nat) : s.ChangesOnly (s.leaveUse p) [.draws, .tours, .floor] := by
  have h : s.ChangesOnly s.draw.2 [.draws, .tours, .floor] := by
    intro q hq; cases q <;> first | rfl | exact ⟨rfl, rfl⟩ | exact absurd (by decide) hq
  exact ((h.trans ((frame_setProgramme _ p _).mono (by decide))).trans ((frame_setFloor _ p _).mono (by decide))).trans
    ((frame_leaveUplinkQueue _ p).mono (by decide))

theorem frame_postFloorChanges (before : State) : s.ChangesOnly (State.postFloorChanges before s) [.ports] :=
  .foldl _ (fun t _ => .ite _ (.refl t _) (frame_post t _)) _ s

theorem frame_finishFloors (before : State) : s.ChangesOnly (State.finishFloors before s) [.air, .ports] :=
  ((frame_syncPlan s).mono (by decide)).trans ((frame_postFloorChanges _ before).mono (by decide))

/-! ## Loans -/

theorem frame_testReadiness (i : Nat) : s.ChangesOnly (s.testReadiness i) [.records] := frame_modRecord s i _

theorem frame_joinLoan (id i : Nat) : s.ChangesOnly (s.joinLoan id i) [.records, .loans, .scan, .chan, .ports] := by
  unfold State.joinLoan
  split
  · exact .refl s _
  · dsimp only
    have h (f : Record → Record) (v : Option Loan) :
        s.ChangesOnly (((s.modRecord i f).setLoan id v).askProgram i) [.records, .loans, .scan, .chan, .ports] :=
      (((frame_modRecord s i f).mono (by decide)).trans ((frame_setLoan _ id v).mono (by decide))).trans
        ((frame_askProgram _ i).mono (by decide))
    exact .ite _ (((h _ _).trans ((frame_setWanting _ _).mono (by decide))).trans ((frame_post _ _).mono (by decide)))
      (h _ _)

theorem frame_select (id k : Nat) : s.ChangesOnly (s.select id k) [.records, .loans, .scan, .chan, .ports] := by
  unfold State.select
  split
  · exact .refl s _
  · exact .foldl _ (fun t i => frame_joinLoan t id i) _ s

theorem frame_offer (i : Nat) : s.ChangesOnly (s.offer i) [.records, .loans, .scan, .chan, .ports] := by
  unfold State.offer
  split
  · exact frame_joinLoan s _ i
  · exact .refl s _

theorem frame_enterWanting (id : Nat) : s.ChangesOnly (s.enterWanting id) [.loans, .ports] := by
  unfold State.enterWanting
  split
  · exact .refl s _
  · exact .ite _ (((frame_setWanting s _).mono (by decide)).trans ((frame_post _ _).mono (by decide))) (.refl s _)

theorem frame_fill (id : Nat) : s.ChangesOnly (s.fill id) [.records, .loans, .scan, .chan, .ports] := by
  unfold State.fill
  split
  · exact .refl s _
  · exact (frame_select s id _).trans ((frame_enterWanting _ id).mono (by decide))

theorem frame_leaveLoan (i : Nat) (dest : RecState) (t : Term) :
    s.ChangesOnly (s.leaveLoan i dest t) [.records, .loans, .tours, .scan, .air] := by
  unfold State.leaveLoan
  split
  · exact .refl s _
  · rename_i x _
    dsimp only
    have h1 : s.ChangesOnly (if x.state = .released then (s.setTimer i none).closeLatchOf i else s)
        [.records, .loans, .tours, .scan, .air] :=
      .ite _ (((frame_setTimer s i none).mono (by decide)).trans ((frame_closeLatchOf _ i).mono (by decide))) (.refl s _)
    have h2 (y : Option Record) := h1.trans ((frame_setRecord _ i y).mono (m := [.records, .loans, .tours, .scan, .air])
      (by decide))
    split
    · split <;> split
      · exact ((h2 _).trans ((frame_modLoan _ _ _).mono (by decide))).trans ((frame_loseListener _ _).mono (by decide))
      · exact (h2 _).trans ((frame_loseListener _ _).mono (by decide))
      · exact (h2 _).trans ((frame_modLoan _ _ _).mono (by decide))
      · exact h2 _
    · split
      · exact (h2 _).trans ((frame_modLoan _ _ _).mono (by decide))
      · exact h2 _

theorem frame_withdraw (i : Nat) : s.ChangesOnly (s.withdraw i) [.records, .loans, .tours, .scan, .air] := by
  unfold State.withdraw
  split
  · exact .refl s _
  · exact frame_leaveLoan s i _ _

theorem frame_loseBeforeHandout (i : Nat) (dest : RecState) :
    s.ChangesOnly (s.loseBeforeHandout i dest) [.records, .loans, .tours, .scan, .chan, .air, .ports] := by
  have h (e : Term) := (frame_leaveLoan s i dest e).mono (m := [.records, .loans, .tours, .scan, .chan, .air, .ports])
    (by decide)
  unfold State.loseBeforeHandout
  split
  · exact h _
  · split
    · exact .ite _ ((h _).trans ((frame_fill _ _).mono (by decide))) (h _)
    · exact h _

theorem frame_closeLoan (id : Nat) : s.ChangesOnly (s.closeLoan id) [.loans, .ports] := by
  unfold State.closeLoan
  split
  · exact .refl s _
  · exact .ite _ (((frame_setLoan s id none).mono (by decide)).trans ((frame_post _ _).mono (by decide))) (.refl s _)

theorem frame_freeTour (t : Nat) : s.ChangesOnly (s.freeTour t) [.draws, .tours, .floor, .ports] :=
  ((State.ChangesOnly.foldl _ (fun u p => (frame_leaveUse u p).mono (by decide)) _ s).trans
    ((frame_setTour _ t _).mono (by decide))).trans ((frame_post _ _).mono (by decide))

theorem frame_testTour (t : Nat) : s.ChangesOnly (s.testTour t) [.draws, .tours, .floor, .ports] :=
  .ite _ (frame_freeTour s t) (.refl s _)

theorem frame_testLoan (id : Nat) : s.ChangesOnly (s.testLoan id) [.draws, .loans, .tours, .floor, .ports] := by
  unfold State.testLoan
  split
  · exact .refl s _
  · exact ((frame_closeLoan s id).mono (by decide)).trans ((frame_testTour _ _).mono (by decide))

theorem frame_testReserve : s.ChangesOnly s.testReserve [.ranges] := by
  unfold State.testReserve
  split
  · exact .refl s _
  · split
    · intro p hp; cases p <;> first | rfl | exact absurd (by decide) hp
    · exact .refl s _

theorem frame_settle (before : State) (l o : List Nat) :
    s.ChangesOnly (State.settle before s l o)
      [.draws, .records, .ranges, .scan, .chan, .loans, .tours, .floor, .ports] := by
  refine (((State.ChangesOnly.foldl _ (fun t id => (frame_testLoan t id).mono (by decide)) l s).trans
    ((frame_testReserve _).mono (by decide))).trans
    (.foldl _ (fun t i => (frame_offer t i).mono (by decide)) o _)).trans ?_
  exact .foldl _ (fun t i => (frame_offer t i).mono (by decide)) _ _

/-! ## The end of an event -/

theorem frame_stageBays (r : Nat) (give : Nat → Nat) (bs : List Nat) : s.ChangesOnly (s.stageBays r give bs) [.charge] :=
  .foldl _ (fun u b => frame_setDrive u r b _) bs s

theorem frame_restage (r : Nat) : s.ChangesOnly (s.restage r) [.charge, .ports] := by
  have h := (frame_stageBays s r (s.stagedShare r (s.turns r)) bayNumbers).mono (m := [.charge, .ports]) (by decide)
  rw [restage_eq]
  exact .ite _ (h.trans ((frame_post _ _).mono (by decide))) h

theorem frame_settleCharge (before : State) (l : List Nat) : s.ChangesOnly (State.settleCharge before s l) [.charge, .ports] := by
  refine State.ChangesOnly.trans (t := { s with charge := { s.charge with promoted := s.promotedSet } }) ?_
    (.foldl _ (fun t r => frame_restage t r) _ _)
  intro p hp; cases p <;> first | rfl | exact ⟨rfl, rfl⟩ | exact absurd (by decide) hp

/-- The end of an event moves records only by beginning a PROGRAM, and nothing beyond these parts. -/
theorem frame_finish (before : State) (l : List Nat) :
    s.ChangesOnly (State.finish before s l) [.records, .scan, .chan, .charge, .air, .ports] :=
  ((State.ChangesOnly.foldl _ (fun t r => (frame_handOver t r).mono (by decide)) rackNumbers s).trans
    ((frame_finishFloors _ before).mono (by decide))).trans ((frame_settleCharge _ before l).mono (by decide))

end

end Sys2Proof.Machine
end

