-- ==== Sys2Proof/Laws/Finish.lean ====
section
/-! SUPPORT. What the end of an event does: the multiplexers handed over (R25), the next plan written from the stacks
(R156, R157), the notices posted, the racks staged (R77). The folds stay folded. -/

namespace Sys2Proof.Machine

variable (s : State)

/-! ## Postings -/

theorem mem_insertNotice_other (n m : Notice) (l : List Notice) (h : m.kind ≠ n.kind) :
    m ∈ insertNotice n l ↔ m ∈ l := by
  induction l with
  | nil => simp [insertNotice]; rintro rfl; exact h rfl
  | cons a l ih =>
    have hne : m ≠ n := fun e => h (e ▸ rfl)
    unfold insertNotice
    split
    · simp [hne]
    · split
      · rename_i e
        have : m ≠ a := fun e' => h (by rw [e', ← e])
        simp [hne, this]
      · simp [ih]

theorem State.PostsOnly.refl (k : List Nat) : s.PostsOnly s k := fun _ => ⟨rfl, rfl, rfl, rfl, rfl, fun _ _ => Iff.rfl⟩

theorem State.PostsOnly.trans {s t u : State} {k : List Nat} (h : s.PostsOnly t k) (g : t.PostsOnly u k) :
    s.PostsOnly u k := fun l =>
  ⟨(g l).1.trans (h l).1, (g l).2.1.trans (h l).2.1, (g l).2.2.1.trans (h l).2.2.1,
    (g l).2.2.2.1.trans (h l).2.2.2.1, (g l).2.2.2.2.1.trans (h l).2.2.2.2.1,
    fun n hn => ((g l).2.2.2.2.2 n hn).trans ((h l).2.2.2.2.2 n hn)⟩

theorem State.PostsOnly.mono {s t : State} {k m : List Nat} (h : s.PostsOnly t k) (hs : k ⊆ m) : s.PostsOnly t m :=
  fun l => ⟨(h l).1, (h l).2.1, (h l).2.2.1, (h l).2.2.2.1, (h l).2.2.2.2.1,
    fun n hn => (h l).2.2.2.2.2 n fun hk => hn (hs hk)⟩

theorem State.PostsOnly.of_ports {s t : State} (k : List Nat) (h : t.ports = s.ports) : s.PostsOnly t k := by
  intro l
  rw [port_congr h]
  exact ⟨rfl, rfl, rfl, rfl, rfl, fun _ _ => Iff.rfl⟩

theorem State.PostsOnly.foldl {α : Type} {k : List Nat} (f : State → α → State)
    (h : ∀ (t : State) (a : α), t.PostsOnly (f t a) k) (as : List α) (s : State) : s.PostsOnly (as.foldl f s) k := by
  induction as generalizing s with
  | nil => exact .refl s k
  | cons a as ih => exact (h s a).trans (ih (f s a))

theorem postsOnly_post (n : Notice) : s.PostsOnly (s.post n) [n.kind] := by
  intro l
  rw [port_post]
  unfold Port.post
  split
  · exact ⟨rfl, rfl, rfl, rfl, rfl, fun m hm => mem_insertNotice_other n m _ (by simpa using hm)⟩
  · exact ⟨rfl, rfl, rfl, rfl, rfl, fun _ _ => Iff.rfl⟩

theorem modRecord_record (i j : Nat) (f : Record → Record) :
    (s.modRecord i f).record j = if i = j then (s.record j).map f else s.record j := by
  unfold State.modRecord
  split
  · rename_i h; split
    · rename_i e; subst e; simp [h]
    · rfl
  · rename_i x h; rw [record_setRecord]; split
    · rename_i e; subst e; simp [h]
    · rfl

theorem handOver_other (r k : Nat) (h : r ≠ k) : (s.handOver r).scanner k = s.scanner k ∧
    (s.handOver r).channel k = s.channel k := by
  unfold State.handOver State.sealStamp State.setHolder State.beginAttempt State.setHolder State.modRecord
  dsimp only
  repeat' split
  all_goals simp_all

theorem handOver_held (r : Nat) (h : (s.scanner r).holder ≠ .none) : s.handOver r = s.sealStamp r := by
  unfold State.handOver State.sealStamp
  dsimp only
  split <;> simp [h]

theorem sealStamp_spec (r k : Nat) : (s.sealStamp r).scanner k = s.scanner k ∧ (∀ i,
    (s.sealStamp r).record i = s.record i) ∧
   ((s.sealStamp r).channel k).queue = (s.channel k).queue ∧
       ((s.sealStamp r).channel k).inFlight = (s.channel k).inFlight := by
  unfold State.sealStamp; dsimp only
  split
  · simp; split
    · rename_i h; subst h; simp
    · simp
  · simp

theorem handOver_served (r : Nat) : ((s.handOver r).scanner r).holder ≠ .none ∨ ((s.handOver r).channel r).queue = [] := by
  by_cases h : (s.scanner r).holder = .none
  · have h1 := (sealStamp_spec s r r)
    unfold State.handOver; dsimp only
    rw [h1.1, h]
    simp only [if_true]
    split
    · split
      · left; simp [State.setHolder]
      · right; simp_all
    · left; rename_i hq
      unfold State.beginAttempt; dsimp only
      split
      · simp_all
      · split <;> simp [State.setHolder, State.modRecord] <;> split <;> simp
  · left; rw [handOver_held s r h, (sealStamp_spec s r r).1]; exact h

theorem handOver_bay (r k b : Nat) : (s.handOver r).bay k b = s.bay k b := by
  have : ∀ (t : State) (h : Holder), (t.setHolder r h).bay k b = t.bay k b := by
    intro t h; simp [State.setHolder]; intro e; subst e; rfl
  unfold State.handOver State.sealStamp State.beginAttempt State.modRecord
  dsimp only
  repeat' split
  all_goals simp [this]

theorem handOver_record (r i : Nat) : (s.handOver r).record i = s.record i ∨
   ∃ x q, s.record i = some x ∧ (s.handOver r).record i = some { x with state := .programming } ∧
        (s.scanner r).holder = .none ∧ q ∈ (s.channel r).queue ∧ q.kind = .program ∧ q.record = some i ∧
        ((s.handOver r).channel r).inFlight = some q := by
  by_cases h : (s.scanner r).holder = .none
  · have h1 := (sealStamp_spec s r r)
    unfold State.handOver; dsimp only
    rw [h1.1, h]
    simp only [if_true]
    split
    · split
      · left; simp [State.setHolder, h1.2.1]
      · left; simp [h1.2.1]
    · unfold State.beginAttempt; dsimp only
      split
      · left; simp [h1.2.1]
      · rename_i q rest hq
        split
        · rename_i j hk hr
          by_cases e : j = i
          · subst e
            cases hx : s.record j with
            | none => left; simp [modRecord_record, State.setHolder, h1.2.1, hx]
            | some x =>
              right
              refine ⟨x, q, rfl, ?_, trivial, ?_, hk, hr, ?_⟩
              · simp [modRecord_record, State.setHolder, h1.2.1, hx]
              · rw [← h1.2.2.1, hq]; simp
              · simp [State.modRecord, State.setHolder]; split <;> simp
          · left; simp [modRecord_record, State.setHolder, h1.2.1, e]
        · left; simp [State.setHolder, h1.2.1]
  · left; rw [handOver_held s r h, (sealStamp_spec s r r).2.1]


theorem handOvers_rack (r : Nat) (h : r < 4) : ∃ u : State, u.scanner r = s.scanner r ∧ u.channel r = s.channel r ∧
    ((rackNumbers.foldl State.handOver s).scanner r = (u.handOver r).scanner r) ∧
    ((rackNumbers.foldl State.handOver s).channel r = (u.handOver r).channel r) := by
  rw [handOvers_eq]
  have a := fun t q k h => (handOver_other t q k h).1
  have b := fun t q k h => (handOver_other t q k h).2
  match r, h with
  | 0, _ => exact ⟨s, rfl, rfl, by simp [a], by simp [b]⟩
  | 1, _ => exact ⟨s.handOver 0, by simp [a], by simp [b], by simp [a], by simp [b]⟩
  | 2, _ => exact ⟨(s.handOver 0).handOver 1, by simp [a], by simp [b], by simp [a], by simp [b]⟩
  | 3, _ => exact ⟨((s.handOver 0).handOver 1).handOver 2, by simp [a], by simp [b], by simp, by simp⟩

theorem handOvers_bay (r b : Nat) : (rackNumbers.foldl State.handOver s).bay r b = s.bay r b := by
  rw [handOvers_eq]; simp [handOver_bay]

/-- A record moved by a hand-over before rack `n`. -/
def Moved (s t : State) (i n : Nat) : Prop :=
   ∃ x r q, r < n ∧ s.record i = some x ∧ t.record i = some { x with state := .programming } ∧
        (s.scanner r).holder = .none ∧ q ∈ (s.channel r).queue ∧ q.kind = .program ∧ q.record = some i ∧
        (t.channel r).inFlight = some q

theorem handOver_moved (u : State) (i r : Nat) (h1 : u.scanner r = s.scanner r) (h2 : u.channel r = s.channel r)
    (h : u.record i = s.record i ∨ Moved s u i r) :
    (u.handOver r).record i = s.record i ∨ Moved s (u.handOver r) i (r + 1) := by
  rcases h with h | ⟨x, r0, q, a, b, c, d, e, f, g, k⟩
  · rcases handOver_record u r i with hr | ⟨x, q, a, b, c, d, e, f, g⟩
    · left; rw [hr, h]
    · right; exact ⟨x, r, q, by omega, by rw [← h, a], b, by rw [← h1, c], by rw [← h2]; exact d, e, f, g⟩
  · right
    refine ⟨x, r0, q, by omega, b, ?_, d, e, f, g, ?_⟩
    · rcases handOver_record u r i with hr | ⟨y, q', a', b', _⟩
      · rw [hr, c]
      · rw [b']; rw [c] at a'; cases a'; rfl
    · rw [(handOver_other u r r0 (by omega)).2]; exact k

theorem handOvers_record (i : Nat) : (rackNumbers.foldl State.handOver s).record i = s.record i ∨
   ∃ x r q, r < 4 ∧ s.record i = some x ∧
       (rackNumbers.foldl State.handOver s).record i = some { x with state := .programming } ∧
        (s.scanner r).holder = .none ∧ q ∈ (s.channel r).queue ∧ q.kind = .program ∧ q.record = some i ∧
        ((rackNumbers.foldl State.handOver s).channel r).inFlight = some q := by
  rw [handOvers_eq]
  have a := fun t q k h => (handOver_other t q k h).1
  have b := fun t q k h => (handOver_other t q k h).2
  exact handOver_moved s _ i 3 (by simp [a]) (by simp [b]) (handOver_moved s _ i 2 (by simp [a]) (by simp [b])
      (handOver_moved s _ i 1 (by simp [a]) (by simp [b]) (handOver_moved s _ i 0 rfl rfl (.inl rfl))))

theorem setEntry_foldl_entry (l : List Nat) (t : State) (hm : t.floor = s.floor) (i : Nat) :
   (l.foldl (fun t i => t.setEntry i (t.refreshedEntry (t.entry i))) t).entry i = if i ∈ l then s.refreshedEntry (t.entry i) else t.entry i := by
  have hr : ∀ (u : State) e, u.floor = s.floor → u.refreshedEntry e = s.refreshedEntry e := by
    intro u e h; cases e <;> simp [State.refreshedEntry, State.sourceOf, State.floorOf, h]
  have hi : ∀ e, s.refreshedEntry (s.refreshedEntry e) = s.refreshedEntry e := by
    intro e; cases e <;> simp [State.refreshedEntry]
    cases topMic _ <;> rfl
  induction l generalizing t with
  | nil => simp
  | cons a l ih =>
    rw [List.foldl_cons, ih _ (by simpa using hm)]
    rw [entry_setEntry, hr t _ hm]
    by_cases e : a = i
    · subst e; simp [hi]
    · simp [e, Ne.symm e]

theorem entry_syncPlan (i : Nat) : s.syncPlan.entry i = s.refreshedEntry (s.entry i) := by
  unfold State.syncPlan
  rw [setEntry_foldl_entry s _ s rfl]
  split
  · rfl
  · rename_i h
    have : s.entry i = .free := Table.read_of_notMem_keys _ _ _ h
    rw [this]; rfl

theorem syncPlan_air : s.syncPlan.air = { s.air with nextPlan := s.syncPlan.air.nextPlan } ∧
    s.syncPlan.air.nextPlan.split = s.air.nextPlan.split := by
  unfold State.syncPlan
  generalize s.usedSlots = l
  have : ∀ t : State, t.air = { s.air with nextPlan := t.air.nextPlan } ∧ t.air.nextPlan.split = s.air.nextPlan.split →
    (l.foldl (fun t i => t.setEntry i (t.refreshedEntry (t.entry i))) t).air = { s.air with nextPlan := (l.foldl (fun t i => t.setEntry i (t.refreshedEntry (t.entry i))) t).air.nextPlan } ∧ (l.foldl (fun t i => t.setEntry i (t.refreshedEntry (t.entry i))) t).air.nextPlan.split = s.air.nextPlan.split := by
    induction l with
    | nil => exact fun t h => h
    | cons a l ih =>
      intro t h
      refine ih _ ⟨?_, h.2⟩
      exact congrArg
        (fun x : Air => { x with nextPlan := (t.setEntry a (t.refreshedEntry (t.entry a))).air.nextPlan }) h.1
  exact this s ⟨rfl, rfl⟩

theorem postsOnly_postFloorChanges (before : State) : s.PostsOnly (State.postFloorChanges before s) [12] := by
  refine .foldl _ (fun t p => ?_) _ s
  split
  · exact .refl t _
  · exact postsOnly_post t (.floorChanged p)

theorem postsOnly_finishFloors (before : State) : s.PostsOnly (State.finishFloors before s) [12] :=
  (State.PostsOnly.of_ports _ ((frame_syncPlan s) .ports (by decide))).trans (postsOnly_postFloorChanges _ before)

theorem stageBays_charge (r : Nat) (give : Nat → Nat) (l : List Nat) : ∀ s : State,
   (∀ q b, ((s.stageBays r give l).drive q b).applied = (s.drive q b).applied ∧
       ((s.stageBays r give l).drive q b).duty = (s.drive q b).duty) ∧
   (∀ q, ((s.stageBays r give l).rackCharge q).stagedLimit = (s.rackCharge q).stagedLimit ∧
       ((s.stageBays r give l).rackCharge q).appliedLimit = (s.rackCharge q).appliedLimit) ∧
   (∀ q, q ≠ r → (s.stageBays r give l).rackCharge q = s.rackCharge q) ∧
   (∀ b, ((s.stageBays r give l).drive r b).staged = if b ∈ l then give b else (s.drive r b).staged) ∧
   (s.stageBays r give l).charge.promoted = s.charge.promoted ∧
       (s.stageBays r give l).charge.frameTime = s.charge.frameTime := by
  induction l with
  | nil => intro s; exact ⟨fun _ _ => ⟨rfl, rfl⟩, fun _ => ⟨rfl, rfl⟩, fun _ _ => rfl, fun _ => rfl, rfl, rfl⟩
  | cons a l ih =>
    intro s
    have e :
        s.stageBays r give (a :: l) = (s.setDrive r a { s.drive r a with staged := give a }).stageBays r give l := rfl
    obtain ⟨h1, h2, h3, h6, h4, h5⟩ := ih (s.setDrive r a { s.drive r a with staged := give a })
    rw [← e] at h1 h2 h3 h4 h5 h6
    refine ⟨fun q b => ?_, fun q => ?_, fun q hq => ?_, fun b => ?_, h4, h5⟩
    · rw [(h1 q b).1, (h1 q b).2, drive_setDrive]
      split
      · rename_i e; obtain ⟨rfl, rfl⟩ := e; exact ⟨rfl, rfl⟩
      · exact ⟨rfl, rfl⟩
    · rw [(h2 q).1, (h2 q).2, rackCharge_setDrive]
      split <;> exact ⟨rfl, rfl⟩
    · rw [h3 q hq, rackCharge_setDrive, if_neg (Ne.symm hq)]
    · rw [h6, drive_setDrive]
      by_cases h : b = a
      · subst h; simp
      · simp [h, Ne.symm h]

theorem restage_cases (r : Nat) : ∃ (w : State) (t : State),
    w = s.stageBays r (s.stagedShare r (s.turns r)) bayNumbers ∧ t = s.restage r ∧
    (t = w ∨ t = w.post (.rackShort r)) := by
  refine ⟨_, _, rfl, rfl, ?_⟩
  rw [restage_eq]
  split
  · exact .inr rfl
  · exact .inl rfl

theorem restage_charge (r : Nat) : ∃ t : State, t = s.restage r ∧ (∀ q b,
    (t.drive q b).applied = (s.drive q b).applied ∧ (t.drive q b).duty = (s.drive q b).duty) ∧
   (∀ q, (t.rackCharge q).stagedLimit = (s.rackCharge q).stagedLimit ∧
       (t.rackCharge q).appliedLimit = (s.rackCharge q).appliedLimit) ∧
   (∀ q, q ≠ r → t.rackCharge q = s.rackCharge q) ∧
   (∀ b, (t.drive r b).staged = if b ∈ bayNumbers then s.stagedShare r (s.turns r) b else (s.drive r b).staged) ∧
   t.charge.promoted = s.charge.promoted ∧ t.charge.frameTime = s.charge.frameTime := by
  have h := stageBays_charge r (s.stagedShare r (s.turns r)) bayNumbers s
  obtain ⟨w, t, hw, ht, hc⟩ := restage_cases s r
  rw [← hw] at h
  refine ⟨t, ht, ?_⟩
  rcases hc with rfl | rfl
  · exact h
  · exact h

theorem postsOnly_restage (r : Nat) : s.PostsOnly (s.restage r) [15] := by
  have h : (s.stageBays r (s.stagedShare r (s.turns r)) bayNumbers).ports = s.ports := frame_stageBays s r _ _ .ports (by decide)
  rw [restage_eq]
  split
  · exact (State.PostsOnly.of_ports _ h).trans (postsOnly_post _ (.rackShort r))
  · exact State.PostsOnly.of_ports _ h

theorem restages_spec (rs : List Nat) : ∀ t : State, t.PostsOnly (rs.foldl State.restage t) [15] ∧
    (rs.foldl State.restage t).charge.promoted = t.charge.promoted ∧
        (rs.foldl State.restage t).charge.frameTime = t.charge.frameTime ∧
    (∀ q b, ((rs.foldl State.restage t).drive q b).applied = (t.drive q b).applied ∧
        ((rs.foldl State.restage t).drive q b).duty = (t.drive q b).duty) ∧
    (∀ q, ((rs.foldl State.restage t).rackCharge q).stagedLimit = (t.rackCharge q).stagedLimit ∧
        ((rs.foldl State.restage t).rackCharge q).appliedLimit = (t.rackCharge q).appliedLimit) := by
  induction rs with
  | nil => intro t; exact ⟨.refl t _, rfl, rfl, fun _ _ => ⟨rfl, rfl⟩, fun _ => ⟨rfl, rfl⟩⟩
  | cons r rs ih =>
    intro t
    rw [List.foldl_cons]
    obtain ⟨w, hw, h⟩ := restage_charge t r
    have g := postsOnly_restage t r
    rw [← hw] at g ⊢
    obtain ⟨a, b, c, d, e⟩ := ih w
    refine ⟨g.trans a, b.trans h.2.2.2.2.1, c.trans h.2.2.2.2.2, fun q b => ?_, fun q => ?_⟩
    · rw [(d q b).1, (d q b).2]; exact h.1 q b
    · rw [(e q).1, (e q).2]; exact h.2.1 q

theorem settleCharge_spec (before : State) (l : List Nat) : ∃ t : State, t = State.settleCharge before s l ∧
    s.PostsOnly t [15] ∧ t.charge.promoted = s.promotedSet ∧
    t.charge.frameTime = s.charge.frameTime ∧
    (∀ q b, (t.drive q b).applied = (s.drive q b).applied ∧ (t.drive q b).duty = (s.drive q b).duty) ∧
    (∀ q, (t.rackCharge q).stagedLimit = (s.rackCharge q).stagedLimit ∧
        (t.rackCharge q).appliedLimit = (s.rackCharge q).appliedLimit) := by
  refine ⟨_, rfl, ?_⟩
  rw [settleCharge_eq]
  generalize (if s.promotedSet = s.charge.promoted then rackNumbers.filter fun r => l.contains r || State.rackDirty before s r else rackNumbers) = rs
  have h := restages_spec rs { s with charge := { s.charge with promoted := s.promotedSet } }
  generalize rs.foldl State.restage _ = w at h ⊢
  generalize s.promotedSet = ps at h ⊢
  exact h

theorem promotedSet_congr {s t : State} (h1 : t.fleet = s.fleet)
    (h2 : t.loans = s.loans) : t.promotedSet = s.promotedSet := by
  unfold State.promotedSet State.totalShortfall State.candidate State.chargedMore State.socOf State.excluded State.recordIndices
  simp only [State.record, State.loan, h1, h2]
  rfl

end Sys2Proof.Machine
end

