-- ==== Sys2Proof/Laws/Moves.lean ====
section
/-! SUPPORT. Said once: everything a step can do to the state is a chain of the moves listed here. An invariant that each
move keeps is kept by every step. -/

namespace Sys2Proof.Machine

/-- A scanner's bays are in canonical form. -/
def Scanner.Tidy (c : Scanner) : Prop := Table.wf (fun _ => resetBay) c.bays = true

/-- One move of the part. Each hypothesis says of the block moved that what held of it still holds. -/
inductive Move : State → State → Prop
  | queue (s : State) (q : List Instr) : Move s { s with pending := q }
  | draws (s : State) (n : Nat) : Move s { s with draws := n }
  | settings (s : State) (v : Settings) (h : s.settings.Fits → v.Fits) : Move s (s.setSettings v)
  | ranges (s : State) (a g : Option Range) : Move s { s with fleet := { s.fleet with applied := a, staged := g } }
  | record (s : State) (i : Nat) (x y : Record) (hx : s.record i = some x) (hr : y.rid = x.rid) (hf : x.Fits → y.Fits) :
      Move s (s.setRecord i (some y))
  | create (s : State) (i : Nat) (y : Record) (h0 : y.rid ≠ 0) (h : s.indexOfRid y.rid = none) (hf : y.Fits) :
      Move s (s.setRecord i (some y))
  | remove (s : State) (i : Nat) : Move s (s.setRecord i none)
  | scanner (s : State) (r : Nat) (v : Scanner) (h : (s.scanner r).Tidy → v.Tidy)
      (hp : (s.scanner r).sweepPos ≤ 63 → v.sweepPos ≤ 63) : Move s (s.setScanner r v)
  | channel (s : State) (r : Nat) (v : Channel) : Move s (s.setChannel r v)
  | drive (s : State) (r b : Nat) (v : Drive) (h : (s.drive r b).Agrees → v.Agrees) : Move s (s.setDrive r b v)
  | limits (s : State) (r : Nat) (v : RackCharge) (hd : v.drives = (s.rackCharge r).drives ∨ v.drives = [])
      (hs : LimitFits (s.rackCharge r).stagedLimit → LimitFits v.stagedLimit)
      (ha : LimitFits (s.rackCharge r).stagedLimit → LimitFits (s.rackCharge r).appliedLimit → LimitFits v.appliedLimit) :
      Move s (s.setRackCharge r v)
  | charge (s : State) (p : List Nat) (n : Nat) : Move s { s with charge := { s.charge with promoted := p, frameTime := n } }
  | tour (s : State) (t : Nat) (v : Tour) : Move s (s.setTour t v)
  | programme (s : State) (p : Nat) (v : Programme) : Move s (s.setProgramme p v)
  | key (s : State) (k : Nat) (h : 1 ≤ s.tours.nextKey ∧ s.tours.nextKey ≤ 65535 → 1 ≤ k ∧ k ≤ 65535) :
      Move s { s with tours := { s.tours with nextKey := k } }
  | loan (s : State) (i : Nat) (v : Option Loan) : Move s (s.setLoan i v)
  | wanting (s : State) (q : List Nat) : Move s (s.setWanting q)
  | timer (s : State) (i : Nat) (v : Option Timer) : Move s (s.setTimer i v)
  | mic (s : State) (m : Nat) (v : Mic) : Move s (s.setMic m v)
  | floor (s : State) (p : Nat) (v : Floor)
      (h : 1 ≤ (s.floorOf p).mask ∧ (s.floorOf p).mask ≤ 8 → 1 ≤ v.mask ∧ v.mask ≤ 8) : Move s (s.setFloor p v)
  | uplinkQueue (s : State) (q : List Nat) : Move s (s.setUplinkQueue q)
  | entry (s : State) (i : Nat) (e : Entry)
      (h : (s.entry i).FitsAt s.air.nextPlan.split i → e.FitsAt s.air.nextPlan.split i) : Move s (s.setEntry i e)
  | downlinkQueue (s : State) (q : List Nat) : Move s (s.setDownlinkQueue q)
  | split (s : State) (n : Nat) (h : s.slotsFit n = true) (hn : SplitFits n) : Move s (s.setSplit n)
  | boundary (s : State) : Move s s.frameBoundary
  | frame (s : State) (n : Nat) (p y : Bool) : Move s { s with air := { s.air with frameTime := n, phaseHigh := p, syncHigh := y } }
  | age (s : State) (a : Age) (h : s.age.Fits → a.Fits) : Move s { s with age := a }
  | port (s : State) (l : Link) (v : Port) (h : (s.port l).Kept → v.Kept) : Move s (s.setPort l v)
  | post (s : State) (n : Notice) : Move s (s.post n)
  | rights (s : State) (l : Link) (v : Rights) : Move s (s.setRights l v)
  | lock (s : State) : Move s { s with access := { s.access with lock := true } }
  | clearRacks (s : State) : Move s { s with scan := [], chan := [] }
  | clearTours (s : State) : Move s { s with tours := { tours := [], programmes := [], nextKey := s.tours.nextKey } }
  | clearLoans (s : State) : Move s { s with loans := State.reset.loans }
  | clearFloors (s : State) : Move s { s with floor := State.reset.floor }
  | clearAir (s : State) : Move s { s with air := resetAir s.air.nextPlan.split }
  | reset (s : State) (held : Bool) : Move s (s.fullReset held)

/-- A chain of moves. -/
inductive Reach : State → State → Prop
  | refl (s : State) : Reach s s
  | tail {s t u : State} (h : Reach s t) (m : Move t u) : Reach s u

theorem Reach.trans {s t u : State} (h : Reach s t) (k : Reach t u) : Reach s u := by
  induction k with
  | refl => exact h
  | tail _ m ih => exact ih.tail m

theorem Move.reach {s t : State} (m : Move s t) : Reach s t := (Reach.refl s).tail m

/-- What every move keeps, a chain keeps. -/
theorem Reach.keeps {P : State → Prop} (hm : ∀ s t, Move s t → P s → P t) {s t : State} (h : Reach s t) (hs : P s) : P t := by
  induction h with
  | refl => exact hs
  | tail _ m ih => exact hm _ _ m ih

/-- A fold of chains is a chain. -/
theorem Reach.foldl {α : Type} (f : State → α → State) (h : ∀ t a, Reach t (f t a)) (l : List α) (s : State) :
    Reach s (l.foldl f s) := by
  induction l generalizing s with
  | nil => exact Reach.refl s
  | cons a l ih => exact (h s a).trans (ih (f s a))

/-- A choice between two chains is a chain. -/
theorem Reach.ite {s t u : State} (c : Prop) [Decidable c] (ht : Reach s t) (hu : Reach s u) :
    Reach s (if c then t else u) := by
  split
  · exact ht
  · exact hu

/-! ## The named writes -/

section
variable (s : State)

theorem reach_modRecord (i : Nat) (f : Record → Record) (hr : ∀ x, (f x).rid = x.rid) (hf : ∀ x, x.Fits → (f x).Fits) :
    Reach s (s.modRecord i f) := by
  unfold State.modRecord
  split
  · exact .refl s
  · rename_i x hx; exact (Move.record s i x (f x) hx (hr x) (hf x)).reach

/-- A record's state and loan fields may be written freely. -/
theorem reach_setRecord (i : Nat) (x y : Record) (hx : s.record i = some x) (hr : y.rid = x.rid) (hf : x.Fits → y.Fits) :
    Reach s (s.setRecord i (some y)) := (Move.record s i x y hx hr hf).reach

/-- A scanner's own fields may be written freely, the sweep position within its range. -/
theorem reach_setScanner (r : Nat) (v : Scanner) (hb : v.bays = (s.scanner r).bays)
    (hp : v.sweepPos = (s.scanner r).sweepPos ∨ v.sweepPos ≤ 63) : Reach s (s.setScanner r v) := by
  refine (Move.scanner s r v (fun h => by unfold Scanner.Tidy; rw [hb]; exact h) fun h => ?_).reach
  rcases hp with hp | hp
  · rw [hp]; exact h
  · exact hp

theorem reach_setBay (r b : Nat) (v : Bay) : Reach s (s.setBay r b v) := by
  unfold State.setBay
  exact (Move.scanner s r { s.scanner r with bays := Table.write (fun _ => resetBay) (s.scanner r).bays b v }
    (fun h => Table.wf_write _ _ _ _ h) id).reach

theorem reach_setHolder (r : Nat) (v : Holder) : Reach s (s.setHolder r v) :=
  reach_setScanner s r { s.scanner r with holder := v } rfl (.inl rfl)

theorem reach_modLoan (i : Nat) (f : Loan → Loan) : Reach s (s.modLoan i f) := by
  unfold State.modLoan
  split
  · exact .refl s
  · exact (Move.loan s i _).reach

/-- A floor's lists may be written freely. -/
theorem reach_setFloor (p : Nat) (v : Floor) (h : v.mask = (s.floorOf p).mask) : Reach s (s.setFloor p v) :=
  (Move.floor s p v fun k => by rw [h]; exact k).reach

theorem reach_setChannel (r : Nat) (v : Channel) : Reach s (s.setChannel r v) := (Move.channel s r v).reach
theorem reach_setMic (m : Nat) (v : Mic) : Reach s (s.setMic m v) := (Move.mic s m v).reach
theorem reach_post (n : Notice) : Reach s (s.post n) := (Move.post s n).reach
theorem reach_setTimer (i : Nat) (v : Option Timer) : Reach s (s.setTimer i v) := (Move.timer s i v).reach
theorem reach_setLoan (i : Nat) (v : Option Loan) : Reach s (s.setLoan i v) := (Move.loan s i v).reach
theorem reach_setProgramme (p : Nat) (v : Programme) : Reach s (s.setProgramme p v) := (Move.programme s p v).reach
theorem reach_setDownlinkQueue (q : List Nat) : Reach s (s.setDownlinkQueue q) := (Move.downlinkQueue s q).reach
theorem reach_setUplinkQueue (q : List Nat) : Reach s (s.setUplinkQueue q) := (Move.uplinkQueue s q).reach
theorem reach_setEntry_free (i : Nat) : Reach s (s.setEntry i .free) := (Move.entry s i .free fun _ => trivial).reach

end

end Sys2Proof.Machine
end

