-- ==== Sys2Proof/Laws/MovesOps.lean ====
section
/-! SUPPORT. The operations the blocks share are chains of moves. -/

namespace Sys2Proof.Machine

variable (s : State)

/-! ## Planner -/

theorem reach_takeDownlink (p i : Nat) (h : i < s.air.nextPlan.split ∨ ∃ q, (s.entry i).isDownOf q = true) :
    Reach s (s.takeDownlink p i) := by
  refine (Move.entry s i (.down p (s.sourceOf p)) fun k => ?_).reach
  rcases h with h | ⟨q, h⟩
  · exact h
  · revert k h
    cases s.entry i <;> simp +contextual [Entry.isDownOf, Entry.FitsAt]

theorem freeDownlink_lt {i : Nat} (h : s.freeDownlink = some i) : i < s.air.nextPlan.split := by
  have := List.find?_some h
  simp only [Bool.and_eq_true, decide_eq_true_eq] at this
  exact this.1

theorem freeUplink_ge {i : Nat} (h : s.freeUplink = some i) : s.air.nextPlan.split ≤ i := by
  have := List.find?_some h
  simp only [Bool.and_eq_true, decide_eq_true_eq] at this
  exact this.1

theorem reach_needDownlink (p : Nat) : Reach s (s.needDownlink p) := by
  unfold State.needDownlink
  split
  · rename_i i h; exact reach_takeDownlink s p i (.inl (freeDownlink_lt s h))
  · exact (reach_setDownlinkQueue s _).trans (reach_post _ _)

theorem reach_handOnDownlink (i : Nat) (h : ∃ q, (s.entry i).isDownOf q = true) : Reach s (s.handOnDownlink i) := by
  unfold State.handOnDownlink
  split
  · exact reach_setEntry_free s i
  · exact (reach_setDownlinkQueue s _).trans (reach_takeDownlink _ _ i (.inr h))

theorem reach_dropDownlink (p : Nat) : Reach s (s.dropDownlink p) := by
  unfold State.dropDownlink
  split
  · rename_i i h; exact reach_handOnDownlink s i ⟨p, by simpa using List.find?_some h⟩
  · exact reach_setDownlinkQueue s _

theorem reach_gainListener (p : Nat) : Reach s (s.gainListener p) := by
  unfold State.gainListener
  exact .ite _ ((reach_setProgramme s p _).trans (reach_needDownlink _ p)) (reach_setProgramme s p _)

theorem reach_loseListener (p : Nat) : Reach s (s.loseListener p) := by
  unfold State.loseListener
  exact .ite _ ((reach_setProgramme s p _).trans (reach_dropDownlink _ p)) (reach_setProgramme s p _)

theorem reach_serveDownlink (n : Nat) : ∀ s : State, Reach s (serveDownlink n s) := by
  induction n with
  | zero => exact fun s => .refl s
  | succ n ih =>
    intro s
    unfold serveDownlink
    split
    · rename_i q rest i hq h
      exact ((reach_setDownlinkQueue s rest).trans
        (reach_takeDownlink _ q i (.inl (freeDownlink_lt s h)))).trans (ih _)
    · exact .refl s

theorem refreshedEntry_fitsAt (n i : Nat) (e : Entry) (h : e.FitsAt n i) : (s.refreshedEntry e).FitsAt n i := by
  cases e <;> exact h

theorem reach_syncPlan : Reach s s.syncPlan :=
  Reach.foldl _ (fun t i => (Move.entry t i (t.refreshedEntry (t.entry i)) (refreshedEntry_fitsAt t _ i _)).reach) _ s

/-! ## Arbiter -/

theorem reach_startTalking (m : Nat) : Reach s (s.startTalking m) := reach_setMic s m _
theorem reach_holdMic (m : Nat) : Reach s (s.holdMic m) := reach_setMic s m _
theorem reach_idleMic (m : Nat) : Reach s (s.idleMic m) := reach_setMic s m _
theorem reach_unbindMic (m : Nat) : Reach s (s.unbindMic m) := reach_setMic s m _

theorem reach_enterPending (p m : Nat) : Reach s (s.enterPending p m) := reach_setFloor s p _ (by rfl)

theorem reach_holdTop (p : Nat) : Reach s (s.holdTop p) := by
  unfold State.holdTop; split
  · exact reach_holdMic s _
  · exact .refl s

theorem reach_wakeTop (p : Nat) : Reach s (s.wakeTop p) := by
  unfold State.wakeTop; split
  · exact .ite _ (.refl s) (reach_startTalking s _)
  · exact .refl s

theorem floorOf_holdTop (p q : Nat) : (s.holdTop p).floorOf q = s.floorOf q := by
  unfold State.holdTop; split <;> rfl

theorem reach_pushHead (p m : Nat) : Reach s (s.pushHead p m) :=
  ((reach_holdTop s p).trans (reach_setFloor _ p _ (by rw [floorOf_holdTop]))).trans (reach_startTalking _ m)

theorem reach_leaveUplinkQueue (p : Nat) : Reach s (s.leaveUplinkQueue p) := reach_setUplinkQueue s _

theorem reach_pushCascade (p : Nat) : Reach s (s.pushCascade p) := by
  unfold State.pushCascade
  exact .ite _ (.refl s)
    (((reach_holdTop s p).trans (reach_setFloor _ p _ (by rw [floorOf_holdTop]))).trans (reach_leaveUplinkQueue _ p))

theorem reach_pushCascades : Reach s s.pushCascades :=
  Reach.foldl _ (fun t p => .ite _ (reach_pushCascade t p) (.refl t)) _ s

theorem reach_grantSlot (p m i : Nat) (h : s.air.nextPlan.split ≤ i) : Reach s (s.grantSlot p m i) := by
  have h1 : Reach s (((s.setEntry i (.up p m)).pushHead p m).leaveUplinkQueue p) :=
    (((Move.entry s i (.up p m) fun _ => h).reach).trans (reach_pushHead _ p m)).trans (reach_leaveUplinkQueue _ p)
  unfold State.grantSlot
  exact .ite _ (h1.trans (reach_pushCascades _)) h1

theorem reach_reevaluate (p : Nat) : Reach s (s.reevaluate p) := by
  unfold State.reevaluate; split
  · exact reach_leaveUplinkQueue s p
  · refine .ite _ (reach_pushHead s p _) ?_
    split
    · rename_i i h; exact reach_grantSlot s p _ i (freeUplink_ge s h)
    · exact .ite _ (.refl s) (reach_setUplinkQueue s _)

theorem reach_serveUplink (n : Nat) : ∀ s : State, Reach s (serveUplink n s) := by
  induction n with
  | zero => exact fun s => .refl s
  | succ n ih =>
    intro s
    unfold serveUplink; split
    · exact .refl s
    · exact .ite _ (((reach_setUplinkQueue s _).trans (reach_reevaluate _ _)).trans (ih _)) (.refl s)

theorem reach_offerUplink : Reach s s.offerUplink := reach_serveUplink _ s

theorem reach_freeIfSilent (p : Nat) : Reach s (s.freeIfSilent p) := by
  unfold State.freeIfSilent
  refine .ite _ (.refl s) ?_
  split
  · exact (reach_setEntry_free s _).trans (reach_offerUplink _)
  · exact .refl s

theorem reach_dropCascade (p : Nat) : Reach s (s.dropCascade p) := by
  unfold State.dropCascade
  exact .ite _ (((reach_setFloor s p _ (by rfl)).trans (reach_wakeTop _ p)).trans (reach_reevaluate _ p)) (.refl s)

theorem reach_dropCascadesIfSilent : Reach s s.dropCascadesIfSilent := by
  unfold State.dropCascadesIfSilent
  exact .ite _ (.refl s) (Reach.foldl _ (fun t p => reach_dropCascade t p) _ s)

theorem reach_settleOwnFloor (p : Nat) : Reach s (s.settleOwnFloor p) :=
  ((reach_wakeTop s p).trans (reach_freeIfSilent _ p)).trans (reach_reevaluate _ p)

theorem reach_settleFloor (p : Nat) : Reach s (s.settleFloor p) :=
  .ite _ ((reach_settleOwnFloor s p).trans (reach_dropCascadesIfSilent _)) (reach_settleOwnFloor s p)

theorem reach_removeMic (p m : Nat) : Reach s (s.removeMic p m) :=
  (reach_setFloor s p _ (by rfl)).trans (reach_idleMic _ m)

theorem reach_cutTop (p m : Nat) : Reach s (s.cutTop p m) := (reach_removeMic s p m).trans (reach_settleFloor _ p)

theorem reach_endStaleTurn {settle : State → Nat → State} (h : ∀ t p, Reach t (settle t p)) (m : Nat) :
    Reach s (s.endStaleTurn settle m) := by
  unfold State.endStaleTurn
  refine .ite _ ?_ (.refl s)
  split
  · exact ((reach_removeMic s _ m).trans (h _ _)).trans (reach_post _ _)
  · exact .refl s

theorem reach_expireKeepAlive (m : Nat) : Reach s (s.expireKeepAlive m) := reach_endStaleTurn s reach_settleFloor m

theorem reach_expireAmong (m : Nat) : Reach s (s.expireAmong m) := reach_endStaleTurn s reach_settleOwnFloor m

theorem reach_unbindTourMics (ps : List Nat) : Reach s (s.unbindTourMics ps) := by
  refine Reach.foldl _ (fun t m => ?_) _ s
  split
  · exact .ite _ ((reach_removeMic t _ m).trans (reach_unbindMic _ m)) (.refl t)
  · exact .refl t

theorem reach_settleClosing (p : Nat) : Reach s (s.settleClosing p) := by
  unfold State.settleClosing
  dsimp only
  have h := fun k => (reach_setFloor s p { s.floorOf p with waiting := [], stack := k } rfl).trans
    (reach_leaveUplinkQueue _ p)
  split
  · exact ((h _).trans (reach_setEntry_free _ _)).trans (reach_offerUplink _)
  · exact h _

theorem reach_closeFloors (ps : List Nat) : Reach s (s.closeFloors ps) :=
  (reach_unbindTourMics s ps).trans (Reach.foldl _ (fun t p => reach_settleClosing t p) _ _)

theorem reach_leaveUse (p : Nat) : Reach s (s.leaveUse p) := by
  unfold State.leaveUse State.draw
  exact ((((Move.draws s _).reach.trans (reach_setProgramme _ p _))).trans
    (Move.floor _ p resetFloor fun _ => ⟨by decide, by decide⟩).reach).trans (reach_leaveUplinkQueue _ p)

theorem reach_postFloorChanges (before : State) : Reach s (State.postFloorChanges before s) :=
  Reach.foldl _ (fun t p => .ite _ (.refl t) (reach_post t _)) _ s

theorem reach_finishFloors (before : State) : Reach s (State.finishFloors before s) :=
  (reach_syncPlan s).trans (reach_postFloorChanges _ before)

/-! ## Racks -/

theorem reach_wake (r : Nat) : Reach s (s.wake r) := by
  refine reach_setScanner s r _ ?_ ?_
  · split <;> rfl
  · split
    · exact .inr (Nat.zero_le _)
    · exact .inl rfl

theorem reach_cool (r : Nat) : Reach s (s.cool r) := reach_setScanner s r _ rfl (.inl rfl)

theorem reach_moveBay (r b : Nat) (dest : BayState) : Reach s (s.moveBay r b dest) :=
  (reach_setBay s r b _).trans (reach_wake _ r)

theorem reach_setLatch (r b : Nat) (o : Bool) : Reach s (s.setLatch r b o) := reach_setBay s r b _

theorem reach_closeLatchOf (i : Nat) : Reach s (s.closeLatchOf i) := by
  unfold State.closeLatchOf; split
  · exact reach_setLatch s _ _ _
  · exact .refl s

theorem reach_enqueue (r : Nat) (q : Req) : Reach s (s.enqueue r q) := reach_setChannel s r _

theorem reach_ask (r b : Nat) (k : Kind) (i l : Option Nat) : Reach s (s.ask r b k i l) :=
  (reach_enqueue s r _).trans (reach_wake _ r)

theorem reach_removeQueued (r b : Nat) : Reach s (s.removeQueued r b) := reach_setChannel s r _

theorem reach_removeQueuedOf (i : Nat) : Reach s (s.removeQueuedOf i) := by
  unfold State.removeQueuedOf; split
  · exact reach_removeQueued s _ _
  · exact .refl s

theorem reach_askReadUsage (i : Nat) : Reach s (s.askReadUsage i) := by
  unfold State.askReadUsage; split
  · exact reach_ask s _ _ _ _ _
  · exact .refl s

theorem reach_askProgram (i : Nat) : Reach s (s.askProgram i) := by
  unfold State.askProgram; split
  · exact .refl s
  · split
    · exact .refl s
    · exact .ite _ (.refl s) ((reach_removeQueued s _ _).trans (reach_ask _ _ _ _ _ _))

theorem reach_flagWithdraw (i : Nat) : Reach s (s.flagWithdraw i) := by
  unfold State.flagWithdraw; split
  · exact .refl s
  · split
    · exact .refl s
    · exact reach_setChannel s _ _

theorem reach_beginAttempt (r : Nat) : Reach s (s.beginAttempt r) := by
  unfold State.beginAttempt
  dsimp only
  split
  · exact .refl s
  · have h := fun c => (reach_setChannel s r c).trans (reach_setHolder _ r .channel)
    split
    · exact (h _).trans (reach_modRecord _ _ _ (fun _ => rfl) fun _ h => ⟨h.1, h.2, h.3⟩)
    · exact h _

theorem reach_sealStamp (r : Nat) : Reach s (s.sealStamp r) := by
  unfold State.sealStamp
  exact .ite _ (reach_setChannel s r _) (.refl s)

theorem reach_handOver (r : Nat) : Reach s (s.handOver r) := by
  unfold State.handOver
  have h := reach_sealStamp s r
  exact .ite _ (.ite _ (.ite _ (h.trans (reach_setHolder _ r _)) h) (h.trans (reach_beginAttempt _ r))) h

theorem reach_endAttempt (r : Nat) : Reach s (s.endAttempt r) := (reach_setChannel s r _).trans (reach_setHolder _ r _)

theorem reach_failAttempt (r : Nat) : Reach s (s.failAttempt r) := reach_setChannel s r _

theorem reach_requeue (r : Nat) (q : Req) : Reach s (s.requeue r q) := by
  unfold State.requeue
  dsimp only
  split
  · refine (reach_enqueue s r _).trans (reach_modRecord _ _ _ (fun x => ?_) fun x h => ?_)
    · split <;> rfl
    · split
      · exact ⟨h.1, h.2, h.3⟩
      · exact h
  · exact reach_enqueue s r _

theorem reach_takeByte (r n : Nat) : Reach s (s.takeByte r n) := by
  unfold State.takeByte
  exact .ite _ (reach_setChannel s r _) (.refl s)

/-! ## Loan table -/

theorem reach_testReadiness (i : Nat) : Reach s (s.testReadiness i) := by
  refine reach_modRecord s i _ (fun x => ?_) fun x h => ?_
  · split <;> (try split) <;> rfl
  · split <;> (try split) <;> first | exact h | exact ⟨h.1, h.2, h.3⟩

theorem reach_setWanting (q : List Nat) : Reach s (s.setWanting q) := (Move.wanting s q).reach

theorem reach_joinLoan (id i : Nat) : Reach s (s.joinLoan id i) := by
  unfold State.joinLoan
  dsimp only
  split
  · exact .refl s
  · have h := fun f hr hf l => ((reach_modRecord s i f hr hf).trans (reach_setLoan _ id l)).trans (reach_askProgram _ i)
    exact .ite _ (((h _ (by intro x; rfl) (by intro x h; exact ⟨h.1, h.2, h.3⟩) _).trans (reach_setWanting _ _)).trans (reach_post _ _))
      (h _ (by intro x; rfl) (by intro x h; exact ⟨h.1, h.2, h.3⟩) _)

theorem reach_select (id k : Nat) : Reach s (s.select id k) := by
  unfold State.select; split
  · exact .refl s
  · exact Reach.foldl _ (fun t i => reach_joinLoan t id i) _ s

theorem reach_offer (i : Nat) : Reach s (s.offer i) := by
  unfold State.offer; split
  · exact reach_joinLoan s _ i
  · exact .refl s

theorem reach_enterWanting (id : Nat) : Reach s (s.enterWanting id) := by
  unfold State.enterWanting; split
  · exact .refl s
  · exact .ite _ ((reach_setWanting s _).trans (reach_post _ _)) (.refl s)

theorem reach_fill (id : Nat) : Reach s (s.fill id) := by
  unfold State.fill; split
  · exact .refl s
  · exact (reach_select s id _).trans (reach_enterWanting _ id)

theorem record_closeLatchOf (i j : Nat) : (s.closeLatchOf i).record j = s.record j := by
  unfold State.closeLatchOf; split <;> rfl

theorem reach_leaveLoan (i : Nat) (dest : RecState) (t : Term) : Reach s (s.leaveLoan i dest t) := by
  unfold State.leaveLoan
  dsimp only
  split
  · exact .refl s
  · rename_i x hx
    have h1 : Reach s (if x.state = .released then (s.setTimer i none).closeLatchOf i else s) :=
      .ite _ ((reach_setTimer s i none).trans (reach_closeLatchOf _ i)) (.refl s)
    have hr : State.record (if x.state = .released then (s.setTimer i none).closeLatchOf i else s) i = some x := by
      split
      · rw [record_closeLatchOf]; exact hx
      · exact hx
    have h2 := h1.trans (reach_setRecord _ i x
      { x with state := dest, loan := none, programme := none, due := none, overdueFlag := false } hr rfl
      fun h => ⟨h.1, h.2, h.3⟩)
    have h3 : ∀ {u : State}, Reach s u → Reach s (match x.loan with
        | some id => u.modLoan id fun l => l.without i t
        | none => u) := by
      intro u hu; split
      · exact hu.trans (reach_modLoan _ _ _)
      · exact hu
    refine .ite _ ?_ (h3 h2)
    split
    · exact (h3 h2).trans (reach_loseListener _ _)
    · exact h3 h2

theorem reach_withdraw (i : Nat) : Reach s (s.withdraw i) := by
  unfold State.withdraw; split
  · exact .refl s
  · exact reach_leaveLoan s i _ _

theorem reach_loseBeforeHandout (i : Nat) (dest : RecState) : Reach s (s.loseBeforeHandout i dest) := by
  unfold State.loseBeforeHandout; split
  · exact reach_leaveLoan s i _ _
  · split
    · exact .ite _ ((reach_leaveLoan s i _ _).trans (reach_fill _ _)) (reach_leaveLoan s i _ _)
    · exact reach_leaveLoan s i _ _

theorem reach_closeLoan (id : Nat) : Reach s (s.closeLoan id) := by
  unfold State.closeLoan; split
  · exact .refl s
  · exact .ite _ ((reach_setLoan s id none).trans (reach_post _ _)) (.refl s)

theorem reach_freeTour (t : Nat) : Reach s (s.freeTour t) :=
  ((Reach.foldl _ (fun u p => reach_leaveUse u p) _ s).trans (Move.tour _ t _).reach).trans (reach_post _ _)

theorem reach_testTour (t : Nat) : Reach s (s.testTour t) := .ite _ (reach_freeTour s t) (.refl s)

theorem reach_testLoan (id : Nat) : Reach s (s.testLoan id) := by
  unfold State.testLoan; split
  · exact .refl s
  · exact (reach_closeLoan s id).trans (reach_testTour _ _)

theorem reach_testReserve : Reach s s.testReserve := by
  unfold State.testReserve; split
  · exact .refl s
  · exact .ite _ (Move.ranges s _ _).reach (.refl s)

theorem reach_offerFreed (before : State) (l : List Nat) : Reach s (State.offerFreed before s l) :=
  Reach.foldl _ (fun t i => reach_offer t i) _ s

theorem reach_settle (before : State) (l o : List Nat) : Reach s (State.settle before s l o) :=
  (((Reach.foldl _ (fun t i => reach_testLoan t i) l s).trans (reach_testReserve _)).trans
    (Reach.foldl _ (fun t i => reach_offer t i) o _)).trans (reach_offerFreed _ _ _)

theorem reach_stopWanting (id : Nat) : Reach s (s.stopWanting id) := (reach_modLoan s id _).trans (reach_setWanting _ _)

theorem reach_cancelProgram (i : Nat) : Reach s (s.cancelProgram i) := by
  unfold State.cancelProgram; split
  · exact .refl s
  · exact reach_setChannel s _ _

theorem reach_cancelRecord (i : Nat) : Reach s (s.cancelRecord i) := by
  unfold State.cancelRecord; split
  · exact .refl s
  · split
    · exact (reach_cancelProgram s i).trans (reach_withdraw _ i)
    · exact reach_withdraw s i
    · exact reach_flagWithdraw s i
    · exact .refl s

theorem reach_forceRecord (i : Nat) : Reach s (s.forceRecord i) := by
  unfold State.forceRecord; split
  · exact .refl s
  · split <;> first | exact reach_leaveLoan s i _ _ | exact reach_cancelRecord s i

theorem reach_cancelLoan (id : Nat) : Reach s (s.cancelLoan id) :=
  (reach_stopWanting s id).trans (Reach.foldl _ (fun t i => reach_cancelRecord t i) _ _)

theorem reach_forceLoan (id : Nat) : Reach s (s.forceLoan id) :=
  (reach_stopWanting s id).trans (Reach.foldl _ (fun t i => reach_forceRecord t i) _ _)

/-! ## Allocator -/

/-- A demand is at most 600 mA (R72). -/
theorem Record.demand_le (x : Record) : x.demand ≤ 600 := by
  unfold Record.demand
  split
  · omega
  · split
    · omega
    · split
      · omega
      · split
        · omega
        · split <;> omega

theorem demand_le (r b : Nat) : s.demand r b ≤ 600 := by
  unfold State.demand; split
  · exact Record.demand_le _
  · omega

/-- A share is at most the demand (R77). -/
theorem share_le (a t d : Nat) : share a t d ≤ d := by
  unfold share; split
  · exact Nat.le_refl d
  · rename_i h
    exact Nat.div_le_of_le_mul (by rw [Nat.mul_comm t d]; exact Nat.mul_le_mul_left d (by omega))

theorem Turn.give_le (t : Turn) (d : Nat) : t.give d ≤ d := by
  unfold Turn.give; split
  · exact share_le _ _ _
  · omega

theorem stagedShare_le (r : Nat) (t : Turns) (b : Nat) : s.stagedShare r t b ≤ 600 :=
  Nat.le_trans (Turn.give_le _ _) (demand_le s r b)

theorem reach_stageBays (r : Nat) (give : Nat → Nat) (bs : List Nat) (h : ∀ b, give b ≤ 600) :
    Reach s (s.stageBays r give bs) :=
  .foldl _ (fun u b => (Move.drive u r b { u.drive r b with staged := give b } fun k => ⟨k.1, k.2, h b⟩).reach) bs s

theorem reach_restage (r : Nat) : Reach s (s.restage r) := by
  have h := reach_stageBays s r (s.stagedShare r (s.turns r)) bayNumbers (stagedShare_le s r _)
  rw [restage_eq]
  exact .ite _ (h.trans (reach_post _ _)) h

theorem reach_settleCharge (before : State) (l : List Nat) : Reach s (State.settleCharge before s l) :=
  (Move.charge s s.promotedSet s.charge.frameTime).reach.trans (Reach.foldl _ (fun t r => reach_restage t r) _ _)

theorem reach_finish (before : State) (l : List Nat) : Reach s (State.finish before s l) :=
  ((Reach.foldl _ (fun t r => reach_handOver t r) _ s).trans (reach_finishFloors _ _)).trans (reach_settleCharge _ _ _)

theorem reach_applyRack (r : Nat) : Reach s (s.applyRack r) := by
  unfold State.applyRack
  exact ((Move.limits s r { s.rackCharge r with appliedLimit := (s.rackCharge r).stagedLimit } (.inl rfl) id
    fun h _ => h).reach).trans
    (Reach.foldl _ (fun t b => (Move.drive t r b (t.drive r b).apply fun h => ⟨rfl, h.3, h.3⟩).reach) _ _)

theorem reach_cutDrive (r b : Nat) : Reach s (s.cutDrive r b) :=
  (Move.drive s r b { s.drive r b with applied := 0, duty := 0 } fun h => ⟨by simp, Nat.zero_le _, h.3⟩).reach

end Sys2Proof.Machine
end

