-- ==== Sys2Proof/Laws/MovesStep.lean ====
section
/-! SUPPORT. Every step is a chain of moves. -/

namespace Sys2Proof.Machine

variable (s : State)

/-! ## Answers -/

theorem reach_respond (l : Link) (a : Answer) (h : Reach s a.1) : Reach s (State.respond l a) :=
  h.trans (Move.port a.1 l ((a.1.port l).answer a.2) fun k => ⟨k.1, k.2⟩).reach

theorem reach_carryIgnored (l : Link) (ends : Bool) : Reach s (s.carryIgnored l ends) :=
  (Move.draws s (s.draws + 1)).reach.trans (Move.port _ l ((s.draw.2.port l).carryIgnored _ ends) fun k => ⟨k.1, k.2⟩).reach

theorem reach_passOver (l : Link) (ends : Bool) : Reach s (s.passOver l ends) :=
  .ite _ (Move.port s l ((s.port l).whileHeld ends) fun k => ⟨k.1, k.2⟩).reach
    (.ite _ (reach_carryIgnored s l ends) (Move.port s l ((s.port l).carryNothing ends) fun k => ⟨k.1, k.2⟩).reach)

theorem reach_readTransaction (l : Link) (n : Nat) (ends : Bool) : Reach s (s.readTransaction l n ends) := by
  unfold State.readTransaction
  split
  case h_1 | h_2 | h_3 => exact (Move.port s l ((s.port l).readOut n ends) fun k => ⟨k.1, k.2⟩).reach
  all_goals exact reach_passOver s l ends

theorem reach_abortedTransaction (l : Link) (bytes : List Byte) (ends : Bool) :
    Reach s (s.abortedTransaction l bytes ends) := by
  unfold State.abortedTransaction
  refine .ite _ ?_ (reach_passOver s l ends)
  split
  · exact (Move.port s l ((s.port l).opened ends) fun k => ⟨k.1, k.2⟩).reach
  · rename_i first rest
    exact .ite _ (Move.port s l ((s.port l).gather rest ends) fun k => ⟨k.1, k.2⟩).reach (reach_carryIgnored s l ends)

/-- A command's outcome is a next state that a chain of moves leads to. -/
def Runs (s : State) (o : Host.Outcome State Fault Refusal) : Prop := ∃ t, o = .next t ∧ Reach s t

theorem runs_event {t : State} (h : Reach s t) : Runs s (s.event t) := ⟨_, rfl, .ite _ (.refl s) h⟩

theorem runs_timed {due : Bool} {t : State} (h : Reach s t) : Runs s (s.timed due t) := runs_event s (.ite _ h (.refl s))

theorem runs_serve (l : Link) (a : Answer) (h : Reach s a.1) : Runs s (s.serve l a) :=
  ⟨_, rfl, .ite _ (reach_respond s l a h) (reach_passOver s l true)⟩

theorem runs_serveRead (l : Link) (g : Group) (a : Answer) (h : Reach s a.1) : Runs s (s.serveRead l g a) := by
  refine runs_serve s l _ ?_
  split
  · exact h
  · exact .refl s

theorem runs_serveWrite (l : Link) (g : Group) (a : Answer) (h : Reach s a.1) : Runs s (s.serveWrite l g a) := by
  refine runs_serve s l _ ?_
  split
  · exact h
  · exact .refl s

theorem reach_byRid (rid : Nat) (f : Nat → Record → Answer) (h : ∀ i x, s.record i = some x → Reach s (f i x).1) :
    Reach s (s.byRid rid f).1 := by
  unfold State.byRid
  split
  · exact .refl s
  · split
    · exact .refl s
    · split
      · exact .refl s
      · rename_i x hx; exact h _ x hx

theorem reach_byLoan (id : Nat) (f : Loan → Answer) (h : ∀ l, Reach s (f l).1) : Reach s (s.byLoan id f).1 := by
  unfold State.byLoan
  split
  · exact .refl s
  · split
    · exact .refl s
    · exact h _

theorem reach_underReserveUse (l : Link) (b : Bool) (a : Answer) (h : Reach s a.1) : Reach s (s.underReserveUse l b a).1 := by
  unfold State.underReserveUse
  split
  · exact .refl s
  · exact h

theorem reach_underLock (a : Answer) (h : Reach s a.1) : Reach s (s.underLock a).1 := by
  unfold State.underLock
  split
  · exact .refl s
  · exact h

/-! ## FLEET requests -/

theorem newRecord_fits (rid : Nat) (g : Generation) : (newRecord rid g).Fits :=
  ⟨Nat.zero_le _, Nat.zero_le _, Nat.zero_le _⟩

theorem reach_readRecord (i : Nat) : Reach s (s.readRecord i).1 := by
  unfold State.readRecord
  split
  · exact .refl s
  · split <;> exact .refl s

theorem reach_enrol (rid g : Nat) (index : Option Nat) : Reach s (s.enrol rid g index).1 := by
  unfold State.enrol
  split
  · exact .refl s
  · rename_i gen _
    split
    · exact .refl s
    · rename_i h0
      have hc : ∀ i, ¬ (s.indexOfRid rid).isSome = true → Reach s (s.enrolAt rid gen i).1 := fun i h =>
        (Move.create s i (newRecord rid gen) h0 (by simpa [newRecord] using h) (newRecord_fits rid gen)).reach
      split
      · split
        · exact .refl s
        · split
          · exact .refl s
          · split
            · exact .refl s
            · exact hc _ (by assumption)
      · split
        · exact .refl s
        · split
          · exact .refl s
          · exact hc _ (by assumption)

theorem reach_retire (rid : Nat) : Reach s (s.retire rid).1 := by
  refine reach_byRid s rid _ fun i x hx => ?_
  have h : Reach s (s.setRecord i (some { x with state := .retired })) :=
    reach_setRecord s i x _ hx (by rfl) (fun h => ⟨h.1, h.2, h.3⟩)
  split <;> first
    | exact (h.trans (reach_removeQueuedOf _ i)).trans (reach_finish _ s [])
    | exact .refl s

theorem reach_prepareAgain (i : Nat) (x : Record) (hx : s.record i = some x) : Reach s (s.prepareAgain i x) :=
  (reach_setRecord s i x { x with state := .docked, usagePending := true } hx (by rfl) (fun h => ⟨h.1, h.2, h.3⟩)).trans
    (reach_askReadUsage _ i)

theorem reach_reinstate (rid : Nat) : Reach s (s.reinstate rid).1 := by
  refine reach_byRid s rid _ fun i x hx => ?_
  split
  · split
    · exact .refl s
    · exact (reach_prepareAgain s i x hx).trans (reach_finish _ s [])
  · exact reach_setRecord s i x { x with state := .absent } hx (by rfl) (fun h => ⟨h.1, h.2, h.3⟩)
  · exact .refl s

theorem reach_removeRecord (rid : Nat) : Reach s (s.removeRecord rid).1 := by
  refine reach_byRid s rid _ fun i x _ => ?_
  split
  · exact (Move.remove s i).reach.trans (Reach.foldl _ (fun t id => reach_modLoan t id _) _ _)
  · exact .refl s

theorem reach_clearFaultRecord (rid : Nat) : Reach s (s.clearFaultRecord rid).1 := by
  refine reach_byRid s rid _ fun i x hx => ?_
  split
  · exact (reach_prepareAgain s i x hx).trans (reach_finish _ s [])
  · exact .refl s

theorem reach_clearFaultBay (r b : Nat) : Reach s (s.clearFaultBay r b).1 := by
  unfold State.clearFaultBay
  split
  · exact .refl s
  · split
    · exact ((reach_moveBay s r b _).trans (reach_ask _ _ _ _ _ _)).trans (reach_finish _ s [])
    · exact .refl s

theorem reach_writeOff (rid : Nat) : Reach s (s.writeOff rid).1 := by
  refine reach_byRid s rid _ fun i x _ => ?_
  split <;> first
    | exact ((reach_leaveLoan s i _ _).trans (reach_settle _ s _ _)).trans (reach_finish _ s [])
    | exact .refl s

/-! ## LOAN requests -/

theorem reach_issue (t p n : Nat) (f : Bool) : Reach s (s.issue t p n f).1 := by
  unfold State.issue
  split
  · exact .refl s
  · split
    · exact .refl s
    · split
      · exact .refl s
      · split
        · exact .refl s
        · exact ((reach_setLoan s _ _).trans (reach_fill _ _)).trans (reach_finish _ s [])

theorem reach_addToLoan (id n : Nat) : Reach s (s.addToLoan id n).1 := by
  unfold State.addToLoan
  split
  · exact .refl s
  · split
    · exact .refl s
    · split
      · exact .refl s
      · split
        · exact .refl s
        · exact ((reach_setLoan s _ _).trans (reach_fill _ _)).trans (reach_finish _ s [])

theorem reach_cancel (id : Nat) : Reach s (s.cancel id).1 := by
  refine reach_byLoan s id _ fun l => ?_
  split
  · exact .refl s
  · exact ((reach_cancelLoan s id).trans (reach_settle _ s _ _)).trans (reach_finish _ s [])

theorem reach_extend (id due : Nat) : Reach s (s.extend id due).1 := by
  refine reach_byLoan s id _ fun l => ?_
  refine (reach_setLoan s id _).trans (Reach.foldl _ (fun t i => reach_modRecord t i _ (fun x => ?_) fun x h => ?_) _ _)
  · unfold Record.extended; dsimp only; split <;> (try split) <;> rfl
  · unfold Record.extended; dsimp only; split <;> (try split) <;> exact ⟨h.1, h.2, h.3⟩

/-! ## TOUR requests -/

theorem reach_takeProgramme (t : Nat) (e : Nat × Nat) : Reach s (s.takeProgramme t e) := by
  unfold State.takeProgramme
  refine ((reach_setProgramme s _ _).trans (Move.floor _ _ _ fun _ => ⟨?_, ?_⟩).reach).trans (Move.key _ _ fun h => ?_).reach
  · exact (by decide : 1 ≤ 8)
  · exact (by decide : 8 ≤ 8)
  · change 1 ≤ s.tours.nextKey ∧ s.tours.nextKey ≤ 65535 at h
    split <;> omega

theorem reach_openTour (d : Nat) (c : List Nat) : Reach s (s.openTour d c).1 := by
  unfold State.openTour
  split
  · exact .refl s
  · split
    · exact .refl s
    · dsimp only
      split
      · exact .refl s
      · exact (Reach.foldl _ (fun u e => reach_takeProgramme u _ e) _ s).trans (Move.tour _ _ _).reach

theorem reach_closeTour (t : Nat) : Reach s (s.closeTour t).1 := by
  unfold State.closeTour
  split
  · exact .refl s
  · split
    · exact .refl s
    · exact ((((((Move.tour s t _).reach.trans (Reach.foldl _ (fun u i => reach_cancelLoan u i) _ _)).trans
        (reach_closeFloors _ _)).trans (Reach.foldl _ (fun u i => reach_closeLoan u i) _ _)).trans
        (reach_testTour _ t)).trans (reach_settle _ s _ _)).trans (reach_finish _ s [])

theorem reach_forceClose (t : Nat) : Reach s (s.forceClose t).1 := by
  unfold State.forceClose
  split
  · exact .refl s
  · split
    · exact .refl s
    · exact (((((Reach.foldl _ (fun u i => reach_forceLoan u i) _ s).trans
        (Reach.foldl _ (fun u i => reach_closeLoan u i) _ _)).trans (reach_closeFloors _ _)).trans
        (reach_freeTour _ t)).trans (reach_settle _ s _ _)).trans (reach_finish _ s [])

theorem reach_setRelay (p : Nat) (b : Bool) : Reach s (s.setRelay p b).1 := by
  unfold State.setRelay
  split
  · exact .refl s
  · split
    · exact .refl s
    · have h : Reach s (s.setProgramme p { s.programme p with relay := b }) := reach_setProgramme s p _
      refine Reach.trans ?_ (reach_finishFloors _ s)
      exact .ite _ (.ite _ (h.trans (reach_pushCascade _ p)) (h.trans (reach_dropCascade _ p))) h

/-! ## FLOOR requests -/

theorem reach_bindMic (m p q : Nat) : Reach s (s.bindMic m p q).1 := by
  unfold State.bindMic
  repeat' split
  all_goals first | exact .refl s | exact reach_setMic s m _

theorem reach_unbindRequest (m : Nat) : Reach s (s.unbindRequest m).1 := by
  unfold State.unbindRequest
  repeat' split
  all_goals first | exact .refl s | exact reach_setMic s m _

theorem reach_requestFloor (p m : Nat) : Reach s (s.requestFloor p m) :=
  (((reach_setMic s m _).trans (reach_enterPending _ p m)).trans (reach_reevaluate _ p)).trans (reach_finishFloors _ s)

theorem reach_talkRequest (m : Nat) : Reach s (s.talkRequest m).1 := by
  unfold State.talkRequest
  split
  · exact .refl s
  · split
    · exact .refl s
    · exact .ite _ (reach_requestFloor s _ m) (.refl s)

theorem reach_talkActive (m : Nat) : Reach s (s.talkActive m).1 := by
  unfold State.talkActive
  repeat' split
  all_goals first | exact .refl s | exact reach_startTalking s m

theorem reach_talkRelease (m : Nat) : Reach s (s.talkRelease m).1 := by
  unfold State.talkRelease
  repeat' split
  all_goals first
    | exact .refl s
    | exact ((reach_removeMic s _ m).trans (reach_settleFloor _ _)).trans (reach_finishFloors _ s)

theorem reach_cut (p : Nat) : Reach s (s.cut p).1 := by
  unfold State.cut
  repeat' split
  all_goals first
    | exact .refl s
    | exact (reach_cutTop s p _).trans (reach_finishFloors _ s)

/-- A fitted value lies in its range (R181). -/
theorem fit_bounds {low high : Nat} (h : low ≤ high) (v : Nat) : low ≤ fit low high v ∧ fit low high v ≤ high := by
  unfold fit; omega

theorem reach_setMask (p level : Nat) : Reach s (s.setMask p level).1 := by
  unfold State.setMask
  split
  · exact .refl s
  · split
    · exact .refl s
    · exact ((Move.floor s p { s.floorOf p with mask := fit 1 8 level } fun _ => fit_bounds (by decide) level).reach.trans
        (reach_reevaluate _ p)).trans (reach_finishFloors _ s)

/-! ## AIR requests -/

theorem reach_reportBeacon (rid z q : Nat) : Reach s (s.reportBeacon rid z q).1 := by
  unfold State.reportBeacon
  split
  · exact .refl s
  · split
    · exact (Move.age s { s.age with unknownBeacons := min 65535 (s.age.unknownBeacons + 1) }
        fun h => ⟨h.1, Nat.min_le_left _ _⟩).reach
    · have h : ∀ i, Reach s (s.modRecord i fun x => x.heard s.age.clock z q) := fun i =>
        reach_modRecord s i _ (by intro x; unfold Record.heard; dsimp only; split <;> rfl)
          (by intro x h; unfold Record.heard; dsimp only; split <;> exact ⟨h.1, h.2, h.3⟩)
      exact .ite _ ((h _).trans (reach_post _ _)) (h _)

/-! ## SETTINGS requests -/

theorem reach_setSettings (v : Settings) (h : s.settings.Fits → v.Fits) : Reach s (s.setSettings v) :=
  (Move.settings s v h).reach

theorem reach_setRackLimit (r v : Nat) : Reach s (s.setRackLimit r v).1 := by
  unfold State.setRackLimit
  split
  · exact .refl s
  · refine (Move.limits s r { s.rackCharge r with stagedLimit := fit 0 16000 v / 50 * 50 } (.inl rfl) (fun _ => ?_)
      fun _ h => h).reach.trans (reach_finish _ s _)
    have := (fit_bounds (by decide : 0 ≤ 16000) v).2
    show fit 0 16000 v / 50 * 50 ≤ 16000 ∧ fit 0 16000 v / 50 * 50 % 50 = 0
    omega

theorem reach_firePoll (r : Nat) : Reach s (s.firePoll r) := by
  refine (reach_setChannel s r _).trans (Reach.foldl _ (fun t b => ?_) _ _)
  split
  · exact reach_ask t r b _ _ _
  · exact .refl t

theorem reach_testAndOffer (i : Nat) : Reach s (s.testAndOffer i) :=
  .ite _ ((reach_testReadiness s i).trans (reach_offer _ i)) (reach_testReadiness s i)

theorem reach_expireAll (l : List Nat) : Reach s (s.expireAll l) := by
  unfold State.expireAll
  have h : Reach s (if l.length ≤ 1 then s else s.draw.2) := .ite _ (.refl s) (Move.draws s _).reach
  have k := h.trans (Reach.foldl (fun t m => if t.keepAliveDue m then t.expireAmong m else t)
    (fun t m => .ite _ (reach_expireAmong t m) (.refl t)) (arrange (Config.simultaneousOrder s.draws) l.length l) _)
  exact .ite _ (k.trans (reach_dropCascadesIfSilent _)) k

theorem reach_setDlSlots (v : Nat) : Reach s (s.setDlSlots v).1 := by
  unfold State.setDlSlots
  dsimp only
  split
  · rename_i hf
    have h : Reach s (s.setSplit (fit 16 56 v)) := (Move.split s _ hf (fit_bounds (by decide) v)).reach
    refine Reach.trans ?_ (reach_finishFloors _ s)
    exact .ite _ (h.trans (reach_serveDownlink _ _)) (.ite _ (h.trans (reach_offerUplink _)) h)
  · exact .refl s

theorem reach_stageReserve (g : Option (Nat × Nat)) : Reach s (s.stageReserve g) := by
  unfold State.stageReserve
  split
  · exact (Move.ranges s none s.fleet.staged).reach
  · exact (Move.ranges s s.fleet.applied (some _)).reach.trans (reach_testReserve _)

theorem reach_setReserve (g : Option (Nat × Nat)) : Reach s (s.setReserve g).1 := by
  unfold State.setReserve
  split
  · exact .refl s
  · split
    · exact .refl s
    · exact ((reach_stageReserve s g).trans (reach_offerFreed _ s [])).trans (reach_finish _ s [])

theorem reach_setAccess (a b c : Nat) (f : Bool) : Reach s (s.setAccess a b c f).1 := by
  unfold State.setAccess
  split
  · exact (Move.rights s _ _).reach
  · exact .refl s

/-! ## Links and resets -/

theorem kept_nil (p : Port) (h : p.notices = []) : p.Kept := ⟨by rw [h]; simp, by rw [h]; exact .nil⟩

theorem kept_withMask (p : Port) (m : BitVec 16) (h : p.Kept) : (p.withMask m).Kept :=
  ⟨fun _ hn => (List.mem_filter.mp hn).2, h.2.filter _⟩

theorem reach_unknownRequest (l : Link) (c : Nat) (a : List Byte) : Reach s (s.unknownRequest l c a).1 := by
  unfold State.unknownRequest
  repeat' split
  all_goals first | exact .refl s | exact reach_underLock s _ (.refl s)

theorem reach_restartFleet : Reach s s.restartFleet :=
  (Reach.foldl _ (fun t i => reach_modRecord t i Record.restarted (by intro _; rfl) (by intro _ h; exact ⟨h.1, h.2, h.3⟩)) _ s).trans
    (Move.ranges _ _ none).reach

theorem restartedScanner_tidy (n : Nat) : (restartedScanner n).Tidy := by
  have : ∀ (l : List Nat) (t : Table Bay), Table.wf (fun _ => resetBay) t = true →
      Table.wf (fun _ => resetBay)
        (l.foldl (fun t b => Table.write (fun _ => resetBay) t b { resetBay with baseline := n }) t) = true := by
    intro l
    induction l with
    | nil => exact fun t h => h
    | cons b l ih => exact fun t h => ih _ (Table.wf_write _ _ _ _ h)
  exact this bayNumbers [] rfl

theorem reach_restartRacks : Reach s s.restartRacks :=
  (Move.clearRacks s).reach.trans
    (Reach.foldl _ (fun t r => (Move.scanner t r _ (fun _ => restartedScanner_tidy _) fun _ => Nat.zero_le _).reach) _ _)

/-- Racks whose charge state is that of the state before, with no drive on. -/
theorem restart_limits (l : List Nat) (t : State)
    (h : ∀ r, (t.rackCharge r).stagedLimit = (s.rackCharge r).stagedLimit ∧
      (t.rackCharge r).appliedLimit = (s.rackCharge r).appliedLimit) :
    Reach t (l.foldl (fun t r => t.setRackCharge r { s.rackCharge r with drives := [] }) t) := by
  induction l generalizing t with
  | nil => exact .refl t
  | cons r l ih =>
    refine Reach.trans (Move.limits t r { s.rackCharge r with drives := [] } (.inr rfl) ?_ ?_).reach (ih _ fun q => ?_)
    · intro k; rw [(h r).1] at k; exact k
    · intro _ k; rw [(h r).2] at k; exact k
    · rw [rackCharge_setRackCharge]
      split
      · rename_i e; subst e; exact ⟨rfl, rfl⟩
      · exact h q

theorem reach_restartCharge : Reach s s.restartCharge :=
  (restart_limits s rackNumbers s fun _ => ⟨rfl, rfl⟩).trans (Move.charge _ [] 0).reach

theorem reach_restartTours : Reach s s.restartTours :=
  (Move.clearTours s).reach.trans (Reach.foldl _ (fun t p => reach_setProgramme t p _) _ _)

theorem reach_restartRest : Reach s s.restartRest :=
  (((Move.clearLoans s).reach.trans (Move.clearFloors _).reach).trans (Move.clearAir _).reach).trans
    (Move.age _ { clock := s.age.clock, clockPhase := 0, sweepPointer := 0, stepTime := 0, unknownBeacons := 0 }
      fun _ => ⟨⟨Nat.zero_lt_succ _, by simp⟩, Nat.zero_le _⟩).reach

theorem reach_restartPorts : Reach s s.restartPorts :=
  (((Move.port s .desk s.ports.desk.restarted fun _ => kept_nil _ rfl).reach.trans
    (Move.port _ .radio s.ports.radio.restarted fun _ => kept_nil _ rfl).reach).trans
    (Move.port _ .service s.ports.service.restarted fun _ => kept_nil _ rfl).reach)

theorem reach_warmRestart : Reach s s.warmRestart :=
  (((((reach_restartFleet s).trans (reach_restartRacks _)).trans (reach_restartCharge _)).trans
    (reach_restartTours _)).trans (reach_restartRest _)).trans (reach_restartPorts _)

/-! ## Rack events -/

theorem reach_handOut (i : Nat) (x : Record) (hx : s.record i = some x) : Reach s (s.handOut i x) := by
  have h : Reach s ((s.setTimer i none).setRecord i (some { x with state := .onLoan, lastHeard := some s.age.clock })) :=
    (reach_setTimer s i none).trans (reach_setRecord _ i x _ hx (by rfl) (fun h => ⟨h.1, h.2, h.3⟩))
  unfold State.handOut
  dsimp only
  split
  · exact h.trans (reach_modLoan _ _ _)
  · exact h

theorem reach_departRecord (i : Nat) : Reach s (s.departRecord i) := by
  unfold State.departRecord
  split
  · exact .refl s
  · rename_i x hx
    have h : Reach s (s.setRecord i (some { x with state := .absent })) :=
      reach_setRecord s i x _ hx (by rfl) (fun h => ⟨h.1, h.2, h.3⟩)
    split <;> first
      | exact reach_handOut s i x hx
      | exact h.trans (reach_post _ _)
      | exact ((reach_loseBeforeHandout s i _).trans (reach_post _ _)).trans (reach_settle _ s _ _)
      | exact h
      | exact .refl s

theorem reach_depart (r b : Nat) : Reach s (s.depart r b) := by
  have h := fun v => (((reach_setBay s r b v).trans (reach_cutDrive _ r b)).trans (reach_removeQueued _ r b)).trans
    (reach_wake _ r)
  unfold State.depart
  dsimp only
  split
  · exact h _
  · exact ((h _).trans (reach_modRecord _ _ _ (by intro _; rfl) (by intro _ h; exact ⟨h.1, h.2, h.3⟩))).trans (reach_departRecord _ _)

theorem reach_countAbsent (r b : Nat) (p : Bool) : Reach s (s.countAbsent r b p) :=
  .ite _ (reach_setBay s r b _) (.ite _ (reach_setBay s r b _)
    ((reach_moveBay s r b _).trans (reach_removeQueued _ r b)))

theorem reach_evaluate (r b v : Nat) : Reach s (s.evaluate r b v) := by
  have h : Reach s (s.setBay r b { s.bay r b with sense := v }) := reach_setBay s r b _
  unfold State.evaluate
  dsimp only
  split
  · exact .ite _ (h.trans (reach_moveBay _ _ _ _)) (h.trans (reach_setBay _ _ _ _))
  · exact .ite _ ((h.trans (reach_moveBay _ _ _ _)).trans (reach_ask _ _ _ _ _ _)) (h.trans (reach_moveBay _ _ _ _))
  · exact h.trans (reach_countAbsent _ _ _ _)
  · exact h.trans (reach_countAbsent _ _ _ _)
  · exact h.trans (reach_countAbsent _ _ _ _)
  · exact .ite _ h (h.trans (reach_moveBay _ _ _ _))
  · exact .ite _ (h.trans (reach_moveBay _ _ _ _)) (h.trans (reach_depart _ _ _))

theorem reach_advanceSweep (r : Nat) : Reach s (s.advanceSweep r) := by
  refine reach_setScanner s r _ ?_ ?_
  · split <;> rfl
  · split
    · exact .inr (by assumption)
    · exact .inl rfl

theorem reach_scanCompletion (r v : Nat) : Reach s (s.scanCompletion r v) :=
  .ite _ (((reach_evaluate s r _ v).trans (reach_advanceSweep _ r)).trans (reach_finish _ s [])) (.refl s)

theorem reach_sweepWaitExpiry (r : Nat) : Reach s (s.sweepWaitExpiry r) :=
  .ite _ (reach_setScanner s r _ (by rfl) (.inr (Nat.zero_le _))) (.refl s)

theorem reach_coolIfQuiet (r : Nat) : Reach s (s.coolIfQuiet r) := .ite _ (reach_cool s r) (.refl s)

theorem reach_coldAfterExpiry (r : Nat) : Reach s (s.coldAfterExpiry r) := .ite _ (reach_coolIfQuiet s r) (.refl s)

theorem reach_countFault (i : Nat) : Reach s (s.countFault i) :=
  (reach_modRecord s i _ (by intro _; rfl) (by intro _ h; exact ⟨h.1, h.2, Nat.min_le_left _ _⟩)).trans (reach_post _ _)

theorem reach_faultRecord (i : Nat) : Reach s (s.faultRecord i) := by
  unfold State.faultRecord
  dsimp only
  split
  · exact .refl s
  · have h := reach_countFault s i
    split <;> first
      | exact h.trans (reach_modRecord _ _ _ (by intro _; rfl) (by intro _ h; exact ⟨h.1, h.2, h.3⟩))
      | exact (h.trans (reach_loseBeforeHandout _ i _)).trans (reach_settle _ s _ _)
      | exact h

theorem reach_faultBay (r b : Nat) : Reach s (s.faultBay r b) := (reach_moveBay s r b _).trans (reach_post _ _)

theorem reach_failRequest (r : Nat) (q : Req) : Reach s (s.failRequest r q) := by
  unfold State.failRequest
  split
  · exact reach_faultBay s r _
  · exact reach_faultRecord s _
  · exact .refl s

theorem reach_endWithdrawn (i : Nat) : Reach s (s.endWithdrawn i) := (reach_withdraw s i).trans (reach_settle _ s _ _)

theorem reach_confirmAbsent (r : Nat) (q : Req) : Reach s (s.confirmAbsent r q) := by
  unfold State.confirmAbsent
  split
  · exact (reach_endAttempt s r).trans (reach_moveBay _ _ _ _)
  · exact (reach_endAttempt s r).trans (reach_depart _ _ _)

theorem reach_confirmBay (r b : Nat) : Reach s (s.confirmBay r b) := by
  unfold State.confirmBay
  split
  · exact reach_moveBay s r b _
  · exact reach_setBay s r b _
  · exact .refl s

theorem reach_confirmPresent (r : Nat) (q : Req) : Reach s (s.confirmPresent r q) := by
  have h := (reach_confirmBay s r q.bay).trans (reach_endAttempt _ r)
  unfold State.confirmPresent
  refine .ite _ ?_ (.ite _ (h.trans (reach_requeue _ r q)) (h.trans (reach_failRequest _ r q)))
  split
  · exact h.trans (reach_endWithdrawn _ _)
  · exact h

theorem reach_confirmingScan (r v : Nat) : Reach s (s.confirmingScan r v) := by
  unfold State.confirmingScan
  split
  · exact .refl s
  · rename_i q _
    have h : Reach s (s.setBay r q.bay { s.bay r q.bay with sense := v }) := reach_setBay s r _ _
    exact .ite _ (.ite _ ((h.trans (reach_confirmPresent _ r q)).trans (reach_finish _ s _))
      ((h.trans (reach_confirmAbsent _ r q)).trans (reach_finish _ s []))) (.refl s)

theorem reach_foreignBay (r b : Nat) (n : Notice) : Reach s (s.foreignBay r b n) :=
  (reach_moveBay s r b _).trans (reach_post _ n)

theorem reach_occupy (r b i : Nat) : Reach s (s.occupy r b i) := (reach_moveBay s r b _).trans (reach_setBay _ r b _)

theorem reach_bindDocked (r b i : Nat) (g : Generation) (v : Report) (x y : Record) (hy : s.record i = some y)
    (hr : x.rid = y.rid) (hf : y.Fits → x.Fits) : Reach s (s.bindDocked r b i g v x) :=
  ((reach_setRecord s i y { x.bound r b g v with state := .docked, usagePending := true } hy hr
    (fun h => ⟨(hf h).1, (hf h).2, (hf h).3⟩)).trans (reach_occupy _ r b i)).trans (reach_ask _ _ _ _ _ _)

theorem reach_bindFound (r b i : Nat) (g : Generation) (v : Report) (x : Record) (hx : s.record i = some x) :
    Reach s (s.bindFound r b i g v x) := by
  have hl : Reach s (s.bindReturned r b i g v) := by
    have h := reach_leaveLoan s i .docked .returned
    unfold State.bindReturned
    dsimp only
    refine Reach.trans ?_ (reach_settle _ s _ _)
    split
    · rename_i y hy
      exact h.trans (reach_bindDocked _ r b i g v { y with backFromLoan := true } y hy rfl (fun h => ⟨h.1, h.2, h.3⟩))
    · exact h
  have hr : Reach s ((s.setRecord i (some (x.bound r b g v))).occupy r b i) :=
    (reach_setRecord s i x (x.bound r b g v) hx (by rfl) (fun h => ⟨h.1, h.2, h.3⟩)).trans (reach_occupy _ r b i)
  unfold State.bindFound
  refine .ite _ (reach_foreignBay s r b _) ?_
  split <;> first
    | exact reach_bindDocked s r b i g v x x hx rfl id
    | exact hl
    | exact hr
    | exact reach_foreignBay s r b _

theorem reach_bindNew (r b i : Nat) (g : Generation) (v : Report) (h0 : v.rid ≠ 0) (h : s.indexOfRid v.rid = none) :
    Reach s (s.bindDocked r b i g v (newRecord v.rid g)) :=
  have h1 : Reach s
      (s.setRecord i (some { (newRecord v.rid g).bound r b g v with state := .docked, usagePending := true })) :=
    (Move.create s i _ h0 h ⟨Nat.zero_le _, Nat.zero_le _, Nat.zero_le _⟩).reach
  (h1.trans (reach_occupy _ r b i)).trans (reach_ask _ _ _ _ _ _)

theorem reach_identified (r : Nat) (q : Req) (v : Report) : Reach s (s.identified r q v) := by
  have h := reach_endAttempt s r
  unfold State.identified
  dsimp only
  split
  · exact h.trans (reach_foreignBay _ _ _ _)
  · by_cases h0 : v.rid = 0 ∨ v.firmware = 0
    · rw [if_pos h0]; exact h.trans (reach_foreignBay _ _ _ _)
    · rw [if_neg h0]
      split
      · rename_i hf
        split
        · exact h.trans (reach_foreignBay _ _ _ _)
        · exact h.trans (reach_bindNew _ r _ _ _ v (fun e => h0 (.inl e)) hf)
      · split
        · exact h
        · rename_i x hx
          exact h.trans (reach_bindFound _ r _ _ _ v x hx)

theorem reach_gainListener' (p : Option Nat) {t : State} (h : Reach s t) :
    Reach s (match p with | some p => t.gainListener p | none => t) := by
  split
  · exact h.trans (reach_gainListener _ _)
  · exact h

theorem reach_programmed (r : Nat) (q : Req) : Reach s (s.programmed r q) := by
  have h := reach_endAttempt s r
  unfold State.programmed
  dsimp only
  split
  · exact h
  · refine .ite _ (h.trans (reach_endWithdrawn _ _)) ?_
    split
    · exact h
    · rename_i x hx
      have h1 := h.trans (reach_setRecord _ _ x { x with state := .released } hx (by rfl) (fun h => ⟨h.1, h.2, h.3⟩))
      exact reach_gainListener' s x.programme (((h1.trans (reach_setLatch _ r _ _)).trans (reach_wake _ r)).trans
        (reach_setTimer _ _ _))

theorem usageRead_fits (x : Record) (l : List Nat) (h : x.Fits) : (x.usageRead l).Fits := by
  refine ⟨?_, Nat.min_le_left _ _, h.3⟩
  show (if x.backFromLoan then min max32 (x.loansServed + 1) else x.loansServed) ≤ max32
  split
  · exact Nat.min_le_left _ _
  · exact h.1

theorem reach_usageRead (r : Nat) (q : Req) (l : List Nat) : Reach s (s.usageRead r q l) := by
  have h := reach_endAttempt s r
  unfold State.usageRead
  dsimp only
  split
  · exact h
  · exact (h.trans (reach_modRecord _ _ _ (by intro _; rfl) (by intro x hx; exact usageRead_fits x l hx))).trans
      (reach_testAndOffer _ _)

theorem reach_endGauge (i : Nat) : Reach s (s.endGauge i) := .ite _ (reach_askProgram s i) (.refl s)

theorem reach_gauged (r : Nat) (q : Req) (c : Nat) (f k : Bool) : Reach s (s.gauged r q c f k) := by
  have h := reach_endAttempt s r
  unfold State.gauged
  dsimp only
  split
  · exact h
  · exact .ite _ ((h.trans (reach_faultRecord _ _)).trans (reach_endGauge _ _))
      (((h.trans (reach_modRecord _ _ _ (by intro _; rfl) (by intro _ h; exact ⟨h.1, h.2, h.3⟩))).trans
        (reach_endGauge _ _)).trans (reach_testAndOffer _ _))

theorem reach_complete (r : Nat) (q : Req) (l : List Nat) : Reach s (s.complete r q l) := by
  unfold State.complete
  split
  · exact (reach_programmed s r q).trans (reach_finish _ s _)
  · exact (reach_identified s r q _).trans (reach_finish _ s _)
  · exact (reach_usageRead s r q _).trans (reach_finish _ s _)
  · exact (reach_gauged s r q _ _ _).trans (reach_finish _ s _)

theorem reach_wordCrossed (r w : Nat) : Reach s (s.wordCrossed r w) := by
  unfold State.wordCrossed
  dsimp only
  split
  · exact .ite _ (.ite _ ((reach_setChannel s r _).trans (reach_failAttempt _ r)) (.ite _ (reach_complete s r _ _) (reach_setChannel s r _))) (.refl s)
  · exact .refl s

theorem reach_wordTimeout (r : Nat) : Reach s (s.wordTimeout r) := .ite _ (reach_failAttempt s r) (.refl s)

theorem reach_identifyCompletion (r : Nat) (v : Report) : Reach s (s.identifyCompletion r v) := by
  unfold State.identifyCompletion
  split
  · exact (reach_identified s r _ v).trans (reach_finish _ s _)
  · exact .refl s

theorem reach_programCompletion (r : Nat) : Reach s (s.programCompletion r) := by
  unfold State.programCompletion
  split
  · exact (reach_programmed s r _).trans (reach_finish _ s _)
  · exact .refl s

theorem reach_readUsageCompletion (r : Nat) (l : List Nat) : Reach s (s.readUsageCompletion r l) := by
  unfold State.readUsageCompletion
  split
  · exact (reach_usageRead s r _ l).trans (reach_finish _ s _)
  · exact .refl s

theorem reach_gaugeCompletion (r c : Nat) (f k : Bool) : Reach s (s.gaugeCompletion r c f k) := by
  unfold State.gaugeCompletion
  split
  · exact (reach_gauged s r _ c f k).trans (reach_finish _ s _)
  · exact .refl s

theorem reach_gaugePoll (r : Nat) : Reach s (s.gaugePoll r) :=
  .ite _ ((reach_firePoll s r).trans (reach_finish _ s _)) (.refl s)

/-! ## SETTINGS answers with effects of their own -/

theorem reach_setColdAfter (v : Nat) : Reach s (s.setColdAfter v).1 := by
  unfold State.setColdAfter State.applied State.ok
  dsimp only
  generalize rackNumbers = racks
  exact (reach_setSettings s { s.settings with coldAfter := fit 10 600 v } fun h =>
    { h with coldAfter := fit_bounds (by decide) v }).trans
      (Reach.foldl State.coolIfQuiet (fun t r => reach_coolIfQuiet t r) racks _)

theorem reach_setGaugeInterval (v : Nat) : Reach s (s.setGaugeInterval v).1 :=
  ((reach_setSettings s { s.settings with gaugeInterval := fit 10 300 v } fun h =>
    { h with gaugeInterval := fit_bounds (by decide) v }).trans
    (Reach.foldl _ (fun t r => .ite _ (reach_firePoll t r) (.refl t)) _ _)).trans (reach_finish _ s _)

theorem reach_setReadyLevel (v : Nat) : Reach s (s.setReadyLevel v).1 :=
  ((reach_setSettings s { s.settings with readyLevel := fit 500 1000 v } fun h =>
    { h with readyLevel := fit_bounds (by decide) v }).trans
    (Reach.foldl _ (fun t i => reach_testAndOffer t i) _ _)).trans (reach_finish _ s _)

theorem reach_setKeepalive (v : Nat) : Reach s (s.setKeepalive v).1 :=
  ((reach_setSettings s { s.settings with keepalive := fit 1 10 v } fun h =>
    { h with keepalive := fit_bounds (by decide) v }).trans (reach_expireAll _ _)).trans (reach_finishFloors _ s)

/-! ## Timed events -/

theorem reach_chargeFrameBoundary : Reach s s.chargeFrameBoundary :=
  (Reach.foldl _ (fun t r => reach_applyRack t r) _ s).trans (Move.charge _ _ 0).reach

theorem reach_keepaliveExpiry (m : Nat) : Reach s (s.keepaliveExpiry m) := by
  unfold State.keepaliveExpiry
  split
  · exact (reach_expireKeepAlive s m).trans (reach_finishFloors _ s)
  · exact .refl s

theorem reach_releaseWindowExpiry (i : Nat) : Reach s (s.releaseWindowExpiry i) := by
  unfold State.releaseWindowExpiry
  split
  · exact (((reach_withdraw s i).trans (reach_modLoan _ _ _)).trans (reach_settle _ s _ _)).trans (reach_finish _ s _)
  · exact .refl s

theorem reach_ageDue (i : Nat) (x : Record) (hx : s.record i = some x) :
    Reach s (s.ageDue i x).1 ∧ (s.ageDue i x).1.record i = some (s.ageDue i x).2 := by
  unfold State.ageDue
  split
  · refine ⟨(reach_setRecord s i x { x with overdueFlag := true, state := .overdue } hx (by rfl)
      (fun h => ⟨h.1, h.2, h.3⟩)).trans (reach_post _ _), ?_⟩
    simp [State.record, State.post, State.setRecord]
  · exact ⟨.refl s, hx⟩

theorem reach_ageSilence (i : Nat) (x : Record) (hx : s.record i = some x) : Reach s (s.ageSilence i x) := by
  unfold State.ageSilence
  refine .ite _ ((reach_setRecord s i x { x with state := .missing } hx (by rfl) (fun h => ⟨h.1, h.2, h.3⟩)).trans
    (reach_post _ _)) (.ite _ ?_ (.refl s))
  exact reach_setRecord s i x { x with overdueFlag := true } hx (by rfl) (fun h => ⟨h.1, h.2, h.3⟩)

theorem reach_examine (i : Nat) : Reach s (s.examine i) := by
  unfold State.examine
  split
  · exact .refl s
  · rename_i x hx
    have h := reach_ageDue s i x hx
    exact h.1.trans (reach_ageSilence _ i _ h.2)

theorem age_examine (i : Nat) : (s.examine i).age = s.age := by
  unfold State.examine
  split
  · rfl
  · rename_i x _
    have h : (s.ageDue i x).1.age = s.age := by unfold State.ageDue; split <;> rfl
    unfold State.ageSilence
    split
    · exact h
    · split
      · exact h
      · exact h

theorem age_foldl_examine (f : Nat → Nat) (l : List Nat) (t : State) : (l.foldl (fun t k => t.examine (f k)) t).age = t.age := by
  induction l generalizing t with
  | nil => rfl
  | cons k l ih => exact (ih _).trans (age_examine t _)

theorem reach_sweepStep : Reach s s.sweepStep := by
  have h := Reach.foldl (fun t k => t.examine ((s.age.sweepPointer + k) % 1024)) (fun t k => reach_examine t _)
    (List.range 8) s
  have ha := age_foldl_examine (fun k => (s.age.sweepPointer + k) % 1024) (List.range 8) s
  revert h ha
  unfold State.sweepStep
  dsimp only
  generalize (List.range 8).foldl (fun t k => t.examine ((s.age.sweepPointer + k) % 1024)) s = u
  intro h ha
  refine h.trans (Move.age u { u.age with sweepPointer := (s.age.sweepPointer + 8) % 1024, stepTime := 0 } ?_).reach
  intro k
  have hp := k.1
  rw [ha] at hp
  exact ⟨⟨by dsimp only; omega, by dsimp only; omega⟩, k.2⟩

/-! ## The tick -/

theorem reach_advanceRack (r : Nat) : Reach s (s.advanceRack r) := by
  unfold State.advanceRack
  exact (reach_setScanner s r _ (by dsimp only) (.inl (by dsimp only))).trans (reach_setChannel _ r _)

theorem reach_advance : Reach s s.advance := by
  have h1 := Reach.foldl State.advanceRack (fun t r => reach_advanceRack t r) rackNumbers s
  unfold State.advance
  dsimp only
  generalize rackNumbers.foldl State.advanceRack s = s1 at *
  have h2 := h1.trans (Reach.foldl State.advanceMic (fun t m => reach_setMic t m _) (Table.keys s1.floor.mics) s1)
  generalize (Table.keys s1.floor.mics).foldl State.advanceMic s1 = s2 at *
  have h3 := h2.trans (Reach.foldl State.advanceTimer (fun t i => reach_setTimer t i _) (Table.keys s2.loans.timers) s2)
  generalize (Table.keys s2.loans.timers).foldl State.advanceTimer s2 = s3 at *
  have h4 := h3.trans (Move.charge s3 s3.charge.promoted (s3.charge.frameTime + 1)).reach
  have h5 := h4.trans (Move.frame _ (s3.air.frameTime + 1) s3.air.phaseHigh false).reach
  refine h5.trans (Move.reach ?_)
  exact Move.age _ { s3.age with clockPhase := s3.age.clockPhase + 1, stepTime := s3.age.stepTime + 1 }
    (by intro k; exact ⟨k.1, k.2⟩)

theorem reach_tick : Reach s s.tick := by
  unfold State.tick
  exact ((reach_advance s).trans (Move.queue _ _).reach).trans (Move.draws _ _).reach

/-! ## Every command -/

theorem reach_readLoan (id : Nat) : Reach s (s.readLoan id).1 := reach_byLoan s id _ fun _ => .refl s
theorem reach_findRid (rid : Nat) : Reach s (s.findRid rid).1 := reach_byRid s rid _ fun _ _ _ => .refl s

theorem reach_readSetting (k r : Nat) : Reach s (s.readSetting k r).1 := by
  unfold State.readSetting
  split <;> exact .refl s

theorem reach_readNotices (l : Link) : Reach s (s.readNotices l).1 :=
  (Move.port s l { s.port l with notices := [] } fun _ => kept_nil _ rfl).reach

theorem reach_setNoticeMask (l : Link) (m : Nat) : Reach s (s.setNoticeMask l m).1 :=
  (Move.port s l _ (kept_withMask _ _)).reach

/-- A command answers a next state that a chain of moves leads to. -/
theorem runs_exec (c : Instr) : Runs s (exec c s) := by
  cases c with
  | readStatus l => exact runs_serve s l _ (.refl s)
  | readNotices l => exact runs_serve s l _ (reach_readNotices s l)
  | setNoticeMask l m => exact runs_serve s l _ (reach_setNoticeMask s l m)
  | readRecord l i => exact runs_serveRead s l _ _ (reach_readRecord s i)
  | find l rid => exact runs_serveRead s l _ _ (reach_findRid s rid)
  | enrol l rid g i => exact runs_serveWrite s l _ _ (reach_enrol s rid g i)
  | retire l rid => exact runs_serveWrite s l _ _ (reach_retire s rid)
  | reinstate l rid => exact runs_serveWrite s l _ _ (reach_reinstate s rid)
  | remove l rid => exact runs_serveWrite s l _ _ (reach_removeRecord s rid)
  | clearFaultRecord l rid => exact runs_serveWrite s l _ _ (reach_clearFaultRecord s rid)
  | clearFaultBay l r b => exact runs_serveWrite s l _ _ (reach_clearFaultBay s r b)
  | writeOff l rid => exact runs_serveWrite s l _ _ (reach_writeOff s rid)
  | readBay l r b => exact runs_serveRead s l _ _ (by unfold State.readBay; split <;> exact .refl s)
  | readRack l r => exact runs_serveRead s l _ _ (by unfold State.readRack; split <;> exact .refl s)
  | readLoan l i => exact runs_serveRead s l _ _ (reach_readLoan s i)
  | issue l t p n f => exact runs_serveWrite s l _ _ (reach_underReserveUse s l _ _ (reach_issue s t p n f))
  | add l i n => exact runs_serveWrite s l _ _ (reach_underReserveUse s l _ _ (reach_addToLoan s i n))
  | cancel l i => exact runs_serveWrite s l _ _ (reach_cancel s i)
  | extend l i d => exact runs_serveWrite s l _ _ (reach_extend s i d)
  | readTour l t => exact runs_serveRead s l _ _ (by unfold State.readTour; split <;> exact .refl s)
  | readProgramme l p => exact runs_serveRead s l _ _ (by unfold State.readProgramme; split <;> exact .refl s)
  | openTour l d c => exact runs_serveWrite s l _ _ (reach_openTour s d c)
  | closeTour l t => exact runs_serveWrite s l _ _ (reach_closeTour s t)
  | setRelay l p f => exact runs_serveWrite s l _ _ (reach_setRelay s p f)
  | readFloor l p => exact runs_serveRead s l _ _ (by unfold State.readFloor; split <;> exact .refl s)
  | bindMic l m p q => exact runs_serveWrite s l _ _ (reach_bindMic s m p q)
  | unbindMic l m => exact runs_serveWrite s l _ _ (reach_unbindRequest s m)
  | talkRequest l m => exact runs_serveWrite s l _ _ (reach_talkRequest s m)
  | talkActive l m => exact runs_serveWrite s l _ _ (reach_talkActive s m)
  | talkRelease l m => exact runs_serveWrite s l _ _ (reach_talkRelease s m)
  | cut l p => exact runs_serveWrite s l _ _ (reach_cut s p)
  | setMask l p v => exact runs_serveWrite s l _ _ (reach_setMask s p v)
  | readPlan l => exact runs_serveRead s l _ _ (.refl s)
  | reportBeacon l rid z q => exact runs_serveWrite s l _ _ (reach_reportBeacon s rid z q)
  | readSetting l k r => exact runs_serveRead s l _ _ (reach_readSetting s k r)
  | setSettingRackLimit l r v => exact runs_serveWrite s l _ _ (reach_setRackLimit s r v)
  | setSettingSenseThreshold l r v =>
    exact runs_serveWrite s l _ _ (reach_setSettings s { s.settings with senseThreshold := fit 40 1000 v } fun h =>
      { h with senseThreshold := fit_bounds (by decide) v })
  | setSettingBaseInit l r v =>
    exact runs_serveWrite s l _ _ (reach_setSettings s { s.settings with baseInit := fit 0 4095 v } fun h =>
      { h with baseInit := (fit_bounds (by decide) v).2 })
  | setSettingColdAfter l r v => exact runs_serveWrite s l _ _ (reach_setColdAfter s v)
  | setSettingGaugeInterval l r v => exact runs_serveWrite s l _ _ (reach_setGaugeInterval s v)
  | setSettingReadyLevel l r v => exact runs_serveWrite s l _ _ (reach_setReadyLevel s v)
  | setSettingReleaseWindow l r v =>
    exact runs_serveWrite s l _ _ (reach_setSettings s { s.settings with releaseWindow := fit 10 300 v } fun h =>
      { h with releaseWindow := fit_bounds (by decide) v })
  | setSettingMissingAfter l r v =>
    exact runs_serveWrite s l _ _ (reach_setSettings s { s.settings with missingAfter := fit 60 3600 v } fun h =>
      { h with missingAfter := fit_bounds (by decide) v })
  | setSettingKeepalive l r v => exact runs_serveWrite s l _ _ (reach_setKeepalive s v)
  | setSettingDlSlots l r v => exact runs_serveWrite s l _ _ (reach_setDlSlots s v)
  | setSettingDefaultDuration l r v =>
    exact runs_serveWrite s l _ _ (reach_setSettings s { s.settings with defaultDuration := fit 10 480 v } fun h =>
      { h with defaultDuration := fit_bounds (by decide) v })
  | setClock l n =>
    exact runs_serveWrite s l _ _ (Move.age s { s.age with clock := n, clockPhase := 0 } fun h => ⟨h.1, h.2⟩).reach
  | setReserve l g => exact runs_serveWrite s l _ _ (reach_underLock s _ (reach_setReserve s g))
  | setAccess l a b c f => exact runs_serveWrite s l _ _ (reach_underLock s _ (reach_setAccess s a b c f))
  | lockAccess l => exact runs_serveWrite s l _ _ (reach_underLock s _ (Move.lock s).reach)
  | restart l => exact runs_serveWrite s l _ _ (reach_warmRestart s)
  | forceClose l t => exact runs_serveWrite s l _ _ (reach_forceClose s t)
  | unknownRequestCode l c a => exact runs_serve s l _ (reach_unknownRequest s l c a)
  | readTransaction l n => exact ⟨_, rfl, .ite _ (reach_passOver s l _) (reach_readTransaction s l _ _)⟩
  | writeTransactionAborted l b => exact ⟨_, rfl, .ite _ (reach_passOver s l _) (reach_abortedTransaction s l _ _)⟩
  | fullReset => exact ⟨_, rfl, (Move.reset s true).reach⟩
  | fullResetEnd => exact ⟨_, rfl, (Move.reset s false).reach⟩
  | scanCompletion r v => exact runs_event s (reach_scanCompletion s r v)
  | sweepWaitExpiry r => exact runs_event s (reach_sweepWaitExpiry s r)
  | coldAfterExpiry r => exact runs_event s (reach_coldAfterExpiry s r)
  | confirmingScan r v => exact runs_event s (reach_confirmingScan s r v)
  | byteCrossed r b => exact runs_event s (.ite _ (reach_takeByte s r b) (.refl s))
  | wordCrossed r w => exact runs_event s (reach_wordCrossed s r w)
  | wordTimeout r => exact runs_event s (reach_wordTimeout s r)
  | identifyCompletion r rid g f c w => exact runs_event s (reach_identifyCompletion s r _)
  | programCompletion r => exact runs_event s (reach_programCompletion s r)
  | readUsageCompletion r m => exact runs_event s (reach_readUsageCompletion s r m)
  | gaugeCompletion r c f k => exact runs_event s (reach_gaugeCompletion s r c f k)
  | gaugePoll r => exact runs_event s (reach_gaugePoll s r)
  | chargeFrameBoundary => exact runs_timed s (reach_chargeFrameBoundary s)
  | keepaliveExpiry m => exact runs_event s (reach_keepaliveExpiry s m)
  | releaseWindowExpiry i => exact runs_timed s (reach_releaseWindowExpiry s i)
  | compareA => exact runs_timed s (Move.frame s s.air.frameTime true s.air.syncHigh).reach
  | frameBoundary => exact runs_timed s (Move.boundary s).reach
  | clockAdvance =>
    exact runs_timed s (Move.age s { s.age with clock := (s.age.clock + 1) % 4294967296, clockPhase := 0 }
      fun h => ⟨h.1, h.2⟩).reach
  | sweepStep => exact runs_timed s (reach_sweepStep s)

/-- Every step leads along a chain of moves. -/
theorem runs_step : Runs s (step s) := by
  unfold step
  split
  · rename_i c rest _
    obtain ⟨t, h, k⟩ := runs_exec { s with pending := rest } c
    exact ⟨t, h, (Move.queue s rest).reach.trans k⟩
  · exact ⟨_, rfl, .ite _ (.refl s) (reach_tick s)⟩

/-- What every move keeps, every step keeps. -/
theorem step_keeps {P : State → Prop} (hm : ∀ s t, Move s t → P s → P t) {t : State} (h : step s = .next t) (hs : P s) : P t := by
  obtain ⟨u, hu, k⟩ := runs_step s
  rw [hu] at h
  injection h with h
  subst h
  exact k.keeps hm hs

end Sys2Proof.Machine
end

