-- ==== Sys2Proof/Laws/Kept.lean ====
section
/-! SUPPORT. What each move keeps, invariant by invariant. -/

namespace Sys2Proof.Machine

variable {s t : State}

/-! ## What a move leaves alone -/

theorem fullReset_blocks (s : State) (held : Bool) :
    (s.fullReset held).settings = defaultSettings ∧ (s.fullReset held).fleet = State.reset.fleet ∧
    (s.fullReset held).scan = [] ∧ (s.fullReset held).chan = [] ∧ (s.fullReset held).charge = State.reset.charge ∧
    (s.fullReset held).tours = State.reset.tours ∧ (s.fullReset held).loans = State.reset.loans ∧
    (s.fullReset held).floor = State.reset.floor ∧ (s.fullReset held).air = resetAir 40 ∧
    (s.fullReset held).age = State.reset.age ∧ (s.fullReset held).ports = s.ports.reset :=
  ⟨rfl, rfl, rfl, rfl, rfl, rfl, rfl, rfl, rfl, rfl, rfl⟩

theorem drive_of_racks {r : Nat} (h : t.charge.racks = s.charge.racks) (b : Nat) : t.drive r b = s.drive r b := by
  simp only [State.drive, State.rackCharge, h]

theorem rackCharge_of_racks (h : t.charge.racks = s.charge.racks) (r : Nat) : t.rackCharge r = s.rackCharge r := by
  simp only [State.rackCharge, h]

/-! ## Duty codes (R83) -/

theorem resetDrive_agrees : resetDrive.Agrees := ⟨rfl, Nat.zero_le _, Nat.zero_le _⟩

theorem dutiesAgree_of_charge (h : t.charge = s.charge) (k : s.DutiesAgree) : t.DutiesAgree := fun r b => by
  rw [drive_congr h]; exact k r b

theorem dutiesAgree_move (m : Move s t) (k : s.DutiesAgree) : t.DutiesAgree := by
  cases m with
  | drive r b v h =>
    intro q c
    rw [drive_setDrive]
    split
    · exact h (k r b)
    · exact k q c
  | limits r v hd hs ha =>
    intro q c
    simp only [State.drive, rackCharge_setRackCharge]
    split
    · rename_i e; subst e
      rcases hd with hd | hd
      · rw [hd]; exact k r c
      · rw [hd]; exact resetDrive_agrees
    · exact k q c
  | charge => exact fun r b => by rw [drive_of_racks rfl]; exact k r b
  | reset => exact fun r b => resetDrive_agrees
  | port l => cases l <;> exact dutiesAgree_of_charge (s := s) rfl k
  | rights l => cases l <;> exact dutiesAgree_of_charge (s := s) rfl k
  | _ => exact dutiesAgree_of_charge (s := s) rfl k

/-! ## Settings (R181) -/

theorem settingsInRange_of (h1 : t.settings = s.settings) (h2 : t.charge.racks = s.charge.racks)
    (h3 : t.air.nextPlan.split = s.air.nextPlan.split) (h4 : t.air.currentPlan = s.air.currentPlan)
    (h5 : t.air.frameSplit = s.air.frameSplit) (k : s.SettingsInRange) : t.SettingsInRange where
  settings := by rw [h1]; exact k.settings
  nextSplit := by rw [h3]; exact k.nextSplit
  currentSplit := by rw [h4]; exact k.currentSplit
  frameSplit := by rw [h5]; exact k.frameSplit
  stagedLimit r := by rw [rackCharge_of_racks h2]; exact k.stagedLimit r
  appliedLimit r := by rw [rackCharge_of_racks h2]; exact k.appliedLimit r

theorem defaultSettings_fits : defaultSettings.Fits := by constructor <;> decide

theorem settingsInRange_fullReset (s : State) (held : Bool) : (s.fullReset held).SettingsInRange where
  settings := defaultSettings_fits
  nextSplit := (⟨by decide, by decide⟩ : SplitFits 40)
  currentSplit := (⟨by decide, by decide⟩ : SplitFits 40)
  frameSplit := (⟨by decide, by decide⟩ : SplitFits 40)
  stagedLimit _ := (⟨by decide, by decide⟩ : LimitFits 8000)
  appliedLimit _ := (⟨by decide, by decide⟩ : LimitFits 8000)

theorem settingsInRange_move (m : Move s t) (k : s.SettingsInRange) : t.SettingsInRange := by
  cases m with
  | settings v h => exact ⟨h k.1, k.2, k.3, k.4, k.5, k.6⟩
  | drive r b v h =>
    refine ⟨k.1, k.2, k.3, k.4, fun q => ?_, fun q => ?_⟩
    · rw [rackCharge_setDrive]; split <;> exact k.5 q
    · rw [rackCharge_setDrive]; split <;> exact k.6 q
  | limits r v hd hs ha =>
    refine ⟨k.1, k.2, k.3, k.4, fun q => ?_, fun q => ?_⟩
    · rw [rackCharge_setRackCharge]; split
      · exact hs (k.5 r)
      · exact k.5 q
    · rw [rackCharge_setRackCharge]; split
      · exact ha (k.5 r) (k.6 r)
      · exact k.6 q
  | split n h hn => exact ⟨k.1, hn, k.3, k.4, k.5, k.6⟩
  | boundary => exact ⟨k.1, k.2, k.2, k.2, k.5, k.6⟩
  | clearAir => exact ⟨k.1, k.2, k.2, k.2, k.5, k.6⟩
  | reset => exact settingsInRange_fullReset _ _
  | port l => cases l <;> exact settingsInRange_of (s := s) rfl rfl rfl rfl rfl k
  | rights l => cases l <;> exact settingsInRange_of (s := s) rfl rfl rfl rfl rfl k
  | _ => exact settingsInRange_of (s := s) rfl rfl rfl rfl rfl k

/-! ## Notices (R182, R183) -/

theorem noticesKept_of_ports (h : t.ports = s.ports) (k : s.NoticesKept) : t.NoticesKept := fun l => by
  rw [port_congr h]; exact k l

theorem mem_insertNotice {n a : Notice} : ∀ {l : List Notice}, a ∈ insertNotice n l → a = n ∨ a ∈ l
  | [], h => by simpa [insertNotice] using h
  | m :: l, h => by
    unfold insertNotice at h
    split at h
    · simpa using h
    · split at h
      · rcases List.mem_cons.mp h with h | h
        · exact .inl h
        · exact .inr (List.mem_cons_of_mem _ h)
      · rcases List.mem_cons.mp h with h | h
        · exact .inr (h ▸ List.mem_cons_self)
        · rcases mem_insertNotice h with h | h
          · exact .inl h
          · exact .inr (List.mem_cons_of_mem _ h)

theorem insertNotice_ascending (n : Notice) : ∀ l : List Notice, l.Pairwise (fun a b => a.kind < b.kind) →
    (insertNotice n l).Pairwise (fun a b => a.kind < b.kind)
  | [], _ => by simp [insertNotice]
  | m :: l, h => by
    have hm := List.pairwise_cons.mp h
    unfold insertNotice
    split
    · rename_i hlt
      refine List.pairwise_cons.mpr ⟨fun a ha => ?_, h⟩
      rcases List.mem_cons.mp ha with e | ha
      · exact e ▸ hlt
      · exact Nat.lt_trans hlt (hm.1 a ha)
    · split
      · rename_i he
        exact List.pairwise_cons.mpr ⟨fun a ha => he ▸ hm.1 a ha, hm.2⟩
      · rename_i h1 h2
        refine List.pairwise_cons.mpr ⟨fun a ha => ?_, insertNotice_ascending n l hm.2⟩
        rcases mem_insertNotice ha with e | ha
        · subst e; omega
        · exact hm.1 a ha

theorem kept_post (p : Port) (n : Notice) (k : p.Kept) : (p.post n).Kept := by
  unfold Port.post
  split
  · rename_i h
    refine ⟨fun a ha => ?_, insertNotice_ascending n _ k.2⟩
    rcases mem_insertNotice ha with e | ha
    · exact e ▸ h
    · exact k.1 a ha
  · exact k

theorem noticesKept_move (m : Move s t) (k : s.NoticesKept) : t.NoticesKept := by
  cases m with
  | port l v h =>
    intro j
    rw [port_setPort]
    split
    · exact h (k l)
    · exact k j
  | post n => exact fun l => by rw [port_post]; exact kept_post _ n (k l)
  | reset => intro l; cases l <;> exact kept_nil _ rfl
  | rights l => cases l <;> exact noticesKept_of_ports (s := s) rfl k
  | _ => exact noticesKept_of_ports (s := s) rfl k

/-! ## Receiver IDs (R2) -/

theorem ridsUnique_of_records (h : t.fleet.records = s.fleet.records) (k : s.RidsUnique) : t.RidsUnique := by
  have hr : ∀ i, t.record i = s.record i := fun i => by simp only [State.record, h]
  exact ⟨fun i x hx => k.1 i x (hr i ▸ hx), fun i j x y hx hy => k.2 i j x y (hr i ▸ hx) (hr j ▸ hy)⟩

/-- A receiver ID that the lookup does not find is held by no record. -/
theorem rid_ne_of_indexOfRid {rid : Nat} (h : s.indexOfRid rid = none) (i : Nat) (x : Record)
    (hx : s.record i = some x) : x.rid ≠ rid := by
  have hk : i ∈ s.recordIndices := by
    refine Decidable.byContradiction fun hn => ?_
    rw [State.record, Table.read_of_notMem_keys _ _ _ hn] at hx
    cases hx
  have := List.find?_eq_none.mp h i hk
  rw [hx] at this
  simpa using this

theorem ridsUnique_write (i : Nat) (y : Record) (h0 : y.rid ≠ 0)
    (h : ∀ j z, i ≠ j → s.record j = some z → z.rid ≠ y.rid) (k : s.RidsUnique) :
    (s.setRecord i (some y)).RidsUnique := by
  constructor
  · intro j z hz
    rw [record_setRecord] at hz
    split at hz
    · injection hz with hz; exact hz ▸ h0
    · exact k.1 j z hz
  · intro a b z w hz hw e
    rw [record_setRecord] at hz hw
    split at hz <;> split at hw
    · rename_i h1 h2; exact h1.symm.trans h2
    · rename_i h1 h2; injection hz with hz; subst hz; exact absurd e.symm (h b w h2 hw)
    · rename_i h1 h2; injection hw with hw; subst hw; exact absurd e (h a z h1 hz)
    · exact k.2 a b z w hz hw e

theorem ridsUnique_move (m : Move s t) (k : s.RidsUnique) : t.RidsUnique := by
  cases m with
  | record i x y hx hr hf =>
    refine ridsUnique_write i y (hr ▸ k.1 i x hx) (fun j z hj hz e => hj ?_) k
    exact k.2 i j x z hx hz (hr.symm.trans e.symm)
  | create i y h0 h hf => exact ridsUnique_write i y h0 (fun j z _ hz => rid_ne_of_indexOfRid h j z hz) k
  | remove i =>
    constructor
    · intro j z hz
      rw [record_setRecord] at hz
      split at hz
      · cases hz
      · exact k.1 j z hz
    · intro a b z w hz hw e
      rw [record_setRecord] at hz hw
      split at hz
      · cases hz
      · split at hw
        · cases hw
        · exact k.2 a b z w hz hw e
  | reset => exact ⟨(fun _ _ hx => nomatch hx), (fun _ _ _ _ hx => nomatch hx)⟩
  | port l => cases l <;> exact ridsUnique_of_records (s := s) rfl k
  | rights l => cases l <;> exact ridsUnique_of_records (s := s) rfl k
  | _ => exact ridsUnique_of_records (s := s) rfl k

/-! ## Plans (R149) -/

theorem plansHalved_of (h1 : t.air.nextPlan = s.air.nextPlan) (h2 : t.air.currentPlan = s.air.currentPlan)
    (k : s.PlansHalved) : t.PlansHalved := ⟨by rw [h1]; exact k.1, by rw [h2]; exact k.2⟩

theorem emptyPlan_halved (n : Nat) : (emptyPlan n).Halved := fun _ => trivial

theorem fitsAt_of_slotsFit {n : Nat} (h : s.slotsFit n = true) (i : Nat) : (s.entry i).FitsAt n i := by
  by_cases hk : i ∈ s.usedSlots
  · have := List.all_eq_true.mp h i hk
    revert this
    cases s.entry i <;> simp [Entry.FitsAt]
  · rw [State.entry, Plan.entry, Table.read_of_notMem_keys _ _ _ hk]
    trivial

theorem plansHalved_move (m : Move s t) (k : s.PlansHalved) : t.PlansHalved := by
  cases m with
  | entry i e h =>
    refine ⟨fun j => ?_, k.2⟩
    have hj := entry_setEntry s i e j
    change (State.entry _ j).FitsAt _ j
    rw [hj]
    split
    · rename_i hij; subst hij; exact h (k.1 i)
    · exact k.1 j
  | split n h hn => exact ⟨fun j => fitsAt_of_slotsFit h j, k.2⟩
  | boundary => exact ⟨k.1, k.1⟩
  | clearAir => exact ⟨emptyPlan_halved _, emptyPlan_halved _⟩
  | reset => exact ⟨emptyPlan_halved _, emptyPlan_halved _⟩
  | port l => cases l <;> exact plansHalved_of (s := s) rfl rfl k
  | rights l => cases l <;> exact plansHalved_of (s := s) rfl rfl k
  | _ => exact plansHalved_of (s := s) rfl rfl k

/-! ## Counters -/

theorem countersFit_of (h1 : t.fleet.records = s.fleet.records) (h2 : t.scan = s.scan) (h3 : t.tours.nextKey = s.tours.nextKey)
    (h4 : t.floor.floors = s.floor.floors) (h5 : t.air.sequence = s.air.sequence) (h6 : t.age = s.age)
    (k : s.CountersFit) : t.CountersFit where
  records i x hx := k.1 i x (by simpa only [State.record, h1] using hx)
  sweepPos r := by rw [scanner_congr h2]; exact k.2 r
  key := by rw [h3]; exact k.3
  mask p := by simp only [State.floorOf, h4]; exact k.4 p
  sequence := by rw [h5]; exact k.5
  age := by rw [h6]; exact k.6

theorem countersFit_fullReset (s : State) (held : Bool) : (s.fullReset held).CountersFit where
  records i x hx := by cases hx
  sweepPos _ := Nat.zero_le _
  key := (⟨by decide, by decide⟩ : 1 ≤ 1 ∧ 1 ≤ 65535)
  mask _ := (⟨by decide, by decide⟩ : 1 ≤ 8 ∧ 8 ≤ 8)
  sequence := (by decide : 0 < 65536)
  age := ⟨(⟨by decide, by decide⟩ : 0 < 1024 ∧ 0 % 8 = 0), Nat.zero_le _⟩

theorem countersFit_move (m : Move s t) (k : s.CountersFit) : t.CountersFit := by
  cases m with
  | record i x y hx hr hf =>
    refine ⟨fun j z hz => ?_, k.2, k.3, k.4, k.5, k.6⟩
    rw [record_setRecord] at hz
    split at hz
    · injection hz with hz; exact hz ▸ hf (k.1 i x hx)
    · exact k.1 j z hz
  | create i y h0 h hf =>
    refine ⟨fun j z hz => ?_, k.2, k.3, k.4, k.5, k.6⟩
    rw [record_setRecord] at hz
    split at hz
    · injection hz with hz; exact hz ▸ hf
    · exact k.1 j z hz
  | remove i =>
    refine ⟨fun j z hz => ?_, k.2, k.3, k.4, k.5, k.6⟩
    rw [record_setRecord] at hz
    split at hz
    · cases hz
    · exact k.1 j z hz
  | scanner r v h hp =>
    refine ⟨k.1, fun q => ?_, k.3, k.4, k.5, k.6⟩
    rw [scanner_setScanner]
    split
    · exact hp (k.2 r)
    · exact k.2 q
  | key n h => exact ⟨k.1, k.2, h k.3, k.4, k.5, k.6⟩
  | floor p v h =>
    refine ⟨k.1, k.2, k.3, fun q => ?_, k.5, k.6⟩
    rw [floorOf_setFloor]
    split
    · exact h (k.4 p)
    · exact k.4 q
  | boundary => exact ⟨k.1, k.2, k.3, k.4, Nat.mod_lt _ (by decide), k.6⟩
  | age a h => exact ⟨k.1, k.2, k.3, k.4, k.5, h k.6⟩
  | clearRacks => exact ⟨k.1, fun _ => Nat.zero_le _, k.3, k.4, k.5, k.6⟩
  | clearFloors => exact ⟨k.1, k.2, k.3, fun _ => (⟨by decide, by decide⟩ : 1 ≤ 8 ∧ 8 ≤ 8), k.5, k.6⟩
  | clearAir => exact ⟨k.1, k.2, k.3, k.4, (by decide : 0 < 65536), k.6⟩
  | reset => exact countersFit_fullReset _ _
  | port l => cases l <;> exact countersFit_of (s := s) rfl rfl rfl rfl rfl rfl k
  | rights l => cases l <;> exact countersFit_of (s := s) rfl rfl rfl rfl rfl rfl k
  | _ => exact countersFit_of (s := s) rfl rfl rfl rfl rfl rfl k

/-! ## Canonical tables -/

theorem canonical_of (h1 : t.fleet.records = s.fleet.records) (h2 : t.scan = s.scan) (h3 : t.chan = s.chan)
    (h4 : t.charge.racks = s.charge.racks) (h5 : t.tours = s.tours) (h6 : t.loans = s.loans) (h7 : t.floor = s.floor)
    (h8 : t.air.nextPlan = s.air.nextPlan) (h9 : t.air.currentPlan = s.air.currentPlan) (k : s.Canonical) :
    t.Canonical where
  records := by rw [h1]; exact k.records
  scan := by rw [h2]; exact k.scan
  bays r := by rw [scanner_congr h2]; exact k.bays r
  chan := by rw [h3]; exact k.chan
  racks := by rw [h4]; exact k.racks
  drives r := by rw [rackCharge_of_racks h4]; exact k.drives r
  tours := by rw [h5]; exact k.tours
  programmes := by rw [h5]; exact k.programmes
  loans := by rw [h6]; exact k.loans
  timers := by rw [h6]; exact k.timers
  mics := by rw [h7]; exact k.mics
  floors := by rw [h7]; exact k.floors
  nextPlan := by rw [h8]; exact k.nextPlan
  currentPlan := by rw [h9]; exact k.currentPlan

theorem canonical_fullReset (s : State) (held : Bool) : (s.fullReset held).Canonical := by
  constructor <;> first | rfl | exact fun _ => rfl

theorem canonical_setRackCharge (r : Nat) (v : RackCharge) (k : s.Canonical)
    (hv : Table.wf (fun _ => resetDrive) v.drives = true) : (s.setRackCharge r v).Canonical :=
  { k with
    racks := Table.wf_write _ _ _ _ k.racks
    drives := fun q => by
      rw [rackCharge_setRackCharge]
      split
      · exact hv
      · exact k.drives q }

theorem canonical_move (m : Move s t) (k : s.Canonical) : t.Canonical := by
  cases m with
  | record i x y => exact { k with records := Table.wf_write _ _ i (some y) k.records }
  | create i y => exact { k with records := Table.wf_write _ _ i (some y) k.records }
  | remove i => exact { k with records := Table.wf_write _ _ i none k.records }
  | scanner r v h hp =>
    exact { k with
      scan := Table.wf_write _ _ _ _ k.scan
      bays := fun q => by
        rw [scanner_setScanner]
        split
        · exact h (k.bays r)
        · exact k.bays q }
  | channel r v => exact { k with chan := Table.wf_write _ _ _ _ k.chan }
  | drive r b v h => exact canonical_setRackCharge r _ k (Table.wf_write _ _ _ _ (k.drives r))
  | limits r v hd hs ha =>
    refine canonical_setRackCharge r v k ?_
    rcases hd with hd | hd
    · rw [hd]; exact k.drives r
    · rw [hd]; rfl
  | tour i v => exact { k with tours := Table.wf_write _ _ _ _ k.tours }
  | programme p v => exact { k with programmes := Table.wf_write _ _ _ _ k.programmes }
  | key n h => exact { k with }
  | loan i v => exact { k with loans := Table.wf_write _ _ _ _ k.loans }
  | wanting q => exact { k with }
  | timer i v => exact { k with timers := Table.wf_write _ _ _ _ k.timers }
  | mic m v => exact { k with mics := Table.wf_write _ _ _ _ k.mics }
  | floor p v h => exact { k with floors := Table.wf_write _ _ _ _ k.floors }
  | uplinkQueue q => exact { k with }
  | entry i e h => exact { k with nextPlan := Table.wf_write _ _ _ _ k.nextPlan }
  | split n h hn => exact { k with nextPlan := k.nextPlan }
  | boundary => exact { k with currentPlan := k.nextPlan }
  | clearRacks => exact { k with scan := rfl, bays := fun _ => rfl, chan := rfl }
  | clearTours => exact { k with tours := rfl, programmes := rfl }
  | clearLoans => exact { k with loans := rfl, timers := rfl }
  | clearFloors => exact { k with mics := rfl, floors := rfl }
  | clearAir => exact { k with nextPlan := rfl, currentPlan := rfl }
  | reset => exact canonical_fullReset _ _
  | port l => cases l <;> exact canonical_of (s := s) rfl rfl rfl rfl rfl rfl rfl rfl rfl k
  | rights l => cases l <;> exact canonical_of (s := s) rfl rfl rfl rfl rfl rfl rfl rfl rfl k
  | _ => exact canonical_of (s := s) rfl rfl rfl rfl rfl rfl rfl rfl rfl k

end Sys2Proof.Machine
end

