-- ==== Sys2Proof/Laws/Loans.lean ====
section
/-! SUPPORT. What the loan table's shared operations do: the reads after a change of a loan,
    the test of a range (R18), the
removal of a record from its loan (R109), the loss of a listener (R102). -/

namespace Sys2Proof.Machine

variable {s : State}

/-! ## Reads -/

theorem mem_keys_of_read {α : Type} (d : Nat → α) (t : Table α) (k : Nat)
    (h : Table.read d t k ≠ d k) : k ∈ Table.keys t :=
  Classical.byContradiction fun hn => h (Table.read_of_notMem_keys d t k hn)

theorem mem_loanIds {id : Nat} {l : Loan} (h : s.loan id = some l) : id ∈ s.loanIds :=
  mem_keys_of_read _ _ _ (by unfold State.loan at h; rw [h]; simp)

theorem loan_modLoan (s : State) (i j : Nat) (f : Loan → Loan) :
    (s.modLoan i f).loan j = if i = j then (s.loan j).map f else s.loan j := by
  unfold State.modLoan
  split
  · rename_i h
    split
    · rename_i e; subst e; simp [h]
    · rfl
  · rename_i x h
    rw [loan_setLoan]
    split
    · rename_i e; subst e; simp [h]
    · rfl

/-- A change of a loan leaves the wanting queue and the release timers. -/
theorem modLoan_keeps (s : State) (id : Nat) (f : Loan → Loan) :
    (s.modLoan id f).loans.wanting = s.loans.wanting ∧ (s.modLoan id f).loans.timers = s.loans.timers := by
  unfold State.modLoan
  split <;> exact ⟨rfl, rfl⟩

theorem record_eq_of_records {s t : State} (h : t.fleet.records = s.fleet.records)
    (i : Nat) : t.record i = s.record i := by
  simp only [State.record, h]

/-! ## The access check, as the statements put it -/

theorem mayWrite_of_takes {c : Instr} {l : Link} {g : Group} (h : s.Takes c l) (hn : needs c = some (g, true)) :
    s.mayWrite l g = true := by
  have := h.2.2
  rwa [hn] at this

/-! ## The reserve test (R18) -/

theorem rangeClear_iff (s : State) (g : Range) : s.rangeClear g = true ↔
    ∀ id x i, s.loan id = some x → x.reserve = false → i ∈ x.outstanding → ¬(g.lo ≤ i ∧ i ≤ g.hi) := by
  unfold State.rangeClear
  rw [List.all_eq_true]
  constructor
  · intro h id x i hx hr hi hc
    have := h id (mem_loanIds hx)
    simp only [hx, hr, Bool.false_or, List.all_eq_true] at this
    have := this i hi
    simp [Range.has, hc.1, hc.2] at this
  · intro h id _
    cases hx : s.loan id with
    | none => rfl
    | some x =>
      cases hr : x.reserve with
      | true => simp [hr]
      | false =>
        simp only [hr, Bool.false_or, List.all_eq_true]
        intro i hi
        have := h id x i hx hr hi
        simp [Range.has]; omega

/-! ## Leaving a loan (R109) -/

/-- What a RELEASED record takes with it: its timer stops and its latch closes (R42, R120). -/
theorem stopRelease (s : State) (i : Nat) (x : Record) (hx : s.record i = some x) :
    ∃ t : State, t = (if x.state = .released then (s.setTimer i none).closeLatchOf i else s) ∧
      s.ChangesOnly t [.loans, .scan] ∧ (∀ k, t.loan k = s.loan k) ∧ t.loans.wanting = s.loans.wanting ∧
      (x.state = .released → t.timer i = none ∧ ∀ b, x.bay = some b → (t.bay b.rack b.bay).latchOpen = false) ∧
      (x.state ≠ .released → t = s) := by
  refine ⟨_, rfl, ?_⟩
  by_cases hr : x.state = .released
  · rw [if_pos hr]
    have hc := frame_closeLatchOf (s.setTimer i none) i
    have hl : ((s.setTimer i none).closeLatchOf i).loans = (s.setTimer i none).loans := hc .loans (by decide)
    refine ⟨((frame_setTimer s i none).mono (by decide)).trans (hc.mono (by decide)), fun k => ?_, ?_, fun _ => ⟨?_,
        ?_⟩,
      fun h => absurd hr h⟩
    · rw [loan_congr hl]; rfl
    · rw [hl]; rfl
    · rw [timer_congr hl]; simp
    · intro b hb
      unfold State.closeLatchOf
      have : (s.setTimer i none).record i = some x := hx
      rw [this]
      simp [hb, State.setLatch]
  · rw [if_neg hr]
    exact ⟨.refl s _, fun _ => rfl, rfl, fun h => absurd h hr, fun _ => rfl⟩

/-- All that a removal from a loan does before its programme loses a listener. -/
theorem leaveLoan_spec (s : State) (i id p : Nat) (dest : RecState) (e : Term) (x : Record) (l : Loan)
    (hx : s.record i = some x) (hl : x.loan = some id) (hp : x.programme = some p) (hy : s.loan id = some l) :
    ∃ u : State, s.leaveLoan i dest e = (if x.state.listening then u.loseListener p else u) ∧
      s.ChangesOnly u [.records, .loans, .scan] ∧
      u.record i = some { x with state := dest, loan := none, programme := none, due := none, overdueFlag := false } ∧
      (∀ j, j ≠ i → u.record j = s.record j) ∧
      u.loan id = some (l.without i e) ∧ (∀ k, k ≠ id → u.loan k = s.loan k) ∧ u.loans.wanting = s.loans.wanting ∧
      (x.state = .released → u.timer i = none ∧ ∀ b, x.bay = some b → (u.bay b.rack b.bay).latchOpen = false) ∧
      (x.state ≠ .released → u.loans.timers = s.loans.timers ∧ u.scan = s.scan) := by
  obtain ⟨t, ht, hf, h1, h2, h3, h4⟩ := stopRelease s i x hx
  refine ⟨(t.setRecord i (some { x with
      state := dest, loan := none, programme := none, due := none, overdueFlag :=
          false })).modLoan id fun l => l.without i e,
    ?_, ?_, ?_, ?_, ?_, ?_, ?_, ?_, ?_⟩
  · unfold State.leaveLoan
    simp only [hx, hl, hp, ← ht]
  · exact ((hf.mono (by decide)).trans ((frame_setRecord _ _ _).mono (by decide))).trans ((frame_modLoan _ _ _).mono (by decide))
  · rw [record_eq_of_records (frame_modLoan _ _ _ .records (by decide))]
    simp
  · intro j hj
    rw [record_eq_of_records (frame_modLoan _ _ _ .records (by decide))]
    simp only [record_setRecord, Ne.symm hj, if_false]
    exact record_eq_of_records (hf .records (by decide)) j
  · rw [loan_modLoan]
    simp [h1, hy]
  · intro k hk
    rw [loan_modLoan]
    simp [Ne.symm hk, h1]
  · rw [(modLoan_keeps _ _ _).1]
    exact h2
  · intro hr
    refine ⟨?_, fun b hb => ?_⟩
    · have := (h3 hr).1
      simp only [State.timer] at this ⊢
      rw [(modLoan_keeps _ _ _).2]
      exact this
    · rw [bay_congr (frame_modLoan _ _ _ .scan (by decide))]
      simpa using (h3 hr).2 b hb
  · intro hr
    have := h4 hr
    subst this
    exact ⟨(modLoan_keeps _ _ _).2, frame_modLoan _ _ _ .scan (by decide)⟩

/-- A programme loses a listener, and nothing else of the tour and programme tables changes (R102). -/
theorem loseListener_spec (s : State) (p : Nat) :
    (s.loseListener p).programme p = { s.programme p with listeners := (s.programme p).listeners - 1 } ∧
      (∀ q, q ≠ p → (s.loseListener p).programme q = s.programme q) ∧ (∀ k, (s.loseListener p).tour k = s.tour k) ∧
      (s.loseListener p).tours.nextKey = s.tours.nextKey := by
  unfold State.loseListener
  dsimp only
  split
  · have := frame_dropDownlink (s.setProgramme p { s.programme p with listeners :=
        (s.programme p).listeners - 1 }) p .tours
      (by decide)
    simp only [State.agrees] at this
    refine ⟨?_, fun q hq => ?_, fun k => ?_, ?_⟩
    · rw [programme_congr this]; simp
    · rw [programme_congr this]; simp [Ne.symm hq]
    · rw [tour_congr this]; simp
    · rw [this]; rfl
  · exact ⟨by simp, fun q hq => by simp [Ne.symm hq], fun k => by simp, rfl⟩

/-! ## The place of an element in a queue (R123, R146) -/

/-- The place of an element is its index counted from 1, after the `n` elements already passed. -/
theorem placeOf_eq (a : Nat) (l : List Nat) (n : Nat) :
    placeOf a n l = if a ∈ l then some (l.idxOf a + n + 1) else none := by
  induction l generalizing n with
  | nil => rfl
  | cons b l ih =>
    by_cases h : b = a
    · subst h; simp [placeOf]
    · have h' : ¬a = b := fun e => h e.symm
      simp only [placeOf, h, if_false, ih, List.mem_cons, h', false_or]
      split
      · have hb : (b == a) = false := by simpa using h
        simp only [List.idxOf_cons, hb, Bool.cond_false]; congr 1; omega
      · rfl

end Sys2Proof.Machine
end

