-- ==== Sys2Proof/Tests/Slice0.lean ====
section
/-! SUPPORT. The model's own tests: the WellFormed smoke, frames written out byte by byte from R188 and R189, one or two
steps of every command on small states, the spec's worked examples, and for each obligation with hypotheses a state and
operands that meet them. -/

namespace Sys2Proof.Tests

set_option maxRecDepth 100000
set_option Elab.async false

open Sys2Proof Sys2Proof.Machine

/-! ## Small states -/

/-- The next state of a command, or the state itself where there is none. -/
def after (c : Instr) (s : State) : State := match exec c s with | .next t => t | _ => s

/-- The status and the results a link is answered. -/
def answer (c : Instr) (l : Link) (s : State) : Option Response := (after c s).responseOf l

/-- A whole transaction, and one in progress. -/
def whole {α : Type} (a : α) : Clocked α := { data := a, ends := true }
def part {α : Type} (a : α) : Clocked α := { data := a, ends := false }

def ok (l : List Nat) : Option Response := some { status := .ok, results := l.map (BitVec.ofNat 8) }
def no (e : Status) : Option Response := some { status := e, results := [] }

def rec (rid : Nat) (st : RecState) (bay : Option BayPos) (soc : Option Nat) : Record :=
  { newRecord rid .g1 with state := st, bay := bay, soc := soc }

def lent (x : Record) (id p due : Nat) : Record := { x with loan := some id, programme := some p, due := some due }

def occupied (i : Nat) : Bay := { resetBay with state := .occupied, bound := some i }

/-- A record bound at a bay, on both sides. -/
def bind (s : State) (i : Nat) (r b : Nat) (x : Record) : State :=
  (s.setRecord i (some { x with bay := some { rack := r, bay := b } })).setBay r b (occupied i)

def used (t key n : Nat) : Programme :=
  { inUse := true, tour := some t, language := 2, key := key, listeners := n, relay := true }

def mic (p q : Nat) (st : MicState) : Mic :=
  { programme := some p, priority := some q, state := st, requestTime := if st = .idle then none else some 0
    keepAlive := if st = .talking then some 0 else none }

def loan (t p n : Nat) (out : List Nat) : Loan :=
  { tour := t, programme := p, reserve := false, requested := n + out.length, shortfall := n, outstanding := out
    returned := 0, dropped := 0, lifted := 0, due := 5400, wants := true, passed := [] }

/-- One receiver in each record state: tour 1 is OPEN with programmes 1 and 2, tour 2 CLOSING with programme 3; loan 1
holds the lent records and wants one more; loan 128 waits for nothing. -/
def fleet0 : State :=
  let s := bind State.reset 0 0 5 (rec 100 .docked none (some 800))
  let s := bind s 1 0 6 (rec 101 .ready none (some 950))
  let s := bind s 2 1 0 (lent (rec 102 .reserved none (some 990)) 1 1 5400)
  let s := bind s 3 1 1 (lent (rec 103 .programming none (some 960)) 1 1 5400)
  let s := bind s 4 1 2 { lent (rec 104 .released none (some 970)) 1 1 5400 with lastZone := 4 }
  let s := s.setRecord 5 (some { lent (rec 105 .onLoan none (some 900)) 1 1 5400 with lastHeard := some 0 })
  let s := s.setRecord 6 (some { lent (rec 106 .overdue none (some 900)) 1 1 0 with lastHeard := some 0, overdueFlag := true })
  let s := s.setRecord 7 (some { lent (rec 107 .missing none (some 900)) 1 1 5400 with lastHeard := some 0 })
  let s := s.setRecord 8 (some (rec 108 .absent none none))
  let s := bind s 9 2 63 (rec 109 .fault none (some 500))
  let s := bind s 10 3 0 (rec 110 .retired none (some 500))
  s.setRecord 1023 (some (rec 4294967295 .retired none none))

def site : State :=
  let s := fleet0
  let s := (s.setTour 1 { state := .opened, programmes := [1, 2], duration := some 90 }).setTour 2
    { state := .closing, programmes := [3], duration := some 10 }
  let s := ((s.setProgramme 1 (used 1 1 4)).setProgramme 2 (used 1 2 0)).setProgramme 3 (used 2 3 0)
  let s := (s.setLoan 1 (some (loan 1 1 1 [2, 3, 4, 5, 6, 7]))).setWanting [1]
  let s := s.setLoan 128 (some { loan 2 3 0 [] with wants := false, dropped := 1, requested := 1 })
  let s := s.setTimer 4 (some { length := 60 * 512000, elapsed := 60 * 512000 })
  let s := (s.setBay 1 2 { occupied 4 with latchOpen := true }).setBay 3 63 { resetBay with state := .fault }
  let s := s.setScanner 1 { s.scanner 1 with holder := .channel }
  let s := s.setChannel 1 { resetChannel with
    inFlight := some { kind := .program, bay := 1, record := some 3, loan := some 1, attempts := 0, stamp := 0, withdraw := false }
    wordsRemaining := 10, nextStamp := 2
    queue := [{ kind := .program, bay := 0, record := some 2, loan := some 1, attempts := 0, stamp := 1, withdraw := false }] }
  let s := (s.setMic 0 (mic 1 1 .idle)).setMic 20 { mic 1 4 .talking with keepAlive := some (3 * 512000) }
  let s := ((s.setMic 21 (mic 1 5 .requesting)).setMic 63 (mic 0 1 .idle)).setMic 22 (mic 2 3 .requesting)
  let s := (s.setFloor 1 { waiting := [21], stack := [.mic 20], mask := 8 }).setFloor 2 { waiting := [22], stack := [], mask := 3 }
  ((s.setEntry 63 (.up 1 20)).setEntry 0 (.down 1 (.mic 20))).setPort .desk { s.port .desk with
    notices := [.loanWanting 1], response := some { status := .ok, results := [7#8] } }


/-- The state of the example of section 5.6.1 before its opening: tours 1 and 2 hold programmes 1 to 6. -/
def opening : State :=
  let s := (State.reset.setTour 1 { state := .opened, programmes := [1, 2, 3], duration := some 90 }).setTour 2
    { state := .opened, programmes := [4, 5, 6], duration := some 90 }
  let s := [1, 2, 3, 4, 5, 6].foldl (fun s p => s.setProgramme p (used (if p ≤ 3 then 1 else 2) p 0)) s
  { s with tours := { s.tours with nextKey := 8000 } }

/-- An EMPTY bay with a baseline, at the sweep position of its rack. -/
def bayAt (r b baseline : Nat) : State :=
  let s := State.reset.setBay r b { resetBay with baseline := baseline }
  s.setScanner r { s.scanner r with sweepPos := b, holder := .scanner }

def waiting0 (p : Phase) : State := State.reset.setScanner 0 { resetScanner with phase := p }

/-- Rack 0 with an IDENTIFY in flight at bay 2. -/
def identifying (remaining : Nat) (words : List Nat) (w : Width) (low : Option Nat) : State :=
  let s := State.reset.setBay 0 2 { resetBay with state := .identifying }
  let s := s.setScanner 0 { s.scanner 0 with holder := .channel }
  s.setChannel 0 { resetChannel with
    inFlight := some { kind := .identify, bay := 2, record := none, loan := none, attempts := 0, stamp := 0, withdraw := false }
    wordsRemaining := if remaining = 0 then 1 else remaining + 1, words := words, width := w, lowByte := low, nextStamp := 1 }

/-- Record 41 of the example of section 3.4.1, RESERVED with its PROGRAM at the head of the queue. -/
def program41 (n : Nat) : Req :=
  { kind := .program, bay := 5, record := some 41, loan := some 6, attempts := n, stamp := 0, withdraw := false }
def programming : State :=
  let s := bind State.reset 41 2 5 (lent (rec 41 .reserved none (some 950)) 6 7 70200)
  let s := (s.setLoan 6 (some (loan 3 7 0 [41]))).setProgramme 7 (used 3 8000 0)
  s.setChannel 2 { resetChannel with queue := [program41 0] }

/-- Rack 0 with a transfer of record 0 in flight at bay 5. -/
def transfer (k : Kind) : State :=
  let s := bind State.reset 0 0 5 { rec 100 .docked none (some 800) with usagePending := k == .readUsage }
  let s := s.setScanner 0 { s.scanner 0 with holder := .channel }
  s.setChannel 0 { resetChannel with
    inFlight := some { kind := k, bay := 5, record := some 0, loan := none, attempts := 0, stamp := 0, withdraw := false } }

/-- The rack of section 4.5.1. -/
def shortRack : State :=
  let s := [(3, RecState.released, 850), (7, .reserved, 600), (12, .docked, 300), (20, .docked, 700), (21, .docked, 880),
    (30, .ready, 950), (31, .ready, 1000), (40, .ready, 990)].foldl
    (fun s e => bind s e.1 1 e.1 (rec (e.1 + 1) e.2.1 none (some e.2.2))) State.reset
  s.setRackCharge 1 { resetRackCharge with stagedLimit := 2000 }

/-- Every timer of the part but the release windows, keep-alives and sweep waits at its length, or past it. -/
def ripe (s : State) : State :=
  let t := rackNumbers.foldl (fun t r => (t.setScanner r { t.scanner r with quiet := 600 * 512000 }).setChannel r
    { t.channel r with gaugeElapsed := 300 * 512000, wordElapsed := 25600 }) s
  { t with charge := { t.charge with frameTime := 128000 }, air := { t.air with frameTime := 10240 }
           age := { t.age with clockPhase := 512000, stepTime := 128000 } }

/-! ## WellFormed refuses an ill-formed term at each check -/

theorem test_wellFormed_refuses_mask_above_two_bytes : Instr.wellFormed (.setNoticeMask .desk 65536) = false := by decide
theorem test_wellFormed_refuses_index_above_two_bytes : Instr.wellFormed (.readRecord .desk 65536) = false := by decide
theorem test_wellFormed_refuses_rid_above_four_bytes : Instr.wellFormed (.find .desk 4294967296) = false := by decide
theorem test_wellFormed_refuses_enrol_generation : Instr.wellFormed (.enrol .desk 1 256 none) = false := by decide
theorem test_wellFormed_refuses_enrol_index : Instr.wellFormed (.enrol .desk 1 1 (some 65536)) = false := by decide
theorem test_wellFormed_refuses_enrol_rid : Instr.wellFormed (.enrol .desk 4294967296 1 none) = false := by decide
theorem test_wellFormed_refuses_bay_above_one_byte : Instr.wellFormed (.readBay .desk 0 256) = false := by decide
theorem test_wellFormed_refuses_rack_above_one_byte : Instr.wellFormed (.readRack .desk 256) = false := by decide
theorem test_wellFormed_refuses_loan_above_one_byte : Instr.wellFormed (.readLoan .desk 256) = false := by decide
theorem test_wellFormed_refuses_issue_count : Instr.wellFormed (.issue .desk 1 1 256 false) = false := by decide
theorem test_wellFormed_refuses_add_count : Instr.wellFormed (.add .desk 1 256) = false := by decide
theorem test_wellFormed_refuses_extend_due : Instr.wellFormed (.extend .desk 1 4294967296) = false := by decide
theorem test_wellFormed_refuses_tour_above_one_byte : Instr.wellFormed (.closeTour .desk 256) = false := by decide
theorem test_wellFormed_refuses_programme_above_one_byte : Instr.wellFormed (.setRelay .desk 256 true) = false := by decide
theorem test_wellFormed_refuses_openTour_duration : Instr.wellFormed (.openTour .desk 65536 [1]) = false := by decide
theorem test_wellFormed_refuses_openTour_code : Instr.wellFormed (.openTour .desk 0 [256]) = false := by decide
theorem test_wellFormed_refuses_openTour_length : Instr.wellFormed (.openTour .desk 0 (List.replicate 254 1)) = false := by decide
theorem test_wellFormed_refuses_bindMic_priority : Instr.wellFormed (.bindMic .desk 0 0 256) = false := by decide
theorem test_wellFormed_refuses_mic_above_one_byte : Instr.wellFormed (.talkRequest .desk 256) = false := by decide
theorem test_wellFormed_refuses_mask_level : Instr.wellFormed (.setMask .desk 0 256) = false := by decide
theorem test_wellFormed_refuses_beacon_quality : Instr.wellFormed (.reportBeacon .radio 1 0 256) = false := by decide
theorem test_wellFormed_refuses_setting_code : Instr.wellFormed (.readSetting .desk 256 0) = false := by decide
theorem test_wellFormed_refuses_setting_value : Instr.wellFormed (.setSettingDlSlots .service 0 65536) = false := by decide
theorem test_wellFormed_refuses_clock_value : Instr.wellFormed (.setClock .service 4294967296) = false := by decide
theorem test_wellFormed_refuses_reserve_high : Instr.wellFormed (.setReserve .service (some (0, 65536))) = false := by decide
theorem test_wellFormed_refuses_access_right : Instr.wellFormed (.setAccess .service 0 0 256 false) = false := by decide
theorem test_wellFormed_refuses_unknown_frame_of_a_row : Instr.wellFormed (.unknownRequestCode .desk 0x10 [0#8, 0#8]) = false := by decide
theorem test_wellFormed_refuses_unknown_code : Instr.wellFormed (.unknownRequestCode .desk 256 []) = false := by decide
theorem test_wellFormed_refuses_aborted_complete_frame : Instr.wellFormed (.writeTransactionAborted .desk (whole [0xC1#8, 0x75#8, 0#8])) = false := by decide
theorem test_wellFormed_refuses_aborted_read : Instr.wellFormed (.writeTransactionAborted .desk (whole [0xC2#8])) = false := by decide
theorem test_wellFormed_refuses_scan_reading : Instr.wellFormed (.scanCompletion 0 4096) = false := by decide
theorem test_wellFormed_refuses_scan_rack : Instr.wellFormed (.scanCompletion 4 0) = false := by decide
theorem test_wellFormed_refuses_timer_rack : Instr.wellFormed (.gaugePoll 4) = false := by decide
theorem test_wellFormed_refuses_byte_value : Instr.wellFormed (.byteCrossed 0 256) = false := by decide
theorem test_wellFormed_refuses_word_value : Instr.wellFormed (.wordCrossed 0 65536) = false := by decide
theorem test_wellFormed_refuses_identify_firmware : Instr.wellFormed (.identifyCompletion 0 1 1 false 0 65536) = false := by decide
theorem test_wellFormed_refuses_usage_entries : Instr.wellFormed (.readUsageCompletion 0 (List.replicate 49 0)) = false := by decide
theorem test_wellFormed_refuses_usage_minutes : Instr.wellFormed (.readUsageCompletion 0 [1024]) = false := by decide
theorem test_wellFormed_refuses_gauge_soc : Instr.wellFormed (.gaugeCompletion 0 65536 false false) = false := by decide
theorem test_wellFormed_refuses_keepalive_mic : Instr.wellFormed (.keepaliveExpiry 64) = false := by decide
theorem test_wellFormed_refuses_window_index : Instr.wellFormed (.releaseWindowExpiry 1024) = false := by decide
theorem test_wellFormed_takes_the_bounds : Instr.wellFormed (.openTour .desk 65535 (List.replicate 253 255)) && Instr.wellFormed (.scanCompletion 3 4095) && Instr.wellFormed (.unknownRequestCode .radio 0x16 [2#8, 0#8, 0#8, 0#8, 0#8]) && Instr.wellFormed (.writeTransactionAborted .desk (whole [0xC1#8, 0x75#8])) = true := by decide

/-! ## Frames written out from R188 and R189 -/

theorem test_frame_of_readStatus : decodeTransaction .desk [0xC1#8, 0x01#8, 0#8] = .readStatus .desk := by decide
theorem test_frame_of_setNoticeMask : decodeTransaction .radio [0xC1#8, 0x03#8, 2#8, 0x34#8, 0x12#8] = .setNoticeMask .radio 0x1234 := by decide
theorem test_frame_of_find : decodeTransaction .desk [0xC1#8, 0x11#8, 4#8, 0x4D#8, 0x2C#8, 1#8, 0#8] = .find .desk 76877 := by decide
theorem test_frame_of_enrol : decodeTransaction .desk [0xC1#8, 0x12#8, 8#8, 1#8, 0#8, 0#8, 0#8, 2#8, 1#8, 0xFF#8, 3#8] = .enrol .desk 1 2 (some 1023) := by decide
theorem test_frame_of_clearFaultBay : decodeTransaction .service [0xC1#8, 0x16#8, 5#8, 1#8, 3#8, 63#8, 9#8, 9#8] = .clearFaultBay .service 3 63 := by decide
theorem test_frame_of_writeOff : decodeTransaction .service [0xC1#8, 0x81#8, 4#8, 0#8, 1#8, 0#8, 0#8] = .writeOff .service 256 := by decide
theorem test_frame_of_readBay : decodeTransaction .desk [0xC1#8, 0x20#8, 2#8, 3#8, 63#8] = .readBay .desk 3 63 := by decide
theorem test_frame_of_issue : decodeTransaction .desk [0xC1#8, 0x31#8, 4#8, 32#8, 63#8, 64#8, 5#8] = .issue .desk 32 63 64 true := by decide
theorem test_frame_of_extend : decodeTransaction .desk [0xC1#8, 0x34#8, 5#8, 14#8, 0x40#8, 0x19#8, 1#8, 0#8] = .extend .desk 14 72000 := by decide
theorem test_frame_of_openTour : decodeTransaction .desk [0xC1#8, 0x42#8, 4#8, 0#8, 0#8, 2#8, 5#8] = .openTour .desk 0 [2, 5] := by decide
theorem test_frame_of_bindMic : decodeTransaction .desk [0xC1#8, 0x51#8, 3#8, 20#8, 7#8, 4#8] = .bindMic .desk 20 7 4 := by decide
theorem test_frame_of_reportBeacon : decodeTransaction .radio [0xC1#8, 0x61#8, 6#8, 0x4D#8, 0x2C#8, 1#8, 0#8, 9#8, 180#8] = .reportBeacon .radio 76877 9 180 := by decide
theorem test_frame_of_setSetting : decodeTransaction .service [0xC1#8, 0x71#8, 4#8, 9#8, 0#8, 63#8, 0#8] = .setSettingDlSlots .service 0 63 := by decide
theorem test_frame_of_setReserve : decodeTransaction .service [0xC1#8, 0x73#8, 5#8, 1#8, 0xE8#8, 3#8, 0xFF#8, 3#8] = .setReserve .service (some (1000, 1023)) := by decide
theorem test_frame_of_setAccess : decodeTransaction .service [0xC1#8, 0x74#8, 4#8, 1#8, 7#8, 3#8, 0#8] = .setAccess .service 1 7 3 false := by decide
theorem test_frame_of_forceClose_with_bytes_after : decodeTransaction .service [0xC1#8, 0x80#8, 1#8, 3#8, 0xAA#8] = .forceClose .service 3 := by decide
theorem test_frame_of_wrong_length : decodeTransaction .desk [0xC1#8, 0x10#8, 1#8, 7#8] = .unknownRequestCode .desk 0x10 [7#8] := by decide
theorem test_frame_of_unknown_setting : decodeTransaction .service [0xC1#8, 0x71#8, 4#8, 11#8, 0#8, 1#8, 0#8] = .unknownRequestCode .service 0x71 [11#8, 0#8, 1#8, 0#8] := by decide
theorem test_frame_of_read_transaction : decodeTransaction .desk [0xC2#8, 0#8, 0#8, 0#8] = .readTransaction .desk (whole 3) := by decide
theorem test_frame_of_aborted : decodeTransaction .desk [0xC1#8, 0x31#8, 4#8, 1#8, 2#8] = .writeTransactionAborted .desk (whole [0xC1#8, 0x31#8, 4#8, 1#8, 2#8]) := by decide
theorem test_frame_of_other_first_byte : decodeTransaction .desk [0xC3#8, 1#8] = .writeTransactionAborted .desk (whole [0xC3#8, 1#8]) := by decide
theorem test_no_table_word : decodeTableWord 8 0 = none ∧ State.withFetchWord site 8 0 = site := by decide +kernel

/-! ## Requests -/

theorem test_readNotices : answer (.readNotices .desk) .desk site = ok [1, 0, 1, 0, 0, 0] := by decide +kernel
theorem test_readNotices_clears : (after (.readNotices .desk) site).attention .desk = false ∧ site.attention .desk = true := by decide +kernel
theorem test_readStatus : (answer (.readStatus .radio) .radio site).map (fun a => a.results.drop 16) = some ([1, 0, 1, 0, 1, 0, 1, 0, 1, 0, 1, 0, 1, 0, 1, 0, 1, 0, 1, 0, 2, 0, 1, 1, 3, 2, 1, 1, 1, 0, 0, 0, 0].map (BitVec.ofNat 8)) := by decide +kernel
theorem test_setNoticeMask : ((after (.setNoticeMask .desk 0x8FFE) site).port .desk).notices = [] ∧ answer (.setNoticeMask .desk 0x8FFE) .desk site = ok [0xFE, 0x8F] := by decide +kernel
theorem test_readRecord : answer (.readRecord .desk 4) .desk site = ok [4, 0, 104, 0, 0, 0, 1, 4, 1, 1, 2, 1, 202, 3, 0, 0, 0, 1, 1, 1, 1, 1, 24, 21, 0, 0, 0, 0, 0, 0, 0, 0, 4, 0, 0, 0, 0, 0, 0, 0, 0, 0] := by decide +kernel
theorem test_readRecord_free : answer (.readRecord .desk 11) .desk site = no .notFound := by decide +kernel
theorem test_find : answer (.find .radio 4294967295) .radio site = ok [255, 3, 10] := by decide +kernel
theorem test_find_zero : answer (.find .radio 0) .radio site = no .badRequest := by decide +kernel
theorem test_enrol : answer (.enrol .desk 500 2 none) .desk site = ok [11, 0] := by decide +kernel
theorem test_enrol_held_rid : answer (.enrol .desk 104 1 (some 20)) .desk site = no .busy := by decide +kernel
theorem test_retire : ((after (.retire .desk 100) site).record 0).map (·.state) = some .retired ∧ answer (.retire .desk 104) .desk site = no .busy := by decide +kernel
theorem test_reinstate : ((after (.reinstate .desk 110) site).record 10).map (fun x => (x.state, x.usagePending)) = some (.docked, true) := by decide +kernel
theorem test_reinstate_begins_its_transfer : (((after (.reinstate .desk 110) site).channel 3).inFlight).map (·.kind) = some .readUsage := by decide +kernel
theorem test_remove : (after (.remove .desk 108) site).record 8 = none ∧ answer (.remove .desk 110) .desk site = no .busy := by decide +kernel
theorem test_clearFaultRecord : ((after (.clearFaultRecord .service 109) site).record 9).map (·.state) = some .docked := by decide +kernel
theorem test_clearFaultBay : ((after (.clearFaultBay .service 3 63) site).bay 3 63).state = .identifying ∧ answer (.clearFaultBay .desk 3 62) .desk site = no .busy := by decide +kernel
theorem test_writeOff : ((after (.writeOff .service 105) site).record 5).map (fun x => (x.state, x.loan)) = some (.absent, none) := by decide +kernel
theorem test_writeOff_denied : answer (.writeOff .desk 105) .desk site = no .denied := by decide +kernel
theorem test_readBay : answer (.readBay .desk 1 2) .desk site = ok [3, 0, 0, 0, 4, 0, 1, 1, 4, 0, 0, 0, 0, 0, 0, 0, 0, 0, 0] := by decide +kernel
theorem test_readRack : answer (.readRack .service 1) .service site = ok [0, 0, 0, 0, 2, 0, 0, 0, 61, 0, 0, 3, 0, 0, 0, 1, 1, 64, 31, 64, 31] := by decide +kernel
theorem test_readRack_denied : answer (.readRack .radio 1) .radio site = no .denied := by decide +kernel
theorem test_readLoan : answer (.readLoan .desk 128) .desk site = ok [2, 3, 0, 1, 0, 0, 1, 0, 24, 21, 0, 0, 0, 1, 0, 0, 0, 0] := by decide +kernel
theorem test_issue : answer (.issue .desk 1 2 1 false) .desk site = ok [2, 1, 24, 21, 0, 0] := by decide +kernel
theorem test_issue_reserve_denied : answer (.issue .desk 1 2 1 true) .desk site = no .denied := by decide +kernel
theorem test_add : answer (.add .desk 1 3) .desk site = ok [1, 3] := by decide +kernel
theorem test_add_not_wanting : answer (.add .desk 128 3) .desk site = no .busy := by decide +kernel
theorem test_cancel : answer (.cancel .desk 1) .desk site = ok [0, 4] := by decide +kernel
theorem test_cancel_by_state : (after (.cancel .desk 1) site).outstandingOf 1 = [3, 5, 6, 7] := by decide +kernel
theorem test_extend : answer (.extend .desk 1 6000) .desk site = ok [1] := by decide +kernel
theorem test_extend_moves : ((after (.extend .desk 1 6000) site).record 6).map (fun x => (x.state, x.due, x.overdueFlag)) = some (.onLoan, some 6000, false) := by decide +kernel
theorem test_readTour : answer (.readTour .desk 1) .desk site = ok [1, 1, 90, 0, 2, 1, 4, 0, 2, 0, 0, 1, 1] := by decide +kernel
theorem test_readProgramme : answer (.readProgramme .desk 1) .desk site = ok [1, 1, 1, 2, 1, 0, 4, 0, 1, 1, 0, 0] := by decide +kernel
theorem test_openTour : answer (.openTour .desk 0 [2, 5]) .desk opening = ok [3, 90, 0, 2, 7, 64, 31, 8, 65, 31] := by decide +kernel
theorem test_openTour_programme : (after (.openTour .desk 0 [2, 5]) opening).programme 8 = { inUse := true, tour := some 3, language := 5, key := 8001, listeners := 0, relay := true } := by decide +kernel
theorem test_closeTour : answer (.closeTour .desk 1) .desk site = ok [2] := by decide +kernel
theorem test_closeTour_floors : (after (.closeTour .desk 1) site).floorOf 1 = { waiting := [], stack := [], mask := 8 } ∧ (after (.closeTour .desk 1) site).mic 20 = resetMic := by decide +kernel
theorem test_setRelay : (after (.setRelay .desk 1 false) site).programme 1 = { used 1 1 4 with relay := false } := by decide +kernel
theorem test_setRelay_house : answer (.setRelay .desk 0 true) .desk site = no .badRequest := by decide +kernel
theorem test_readFloor : answer (.readFloor .radio 1) .radio site = ok [1, 8, 0, 1, 21, 5, 0, 0, 0, 0, 1, 20, 4, 1, 0, 0, 3, 0, 1, 0, 0, 0, 0, 20, 4, 2, 1, 184, 11, 21, 5, 1, 0, 0, 0] := by decide +kernel
theorem test_bindMic : (after (.bindMic .desk 5 2 7) site).mic 5 = mic 2 7 .idle ∧ answer (.bindMic .desk 20 2 7) .desk site = no .busy := by decide +kernel
theorem test_bindMic_closing : answer (.bindMic .desk 5 3 7) .desk site = no .busy ∧ answer (.bindMic .desk 5 4 7) .desk site = no .notFound := by decide +kernel
theorem test_unbindMic : (after (.unbindMic .desk 0) site).mic 0 = resetMic ∧ answer (.unbindMic .desk 5) .desk site = ok [] := by decide +kernel
theorem test_talkRequest_preempts : (after (.talkRequest .desk 0) site).floorOf 1 = { waiting := [21], stack := [.mic 0, .mic 20], mask := 8 } ∧ (after (.talkRequest .desk 0) site).mic 20 = { mic 1 4 .held with requestTime := some 0 } := by decide +kernel
theorem test_talkRequest_house : (after (.talkRequest .desk 63) site).entry 62 = .up 0 63 ∧ (after (.talkRequest .desk 63) site).floorOf 1 = { waiting := [21], stack := [.cascade, .mic 20], mask := 8 } := by decide +kernel
theorem test_talkActive : answer (.talkActive .desk 20) .desk site = ok [1] ∧ answer (.talkActive .desk 21) .desk site = ok [0] := by decide +kernel
theorem test_talkRelease : (after (.talkRelease .desk 20) site).floorOf 1 = { waiting := [], stack := [.mic 21], mask := 8 } ∧ (after (.talkRelease .desk 20) site).entry 63 = .up 1 21 := by decide +kernel
theorem test_cut : answer (.cut .desk 1) .desk site = ok [20] := by decide +kernel
theorem test_cut_empty : answer (.cut .desk 2) .desk site = no .busy := by decide +kernel
theorem test_setMask : answer (.setMask .desk 2 200) .desk site = ok [8] ∧ (after (.setMask .desk 2 200) site).entry 62 = .up 2 22 := by decide +kernel
theorem test_readPlan : (answer (.readPlan .desk) .desk site).map (fun a => (a.results.length, a.results.take 3)) = some (195, [0#8, 0#8, 40#8]) := by decide +kernel
theorem test_reportBeacon : answer (.reportBeacon .radio 107 9 180) .radio site = ok [1, 7, 0, 5] := by decide +kernel
theorem test_reportBeacon_unknown : (after (.reportBeacon .radio 99 9 180) site).age.unknownBeacons = 1 ∧ answer (.reportBeacon .desk 99 9 180) .desk site = no .denied := by decide +kernel
theorem test_readSetting : answer (.readSetting .desk 0 3) .desk site = ok [64, 31] ∧ answer (.readSetting .desk 9 99) .desk site = ok [40, 0] := by decide +kernel
theorem test_setSettingRackLimit : answer (.setSettingRackLimit .service 3 1999) .service site = ok [158, 7] ∧ answer (.setSettingRackLimit .service 4 0) .service site = no .badRequest := by decide +kernel
theorem test_setSettingSenseThreshold : (after (.setSettingSenseThreshold .service 9 39) site).settings.senseThreshold = 40 := by decide +kernel
theorem test_setSettingBaseInit : (after (.setSettingBaseInit .service 0 5000) site).settings.baseInit = 4095 := by decide +kernel
theorem test_setSettingColdAfter : answer (.setSettingColdAfter .service 0 601) .service site = ok [88, 2] := by decide +kernel
theorem test_setSettingGaugeInterval : answer (.setSettingGaugeInterval .service 0 9) .service site = ok [10, 0] := by decide +kernel
theorem test_setSettingReadyLevel : answer (.setSettingReadyLevel .service 0 800) .service site = ok [32, 3] ∧ ((after (.setSettingReadyLevel .service 0 800) site).record 0).map (fun x => (x.state, x.loan)) = some (.programming, some 1) := by decide +kernel
theorem test_setSettingReleaseWindow : (after (.setSettingReleaseWindow .service 0 0) site).settings.releaseWindow = 10 := by decide +kernel
theorem test_setSettingMissingAfter : (after (.setSettingMissingAfter .service 0 65535) site).settings.missingAfter = 3600 := by decide +kernel
theorem test_setSettingKeepalive : answer (.setSettingKeepalive .service 0 11) .service site = ok [10, 0] := by decide +kernel
theorem test_setSettingDlSlots : answer (.setSettingDlSlots .service 0 63) .service site = ok [56, 0] ∧ answer (.setSettingDlSlots .desk 0 63) .desk site = no .denied := by decide +kernel
theorem test_setSettingDefaultDuration : (after (.setSettingDefaultDuration .service 0 9) site).settings.defaultDuration = 10 := by decide +kernel
theorem test_setClock : (after (.setClock .service 70200) site).age.clock = 70200 := by decide +kernel
theorem test_setReserve : answer (.setReserve .service (some (1000, 1023))) .service site = ok [1] ∧ answer (.setReserve .service (some (7, 7))) .service site = ok [2] := by decide +kernel
theorem test_setReserve_bad : answer (.setReserve .service (some (1, 0))) .service site = no .badRequest ∧ answer (.setReserve .desk none) .desk site = no .denied := by decide +kernel
theorem test_setAccess : ((after (.setAccess .service 1 7 3 true) site).rights .radio).override = .readWrite := by decide +kernel
theorem test_lockAccess : answer (.setAccess .service 1 7 3 true) .service (after (.lockAccess .service) site) = no .locked := by decide +kernel
theorem test_restart : ((after (.restart .service) site).record 5).map (fun x => (x.state, x.loan)) = some (.absent, none) ∧ (after (.restart .service) site).tour 1 = resetTour := by decide +kernel
theorem test_forceClose_twice_is_busy : answer (.forceClose .service 3) .service site = no .busy := by decide +kernel
theorem test_forceClose : answer (.forceClose .service 1) .service site = ok [5, 0, 1] ∧ (after (.forceClose .service 1) site).outstandingOf 1 = [3] := by decide +kernel
theorem test_unknownRequestCode : answer (.unknownRequestCode .radio 0xFF []) .radio site = no .badRequest := by decide +kernel
theorem test_unknownRequestCode_bad_form : answer (.unknownRequestCode .radio 0x16 [2#8, 0#8, 0#8, 0#8, 0#8]) .radio site = no .denied := by decide +kernel
theorem test_readTransaction : ((after (.readTransaction .desk (whole 5)) site).port .desk).output = [0#8, 1#8, 0#8, 7#8, 0#8] ∧ (after (.readTransaction .desk (whole 5)) site).responseOf .desk = none := by decide +kernel
theorem test_readTransaction_short : (after (.readTransaction .desk (whole 3)) site).responseOf .desk = site.responseOf .desk := by decide +kernel
theorem test_readTransaction_in_progress : (after (.readTransaction .desk (part 5)) site).responseOf .desk = site.responseOf .desk ∧
    after (.readTransaction .desk (whole 5)) (after (.readTransaction .desk (part 2)) site) = after (.readTransaction .desk (whole 5)) site := by decide +kernel
theorem test_writeTransactionAborted : (after (.writeTransactionAborted .desk (whole [0xC1#8, 0x75#8])) site).responseOf .desk = site.responseOf .desk ∧
    ((after (.writeTransactionAborted .desk (part [0xC1#8, 0x75#8])) site).port .desk).requestBuffer = [0x75#8] := by decide +kernel
theorem test_writeTransactionAborted_no_code : (after (.writeTransactionAborted .desk (whole [1#8])) site).responseOf .desk = site.responseOf .desk := by decide +kernel
/-- R186: the rest of a write transaction is ignored until its select rises; the next one is served. -/
theorem test_restart_cuts_a_write_transaction :
    let s := after (.restart .service) (after (.writeTransactionAborted .desk (part [0xC1#8, 0x01#8])) site)
    (s.port .desk).select = .cleared ∧ answer (.readStatus .desk) .desk s = none ∧
    (answer (.readStatus .desk) .desk (after (.readStatus .desk) s)).isSome = true := by decide +kernel
/-- R186: a read transaction in progress is answered with 0x00 from there on, and the buffer stays empty. -/
theorem test_restart_cuts_a_read_transaction :
    let s := after (.readTransaction .desk (whole 5)) (after (.restart .service) (after (.readTransaction .desk (part 2)) site))
    (s.port .desk).output = [0#8, 1#8] ∧ s.responseOf .desk = none ∧ (s.port .desk).select = .high := by decide +kernel
/-- R187: a transaction whose select fell while RSTN was low is ignored until it rises. -/
theorem test_full_reset_ignores_a_transaction_that_spans_it :
    let s := after .fullResetEnd (after (.writeTransactionAborted .desk (part [])) (after .fullReset site))
    (s.port .desk).select = .ignored ∧ answer (.readStatus .desk) .desk s = none ∧
    (answer (.readStatus .desk) .desk (after (.readStatus .desk) s)).isSome = true := by decide +kernel
theorem test_fullReset : (after .fullReset site).record 0 = none ∧ after (.readStatus .desk) (after .fullReset site) = after .fullReset site := by decide +kernel
theorem test_fullResetEnd : (after .fullResetEnd site) = State.reset := by decide +kernel

/-! ## Rack events -/

theorem test_drift : (after (.scanCompletion 1 1040) (bayAt 1 17 1024)).bay 1 17 = { resetBay with sense := 1040, baseline := 1026 } := by decide +kernel
theorem test_drift_down : (after (.scanCompletion 1 980) (bayAt 1 17 1026)).bay 1 17 = { resetBay with sense := 980, baseline := 1021 } := by decide +kernel
theorem test_approach_leaves_the_baseline : ((after (.scanCompletion 1 1150) (bayAt 1 17 1021)).bay 1 17).baseline = 1021 := by decide +kernel
theorem test_arrival : ((after (.scanCompletion 1 1300) (bayAt 1 17 1021)).bay 1 17).state = .arriving := by decide +kernel
/-- Rack 0 HOT in a wait that has just run 20 ms. -/
def waited : State := State.reset.setScanner 0 { resetScanner with phase := .wait, waitElapsed := 10240, quiet := 30 * 512000 }
theorem test_sweepWaitExpiry : ((after (.sweepWaitExpiry 0) waited).scanner 0).phase = .sweep ∧
    after (.sweepWaitExpiry 0) (waiting0 .wait) = waiting0 .wait := by decide +kernel
theorem test_sweepWaitExpiry_after_cooling : ((after (.sweepWaitExpiry 0) (after (.coldAfterExpiry 0) waited)).scanner 0).phase = .wait := by
  decide +kernel
theorem test_coldAfterExpiry : ((after (.coldAfterExpiry 1) (ripe site)).scanner 1).cadence = .hot ∧
    ((after (.coldAfterExpiry 2) (ripe site)).scanner 2).cadence = .cold := by decide +kernel
/-- R35: an event that wakes the rack, or a higher COLD_AFTER, taken before the expiry leaves the rack HOT. -/
theorem test_coldAfterExpiry_overtaken : ((after (.coldAfterExpiry 1) (after (.scanCompletion 1 1300)
      ((bayAt 1 17 1021).setScanner 1 { (bayAt 1 17 1021).scanner 1 with quiet := 30 * 512000 }))).scanner 1).cadence = .hot ∧
    ((after (.coldAfterExpiry 0) (after (.setSettingColdAfter .service 0 31) waited)).scanner 0).cadence = .hot := by
  decide +kernel
theorem test_word_width_of_a_g2_receiver : ((after (.wordCrossed 0 2) (identifying 3 [11341, 1] .byte (some 2))).channel 0).width = .word := by decide +kernel
theorem test_identify_check : ((after (.wordCrossed 0 12231) (identifying 0 [11341, 1, 2, 880, 7] .word none)).record 0).map (fun x => (x.rid, x.generation, x.soc, x.state)) = some (76877, .g2, some 880, .docked) := by decide +kernel
theorem test_identify_bad_check : ((after (.wordCrossed 0 12230) (identifying 0 [11341, 1, 2, 880, 7] .word none)).channel 0).confirming = true := by decide +kernel
/-- R53: a word that has crossed lowers words remaining by 1 also where its check fails, or a count above 48. -/
theorem test_words_remaining_of_a_failed_attempt : ((after (.wordCrossed 0 12230) (identifying 0 [11341, 1, 2, 880, 7] .word none)).channel 0).wordsRemaining = 0 ∧
    ((after (.wordCrossed 0 49) ((transfer .readUsage).setChannel 0 { (transfer .readUsage).channel 0 with wordsRemaining := 2, width := .word })).channel 0).wordsRemaining = 1 := by decide +kernel
theorem test_byteCrossed : ((after (.byteCrossed 0 77) (identifying 5 [] .byte none)).channel 0).lowByte = some 77 := by decide +kernel
theorem test_wordTimeout : ((after (.wordTimeout 0) (ripe (identifying 5 [] .byte (some 77)))).channel 0).confirming = true := by decide +kernel
theorem test_confirmingScan_absent : ((after (.confirmingScan 0 1100) (after (.wordTimeout 0) (ripe (identifying 5 [] .byte none)))).bay 0 2).state = .empty := by decide +kernel
theorem test_identifyCompletion_foreign : ((after (.identifyCompletion 0 0 1 false 0 1) (identifying 1 [] .byte none)).bay 0 2).state = .foreign := by decide +kernel
theorem test_programWords : (programming.beginAttempt 2).channel 2 = { resetChannel with inFlight := some (program41 0), wordsRemaining := 10, formed := [6, 3, 7, 8000, 2, 8, 4664, 1, 12691] } := by decide +kernel
theorem test_programCompletion : ((after (.programCompletion 1) site).bay 1 1).latchOpen = true ∧ ((after (.programCompletion 1) site).record 3).map (·.state) = some .released := by decide +kernel
theorem test_readUsageCompletion : ((after (.readUsageCompletion 0 [1, 1023]) (transfer .readUsage)).record 0).map (fun x => (x.listeningMinutes, x.usagePending)) = some (1024, false) := by decide +kernel
theorem test_gaugeCompletion : ((after (.gaugeCompletion 0 2000 false false) (transfer .gauge)).record 0).map (fun x => (x.soc, x.state)) = some (some 1000, .ready) := by decide +kernel
theorem test_gaugeCompletion_cell_fault : ((after (.gaugeCompletion 0 900 false true) (transfer .gauge)).record 0).map (fun x => (x.state, x.faultCount)) = some (.fault, 1) := by decide +kernel
theorem test_gaugePoll : ((after (.gaugePoll 0) (ripe site)).channel 0).queue.length = 1 ∧
    (((after (.gaugePoll 0) (ripe site)).channel 0).inFlight).map (fun q => (q.kind, q.bay)) = some (.gauge, 5) := by decide +kernel
theorem test_short_rack : [3, 7, 12, 20, 21, 30, 31, 40].map (fun b => ((shortRack.restage 1).drive 1 b).staged) = [460, 600, 312, 312, 195, 0, 0, 0] := by decide +kernel
theorem test_short_rack_notice : .rackShort 1 ∈ ((shortRack.restage 1).port .desk).notices := by decide +kernel

/-- R81: at the end of the frame the position is count 0 of sub-period 0. -/
theorem test_charge_frame_position : ∀ n ∈ [0, 31999, 32000, 127999, 128000],
    let s := { site with charge := { site.charge with frameTime := n } }
    (s.subPeriod, s.frameCount) = (n / 32000 % 4, n / 125 % 256) ∧ s.subPeriod < 4 := by decide +kernel

/-! ## Timed events -/

theorem test_chargeFrameBoundary : (after .chargeFrameBoundary (ripe (shortRack.restage 1))).drive 1 7 = { staged := 600, applied := 600, duty := 960 } := by decide +kernel
theorem test_keepaliveExpiry : (after (.keepaliveExpiry 20) site).floorOf 1 = { waiting := [], stack := [.mic 21], mask := 8 } ∧ .floorStale 20 ∈ ((after (.keepaliveExpiry 20) site).port .radio).notices := by decide +kernel
/-- R140: a TALK_ACTIVE taken before the expiry leaves nothing to expire. -/
theorem test_keepaliveExpiry_after_talkActive : after (.keepaliveExpiry 20) (after (.talkActive .desk 20) site) = after (.talkActive .desk 20) site := by decide +kernel
theorem test_releaseWindowExpiry : ((after (.releaseWindowExpiry 4) site).record 4).map (fun x => (x.state, x.loan)) = some (.ready, none) ∧ ((after (.releaseWindowExpiry 4) site).bay 1 2).latchOpen = false := by decide +kernel
theorem test_compareA : (after .compareA (ripe site)).air.phaseHigh = true := by decide +kernel
theorem test_frameBoundary : (after .frameBoundary (ripe site)).air.currentPlan = site.air.nextPlan ∧ (after .frameBoundary (ripe site)).air.sequence = 1 := by decide +kernel
theorem test_clockAdvance : (after .clockAdvance (ripe { site with age := { site.age with clock := 4294967295 } })).age.clock = 0 := by decide +kernel
theorem test_sweepStep : (after .sweepStep (ripe { site with age := { site.age with clock := 5399 } })).record 5 = some { lent (rec 105 .missing none (some 900)) 1 1 5400 with lastHeard := some 0 } := by decide +kernel
theorem test_sweepStep_overdue : ((after .sweepStep (ripe { site with age := { site.age with clock := 5400 }, settings := { site.settings with missingAfter := 5401 } })).record 5).map (fun x => (x.state, x.overdueFlag)) = some (.overdue, true) := by decide +kernel
/-- An expiry that another event has overtaken does nothing: a word that crosses before its timeout (R53), a SET_CLOCK before the
advance (R161), a restart before the frame boundaries and the sweep step (R81, R150, R166). -/
theorem test_overtaken_expiries_do_nothing :
    (let t := after (.wordCrossed 0 1) (ripe (identifying 5 [] .word none)); after (.wordTimeout 0) t = t) ∧
    (let t := after (.setClock .service 70) (ripe site); t.age.clock = 70 ∧ after .clockAdvance t = t) ∧
    (let t := after (.restart .service) (ripe site)
     [Instr.chargeFrameBoundary, .compareA, .frameBoundary, .sweepStep, .gaugePoll 0].all fun c => decide (after c t = t)) := by
  decide +kernel
/-- The house live with three uplink slots, all held, and programme 4 waiting for one; the keep-alives of microphone 63 on the
house and of 30 on programme 3 have run out. -/
def announcing : State :=
  let s := (after (.talkRequest .desk 63) site).setSplit 61
  let s := ((s.setProgramme 3 { used 2 3 0 with relay := false }).setProgramme 4 { used 1 4 0 with relay := false }).setEntry 61 (.up 3 30)
  let s := (s.setMic 63 { mic 0 1 .talking with keepAlive := some (3 * 512000) }).setMic 30 { mic 3 4 .talking with keepAlive := some (3 * 512000) }
  let s := (s.setMic 31 (mic 4 4 .requesting)).setMic 32 (mic 0 2 .requesting)
  let s := (s.setFloor 0 { waiting := [32], stack := [.mic 63], mask := 8 }).setFloor 3 { waiting := [], stack := [.mic 30], mask := 8 }
  (s.setFloor 4 { waiting := [31], stack := [], mask := 8 }).setUplinkQueue [4]
/-- R144: the house programme, whose slot programme 4 has taken, is granted again by the second expiry of one event, so no
cascade entry is removed. -/
theorem test_house_granted_again_in_one_event : ([63, 30].foldl (fun t m => t.expireAmong m) announcing).dropCascadesIfSilent.floorOf 0 =
      { waiting := [], stack := [.mic 32], mask := 8 } ∧
    ([63, 30].foldl (fun t m => t.expireAmong m) announcing).dropCascadesIfSilent.floorOf 1 = announcing.floorOf 1 ∧
    (announcing.floorOf 1).stack = [.cascade, .mic 20] ∧ (announcing.expireKeepAlive 63).floorOf 1 ≠ announcing.floorOf 1 := by
  decide +kernel
theorem test_step_takes_the_front : step { site with pending := [.compareA, .frameBoundary] } = exec .compareA { site with pending := [.frameBoundary] } := by rfl
theorem test_tick_advances_the_counters : (match step State.reset with | .next t => t | _ => State.reset).air.frameTime = 1 := by decide +kernel

/-! ## States and operands that meet the hypotheses of the statements -/

def recAt (s : State) (i : Nat) : Record := (s.record i).getD (newRecord 0 .g1)
def loanAt (s : State) (i : Nat) : Loan := (s.loan i).getD (loan 0 0 0 [])

theorem records_all {s : State} {p : Nat → Record → Bool} (h : (s.fleet.records.all fun e => e.2.all (p e.1)) = true) :
    ∀ i x, s.record i = some x → p i x = true :=
  Table.forall_read (P := fun i o => ∀ x, o = some x → p i x = true) (fun _ => none) (fun _ _ hx => nomatch hx)
    s.fleet.records fun e he x hx => by
      have := List.all_eq_true.mp h e he
      rw [hx] at this
      exact this

theorem loans_all {s : State} {p : Nat → Loan → Bool} (h : (s.loans.loans.all fun e => e.2.all (p e.1)) = true) :
    ∀ i x, s.loan i = some x → p i x = true :=
  Table.forall_read (P := fun i o => ∀ x, o = some x → p i x = true) (fun _ => none) (fun _ _ hx => nomatch hx)
    s.loans.loans fun e he x hx => by
      have := List.all_eq_true.mp h e he
      rw [hx] at this
      exact this

theorem noRid {s : State} {rid : Nat} (h : (s.fleet.records.all fun e => e.2.all fun x => decide (x.rid ≠ rid)) = true) :
    ∀ i x, s.record i = some x → x.rid ≠ rid := fun i x hx =>
  of_decide_eq_true (records_all (p := fun _ y => decide (y.rid ≠ rid)) h i x hx)

/-- A record at an index holds a receiver ID other than 0, which no other index holds. -/
def ridApart (s : State) (i : Nat) (x : Record) : Bool :=
  decide (x.rid ≠ 0) && s.fleet.records.all fun g => g.2.all fun y => decide (x.rid = y.rid → i = g.1)

theorem ridsUnique_of {s : State} (h : (s.fleet.records.all fun e => e.2.all (ridApart s e.1)) = true) : s.RidsUnique where
  nonzero i x hx := by
    have := records_all h i x hx
    simp only [ridApart, Bool.and_eq_true, decide_eq_true_eq] at this
    exact this.1
  unique i j x y hx hy e := by
    have := records_all h i x hx
    simp only [ridApart, Bool.and_eq_true] at this
    exact of_decide_eq_true (records_all (p := fun j y => decide (x.rid = y.rid → i = j)) this.2 j y hy) e

theorem site_ridsUnique : site.RidsUnique := ridsUnique_of (by decide +kernel)
theorem site_served : site.Served := by unfold State.Served; decide +kernel

theorem site_canonical : site.Canonical where
  records := by decide +kernel
  scan := by decide +kernel
  bays := Table.forall_read (P := fun _ v => Table.wf (fun _ => resetBay) v.bays = true) (fun _ => resetScanner) (fun _ => rfl) site.scan (by decide +kernel)
  chan := by decide +kernel
  racks := by decide +kernel
  drives := Table.forall_read (P := fun _ v => Table.wf (fun _ => resetDrive) v.drives = true) (fun _ => resetRackCharge) (fun _ => rfl) site.charge.racks
    (by decide +kernel)
  tours := by decide +kernel
  programmes := by decide +kernel
  loans := by decide +kernel
  timers := by decide +kernel
  mics := by decide +kernel
  floors := by decide +kernel
  nextPlan := by decide +kernel
  currentPlan := by decide +kernel

/-- A state is lawful if each row of its tables is. -/
theorem floorsLawful_of (s : State)
    (h1 : ∀ e ∈ s.floor.mics, e.2.priority.all (fun q => decide (1 ≤ q)) = true)
    (h2 : ∀ e ∈ s.floor.floors, ∀ m, m ∈ e.2.waiting → (s.mic m).programme = some e.1 ∧ (s.mic m).state = .requesting)
    (h3 : ∀ e ∈ s.floor.floors, e.2.waiting.Nodup)
    (h4 : ∀ e ∈ s.floor.floors, ∀ g ∈ e.2.stack, (match g with
      | .mic m => decide ((s.mic m).programme = some e.1 ∧ ((s.mic m).state = .talking ∨ (s.mic m).state = .held))
      | .cascade => true) = true)
    (h5 : ∀ e ∈ s.floor.floors, e.2.stack.Pairwise fun a b => s.entryPriority a < s.entryPriority b) : s.FloorsLawful where
  priority := Table.forall_read (P := fun _ v => ∀ q, v.priority = some q → 1 ≤ q) (fun _ => resetMic) (fun _ _ h => nomatch h)
    s.floor.mics fun e he q hq => by
      have h := h1 e he
      rw [hq] at h
      exact of_decide_eq_true h
  waiting := Table.forall_read (P := fun p v => ∀ m, m ∈ v.waiting → (s.mic m).programme = some p ∧ (s.mic m).state = .requesting)
    (fun _ => resetFloor) (fun _ _ h => nomatch h) s.floor.floors h2
  distinct := Table.forall_read (P := fun _ v => v.waiting.Nodup) (fun _ => resetFloor) (fun _ => .nil) s.floor.floors h3
  serving := Table.forall_read (P := fun p v => ∀ m, StackEntry.mic m ∈ v.stack →
      (s.mic m).programme = some p ∧ ((s.mic m).state = .talking ∨ (s.mic m).state = .held))
    (fun _ => resetFloor) (fun _ _ h => nomatch h) s.floor.floors fun e he m hm => of_decide_eq_true (h4 e he (.mic m) hm)
  ordered := Table.forall_read (P := fun _ v => v.stack.Pairwise fun a b => s.entryPriority a < s.entryPriority b)
    (fun _ => resetFloor) (fun _ => .nil) s.floor.floors h5

theorem site_floorsLawful : site.FloorsLawful :=
  floorsLawful_of site (by decide +kernel) (by decide +kernel) (by decide +kernel) (by decide +kernel) (by decide +kernel)

theorem site_racks : site.charge.racks = [] := by decide +kernel
theorem site_planEntries : site.air.nextPlan.entries = [(0, .down 1 (.mic 20)), (63, .up 1 20)] := by decide +kernel

theorem site_rackCharge (r : Nat) : site.rackCharge r = resetRackCharge := by
  unfold State.rackCharge
  rw [site_racks]
  rfl

theorem site_entries (n : Nat) (h : n ≤ 40 ∧ 1 ≤ n) (i : Nat) : (site.entry i).FitsAt n i := by
  unfold State.entry Plan.entry
  rw [site_planEntries]
  refine Table.forall_read (P := fun i e => e.FitsAt n i) (fun _ => Entry.free) (fun _ => trivial) _ ?_ i
  intro e he
  have h0 : 0 < n := h.2
  have h63 : n ≤ 63 := Nat.le_trans h.1 (by decide)
  rcases List.mem_cons.mp he with rfl | he
  · exact h0
  · rw [List.mem_singleton.mp he]
    exact h63

theorem site_sound : site.Sound where
  settings :=
    { settings := { senseThreshold := by decide, baseInit := by decide, coldAfter := by decide, gaugeInterval := by decide
                    readyLevel := by decide, releaseWindow := by decide, missingAfter := by decide, keepalive := by decide
                    defaultDuration := by decide }
      nextSplit := ⟨by decide, by decide⟩
      currentSplit := ⟨by decide, by decide⟩
      frameSplit := ⟨by decide, by decide⟩
      stagedLimit := fun r => by rw [site_rackCharge r]; exact ⟨by decide, by decide⟩
      appliedLimit := fun r => by rw [site_rackCharge r]; exact ⟨by decide, by decide⟩ }
  duties := fun r b => by
    have : site.drive r b = resetDrive := by unfold State.drive; rw [site_rackCharge r]; rfl
    rw [this]
    exact ⟨rfl, by decide, by decide⟩
  notices := fun l => by
    cases l
    · exact ⟨by decide +kernel, by decide +kernel⟩
    · exact ⟨nofun, .nil⟩
    · exact ⟨nofun, .nil⟩
  rids := site_ridsUnique
  plans := ⟨site_entries 40 (by decide), fun _ => trivial⟩
  counters :=
    { records := fun i x hx => by
        have := records_all (p := fun _ x => decide (x.loansServed ≤ max32) && decide (x.listeningMinutes ≤ max32) &&
          decide (x.faultCount ≤ 255)) (by decide +kernel) i x hx
        simp only [Bool.and_eq_true, decide_eq_true_eq] at this
        exact ⟨this.1.1, this.1.2, this.2⟩
      sweepPos := Table.forall_read (P := fun _ v => v.sweepPos ≤ 63) (fun _ => resetScanner) (fun _ => by decide) site.scan (by decide +kernel)
      key := ⟨by decide, by decide⟩
      mask := Table.forall_read (P := fun _ v => 1 ≤ v.mask ∧ v.mask ≤ 8) (fun _ => resetFloor) (fun _ => by decide) site.floor.floors (by decide +kernel)
      sequence := by decide
      age := ⟨by decide, by decide⟩ }
  tables := site_canonical
  served := site_served

/-- One receiver on its way out: record 0 is RELEASED at bay 5 of rack 0 for loan 1 of tour 1, and listens to programme 1,
on which microphone 20 talks. -/
def released : Record := { lent (rec 100 .released none (some 1000)) 1 1 5400 with bay := some { rack := 0, bay := 5 } }
def handout : State :=
  { State.reset with
    fleet := { State.reset.fleet with records := [(0, some released)] }
    scan := [(0, { resetScanner with bays := [(5, { occupied 0 with latchOpen := true })] })]
    tours := { State.reset.tours with
      tours := [(1, { state := .opened, programmes := [1], duration := some 90 })], programmes := [(1, used 1 1 1)] }
    loans := { State.reset.loans with
      loans := [(1, some (loan 1 1 0 [0]))], timers := [(0, some { length := 60 * 512000, elapsed := 0 })] }
    floor := { State.reset.floor with
      mics := [(20, mic 1 4 .talking)], floors := [(1, { waiting := [], stack := [.mic 20], mask := 8 })] }
    air := { State.reset.air with nextPlan := { split := 40, entries := [(0, .down 1 (.mic 20)), (63, .up 1 20)] } } }

/-- What a table of one row reads as. -/
theorem read_single {α : Type} {d : Nat → α} {k i : Nat} {v : α} :
    Table.read d [(k, v)] i = v ∧ i = k ∨ Table.read d [(k, v)] i = d i ∧ i ≠ k := by
  by_cases h : k = i
  · exact .inl ⟨by simp [Table.read, h], h.symm⟩
  · exact .inr ⟨by simp [Table.read, h], fun e => h e.symm⟩

theorem handout_record {i : Nat} {x : Record} (h : handout.record i = some x) : i = 0 ∧ x = released :=
  (read_single (d := fun _ => none)).elim (fun e => ⟨e.2, Option.some.inj (h.symm.trans e.1)⟩)
    fun e => nomatch h.symm.trans e.1
theorem handout_loan {id : Nat} {l : Loan} (h : handout.loan id = some l) : id = 1 ∧ l = loan 1 1 0 [0] :=
  (read_single (d := fun _ => none)).elim (fun e => ⟨e.2, Option.some.inj (h.symm.trans e.1)⟩)
    fun e => nomatch h.symm.trans e.1
theorem handout_bay (r b : Nat) :
    r = 0 ∧ b = 5 ∧ handout.bay r b = { occupied 0 with latchOpen := true } ∨
      (r ≠ 0 ∨ b ≠ 5) ∧ handout.bay r b = resetBay := by
  unfold State.bay
  rcases read_single (d := fun _ => resetScanner) (k := 0) (i := r)
    (v := { resetScanner with bays := [(5, { occupied 0 with latchOpen := true })] }) with ⟨h, hr⟩ | ⟨h, hr⟩
  · rw [show handout.scanner r = _ from h]
    rcases read_single (d := fun _ => resetBay) (k := 5) (i := b) (v := { occupied 0 with latchOpen := true }) with
      ⟨k, hb⟩ | ⟨k, hb⟩
    · exact .inl ⟨hr, hb, k⟩
    · exact .inr ⟨.inr hb, k⟩
  · rw [show handout.scanner r = _ from h]
    exact .inr ⟨.inl hr, rfl⟩
theorem handout_rackCharge (r : Nat) : handout.rackCharge r = resetRackCharge := rfl
theorem handout_drive (r b : Nat) : handout.drive r b = resetDrive := rfl
theorem handout_tour (t : Nat) :
    handout.tour t = { state := .opened, programmes := [1], duration := some 90 } ∧ t = 1 ∨
      handout.tour t = resetTour ∧ t ≠ 1 := read_single
theorem handout_programme (p : Nat) :
    handout.programme p = used 1 1 1 ∧ p = 1 ∨ handout.programme p = resetProgramme p ∧ p ≠ 1 := read_single
theorem handout_floorOf (p : Nat) :
    handout.floorOf p = { waiting := [], stack := [.mic 20], mask := 8 } ∧ p = 1 ∨
      handout.floorOf p = resetFloor ∧ p ≠ 1 := read_single
theorem handout_mic (m : Nat) :
    handout.mic m = mic 1 4 .talking ∧ m = 20 ∨ handout.mic m = resetMic ∧ m ≠ 20 := read_single
theorem handout_timer (i : Nat) :
    handout.timer i = some { length := 60 * 512000, elapsed := 0 } ∧ i = 0 ∨ handout.timer i = none ∧ i ≠ 0 :=
  read_single (d := fun _ => none)
theorem handout_entry (i : Nat) :
    i = 0 ∧ handout.entry i = .down 1 (.mic 20) ∨ i = 63 ∧ handout.entry i = .up 1 20 ∨
      i ≠ 0 ∧ i ≠ 63 ∧ handout.entry i = .free := by
  by_cases h : 0 = i
  · subst h; exact .inl ⟨rfl, rfl⟩
  · by_cases k : 63 = i
    · subst k; exact .inr (.inl ⟨rfl, rfl⟩)
    · exact .inr (.inr ⟨fun e => h e.symm, fun e => k e.symm, by
        unfold State.entry Plan.entry handout; simp [Table.read, h, k]⟩)

theorem handout_bindings : handout.BindingsAgree where
  bay := fun r b i h => by
    rcases handout_bay r b with ⟨rfl, rfl, e⟩ | ⟨_, e⟩ <;> rw [e] at h
    · cases h
      exact ⟨by decide, by decide, .inl (by rw [e]; rfl), released, rfl, rfl, nofun⟩
    · nomatch h
  full := fun r b h => by
    rcases handout_bay r b with ⟨rfl, rfl, e⟩ | ⟨_, e⟩ <;> rw [e] at h ⊢
    · nofun
    · exact h.elim nofun nofun
  record := fun i x p h k => by
    obtain ⟨rfl, rfl⟩ := handout_record h
    cases k
    rfl
  docks := fun i x h _ => by obtain ⟨rfl, rfl⟩ := handout_record h; nofun
  free := fun i x h k => by obtain ⟨rfl, rfl⟩ := handout_record h; nomatch k
  latch := fun r b => by
    rcases handout_bay r b with ⟨rfl, rfl, e⟩ | ⟨_, e⟩ <;> rw [e]
    · exact ⟨fun _ => ⟨0, released, rfl, rfl, rfl⟩, fun _ => rfl⟩
    · exact ⟨nofun, fun ⟨_, _, h, _⟩ => nomatch h⟩

theorem handout_requests : handout.RequestsLawful where
  multiplexer := fun r => by
    rcases read_single (d := fun _ => resetScanner) (k := 0) (i := r)
      (v := { resetScanner with bays := [(5, { occupied 0 with latchOpen := true })] }) with ⟨h, _⟩ | ⟨h, _⟩ <;>
    · rw [show handout.scanner r = _ from h]
      exact ⟨nofun, fun k => absurd rfl k⟩
  distinct := fun _ => .nil
  apart := nofun
  ordered := fun _ => .nil
  stamped := fun _ _ h => h.elim nofun nofun
  queued := nofun
  flying := nofun

theorem handout_loans : handout.LoansLawful where
  member := fun id l i h k => by
    obtain ⟨rfl, rfl⟩ := handout_loan h
    cases List.mem_singleton.mp k
    exact ⟨released, rfl, rfl⟩
  distinct := fun id l h => by obtain ⟨rfl, rfl⟩ := handout_loan h; decide
  listed := fun i x id h k => by
    obtain ⟨rfl, rfl⟩ := handout_record h
    cases k
    exact ⟨loan 1 1 0 [0], rfl, List.mem_singleton.mpr rfl, rfl, rfl⟩
  lent := fun i x h => by obtain ⟨rfl, rfl⟩ := handout_record h; exact ⟨nofun, fun _ => rfl⟩
  conserved := fun id l h => by obtain ⟨rfl, rfl⟩ := handout_loan h; rfl
  kept := fun id l h => by obtain ⟨rfl, rfl⟩ := handout_loan h; exact .inr nofun
  wants := fun id l h _ => by obtain ⟨rfl, rfl⟩ := handout_loan h; rfl
  given := fun id l i x h k => by obtain ⟨rfl, rfl⟩ := handout_loan h; nomatch k
  once := .nil
  wanting := fun id => ⟨nofun, fun ⟨l, h, k⟩ => by obtain ⟨rfl, rfl⟩ := handout_loan h; exact absurd rfl k⟩
  timers := fun i => by
    rcases handout_timer i with ⟨e, rfl⟩ | ⟨e, h⟩ <;> rw [e]
    · exact ⟨fun _ => ⟨released, rfl, rfl⟩, fun _ => nofun⟩
    · exact ⟨fun k => absurd rfl k, fun ⟨x, k, _⟩ => absurd (handout_record k).1 h⟩
  reserve := nofun

theorem handout_tours : handout.ToursLawful where
  free := fun t h => by
    rcases handout_tour t with ⟨e, _⟩ | ⟨e, _⟩ <;> rw [e] at h ⊢
    · nomatch h
    · rfl
  holds := fun t p h => by
    rcases handout_tour t with ⟨e, rfl⟩ | ⟨e, _⟩ <;> rw [e] at h
    · cases List.mem_singleton.mp h
      exact ⟨by decide, by decide, rfl, rfl⟩
    · nomatch h
  distinct := fun t => by rcases handout_tour t with ⟨e, _⟩ | ⟨e, _⟩ <;> rw [e] <;> decide
  belongs := fun p h k => by
    rcases handout_programme p with ⟨e, rfl⟩ | ⟨e, _⟩ <;> rw [e] at k
    · exact ⟨1, rfl, List.mem_singleton.mpr rfl⟩
    · exact absurd (of_decide_eq_true k) h
  house := ⟨rfl, rfl⟩
  loans := fun id l h => by obtain ⟨rfl, rfl⟩ := handout_loan h; exact .inl (List.mem_singleton.mpr rfl)
  closing := fun id l h k => by obtain ⟨rfl, rfl⟩ := handout_loan h; nomatch k
  listeners := fun p => by
    rcases handout_programme p with ⟨e, rfl⟩ | ⟨e, h⟩ <;> rw [e]
    · decide
    · simp [State.listeningTo, show handout.recordIndices = [0] from rfl, show handout.record 0 = some released from rfl,
        show released.programme = some 1 from rfl, Ne.symm h, resetProgramme]
  mics := fun m p h => by
    rcases handout_mic m with ⟨e, rfl⟩ | ⟨e, _⟩ <;> rw [e] at h
    · cases h
      exact ⟨by decide, rfl, fun t k => by cases k; nofun⟩
    · nomatch h

theorem handout_slots : handout.SlotsLawful where
  down := fun p => by
    rcases handout_programme p with ⟨e, rfl⟩ | ⟨e, h⟩ <;> rw [e]
    · exact ⟨fun _ => .inl ⟨0, .mic 20, rfl⟩, fun _ => nofun⟩
    · refine ⟨fun k => absurd rfl k, fun k => k.elim (fun ⟨i, x, k⟩ => ?_) nofun⟩
      rcases handout_entry i with ⟨_, f⟩ | ⟨_, f⟩ | ⟨_, _, f⟩ <;> rw [f] at k <;> cases k
      exact absurd rfl h
  downApart := fun _ _ _ _ => nofun
  downOnce := fun p i j x y h k => by
    rcases handout_entry i with ⟨a, f⟩ | ⟨_, f⟩ | ⟨_, _, f⟩ <;> rw [f] at h <;> cases h
    rcases handout_entry j with ⟨b, g⟩ | ⟨_, g⟩ | ⟨_, _, g⟩ <;> rw [g] at k <;> cases k
    exact a.trans b.symm
  downQueue := .nil
  downServed := fun h => absurd rfl h
  up := fun p => by
    rcases handout_floorOf p with ⟨e, rfl⟩ | ⟨e, h⟩ <;> rw [e]
    · exact ⟨fun _ => ⟨63, 20, rfl⟩, fun _ => nofun⟩
    · refine ⟨fun k => absurd rfl k, fun ⟨i, m, k⟩ => ?_⟩
      rcases handout_entry i with ⟨_, f⟩ | ⟨_, f⟩ | ⟨_, _, f⟩ <;> rw [f] at k <;> cases k
      exact absurd rfl h
  upOnce := fun p i j m n h k => by
    rcases handout_entry i with ⟨_, f⟩ | ⟨a, f⟩ | ⟨_, _, f⟩ <;> rw [f] at h <;> cases h
    rcases handout_entry j with ⟨_, g⟩ | ⟨b, g⟩ | ⟨_, _, g⟩ <;> rw [g] at k <;> cases k
    exact a.trans b.symm
  upQueue := .nil
  upWaits := fun _ => nofun
  upServed := fun h => absurd rfl h
  shown := fun i => by rcases handout_entry i with ⟨_, f⟩ | ⟨_, f⟩ | ⟨_, _, f⟩ <;> rw [f] <;> rfl

theorem handout_budgets : handout.BudgetsKept where
  staged := fun r _ => by simp [handout_drive, resetDrive, List.map_const']
  demand := fun r b _ _ => by rw [handout_drive]; exact Nat.zero_le _
  applied := fun r _ => by simp [handout_drive, resetDrive, List.map_const']

theorem handout_lawful : handout.Lawful :=
  ⟨handout_bindings, handout_requests, handout_loans, handout_tours, handout_slots, handout_budgets⟩

theorem handout_floorsLawful : handout.FloorsLawful :=
  floorsLawful_of handout (by decide +kernel) (by decide +kernel) (by decide +kernel) (by decide +kernel) (by decide +kernel)

theorem handout_sound : handout.Sound where
  settings :=
    { settings := site_sound.settings.settings
      nextSplit := ⟨by decide, by decide⟩
      currentSplit := ⟨by decide, by decide⟩
      frameSplit := ⟨by decide, by decide⟩
      stagedLimit := fun r => by rw [handout_rackCharge]; exact ⟨by decide, by decide⟩
      appliedLimit := fun r => by rw [handout_rackCharge]; exact ⟨by decide, by decide⟩ }
  duties := fun r b => by rw [handout_drive]; exact ⟨rfl, by decide, by decide⟩
  notices := fun l => by cases l <;> exact ⟨nofun, .nil⟩
  rids := ridsUnique_of (by decide +kernel)
  plans := ⟨fun i => by
    rcases handout_entry i with ⟨rfl, _⟩ | ⟨rfl, _⟩ | ⟨_, _, e⟩
    · exact (by decide : 0 < 40)
    · exact (by decide : 40 ≤ 63)
    · rw [show handout.air.nextPlan.entry i = _ from e]; trivial, fun _ => trivial⟩
  counters :=
    { records := fun i x h => by obtain ⟨rfl, rfl⟩ := handout_record h; exact ⟨by decide, by decide, by decide⟩
      sweepPos := Table.forall_read (P := fun _ v => v.sweepPos ≤ 63) (fun _ => resetScanner) (fun _ => by decide) handout.scan
        (by decide +kernel)
      key := ⟨by decide, by decide⟩
      mask := fun p => by rcases handout_floorOf p with ⟨e, _⟩ | ⟨e, _⟩ <;> rw [e] <;> exact ⟨by decide, by decide⟩
      sequence := by decide
      age := ⟨by decide, by decide⟩ }
  tables :=
    { records := rfl
      scan := rfl
      bays := Table.forall_read (P := fun _ v => Table.wf (fun _ => resetBay) v.bays = true) (fun _ => resetScanner)
        (fun _ => rfl) handout.scan (by decide +kernel)
      chan := rfl
      racks := rfl
      drives := fun _ => rfl
      tours := rfl
      programmes := rfl
      loans := rfl
      timers := rfl
      mics := rfl
      floors := rfl
      nextPlan := rfl
      currentPlan := rfl }
  served := fun _ _ _ => rfl

/-! The machine and the links. -/

theorem witness_StepRunsTheFrontCommand : { site with pending := [.compareA] }.pending = .compareA :: [] := rfl
theorem witness_EmptyQueueStepIsOneTick : site.pending = [] ∧ site.Canonical ∧ site.resetHeld = false :=
  ⟨rfl, site_canonical, rfl⟩
theorem witness_EmptyQueueStepIsOneTick_held : (after .fullReset site).pending = [] ∧ (after .fullReset site).resetHeld = true := by
  decide +kernel
theorem witness_FullResetSetsEveryBlock : (after .fullReset site).resetHeld = true ∧ Instr.compareA ≠ .fullReset ∧
    Instr.compareA ≠ .fullResetEnd ∧ sender .compareA = none ∧ (∀ l n, Instr.compareA ≠ .readTransaction l n) ∧
    (∀ l n, Instr.compareA ≠ .writeTransactionAborted l n) ∧ sender (.readStatus .desk) = some .desk :=
  ⟨by decide +kernel, nofun, nofun, rfl, fun _ _ => nofun, fun _ _ => nofun, rfl⟩
theorem witness_RestartKeepsSettingsAndIdentities : site.Takes (.restart .service) .service := by decide +kernel
theorem witness_AccessIsCheckedFirst_right : site.Hears .desk ∧ sender (.writeOff .desk 105) = some .desk ∧
    needs (.writeOff .desk 105) = some (.override, true) ∧ site.holds .desk (some (.override, true)) = false := by decide +kernel
theorem witness_AccessIsCheckedFirst_reserveUse : site.Takes (.issue .desk 1 2 1 true) .desk ∧
    site.reserveFlagged (.issue .desk 1 2 1 true) = true ∧ (site.rights .desk).reserveUse = false := by decide +kernel
def reserved1 : State := site.setLoan 1 (some { loanAt site 1 with reserve := true })
theorem witness_AccessIsCheckedFirst_addReserve : reserved1.Takes (.add .desk 1 1) .desk ∧
    reserved1.reserveFlagged (.add .desk 1 1) = true ∧ (reserved1.rights .desk).reserveUse = false := by decide +kernel
def locked : State := { site with access := { site.access with lock := true } }
theorem witness_AccessIsCheckedFirst_lock : ∀ c ∈ [Instr.lockAccess .service, .setReserve .service none, .setAccess .service 0 0 0 false],
    locked.Takes c .service ∧ locked.access.lock = true ∧ lockable c = true := by decide +kernel
theorem witness_AccessIsCheckedFirst_rid : site.Takes (.find .desk 0) .desk ∧ ridOf (.find .desk 0) = some 0 ∧
    site.Takes (.retire .desk 99) .desk ∧ ridOf (.retire .desk 99) = some 99 ∧
    ∀ i x, site.record i = some x → x.rid ≠ 99 :=
  ⟨by decide +kernel, rfl, by decide +kernel, rfl, noRid (by decide +kernel)⟩
theorem witness_AccessIsCheckedFirst_frame : site.Hears .service ∧ frameCheck 0xFF 0 = false ∧ frameCheck 0x42 1 = false := by
  decide +kernel
theorem witness_AccessIsCheckedFirst_form : ∀ e ∈ [(0x16, 2), (0x73, 2), (0x73, 255)],
    frameCheck e.1 [BitVec.ofNat 8 e.2, 0#8, 0#8, 0#8, 0#8].length = true ∧
    badForm e.1 [BitVec.ofNat 8 e.2, 0#8, 0#8, 0#8, 0#8] = true := by decide
theorem witness_AccessIsCheckedFirst_setting : frameCheck 0x71 [11#8, 0#8, 0#8, 0#8].length = true ∧
    badForm 0x71 [11#8, 0#8, 0#8, 0#8] = true ∧ badForm 0x71 [10#8, 0#8, 0#8, 0#8] = false ∧
    site.mayWrite .service .settings = true ∧ site.mayWrite .desk .settings = false ∧ locked.access.lock = true := by
  decide +kernel
theorem witness_RefusedRequestChangesOnlyItsResponse : State.reset.Hears .desk ∧ sender (.find .desk 0) = some .desk ∧
    exec (.find .desk 0) State.reset = .next (State.reset.answered .desk .badRequest []) := ⟨by decide, rfl, rfl⟩
/-- A transaction of the desk link in progress, as its select says. -/
def selected (x : Select) : State := site.setPort .desk { site.port .desk with select := x }
theorem witness_RefusedRequestChangesOnlyItsResponse_unheard : ∀ x ∈ [Select.cleared, .read, .ignored],
    (selected x).resetHeld = false ∧ ((selected x).port .desk).select = x := by decide +kernel
theorem witness_AccessMapWrites : site.Takes (.setAccess .service 2 7 3 true) .service ∧ site.access.lock = false ∧
    linkOf 2 = some .service ∧ groupOf 7 = some .override ∧ rightOf 3 = some .readWrite ∧
    linkOf 3 = none ∧ groupOf 8 = none ∧ rightOf 4 = none ∧ site.Takes (.lockAccess .service) .service := by decide +kernel
theorem witness_LinkTransactionsCarryTheFrames_select : ∀ x ∈ [Select.high, .low, .write, .read, .cleared, .ignored],
    (selected x).resetHeld = false ∧ ((selected x).port .desk).select = x := by decide +kernel
theorem witness_LinkTransactionsCarryTheFrames : site.resetHeld = false ∧ site.Hears .desk ∧ (selected .write).Hears .desk ∧
    (site.port .desk).select = .high ∧ (1#8 ≠ 0xC1#8 ∧ 1#8 ≠ 0xC2#8) ∧
    site.responseOf .desk = some { status := .ok, results := [7#8] } ∧ site.responseOf .radio = none := by decide +kernel
theorem witness_NoticesArePostedReadAndMasked : (State.reset.port .desk).Kept ∧
    (State.reset.port .desk).mask.getLsbD (Notice.kind (.receiverFault 1023)) = true ∧
    (State.reset.port .desk).mask.getLsbD (Notice.kind (.floorChanged 63)) = false ∧ State.reset.Hears .desk ∧ 65535 < 65536 :=
  ⟨⟨nofun, .nil⟩, by decide, by decide, by decide, by decide⟩
theorem witness_TableReadsAnswerTheContents :
    (∀ c ∈ [Instr.readRecord .desk 1023, .find .desk 100, .readBay .desk 3 63, .readRack .desk 3, .readLoan .desk 1,
      .readTour .desk 32, .readProgramme .desk 63, .readFloor .desk 0, .readPlan .desk], site.Takes c .desk) ∧
    site.record 1023 = some (recAt site 1023) ∧ site.record 0 = some (recAt site 0) ∧ (recAt site 0).rid = 100 ∧
    site.loan 1 = some (loanAt site 1) ∧ site.loan 128 = some (loanAt site 128) := by decide +kernel
theorem witness_TableReadsAnswerTheContents_refused :
    (∀ c ∈ [Instr.readRecord .desk 1024, .readRecord .desk 11, .readBay .desk 4 0, .readBay .desk 0 64, .readRack .desk 4,
      .readLoan .desk 0, .readLoan .desk 129, .readLoan .desk 2, .readTour .desk 0, .readTour .desk 33, .readProgramme .desk 64,
      .readFloor .desk 64], site.Takes c .desk) ∧ site.record 11 = none ∧ site.loan 2 = none := by decide +kernel
theorem witness_StatusAndSettingReads : site.Hears .desk ∧ site.mayRead .desk .settings = true ∧ site.Canonical :=
  ⟨by decide +kernel, by decide +kernel, site_canonical⟩

/-! Fleet table, settings and the clock. -/

def whollyReserved : State := { State.reset with fleet := { State.reset.fleet with applied := some { lo := 0, hi := 1023 } } }
def reserved0 : State := { State.reset with fleet := { State.reset.fleet with applied := some { lo := 0, hi := 0 } } }
theorem witness_EnrolPlacesANewRecord : State.reset.Takes (.enrol .desk 4294967295 2 (some 1023)) .desk ∧
    generationOf 2 = some .g2 ∧ (∀ j x, State.reset.record j = some x → x.rid ≠ 4294967295) ∧ State.reset.record 1023 = none ∧
    reserved0.Takes (.enrol .desk 1 1 none) .desk ∧ reserved0.excluded 1 = false ∧
    (∀ j, j < 1 → reserved0.excluded j = true ∨ reserved0.record j ≠ none) ∧ reserved0.record 1 = none :=
  ⟨by decide +kernel, rfl, (fun _ _ h => by cases h), rfl, by decide +kernel, by decide +kernel, by decide +kernel, rfl⟩
theorem witness_EnrolPlacesANewRecord_refused : site.Takes (.enrol .desk 0 1 none) .desk ∧ generationOf 0 = none ∧
    generationOf 3 = none ∧ site.Takes (.enrol .desk 1 1 (some 1024)) .desk ∧ site.record 0 = some (recAt site 0) ∧
    (recAt site 0).rid = 100 ∧ site.record 1023 ≠ none ∧ whollyReserved.Takes (.enrol .desk 1 1 none) .desk ∧
    (∀ i, i ≤ 1023 → whollyReserved.excluded i = true ∨ whollyReserved.record i ≠ none) :=
  ⟨by decide +kernel, rfl, rfl, by decide +kernel, by decide +kernel, by decide +kernel, by decide +kernel, by decide, fun i hi =>
    .inl (by simp [State.excluded, rangeHas, Range.has, whollyReserved, hi])⟩
theorem witness_RetireRemoveAndWriteOff : site.RidsUnique ∧ site.Served ∧
    (∀ e ∈ [(0, RecState.docked), (1, .ready), (8, .absent), (9, .fault), (4, .released)],
      site.record e.1 = some (recAt site e.1) ∧ (recAt site e.1).state = e.2 ∧
      site.Takes (.retire .desk (recAt site e.1).rid) .desk) ∧
    (∀ e ∈ [(8, RecState.absent), (1023, .retired), (5, .onLoan)], site.record e.1 = some (recAt site e.1) ∧
      (recAt site e.1).state = e.2 ∧ (recAt site e.1).bay = none ∧ site.Takes (.remove .desk (recAt site e.1).rid) .desk) ∧
    (recAt site 10).bay ≠ none ∧
    ∀ e ∈ [(5, RecState.onLoan), (6, .overdue), (7, .missing), (0, .docked)], site.record e.1 = some (recAt site e.1) ∧
      (recAt site e.1).state = e.2 ∧ site.Takes (.writeOff .service (recAt site e.1).rid) .service :=
  ⟨site_ridsUnique, site_served, by decide +kernel, by decide +kernel, by decide +kernel, by decide +kernel⟩
def gauging : State := site.setChannel 3 { resetChannel with
  inFlight := some { kind := .gauge, bay := 0, record := some 10, loan := none, attempts := 0, stamp := 0, withdraw := false } }
theorem witness_ReinstateAndClearFaultPrepareAgain : site.RidsUnique ∧ site.Served ∧
    (∀ i ∈ [8, 9, 10, 1023], site.record i = some (recAt site i) ∧ site.Takes (.reinstate .desk (recAt site i).rid) .desk ∧
      site.Takes (.clearFaultRecord .desk (recAt site i).rid) .desk) ∧
    (recAt site 10).state = .retired ∧ (recAt site 10).bay = some { rack := 3, bay := 0 } ∧ site.requestAt 3 0 = none ∧
    gauging.requestAt 3 0 ≠ none ∧ (recAt site 9).state = .fault ∧ (recAt site 9).bay = some { rack := 2, bay := 63 } ∧
    site.requestAt 2 63 = none ∧ (recAt site 1023).state = .retired ∧ (recAt site 1023).bay = none ∧
    (recAt site 8).state = .absent :=
  ⟨site_ridsUnique, site_served, by decide +kernel⟩
theorem witness_ReinstateAndClearFaultPrepareAgain_bay : site.Takes (.clearFaultBay .desk 4 0) .desk ∧
    site.Takes (.clearFaultBay .desk 0 64) .desk ∧ site.Takes (.clearFaultBay .desk 3 62) .desk ∧
    (site.bay 3 62).state ≠ .fault ∧ site.Takes (.clearFaultBay .desk 3 63) .desk ∧ (site.bay 3 63).state = .fault ∧
    site.requestAt 3 63 = none := by decide +kernel
theorem witness_ReadinessHasAFiftyPermilleBand : site.record 0 = some (recAt site 0) ∧
    site.Takes (.setSettingReadyLevel .service 0 500) .service := by decide +kernel
def staging : State := { site with fleet := { site.fleet with staged := some { lo := 7, hi := 7 } } }
theorem witness_SetReserveStagesARange : site.Takes (.setReserve .service (some (1, 0))) .service ∧ site.access.lock = false ∧
    site.Takes (.setReserve .service (some (0, 1024))) .service ∧ staging.Takes (.setReserve .service none) .service ∧
    staging.fleet.staged ≠ none ∧ site.fleet.staged = none ∧ site.Takes (.setReserve .service (some (7, 7))) .service ∧
    site.loan 1 = some (loanAt site 1) ∧ (loanAt site 1).reserve = false ∧ 7 ∈ (loanAt site 1).outstanding ∧
    site.Takes (.setReserve .service (some (8, 1023))) .service ∧
    ∀ id x i, site.loan id = some x → x.reserve = false → i ∈ x.outstanding → ¬(8 ≤ i ∧ i ≤ 1023) :=
  ⟨by decide +kernel, by decide, by decide +kernel, by decide +kernel, by decide, rfl, by decide +kernel, by decide +kernel,
    by decide +kernel, by decide +kernel, by decide +kernel, fun id x i hx _ hi =>
      of_decide_eq_true (List.all_eq_true.mp (loans_all (p := fun _ l => l.outstanding.all fun i => decide ¬(8 ≤ i ∧ i ≤ 1023))
        (by decide +kernel) id x hx) i hi)⟩
theorem witness_SettingsAreFittedAndCompared : site.Hears .service ∧ site.mayWrite .service .settings = true ∧
    site.keepAliveDue 20 = true ∧ (site.mic 20).state = .talking ∧ (site.mic 20).programme = some 1 ∧ (site.mic 63).state ≠ .talking := by decide +kernel
theorem witness_SetReserveStagesARange_pending : staging.fleet.staged = some { lo := 7, hi := 7 } ∧
    staging.loan 1 = some (loanAt staging 1) ∧ (loanAt staging 1).reserve = false ∧ 7 ∈ (loanAt staging 1).outstanding ∧
    site.fleet.staged = none ∧ site.Canonical :=
  ⟨rfl, by decide +kernel, by decide +kernel, by decide +kernel, rfl, site_canonical⟩
/-- A pending range that no loan stands in the way of. -/
theorem witness_SetReserveStagesARange_clear : whollyReserved.testReserve = whollyReserved ∧
    ({ State.reset with fleet := { State.reset.fleet with staged := some { lo := 0, hi := 0 } } }).testReserve = reserved0 := by
  decide +kernel
theorem witness_ClockIsSetAndAdvances : site.Takes (.setClock .service 4294967295) .service ∧ site.resetHeld = false ∧
    (ripe site).resetHeld = false ∧ 512000 ≤ (ripe site).age.clockPhase ∧ (ripe site).age.clock ≤ 4294967295 := by
  decide +kernel
def full16 : State := site.setEntry 16 (.down 2 .none)
theorem witness_LimitsAndSplitWaitForABoundary : site.Takes (.setSettingRackLimit .service 4 0) .service ∧
    site.Takes (.setSettingRackLimit .service 3 16000) .service ∧ full16.Takes (.setSettingDlSlots .service 0 16) .service ∧
    (∃ i, ¬(full16.entry i).FitsAt (max 16 (min 56 16)) i) ∧ site.Takes (.setSettingDlSlots .service 0 16) .service ∧
    ∀ i, (site.entry i).FitsAt (max 16 (min 56 16)) i :=
  ⟨by decide +kernel, by decide +kernel, by decide +kernel, ⟨16, by
      have : full16.entry 16 = .down 2 .none := by decide +kernel
      rw [this]
      simp [Entry.FitsAt]⟩, by decide +kernel,
    site_entries 16 (by decide)⟩
theorem witness_LimitsAndSplitWaitForABoundary_queues : (site.setDownlinkQueue [2]).air.downlinkQueue = [2] ∧
    (site.setDownlinkQueue [2]).freeDownlink = some 1 ∧ site.air.downlinkQueue = [] ∧ site.floor.uplinkQueue = [] ∧
    (site.setUplinkQueue [2]).floor.uplinkQueue = [2] ∧ (site.setUplinkQueue [2]).freeUplink ≠ none := by decide +kernel
theorem witness_EndOfEventFrame : (site.scanner 1).holder ≠ .none ∧ topMic (site.floorOf 1).stack = some 20 ∧
    topMic (site.floorOf 2).stack = none ∧ (site.floorOf 2).stack = [] ∧ (site.floorOf 1).stack = [.mic 20] := by decide +kernel

/-! Bays and scanning. -/

theorem witness_EmptyBayScanFollowsTheDeviation : (bayAt 1 17 1024).resetHeld = false ∧ ((bayAt 1 17 1024).scanner 1).phase = .sweep ∧
    ((bayAt 1 17 1024).scanner 1).holder ≠ .channel ∧ ((bayAt 1 17 1024).scanner 1).sweepPos = 17 ∧
    ((bayAt 1 17 1024).bay 1 17).state = .empty := by decide +kernel
/-- The boundary readings of the five regions: T = 200, baseline 1024. -/
theorem witness_EmptyBayScanFollowsTheDeviation_regions :
    [1224, 1223, 1124, 1123, 825, 824].map (fun v => ((after (.scanCompletion 1 v) (bayAt 1 17 1024)).bay 1 17).state) =
      [.arriving, .empty, .empty, .empty, .empty, .empty] ∧
    [1224, 1223, 1124, 1123, 825, 824].map (fun v => ((after (.scanCompletion 1 v) (bayAt 1 17 1024)).bay 1 17).baseline) =
      [1024, 1024, 1024, 1036, 1000, 824] := by decide +kernel
def bayIn (r b : Nat) (st : BayState) : State := (bayAt r b 1024).setBay r b { resetBay with state := st }
theorem witness_HeldBayScansFollowTheirState : ∀ st ∈ [BayState.arriving, .identifying, .foreign, .fault, .occupied, .leaving],
    ∀ b ∈ [62, 63], (bayIn 3 b st).resetHeld = false ∧ ((bayIn 3 b st).scanner 3).phase = .sweep ∧
      ((bayIn 3 b st).scanner 3).holder ≠ .channel ∧ ((bayIn 3 b st).scanner 3).sweepPos = b ∧ ((bayIn 3 b st).bay 3 b).state = st := by
  decide +kernel
def coldRack : State := State.reset.setScanner 3 { resetScanner with cadence := .cold, phase := .wait, waitElapsed := 10240 }
def coldWaited : State := State.reset.setScanner 3 { resetScanner with cadence := .cold, phase := .wait, waitElapsed := 204800 }
theorem witness_RackTimersActAtTheirEnd : coldRack.resetHeld = false ∧ (coldRack.scanner 3).phase = .wait ∧
    (coldRack.scanner 3).cadence = .cold ∧ 10240 ≤ (coldRack.scanner 3).waitElapsed ∧ (site.scanner 0).cadence = .hot ∧
    (site.scanner 2).cadence = .hot ∧ site.heldHot 2 = false ∧ site.resetHeld = false ∧ (site.bay 0 5).state = .occupied ∧
    (site.bay 0 5).bound = some 0 ∧ site.requestAt 0 5 = none ∧ site.record 0 = some (recAt site 0) ∧
    (recAt site 0).state = .docked ∧ (site.bay 0 63).state ≠ .occupied ∧ site.requestAt 1 0 ≠ none := by decide +kernel
theorem witness_RackTimersActAtTheirEnd_ripe : (ripe site).resetHeld = false ∧ ((ripe site).scanner 2).cadence = .hot ∧
    (ripe site).heldHot 2 = false ∧ (ripe site).settings.coldAfter * 512000 ≤ ((ripe site).scanner 2).quiet ∧
    (ripe site).settings.gaugeInterval * 512000 ≤ ((ripe site).channel 0).gaugeElapsed ∧ ((ripe site).bay 0 5).state = .occupied ∧
    ((ripe site).bay 0 5).bound = some 0 ∧ (ripe site).requestAt 0 5 = none ∧ (ripe site).record 0 = some (recAt site 0) := by
  decide +kernel
theorem witness_RackTimersActAtTheirEnd_passed_over : (site.bay 2 63).state = .occupied ∧ (site.bay 2 63).bound = some 9 ∧
    site.record 9 = some (recAt site 9) ∧ (recAt site 9).state = .fault := by decide +kernel
theorem witness_RackTimersActAtTheirEnd_wait : waited.resetHeld = false ∧ (waited.scanner 0).phase = .wait ∧
    (waited.scanner 0).cadence = .hot ∧ 10240 ≤ (waited.scanner 0).waitElapsed ∧ coldWaited.resetHeld = false ∧
    (coldWaited.scanner 3).phase = .wait ∧ (coldWaited.scanner 3).cadence = .cold ∧
    204800 ≤ (coldWaited.scanner 3).waitElapsed := by decide +kernel
theorem witness_DepartureMovesTheRecordByItsState : ∀ e ∈ [(0, 0, 5, RecState.docked), (1, 0, 6, .ready), (2, 1, 0, .reserved),
      (3, 1, 1, .programming), (4, 1, 2, .released), (9, 2, 63, .fault), (10, 3, 0, .retired)],
    (site.bay e.2.1 e.2.2.1).bound = some e.1 ∧ site.record e.1 = some (recAt site e.1) ∧ (recAt site e.1).state = e.2.2.2 := by
  decide +kernel

theorem witness_DepartureMovesTheRecordByItsState_loan : site.record 2 = some (recAt site 2) ∧ (recAt site 2).loan = some 1 ∧
    site.loan 1 = some (loanAt site 1) ∧ (loanAt site 1).wants = true ∧ (loanAt (site.stopWanting 1) 1).wants = false := by
  decide +kernel

/-! Dock transfers. -/

theorem witness_WordsCrossOneAtATime_order : [program41 0, { program41 0 with kind := .gauge }].Pairwise
    (fun a b => b.before a = false) := by decide +kernel
def queued (k : Kind) : State := (bind State.reset 0 0 5 (rec 100 .docked none (some 800))).setChannel 0 { resetChannel with
  queue := [{ kind := k, bay := 5, record := some 0, loan := none, attempts := 0, stamp := 0, withdraw := false }] }
theorem witness_WordsCrossOneAtATime_begin : ∀ k ∈ [Kind.identify, .readUsage, .gauge],
    ((queued k).channel 0).queue = [{ kind := k, bay := 5, record := some 0, loan := none, attempts := 0, stamp := 0, withdraw := false }] ∧
    (queued k).record 0 = some (recAt (queued k) 0) := by decide +kernel
theorem witness_WordsCrossOneAtATime_program : (programming.channel 2).queue = [program41 0] ∧
    programming.record 41 = some (recAt programming 41) ∧ programming.loan 6 = some (loanAt programming 6) ∧
    (recAt programming 41).programme = some 7 ∧ (recAt programming 41).due = some 70200 := by decide +kernel
def writing (words : List Nat) (w : Width) (low : Option Nat) : State :=
  let s := programming.beginAttempt 2
  s.setChannel 2 { s.channel 2 with words := words, width := w, lowByte := low, wordsRemaining := 10 - words.length }
theorem witness_WordsCrossOneAtATime_low : (identifying 3 [] .byte none).resetHeld = false ∧
    ((identifying 3 [] .byte none).channel 0).inFlight.isSome = true ∧ ((identifying 3 [] .byte none).channel 0).confirming = false ∧
    ((identifying 3 [] .byte none).channel 0).width = .byte ∧ ((identifying 3 [] .byte none).channel 0).lowByte = none ∧
    ((identifying 3 [] .byte none).channel 0).driven = none ∧ ((writing [] .byte none).channel 2).inFlight = some (program41 0) ∧
    ((writing [] .byte none).channel 2).driven = some 6 ∧ ((writing [] .byte none).channel 2).width = .byte := by decide +kernel
def reading (k : Kind) (remaining : Nat) (words : List Nat) : State :=
  let s := transfer k
  s.setChannel 0 { s.channel 0 with wordsRemaining := remaining, words := words, width := .word }
theorem witness_WordsCrossOneAtATime_count : (reading .gauge 2 [900]).resetHeld = false ∧
    ((reading .gauge 2 [900]).channel 0).inFlight.isSome = true ∧ ((reading .gauge 2 [900]).channel 0).confirming = false ∧
    ((reading .gauge 2 [900]).channel 0).driven = none ∧ ((reading .gauge 2 [900]).channel 0).width = .word ∧
    ((identifying 3 [11341, 1] .byte (some 2)).channel 0).lowByte = some (2 % 256) ∧
    ((reading .readUsage 2 []).channel 0).words = [] ∧
    (((reading .readUsage 2 []).channel 0).inFlight).map (·.kind) = some .readUsage ∧
    ((writing [6] .byte (some 3)).channel 2).driven = some 3 ∧ 2 ≤ ((writing [6] .byte (some 3)).channel 2).wordsRemaining ∧
    ((writing [6] .byte (some 3)).channel 2).lowByte = some 3 := by decide +kernel
/-- A count of 48 is taken and one of 49 fails the attempt. -/
theorem witness_WordsCrossOneAtATime_usage : ((after (.wordCrossed 0 48) (reading .readUsage 2 [])).channel 0).wordsRemaining = 49 ∧
    ((after (.wordCrossed 0 49) (reading .readUsage 2 [])).channel 0).confirming = true := by decide +kernel
theorem witness_LastWordIsChecked : ∀ e ∈ [(reading .gauge 1 [900, 3], 903), (reading .readUsage 1 [2, 1030, 5], 1037),
      (identifying 0 [11341, 1, 2, 880, 7] .word none, 12231), (reading .readUsage 1 [0], 0)],
    e.1.resetHeld = false ∧ (e.1.channel 0).inFlight.isSome = true ∧ (e.1.channel 0).confirming = false ∧
    (e.1.channel 0).driven = none ∧ (e.1.channel 0).width = .word ∧ (e.1.channel 0).wordsRemaining = 1 ∧
    (e.1.channel 0).words ≠ [] ∧ (e.1.channel 0).words.sum % 65536 = e.2 := by decide +kernel
theorem witness_LastWordIsChecked_program :
    ((writing [6, 3, 7, 8000, 2, 8, 4664, 1, 12691] .byte (some 147)).channel 2).wordsRemaining = 1 ∧
    ((writing [6, 3, 7, 8000, 2, 8, 4664, 1, 12691] .byte (some 147)).channel 2).driven = none ∧
    ((writing [6, 3, 7, 8000, 2, 8, 4664, 1, 12691] .byte (some 147)).channel 2).lowByte = some (12691 % 256) ∧
    ((writing [6, 3, 7, 8000, 2, 8, 4664, 1, 12691] .byte (some 147)).channel 2).formed.getLast? = some 12691 := by decide +kernel
theorem witness_LastWordIsChecked_timeout : (ripe (transfer .gauge)).resetHeld = false ∧
    ((ripe (transfer .gauge)).channel 0).inFlight ≠ none ∧ ((ripe (transfer .gauge)).channel 0).confirming = false ∧
    25600 ≤ ((ripe (transfer .gauge)).channel 0).wordElapsed := by decide +kernel
def req (k : Kind) (b : Nat) (i : Option Nat) (n : Nat) (withdraw : Bool) : Req :=
  { kind := k, bay := b, record := i, loan := none, attempts := n, stamp := 0, withdraw := withdraw }
def failing (k : Kind) (attempts : Nat) (withdraw : Bool) : State :=
  let s := transfer k
  s.setChannel 0 { s.channel 0 with confirming := true, inFlight := some (req k 5 (if k = .identify then none else some 0) attempts withdraw) }
theorem witness_ConfirmingScanDecidesTheRetry : ∀ e ∈ [(failing .gauge 1 false), (failing .gauge 2 false), (failing .identify 2 false),
      (failing .program 0 true)],
    e.resetHeld = false ∧ (e.channel 0).inFlight.isSome = true ∧ (e.channel 0).confirming = true ∧
    1123 < (e.bay 0 5).baseline + e.settings.senseThreshold / 2 ∧ (e.bay 0 5).baseline + e.settings.senseThreshold / 2 ≤ 1124 := by
  decide +kernel
theorem witness_ConfirmingScanDecidesTheRetry_record : ∀ e ∈ [(0, RecState.docked), (1, .ready), (2, .reserved), (3, .programming),
    (4, .released), (10, .retired)], site.record e.1 = some (recAt site e.1) ∧ (recAt site e.1).state = e.2 := by decide +kernel
/-- The site with an IDENTIFY in flight at rack 3 bay 63. -/
def arriving : State := (site.setBay 3 63 { resetBay with state := .identifying }).setChannel 3 { resetChannel with
  inFlight := some { kind := .identify, bay := 63, record := none, loan := none, attempts := 0, stamp := 0, withdraw := false } }
def arrivingFull : State := { arriving with fleet := { arriving.fleet with applied := some { lo := 0, hi := 1023 } } }
theorem witness_IdentifyBindsByReceiverId : arriving.resetHeld = false ∧ (arriving.channel 3).inFlight = some
      { kind := .identify, bay := 63, record := none, loan := none, attempts := 0, stamp := 0, withdraw := false } ∧
    (arriving.channel 3).confirming = false ∧ generationOf 1 = some .g1 ∧ generationOf 3 = none ∧ arriving.RidsUnique ∧
    (∀ i x, arriving.record i = some x → x.rid ≠ 99) ∧ arriving.freePosition = some 11 ∧ arrivingFull.freePosition = none ∧
    ∀ e ∈ [(0, RecState.docked), (8, .absent), (5, .onLoan), (6, .overdue), (7, .missing), (1023, .retired)],
      arriving.record e.1 = some (recAt arriving e.1) ∧ (recAt arriving e.1).state = e.2 ∧
      ((recAt arriving e.1).bay = none ↔ e.1 ≠ 0) :=
  ⟨by decide +kernel, by decide +kernel, by decide +kernel, rfl, rfl, ridsUnique_of (by decide +kernel), noRid (by decide +kernel),
    by decide +kernel, by decide +kernel, by decide +kernel⟩
theorem witness_IdentifyBindsByReceiverId_return : ∀ i ∈ [5, 6, 7], (recAt arriving i).loan = some 1 ∧
    arriving.loan 1 = some (loanAt arriving 1) ∧ (recAt arriving i).programme = some 1 := by decide +kernel
theorem witness_ProgramReleasesTheRecord : site.resetHeld = false ∧ (site.channel 1).inFlight = some { req .program 1 (some 3) 0 false with loan := some 1 } ∧ (site.channel 1).confirming = false ∧
    site.record 3 = some (recAt site 3) ∧ (recAt site 3).programme = some 1 ∧ (failing .program 0 true).meetsReady (recAt site 9) = false := by
  decide +kernel
/-- The PROGRAM in flight of record 3 withdrawn, its loan no longer wanting, and the same record below READY_CHARGE. -/
def withdrawn : State :=
  let s := site.setLoan 1 (some { loanAt site 1 with wants := false, shortfall := 0, dropped := 1 })
  (s.setWanting []).setChannel 1 { s.channel 1 with
    inFlight := some { req .program 1 (some 3) 0 true with loan := some 1 } }
def withdrawnLow : State := withdrawn.setRecord 3 (some { recAt site 3 with soc := some 600 })
theorem witness_ProgramReleasesTheRecord_withdrawn : ∀ s ∈ [withdrawn, withdrawnLow], s.resetHeld = false ∧
    (s.channel 1).inFlight = some { req .program 1 (some 3) 0 true with loan := some 1 } ∧ (s.channel 1).confirming = false ∧
    s.record 3 = some (recAt s 3) ∧ (recAt s 3).state = .programming ∧ (recAt s 3).loan = some 1 ∧
    s.loan 1 = some (loanAt s 1) := by decide +kernel
theorem witness_ProgramReleasesTheRecord_readiness : withdrawn.meetsReady (recAt withdrawn 3) = true ∧
    withdrawnLow.meetsReady (recAt withdrawnLow 3) = false := by decide +kernel
theorem witness_UsageAndGaugeAreWritten : ∀ k ∈ [Kind.readUsage, .gauge], (transfer k).resetHeld = false ∧
    (((transfer k).channel 0).inFlight).map (fun q => (q.kind, q.record)) = some (k, some 0) ∧
    ((transfer k).channel 0).confirming = false ∧ (transfer k).record 0 = some (recAt (transfer k) 0) := by decide +kernel
/-- Record 0 DOCKED with charge to be READY, and the record of `transfer` RESERVED with no transfer at its bay. -/
def charged : State := (transfer .gauge).setRecord 0 (some { recAt (transfer .gauge) 0 with soc := some 960 })
def reservedAtGauge : State :=
  ((transfer .gauge).setRecord 0 (some (lent { recAt (transfer .gauge) 0 with state := .reserved } 1 1 5400))).endAttempt 0
theorem witness_UsageAndGaugeAreWritten_offer : ∀ e ∈ [(charged, 0, RecState.docked, RecState.ready), (transfer .gauge, 0, .docked, .docked),
      (site, 1, .ready, .ready)], e.1.record e.2.1 = some (recAt e.1 e.2.1) ∧ (recAt e.1 e.2.1).state = e.2.2.1 ∧
      (e.1.testReadiness e.2.1).record e.2.1 = some (recAt (e.1.testReadiness e.2.1) e.2.1) ∧
      (recAt (e.1.testReadiness e.2.1) e.2.1).state = e.2.2.2 := by decide +kernel
theorem witness_UsageAndGaugeAreWritten_meanwhile : reservedAtGauge.record 0 = some (recAt reservedAtGauge 0) ∧
    (recAt reservedAtGauge 0).state = .reserved ∧ (recAt reservedAtGauge 0).bay = some { rack := 0, bay := 5 } ∧
    reservedAtGauge.inFlightAt 0 5 = none ∧ charged.record 0 = some (recAt charged 0) ∧ (recAt charged 0).state ≠ .reserved := by
  decide +kernel

/-! Charge allocation. -/

theorem witness_ChargeClassesFollowTheRecords : site.Canonical ∧ (site.bay 0 5).state = .occupied ∧ (site.bay 0 5).bound = some 0 ∧
    site.record 0 = some (recAt site 0) ∧ (recAt site 0).soc = some 800 ∧ (site.bay 3 63).state ≠ .occupied ∧
    (site.bay 3 63).state ≠ .leaving :=
  ⟨site_canonical, by decide +kernel⟩
theorem witness_StagingServesTheClassesInOrder : shortRack.chargeClass 1 3 = .first ∧ shortRack.chargeClass 1 12 = .needed ∧
    shortRack.chargeClass 1 40 = .topup ∧ shortRack.demand 1 31 = 0 := by decide +kernel
theorem witness_BoundaryAppliesTheStaging : (ripe site).resetHeld = false ∧ 128000 ≤ (ripe site).charge.frameTime := by
  decide +kernel
theorem witness_DutyCodeOfTheAppliedCurrent : site.DutiesAgree := site_sound.duties
theorem witness_DutyCodeIsSpreadOverTheSubPeriods : site.resetHeld = false ∧ 3 < 4 ∧ 240 < 256 ∧ 255 < 256 ∧ 960 ≤ 960 := by decide

/-! Tours and loans. -/

theorem witness_OpenTourTakesTheLowestAvailable : opening.Takes (.openTour .desk 0 [2, 5]) .desk ∧ 1 ≤ opening.tours.nextKey ∧
    opening.tours.nextKey ≤ 65535 ∧ opening.tourAvailable 3 = true ∧ (∀ k, k < 3 → 1 ≤ k → opening.tourAvailable k = false) ∧
    ((List.range 64).filter fun p => p != 0 && opening.programmeAvailable p).take 2 = [7, 8] := by decide +kernel
def fullTours : State := (List.range 33).foldl (fun s t => s.setTour t { resetTour with state := .opened }) State.reset
def fewProgrammes : State := (List.range 63).foldl (fun s p => s.setProgramme p (used 1 1 0)) State.reset
theorem witness_OpenTourTakesTheLowestAvailable_refused : State.reset.Takes (.openTour .desk 0 []) .desk ∧
    State.reset.Takes (.openTour .desk 0 [0, 0, 0, 0, 0]) .desk ∧ State.reset.Takes (.openTour .desk 0 [16]) .desk ∧
    fullTours.Takes (.openTour .desk 0 [15]) .desk ∧ (∀ t, t ≤ 32 → 1 ≤ t → fullTours.tourAvailable t = false) ∧
    fewProgrammes.Takes (.openTour .desk 0 [0, 15]) .desk ∧
    ((List.range 64).filter fun p => p != 0 && fewProgrammes.programmeAvailable p).length < 2 := by decide +kernel
theorem witness_CloseTourStopsTheTour : site.Takes (.closeTour .desk 0) .desk ∧ site.Takes (.closeTour .desk 33) .desk ∧
    site.Takes (.closeTour .desk 2) .desk ∧ (site.tour 2).state ≠ .opened ∧ site.Takes (.closeTour .desk 1) .desk ∧
    (site.tour 1).state = .opened ∧ (site.tour 32).state ≠ .opened ∧ site.loan 1 = some (loanAt site 1) ∧ (loanAt site 1).tour = 1 := by
  decide +kernel
/-- Tour 1 with a loan that only wants, and no listener: its closing completes at once. At `site` it does not. -/
def idleTour : State := (site.setLoan 1 (some (loan 1 1 1 []))).setProgramme 1 (used 1 1 0)
def cancelled (s : State) : State := (s.loansOfTour 1).foldl State.cancelLoan (s.setTour 1 { s.tour 1 with state := .closing })
theorem witness_CloseTourStopsTheTour_at_once : idleTour.Takes (.closeTour .desk 1) .desk ∧ (idleTour.tour 1).state = .opened ∧
    idleTour.loansOfTour 1 = [1] ∧ (∀ id ∈ idleTour.loansOfTour 1,
      (cancelled idleTour).shortfallOf id = 0 ∧ (cancelled idleTour).outstandingOf id = []) ∧
    (∀ p ∈ (idleTour.tour 1).programmes, ((cancelled idleTour).programme p).listeners = 0) := by decide +kernel
theorem witness_CloseTourStopsTheTour_later : 1 ∈ site.loansOfTour 1 ∧ (cancelled site).outstandingOf 1 ≠ [] ∧
    1 ∈ (site.tour 1).programmes ∧ ((cancelled site).programme 1).listeners ≠ 0 := by decide +kernel
def emptied : State := site.setLoan 128 none
theorem witness_CloseTourStopsTheTour_completion : (emptied.tour 2).state = .closing ∧
    (∀ id y, emptied.loan id = some y → y.tour ≠ 2) ∧ (∀ p ∈ (emptied.tour 2).programmes, (emptied.programme p).listeners = 0) ∧
    (site.tour 2).state = .closing ∧ site.loan 128 = some (loanAt site 128) ∧ (loanAt site 128).tour = 2 :=
  ⟨by decide +kernel, fun id y hy => of_decide_eq_true (loans_all (p := fun _ l => decide (l.tour ≠ 2)) (by decide +kernel) id y hy),
    by decide +kernel, by decide +kernel, by decide +kernel, by decide +kernel⟩
theorem witness_ForceCloseFreesTheTour : ∀ t ∈ [0, 33, 32, 1, 2], site.Takes (.forceClose .service t) .service ∧
    ((site.tour t).state = .free ↔ t ∉ [1, 2]) := by decide +kernel
def houseLive : State := after (.talkRequest .desk 63) site
def relayOff : State := houseLive.setProgramme 2 { used 1 2 0 with relay := false }
theorem witness_SetRelayMovesTheCascade : site.Takes (.setRelay .desk 0 true) .desk ∧ site.Takes (.setRelay .desk 64 true) .desk ∧
    site.Takes (.setRelay .desk 63 true) .desk ∧ (site.programme 63).inUse = false ∧ site.Takes (.setRelay .desk 1 false) .desk ∧
    (site.programme 1).inUse = true ∧ site.houseLive = false ∧ relayOff.Takes (.setRelay .desk 2 true) .desk ∧
    relayOff.houseLive = true ∧ (relayOff.programme 2).relay = false ∧ (relayOff.programme 1).relay = true ∧
    (relayOff.programme 2).inUse = true := by decide +kernel
theorem witness_SelectionTakesTheBestRanked : site.Canonical ∧ site.loan 1 = some (loanAt site 1) := ⟨site_canonical, by decide +kernel⟩
theorem witness_JoiningALoanReservesTheRecord : site.loan 1 = some (loanAt site 1) ∧ (loanAt site 1).shortfall ≤ 1 ∧
    1 ∈ site.loans.wanting ∧ site.record 1 = some (recAt site 1) ∧ (recAt site 1).bay = some { rack := 0, bay := 6 } ∧
    site.inFlightAt 0 6 = none ∧ (transfer .gauge).inFlightAt 0 5 ≠ none ∧ site.loan 128 = some (loanAt site 128) ∧
    128 ∉ site.loans.wanting := by decide +kernel
theorem witness_JoiningALoanReservesTheRecord_offer : site.loans.wanting = [] ++ 1 :: [] ∧ site.eligible (loanAt site 1) 1 = true ∧
    site.eligible (loanAt site 1) 0 = false := by decide +kernel
theorem witness_LeavingALoanCountsOnce : ∀ i ∈ [2, 3, 4, 5, 6, 7], site.record i = some (recAt site i) ∧
    (recAt site i).loan = some 1 ∧ (recAt site i).programme = some 1 ∧ site.loan 1 = some (loanAt site 1) := by decide +kernel
theorem witness_LeavingALoanCountsOnce_closes : site.loan 128 = some (loanAt site 128) ∧ (loanAt site 128).shortfall = 0 ∧
    (loanAt site 128).outstanding = [] ∧ (loanAt site 1).shortfall ≠ 0 := by decide +kernel
def fullLoans : State := { site with loans := { site.loans with loans := (List.range 129).map fun i => (i, some (loan 1 1 0 [])) } }
theorem witness_IssueAndAddFillALoan : (∀ e ∈ [(0, 1, 1), (33, 1, 1), (1, 64, 1), (1, 1, 0), (1, 1, 65), (32, 1, 64), (1, 3, 1), (1, 2, 64)],
      site.Takes (.issue .desk e.1 e.2.1 e.2.2 false) .desk) ∧ site.Takes (.issue .service 1 2 1 true) .service ∧
    (site.rights .service).reserveUse = true ∧ (site.tour 32).state ≠ .opened ∧ (site.tour 1).state = .opened ∧
    3 ∉ (site.tour 1).programmes ∧ 2 ∈ (site.tour 1).programmes ∧ site.loan 2 = none ∧ site.loan 1 ≠ none ∧
    (site.tour 1).duration = some 90 ∧ fullLoans.Takes (.issue .desk 1 2 1 false) .desk ∧ (fullLoans.tour 1).state = .opened ∧
    ∀ id, id ≤ 128 → 1 ≤ id → fullLoans.loan id ≠ none := by decide +kernel
theorem witness_IssueAndAddFillALoan_add : (∀ e ∈ [(0, 1), (129, 1), (1, 0), (1, 65), (2, 1), (128, 1), (1, 64)],
      site.Takes (.add .desk e.1 e.2) .desk) ∧ site.loan 2 = none ∧ (loanAt site 1).wants = true ∧ (loanAt site 1).reserve = false ∧
    (loanAt site 1).requested + 64 ≤ 255 ∧ (loanAt site 128).wants = false ∧
    255 < { loanAt site 1 with requested := 192 }.requested + 64 := by decide +kernel
theorem witness_CancelGivesTheLoanUp : (∀ id ∈ [0, 129, 2, 128, 1], site.Takes (.cancel .desk id) .desk) ∧ site.loan 2 = none ∧
    site.loan 128 = some (loanAt site 128) ∧ (loanAt site 128).wants = false ∧ site.loan 1 = some (loanAt site 1) ∧
    (loanAt site 1).wants = true := by decide +kernel
theorem witness_CancelGivesTheLoanUp_records : ∀ e ∈ [(2, RecState.reserved), (3, .programming), (4, .released), (5, .onLoan),
      (6, .overdue), (7, .missing)], site.record e.1 = some (recAt site e.1) ∧ (recAt site e.1).state = e.2 ∧
    (recAt site e.1).loan = some 1 := by decide +kernel
theorem witness_DueTimesAndReleaseWindows : (∀ id ∈ [0, 129, 2, 1], site.Takes (.extend .desk id 6000) .desk) ∧ site.loan 2 = none ∧
    site.loan 1 = some (loanAt site 1) ∧ 6 ∈ (loanAt site 1).outstanding ∧ site.record 6 = some (recAt site 6) ∧
    site.timer 5 = none ∧ site.timer 4 = some { length := 60 * 512000, elapsed := 60 * 512000 } ∧
    (recAt site 4).state = .released ∧ (recAt site 4).loan = some 1 ∧ site.record 4 = some (recAt site 4) := by decide +kernel

/-! Talk floor. -/

def eightMics : State := (List.range 8).foldl (fun s k => s.setMic (k + 40) (mic 2 7 .idle)) site
theorem witness_MicrophonesAreBoundAndUnbound : (∀ e ∈ [(64, 0, 1), (0, 64, 1), (0, 0, 0), (0, 0, 8), (0, 4, 1), (20, 1, 7), (0, 3, 1),
      (63, 0, 7)], site.Takes (.bindMic .desk e.1 e.2.1 e.2.2) .desk) ∧ (site.programme 4).inUse = false ∧
    (site.programme 1).inUse = true ∧ (site.mic 20).state ≠ .idle ∧ (site.programme 3).inUse = true ∧ (site.programme 3).tour = some 2 ∧
    (site.tour 2).state = .closing ∧ (site.mic 63).state = .idle ∧ (site.programme 0).inUse = true ∧
    (site.programme 0).tour = none ∧ (site.programme 2).tour = some 1 ∧
    ((List.range 64).filter fun k => k != 63 && (site.mic k).programme == some 0).length < 8 ∧
    8 ≤ ((List.range 64).filter fun k => k != 0 && (eightMics.mic k).programme == some 2).length ∧ (eightMics.mic 0).state = .idle := by
  decide +kernel
theorem witness_MicrophonesAreBoundAndUnbound_unbind : (∀ m ∈ [64, 20, 5, 63], site.Takes (.unbindMic .desk m) .desk) ∧
    (site.mic 20).state ≠ .idle ∧ site.mic 5 = resetMic ∧ site.Canonical ∧ (site.mic 63).state = .idle ∧
    (site.mic 63).programme = some 0 :=
  ⟨by decide +kernel, by decide +kernel, by decide +kernel, site_canonical, by decide +kernel, by decide +kernel⟩
theorem witness_TalkRequestEntersThePendingList : (∀ m ∈ [64, 5, 20, 63], site.Takes (.talkRequest .desk m) .desk) ∧
    (site.mic 5).programme = none ∧ (site.mic 20).programme = some 1 ∧ (site.mic 20).state ≠ .idle ∧
    (site.mic 63).programme = some 0 ∧ (site.mic 63).state = .idle ∧
    (∀ p ∈ [64, 63, 0], site.Takes (.setMask .desk p 9) .desk) ∧ (site.programme 63).inUse = false ∧ (site.programme 0).inUse = true := by
  decide +kernel
theorem witness_TalkActiveRestartsTheKeepAlive : (∀ m ∈ [64, 20, 63], site.Takes (.talkActive .desk m) .desk) ∧
    (site.mic 20).state = .talking ∧ (site.mic 63).state ≠ .talking := by decide +kernel
theorem witness_TurnsEndWithTheMicrophoneIdle : (∀ m ∈ [64, 5, 63, 20], site.Takes (.talkRelease .desk m) .desk) ∧
    (site.mic 5).programme = none ∧ (site.mic 63).programme = some 0 ∧ (site.mic 63).state = .idle ∧
    (site.mic 20).programme = some 1 ∧ (site.mic 20).state = .talking ∧ (∀ p ∈ [64, 63, 2, 1], site.Takes (.cut .desk p) .desk) ∧
    (site.programme 63).inUse = false ∧ (site.floorOf 2).stack = [] ∧ (site.programme 2).inUse = true ∧
    (site.floorOf 1).stack.head? = some (.mic 20) ∧ (houseLive.floorOf 1).stack.head? = some .cascade ∧ site.resetHeld = false := by
  decide +kernel
theorem witness_TurnsEndWithTheMicrophoneIdle_due : (site.mic 20).keepAlive = some (3 * 512000) ∧ site.settings.keepalive = 3 := by
  decide +kernel
theorem witness_TurnsEndWithTheMicrophoneIdle_settling : (site.floorOf 1).stack = [.mic 20] ∧ topMic (site.floorOf 2).stack = none ∧
    (site.setEntry 62 (.up 2 22)).uplinkSlot 2 = some 62 ∧ site.uplinkSlot 2 = none ∧ (site.setUplinkQueue [2]).floor.uplinkQueue = [2] ∧
    (site.setUplinkQueue [2]).freeUplink = some 62 ∧ site.floor.uplinkQueue = [] := by decide +kernel
theorem witness_TurnsEndWithTheMicrophoneIdle_house : (site.floorOf 0).stack = [] ∧ (houseLive.floorOf 0).stack = [.mic 63] ∧
    (houseLive.floorOf 1).stack = [.cascade, .mic 20] := by decide +kernel
def wanted : State := site.setFloor 1 { waiting := [0], stack := [.mic 20], mask := 2 }
def masked : State := site.setFloor 2 { waiting := [22], stack := [], mask := 4 }
def fullAir : State := (List.range 64).foldl (fun s i => s.setEntry i (.up 1 20)) masked
theorem witness_EvaluationGrantsThePendingHead : site.grantable 2 = none ∧ wanted.grantable 1 = some 0 ∧
    (wanted.floorOf 1).stack = [.mic 20] ∧ masked.grantable 2 = some 22 ∧ (masked.floorOf 2).stack = [] ∧
    masked.freeUplink = some 62 ∧ fullAir.grantable 2 = some 22 ∧ fullAir.freeUplink = none ∧ (fullAir.floorOf 2).stack = [] := by
  decide +kernel
def silenced : State := (site.setFloor 2 { waiting := [], stack := [.cascade], mask := 8 }).setMic 22 resetMic
theorem witness_HouseFloorMovesTheCascades : (site.programme 1).inUse = true ∧ (site.programme 1).relay = true ∧
    (site.floorOf 1).stack.head? ≠ some .cascade ∧ (site.floorOf 1).stack = [.mic 20] ∧ houseLive.houseLive = true ∧
    site.houseLive = false ∧ site.FloorsLawful ∧ silenced.houseLive = false ∧ silenced.FloorsLawful ∧
    (silenced.floorOf 2).stack.head? = some .cascade :=
  ⟨by decide +kernel, by decide +kernel, by decide +kernel, by decide +kernel, by decide +kernel, by decide +kernel,
    site_floorsLawful, by decide +kernel,
    floorsLawful_of silenced (by decide +kernel) (by decide +kernel) (by decide +kernel) (by decide +kernel) (by decide +kernel),
    by decide +kernel⟩

/-! Air frame, aging, formats, and what every step keeps. -/

theorem witness_FrameBoundaryCopiesTheNextPlan : (ripe site).resetHeld = false ∧ 10240 ≤ (ripe site).air.frameTime ∧
    { ripe site with air := { (ripe site).air with sequence := 65535 } }.air.sequence ≤ 65535 := by decide +kernel
theorem witness_ListenersTakeAndFreeDownlinkSlots : (site.programme 2).listeners = 0 ∧ (site.programme 1).listeners ≠ 0 ∧
    site.freeDownlink = some 1 ∧ fullAir.freeDownlink = none ∧ ((site.setProgramme 1 (used 1 1 1)).programme 1).listeners = 1 ∧
    (site.setProgramme 1 (used 1 1 1)).downlinkSlot 1 = some 0 ∧ (site.setProgramme 2 (used 1 1 1)).downlinkSlot 2 = none ∧
    site.air.downlinkQueue = [] ∧ (site.setDownlinkQueue [2]).air.downlinkQueue = [2] ∧ (ripe site).resetHeld = false ∧
    (ripe site).air.frameSplit * 160 ≤ (ripe site).air.frameTime := by decide +kernel
theorem witness_BeaconsAndAgingWriteTheRecords : site.Takes (.reportBeacon .radio 0 0 0) .radio ∧
    site.Takes (.reportBeacon .radio 99 9 0) .radio ∧ (∀ i x, site.record i = some x → x.rid ≠ 99) ∧
    site.Takes (.reportBeacon .radio 107 9 1) .radio ∧ site.RidsUnique ∧ site.record 7 = some (recAt site 7) ∧
    (recAt site 7).rid = 107 ∧ (recAt site 7).state = .missing :=
  ⟨by decide +kernel, by decide +kernel, noRid (by decide +kernel), by decide +kernel, site_ridsUnique, by decide +kernel,
    by decide +kernel, by decide +kernel⟩
theorem witness_BeaconsAndAgingWriteTheRecords_aging : site.resetHeld = false ∧ site.age.sweepPointer = 0 ∧
    (∀ e ∈ [(5, RecState.onLoan), (6, .overdue), (7, .missing)], site.record e.1 = some (recAt site e.1) ∧
      (recAt site e.1).state = e.2 ∧ (recAt site e.1).due.isSome = true ∧ (recAt site e.1).lastHeard.isSome = true) ∧
    (recAt site 0).state = .docked ∧ site.record 11 = none ∧ (recAt site 6).due = some site.age.clock ∧
    (∀ k, k < 8 → 1023 ≠ (site.age.sweepPointer + k) % 1024) := by decide +kernel
theorem witness_BeaconsAndAgingWriteTheRecords_step : (ripe site).resetHeld = false ∧ 128000 ≤ (ripe site).age.stepTime ∧
    (ripe site).age.sweepPointer = 0 ∧ (ripe site).fleet = site.fleet := by decide +kernel
theorem witness_BeaconsAndAgingWriteTheRecords_silence : 600 ≤ { site.age with clock := 600 }.clock - 0 ∧
    ({ site.age with clock := 599 } : Age).clock - 0 < site.settings.missingAfter ∧ site.settings.missingAfter = 600 := by decide +kernel
theorem witness_EveryCommandAnswersANextState_scans : site.resetHeld = false ∧
    ((waiting0 .wait).scanner 0).phase = .wait ∧ ((waiting0 .sweep).scanner 0).phase = .sweep ∧
    (State.reset.setScanner 0 { resetScanner with holder := .channel }).scanner 0 = { resetScanner with holder := .channel } ∧
    (coldRack.scanner 3).cadence = .cold ∧ (programming.beginAttempt 2).heldHot 2 = true ∧
    (site.mic 20).state = .talking ∧ (site.mic 63).state ≠ .talking := by decide +kernel
theorem witness_EveryCommandAnswersANextState_wait : (waiting0 .wait).resetHeld = false ∧ ((waiting0 .wait).scanner 0).cadence = .hot ∧
    ((waiting0 .wait).scanner 0).waitElapsed < 10240 ∧ coldRack.resetHeld = false ∧ (coldRack.scanner 3).cadence = .cold ∧
    (coldRack.scanner 3).waitElapsed < 204800 := by decide +kernel
theorem witness_EveryCommandAnswersANextState_short : site.resetHeld = false ∧ (site.scanner 2).quiet < site.settings.coldAfter * 512000 ∧
    (site.channel 2).gaugeElapsed < site.settings.gaugeInterval * 512000 ∧ (site.channel 1).wordElapsed < 25600 ∧
    site.charge.frameTime < 128000 ∧ site.air.frameTime < site.air.frameSplit * 160 ∧ site.air.frameTime < 10240 ∧
    site.age.clockPhase < 512000 ∧ site.age.stepTime < 128000 ∧ site.timer 5 = none ∧
    (site.setTimer 4 (some { length := 60 * 512000, elapsed := 0 })).timer 4 = some { length := 60 * 512000, elapsed := 0 } := by
  decide +kernel
theorem witness_EveryCommandAnswersANextState_keepAlive : ((after (.talkActive .desk 20) site).mic 20).keepAlive = some 0 ∧
    ((after (.talkActive .desk 20) site).mic 20).state = .talking ∧ 0 < site.settings.keepalive * 512000 := by decide +kernel
theorem witness_EveryCommandAnswersANextState_transfers : (State.reset.channel 3).inFlight = none ∧
    ((transfer .gauge).channel 0).confirming = false ∧ ((failing .gauge 1 false).channel 0).confirming = true ∧
    (∀ k ∈ [Kind.identify, .program, .readUsage], ((transfer .gauge).channel 0).inFlight.any (fun q => q.kind == k) = false) ∧
    ((transfer .program).channel 0).inFlight.any (fun q => q.kind == .gauge) = false := by decide +kernel
theorem witness_EncodedRequestsDecodeToThemselves : Instr.wellFormed (.enrol .desk 4294967295 255 (some 65535)) = true ∧
    encodeTransaction (.enrol .desk 4294967295 255 (some 65535)) =
      some (.desk, [0xC1#8, 0x12#8, 8#8, 255#8, 255#8, 255#8, 255#8, 255#8, 1#8, 255#8, 255#8]) := by decide
theorem witness_EveryStepKeepsTheStateSound : site.Sound ∧ ∃ t, step { site with pending := [] } = .next t :=
  ⟨site_sound, _, rfl⟩
theorem witness_EveryStepKeepsTheFloorsLawful : site.FloorsLawful := site_floorsLawful
theorem witness_EveryStepKeepsTheLawsOfThePart : handout.Sound ∧ handout.FloorsLawful ∧ handout.Lawful ∧
    ∃ t, step handout = .next t := ⟨handout_sound, handout_floorsLawful, handout_lawful, _, rfl⟩

end Sys2Proof.Tests
end

