-- ==== Sys2Proof/Proofs/Served.lean ====
section
/-! PROOFS. No request waits at a free multiplexer (R25): the end of an event hands every multiplexer over, and a command
that ends no such event touches neither a holder nor a queue. With the moves, every step keeps the state sound. -/

namespace Sys2Proof.Machine

variable (s : State)

/-! ## The end of an event -/

/-- After the hand-over the end of an event leaves scanners and channels alone. -/
theorem racks_finish (before : State) (l : List Nat) :
    (State.finish before s l).scan = (rackNumbers.foldl State.handOver s).scan ∧
      (State.finish before s l).chan = (rackNumbers.foldl State.handOver s).chan := by
  have h := ((frame_finishFloors (rackNumbers.foldl State.handOver s) before).mono (m := [.air, .ports, .charge])
    (by decide)).trans ((frame_settleCharge _ before l).mono (by decide))
  exact ⟨h .scan (by decide), h .chan (by decide)⟩

/-- The end of an event moves records only at the hand-over. -/
theorem records_finish (before : State) (l : List Nat) :
    (State.finish before s l).fleet.records = (rackNumbers.foldl State.handOver s).fleet.records :=
  (((frame_finishFloors (rackNumbers.foldl State.handOver s) before).mono (m := [.air, .ports, .charge])
    (by decide)).trans ((frame_settleCharge _ before l).mono (by decide))) .records (by decide)

theorem bay_finish (before : State) (l : List Nat) (r b : Nat) : (State.finish before s l).bay r b = s.bay r b := by
  rw [bay_congr (racks_finish s before l).1, handOvers_bay]

/-- The end of an event leaves no request waiting at a free multiplexer, whatever came before it (R25). -/
theorem served_finish (before : State) (l : List Nat) : (State.finish before s l).Served := by
  intro r hr hn
  obtain ⟨u, _, _, h1, h2⟩ := handOvers_rack s r hr
  rw [scanner_congr (racks_finish s before l).1, h1] at hn
  rw [channel_congr (racks_finish s before l).2, h2]
  exact (handOver_served u r).resolve_left fun h => h hn

/-! ## What keeps a state served -/

/-- If no request waited at a free multiplexer before, none does after. -/
def KeepsServed (s t : State) : Prop := s.Served → t.Served

theorem KeepsServed.refl : KeepsServed s s := id

theorem KeepsServed.trans {s t u : State} (h : KeepsServed s t) (k : KeepsServed t u) : KeepsServed s u := k ∘ h

theorem KeepsServed.ite {s t u : State} (c : Prop) [Decidable c] (ht : KeepsServed s t) (hu : KeepsServed s u) :
    KeepsServed s (if c then t else u) := by
  split
  · exact ht
  · exact hu

theorem KeepsServed.foldl {α : Type} (f : State → α → State) (h : ∀ t a, KeepsServed t (f t a)) (l : List α) (s : State) :
    KeepsServed s (l.foldl f s) := by
  induction l generalizing s with
  | nil => exact .refl s
  | cons a l ih => exact (h s a).trans (ih (f s a))

theorem keepsServed_finish (before t : State) (l : List Nat) : KeepsServed s (State.finish before t l) :=
  fun _ => served_finish t before l

/-- An operation that leaves scanners and channels alone keeps a state served. -/
theorem State.ChangesOnly.keepsServed {s t : State} {l : List Part} (h : s.ChangesOnly t l)
    (hl : Part.scan ∉ l ∧ Part.chan ∉ l := by decide) : KeepsServed s t := fun k r hr hn => by
  rw [channel_congr (h .chan hl.2)]
  rw [scanner_congr (h .scan hl.1)] at hn
  exact k r hr hn

theorem KeepsServed.of_racks {s t u : State} (h : KeepsServed s t) (hs : u.scan = t.scan) (hc : u.chan = t.chan) :
    KeepsServed s u := fun k r hr hn => by
  rw [channel_congr hc]
  rw [scanner_congr hs] at hn
  exact h k r hr hn

/-- A scanner whose multiplexer is not given up, or none of whose rack's requests wait, may be written. -/
theorem keepsServed_setScanner (r : Nat) (v : Scanner) (h : v.holder = .none → (s.scanner r).holder = .none) :
    KeepsServed s (s.setScanner r v) := fun k q hq hn => by
  rw [scanner_setScanner] at hn
  split at hn
  · rename_i e; subst e; exact k r hq (h hn)
  · exact k q hq hn

/-- A channel may be written that gains no request. -/
theorem keepsServed_setChannel (r : Nat) (v : Channel) (h : v.queue = (s.channel r).queue) :
    KeepsServed s (s.setChannel r v) := fun k q hq hn => by
  rw [channel_setChannel]
  split
  · rename_i e; subst e; rw [h]; exact k r hq hn
  · exact k q hq hn

/-! ## Requests: those that end no event of the racks -/

theorem keepsServed_enrol (rid g : Nat) (index : Option Nat) : KeepsServed s (s.enrol rid g index).1 := by
  unfold State.enrol
  repeat' split
  all_goals exact .refl s

theorem keepsServed_byRid (rid : Nat) (f : Nat → Record → Answer) (h : ∀ i x, KeepsServed s (f i x).1) :
    KeepsServed s (s.byRid rid f).1 := by
  unfold State.byRid
  repeat' split
  all_goals first | exact .refl s | exact h _ _

theorem keepsServed_byLoan (id : Nat) (f : Loan → Answer) (h : ∀ l, KeepsServed s (f l).1) :
    KeepsServed s (s.byLoan id f).1 := by
  unfold State.byLoan
  repeat' split
  all_goals first | exact .refl s | exact h _

theorem keepsServed_underReserveUse (l : Link) (b : Bool) (a : Answer) (h : KeepsServed s a.1) :
    KeepsServed s (s.underReserveUse l b a).1 := by
  unfold State.underReserveUse
  split
  · exact .refl s
  · exact h

theorem keepsServed_underLock (a : Answer) (h : KeepsServed s a.1) : KeepsServed s (s.underLock a).1 := by
  unfold State.underLock
  split
  · exact .refl s
  · exact h

theorem keepsServed_retire (rid : Nat) : KeepsServed s (s.retire rid).1 :=
  keepsServed_byRid s rid _ fun i x => by
    split
    case h_5 => exact .refl s
    all_goals exact keepsServed_finish s _ _ _

theorem keepsServed_reinstate (rid : Nat) : KeepsServed s (s.reinstate rid).1 :=
  keepsServed_byRid s rid _ fun i x => by
    split
    · split
      · exact .refl s
      · exact keepsServed_finish s _ _ _
    · exact (frame_setRecord s i _).keepsServed
    · exact .refl s

theorem frame_forgetPassed (i : Nat) : s.ChangesOnly (s.forgetPassed i) [.loans] :=
  .foldl _ (fun t id => frame_modLoan t id _) _ s

theorem keepsServed_removeRecord (rid : Nat) : KeepsServed s (s.removeRecord rid).1 :=
  keepsServed_byRid s rid _ fun i x => by
    split
    · exact (frame_setRecord s i none).keepsServed.trans (frame_forgetPassed _ i).keepsServed
    · exact .refl s

theorem keepsServed_clearFaultRecord (rid : Nat) : KeepsServed s (s.clearFaultRecord rid).1 :=
  keepsServed_byRid s rid _ fun i x => by
    split
    · exact keepsServed_finish s _ _ _
    · exact .refl s

theorem keepsServed_clearFaultBay (r b : Nat) : KeepsServed s (s.clearFaultBay r b).1 := by
  unfold State.clearFaultBay
  repeat' split
  case isFalse.isTrue => exact keepsServed_finish s _ _ _
  all_goals exact .refl s

theorem keepsServed_writeOff (rid : Nat) : KeepsServed s (s.writeOff rid).1 :=
  keepsServed_byRid s rid _ fun i x => by
    split
    case h_4 => exact .refl s
    all_goals exact keepsServed_finish s _ _ _

theorem keepsServed_issue (t p n : Nat) (f : Bool) : KeepsServed s (s.issue t p n f).1 := by
  unfold State.issue
  repeat' split
  all_goals first | exact .refl s | exact keepsServed_finish s _ _ _

theorem keepsServed_addToLoan (id n : Nat) : KeepsServed s (s.addToLoan id n).1 := by
  unfold State.addToLoan
  repeat' split
  all_goals first | exact .refl s | exact keepsServed_finish s _ _ _

theorem keepsServed_cancel (id : Nat) : KeepsServed s (s.cancel id).1 :=
  keepsServed_byLoan s id _ fun l => by
    split
    · exact .refl s
    · exact keepsServed_finish s _ _ _

theorem frame_extendRecords (clock due : Nat) (l : List Nat) : s.ChangesOnly
    (l.foldl (fun t i => t.modRecord i fun x => x.extended clock due) s) [.records] :=
  .foldl _ (fun t i => frame_modRecord t i _) l s

theorem keepsServed_extend (id due : Nat) : KeepsServed s (s.extend id due).1 :=
  keepsServed_byLoan s id _ fun l =>
    (frame_setLoan s id _).keepsServed.trans (frame_extendRecords _ s.age.clock due l.outstanding).keepsServed

theorem frame_nextKey (k : Nat) : s.ChangesOnly { s with tours := { s.tours with nextKey := k } } [.tours] := by
  intro p hp; cases p <;> first | rfl | exact ⟨rfl, rfl⟩ | exact absurd (by decide) hp

theorem frame_takeProgramme (t : Nat) (e : Nat × Nat) : s.ChangesOnly (s.takeProgramme t e) [.tours, .floor] :=
  (((frame_setProgramme s e.1 _).mono (by decide)).trans ((frame_setFloor _ e.1 _).mono (by decide))).trans
    ((frame_nextKey _ _).mono (by decide))

theorem keepsServed_openTour (d : Nat) (c : List Nat) : KeepsServed s (s.openTour d c).1 := by
  unfold State.openTour
  split
  · exact .refl s
  · split
    · exact .refl s
    · dsimp only
      split
      · exact .refl s
      · exact (State.ChangesOnly.foldl _ (fun u e => frame_takeProgramme u _ e) _ s).keepsServed.trans
          (frame_setTour _ _ _).keepsServed

theorem keepsServed_closeTour (t : Nat) : KeepsServed s (s.closeTour t).1 := by
  unfold State.closeTour
  repeat' split
  all_goals first | exact .refl s | exact keepsServed_finish s _ _ _

theorem keepsServed_forceClose (t : Nat) : KeepsServed s (s.forceClose t).1 := by
  unfold State.forceClose
  repeat' split
  all_goals first | exact .refl s | exact keepsServed_finish s _ _ _

theorem keepsServed_finishFloors (before : State) {t : State} (h : KeepsServed s t) :
    KeepsServed s (State.finishFloors before t) := h.trans (frame_finishFloors t before).keepsServed

theorem keepsServed_setRelay (p : Nat) (b : Bool) : KeepsServed s (s.setRelay p b).1 := by
  unfold State.setRelay
  split
  · exact .refl s
  · split
    · exact .refl s
    · have h := (frame_setProgramme s p { s.programme p with relay := b }).keepsServed
      exact keepsServed_finishFloors s s (.ite _ (.ite _ (h.trans (frame_pushCascade _ p).keepsServed)
        (h.trans (frame_dropCascade _ p).keepsServed)) h)

theorem keepsServed_bindMic (m p q : Nat) : KeepsServed s (s.bindMic m p q).1 := by
  unfold State.bindMic
  repeat' split
  all_goals exact .refl s

theorem keepsServed_unbindRequest (m : Nat) : KeepsServed s (s.unbindRequest m).1 := by
  unfold State.unbindRequest
  repeat' split
  all_goals exact .refl s

theorem keepsServed_requestFloor (p m : Nat) : KeepsServed s (s.requestFloor p m) :=
  keepsServed_finishFloors s s (((frame_setMic s m _).keepsServed.trans (frame_setFloor _ p _).keepsServed).trans
    (frame_reevaluate _ p).keepsServed)

theorem keepsServed_talkRequest (m : Nat) : KeepsServed s (s.talkRequest m).1 := by
  unfold State.talkRequest
  split
  · exact .refl s
  · split
    · exact .refl s
    · exact .ite _ (keepsServed_requestFloor s _ m) (.refl s)

theorem keepsServed_talkActive (m : Nat) : KeepsServed s (s.talkActive m).1 := by
  unfold State.talkActive
  repeat' split
  all_goals exact .refl s

theorem keepsServed_talkRelease (m : Nat) : KeepsServed s (s.talkRelease m).1 := by
  unfold State.talkRelease
  split
  · exact .refl s
  · split
    · exact .refl s
    · rename_i p _
      split
      · exact .refl s
      · exact keepsServed_finishFloors s s ((frame_removeMic s p m).keepsServed.trans (frame_settleFloor _ p).keepsServed)

theorem keepsServed_cut (p : Nat) : KeepsServed s (s.cut p).1 := by
  unfold State.cut
  repeat' split
  all_goals first | exact .refl s | exact keepsServed_finishFloors s s (frame_cutTop s p _).keepsServed

theorem keepsServed_setMask (p level : Nat) : KeepsServed s (s.setMask p level).1 := by
  unfold State.setMask
  repeat' split
  all_goals first
    | exact .refl s
    | exact keepsServed_finishFloors s s ((frame_setFloor s p _).keepsServed.trans (frame_reevaluate _ p).keepsServed)

theorem frame_age (a : Age) : s.ChangesOnly { s with age := a } [.age] := by
  intro p hp; cases p <;> first | rfl | exact ⟨rfl, rfl⟩ | exact absurd (by decide) hp

theorem keepsServed_reportBeacon (rid z q : Nat) : KeepsServed s (s.reportBeacon rid z q).1 := by
  unfold State.reportBeacon
  split
  · exact .refl s
  · split
    · exact (frame_age s _).keepsServed
    · rename_i i _
      have h := (frame_modRecord s i fun x => x.heard s.age.clock z q).keepsServed
      exact .ite _ (h.trans (frame_post _ _).keepsServed) h

theorem keepsServed_setRackLimit (r v : Nat) : KeepsServed s (s.setRackLimit r v).1 := by
  unfold State.setRackLimit
  split
  · exact .refl s
  · exact keepsServed_finish s _ _ _

theorem keepsServed_coolIfQuiet (r : Nat) : KeepsServed s (s.coolIfQuiet r) :=
  .ite _ (keepsServed_setScanner s r { s.scanner r with cadence := .cold } id) (.refl s)

theorem keepsServed_setColdAfter (v : Nat) : KeepsServed s (s.setColdAfter v).1 := by
  unfold State.setColdAfter State.applied State.ok
  dsimp only
  exact (frame_setSettings s _).keepsServed.trans (.foldl _ keepsServed_coolIfQuiet rackNumbers _)

theorem frame_draws (n : Nat) : s.ChangesOnly { s with draws := n } [.draws] := by
  intro p hp; cases p <;> first | rfl | exact ⟨rfl, rfl⟩ | exact absurd (by decide) hp

theorem frame_expireAll (ms : List Nat) : s.ChangesOnly (s.expireAll ms) [.draws, .floor, .air, .ports] := by
  unfold State.expireAll
  dsimp only
  have h1 : s.ChangesOnly (if ms.length ≤ 1 then s else s.draw.2) [.draws, .floor, .air, .ports] :=
    .ite _ (.refl s _) ((frame_draws s _).mono (by decide))
  have h2 := h1.trans (.foldl (fun (t : State) m => if t.keepAliveDue m then t.expireAmong m else t)
    (fun t m => .ite _ ((frame_expireAmong t m).mono (by decide)) (.refl t _))
    (arrange (Config.simultaneousOrder s.draws) ms.length ms) _)
  exact .ite _ (h2.trans ((frame_dropCascadesIfSilent _).mono (by decide))) h2

theorem keepsServed_setKeepalive (v : Nat) : KeepsServed s (s.setKeepalive v).1 :=
  keepsServed_finishFloors s s ((frame_setSettings s { s.settings with keepalive := fit 1 10 v }).keepsServed.trans
    (frame_expireAll _ _).keepsServed)

theorem frame_serveDownlink (n : Nat) : ∀ s : State, s.ChangesOnly (serveDownlink n s) [.air] := by
  induction n with
  | zero => exact fun s => .refl s _
  | succ n ih =>
    intro s
    unfold serveDownlink
    split
    · exact ((frame_setDownlinkQueue s _).trans (frame_takeDownlink _ _ _)).trans (ih _)
    · exact .refl s _

theorem keepsServed_setDlSlots (v : Nat) : KeepsServed s (s.setDlSlots v).1 := by
  unfold State.setDlSlots
  dsimp only
  split
  · have h := (frame_setSplit s (fit 16 56 v)).keepsServed
    exact keepsServed_finishFloors s s (.ite _ (h.trans (frame_serveDownlink _ _).keepsServed)
      (.ite _ (h.trans (frame_offerUplink _).keepsServed) h))
  · exact .refl s

theorem keepsServed_setReserve (g : Option (Nat × Nat)) : KeepsServed s (s.setReserve g).1 := by
  unfold State.setReserve
  repeat' split
  all_goals first | exact .refl s | exact keepsServed_finish s _ _ _

theorem frame_setRights (l : Link) (v : Rights) : s.ChangesOnly (s.setRights l v) [.access] := by
  intro p hp; cases l <;> cases p <;> first | rfl | exact ⟨rfl, rfl⟩ | exact absurd (by decide) hp

theorem keepsServed_setAccess (a b c : Nat) (f : Bool) : KeepsServed s (s.setAccess a b c f).1 := by
  unfold State.setAccess
  split
  · exact (frame_setRights s _ _).keepsServed
  · exact .refl s

theorem keepsServed_readRecord (i : Nat) : KeepsServed s (s.readRecord i).1 := by
  unfold State.readRecord
  repeat' split
  all_goals exact .refl s

theorem keepsServed_readSetting (k r : Nat) : KeepsServed s (s.readSetting k r).1 := by
  unfold State.readSetting
  split <;> exact .refl s

theorem keepsServed_unknownRequest (l : Link) (c : Nat) (a : List Byte) : KeepsServed s (s.unknownRequest l c a).1 := by
  unfold State.unknownRequest
  split
  · split
    · split <;> exact .refl s
    · split
      · exact .refl s
      · split
        · exact keepsServed_underLock s _ (.refl s)
        · exact .refl s
  · exact .refl s

/-! ## The resets -/

theorem served_of_no_channels (h : s.chan = []) : s.Served := fun r _ _ => by
  rw [State.channel, h]
  rfl

theorem served_fullReset (held : Bool) : (s.fullReset held).Served := served_of_no_channels _ rfl

theorem chan_restartRacks : s.restartRacks.chan = [] :=
  State.ChangesOnly.foldl _ (fun t r => frame_setScanner t r _) rackNumbers { s with scan := [], chan := [] } .chan (by decide)

theorem frame_restartCharge : s.ChangesOnly s.restartCharge [.charge] := by
  refine State.ChangesOnly.trans (.foldl (fun (t : State) r => t.setRackCharge r { s.rackCharge r with drives := [] })
    (fun t r => frame_setRackCharge t r _) rackNumbers s) ?_
  intro p hp; cases p <;> first | rfl | exact ⟨rfl, rfl⟩ | exact absurd (by decide) hp

theorem frame_restartTours : s.ChangesOnly s.restartTours [.tours] := by
  refine State.ChangesOnly.trans (t := { s with tours := { tours := [], programmes := [], nextKey := s.tours.nextKey } }) ?_
    (.foldl _ (fun t p => frame_setProgramme t p _) tourProgrammes _)
  intro p hp; cases p <;> first | rfl | exact ⟨rfl, rfl⟩ | exact absurd (by decide) hp

theorem chan_restartCharge : s.restartCharge.chan = s.chan := frame_restartCharge s .chan (by decide)
theorem chan_restartTours : s.restartTours.chan = s.chan := frame_restartTours s .chan (by decide)
theorem chan_restartRest : s.restartRest.chan = s.chan := rfl
theorem chan_restartPorts : s.restartPorts.chan = s.chan := rfl

/-- A warm restart leaves every channel at its reset value (R70). -/
theorem served_warmRestart : s.warmRestart.Served := by
  refine served_of_no_channels _ ?_
  rw [State.warmRestart, chan_restartPorts, chan_restartRest, chan_restartTours, chan_restartCharge, chan_restartRacks]

/-! ## Links -/

theorem frame_respond (l : Link) (a : Answer) : a.1.ChangesOnly (State.respond l a) [.ports] := frame_setPort a.1 l _

theorem frame_carryIgnored (l : Link) (ends : Bool) : s.ChangesOnly (s.carryIgnored l ends) [.draws, .ports] :=
  ((frame_draws s (s.draws + 1)).mono (by decide)).trans ((frame_setPort _ l _).mono (by decide))

theorem frame_passOver (l : Link) (ends : Bool) : s.ChangesOnly (s.passOver l ends) [.draws, .ports] :=
  .ite _ ((frame_setPort s l _).mono (by decide))
    (.ite _ (frame_carryIgnored s l ends) ((frame_setPort s l _).mono (by decide)))

theorem frame_readTransaction (l : Link) (n : Nat) (ends : Bool) :
    s.ChangesOnly (s.readTransaction l n ends) [.draws, .ports] := by
  unfold State.readTransaction
  split
  case h_1 | h_2 | h_3 => exact (frame_setPort s l _).mono (by decide)
  all_goals exact frame_passOver s l ends

theorem frame_abortedTransaction (l : Link) (bytes : List Byte) (ends : Bool) :
    s.ChangesOnly (s.abortedTransaction l bytes ends) [.draws, .ports] := by
  unfold State.abortedTransaction
  refine .ite _ ?_ (frame_passOver s l ends)
  split
  · exact (frame_setPort s l _).mono (by decide)
  · exact .ite _ ((frame_setPort s l _).mono (by decide)) (frame_carryIgnored s l ends)

/-! ## Events -/

theorem keepsServed_scanCompletion (r v : Nat) : KeepsServed s (s.scanCompletion r v) :=
  .ite _ (keepsServed_finish s _ _ _) (.refl s)

theorem keepsServed_sweepWaitExpiry (r : Nat) : KeepsServed s (s.sweepWaitExpiry r) :=
  .ite _ (keepsServed_setScanner s r _ fun h => by
    dsimp only at h
    split at h
    · assumption
    · exact h) (.refl s)

theorem keepsServed_confirmingScan (r v : Nat) : KeepsServed s (s.confirmingScan r v) := by
  unfold State.confirmingScan
  split
  · exact .refl s
  · exact .ite _ (.ite _ (keepsServed_finish s _ _ _) (keepsServed_finish s _ _ _)) (.refl s)

theorem keepsServed_takeByte (r n : Nat) : KeepsServed s (s.takeByte r n) :=
  .ite _ (keepsServed_setChannel s r _ (by rfl)) (.refl s)

theorem keepsServed_complete (r : Nat) (q : Req) (ws : List Nat) : KeepsServed s (s.complete r q ws) := by
  unfold State.complete
  dsimp only
  split <;> exact keepsServed_finish s _ _ _

theorem keepsServed_failAttempt (r : Nat) : KeepsServed s (s.failAttempt r) :=
  keepsServed_setChannel s r
    { s.channel r with lowByte := none, words := [], wordElapsed := 0, confirming := true } rfl

theorem keepsServed_wordCrossed (r w : Nat) : KeepsServed s (s.wordCrossed r w) := by
  have h (k : Kind) (v : Nat) : KeepsServed s (s.setChannel r ((s.channel r).took k v)) :=
    keepsServed_setChannel s r _ rfl
  unfold State.wordCrossed
  dsimp only
  split
  · exact .ite _ (.ite _ ((h _ _).trans (keepsServed_failAttempt _ r))
      (.ite _ (keepsServed_complete s r _ _) (h _ _))) (.refl s)
  · exact .refl s

theorem keepsServed_identifyCompletion (r : Nat) (v : Report) : KeepsServed s (s.identifyCompletion r v) := by
  unfold State.identifyCompletion
  split
  · exact keepsServed_finish s _ _ _
  · exact .refl s

theorem keepsServed_programCompletion (r : Nat) : KeepsServed s (s.programCompletion r) := by
  unfold State.programCompletion
  split
  · exact keepsServed_finish s _ _ _
  · exact .refl s

theorem keepsServed_readUsageCompletion (r : Nat) (m : List Nat) : KeepsServed s (s.readUsageCompletion r m) := by
  unfold State.readUsageCompletion
  split
  · exact keepsServed_finish s _ _ _
  · exact .refl s

theorem keepsServed_gaugeCompletion (r c : Nat) (f k : Bool) : KeepsServed s (s.gaugeCompletion r c f k) := by
  unfold State.gaugeCompletion
  split
  · exact keepsServed_finish s _ _ _
  · exact .refl s

theorem frame_chargeState (c : Charge) : s.ChangesOnly { s with charge := c } [.charge] := by
  intro p hp; cases p <;> first | rfl | exact ⟨rfl, rfl⟩ | exact absurd (by decide) hp

theorem frame_applyRack (r : Nat) : s.ChangesOnly (s.applyRack r) [.charge] :=
  (frame_setRackCharge s r _).trans (.foldl _ (fun t b => frame_setDrive t r b _) _ _)

theorem keepsServed_chargeFrameBoundary : KeepsServed s s.chargeFrameBoundary :=
  (State.ChangesOnly.foldl _ frame_applyRack rackNumbers s).keepsServed.trans (frame_chargeState _ _).keepsServed

theorem keepsServed_keepaliveExpiry (m : Nat) : KeepsServed s (s.keepaliveExpiry m) :=
  .ite _ (keepsServed_finishFloors s s (frame_expireKeepAlive s m).keepsServed) (.refl s)

theorem keepsServed_releaseWindowExpiry (i : Nat) : KeepsServed s (s.releaseWindowExpiry i) := by
  unfold State.releaseWindowExpiry
  split
  · exact keepsServed_finish s _ _ _
  · exact .refl s

theorem frame_air (a : Air) : s.ChangesOnly { s with air := a } [.air] := by
  intro p hp; cases p <;> first | rfl | exact ⟨rfl, rfl⟩ | exact absurd (by decide) hp

theorem frame_ageDue (i : Nat) (x : Record) : s.ChangesOnly (s.ageDue i x).1 [.records, .ports] := by
  unfold State.ageDue
  split
  · exact ((frame_setRecord s i _).mono (by decide)).trans ((frame_post _ _).mono (by decide))
  · exact .refl s _

theorem frame_ageSilence (i : Nat) (x : Record) : s.ChangesOnly (s.ageSilence i x) [.records, .ports] :=
  .ite _ (((frame_setRecord s i _).mono (by decide)).trans ((frame_post _ _).mono (by decide)))
    (.ite _ ((frame_setRecord s i _).mono (by decide)) (.refl s _))

theorem frame_examine (i : Nat) : s.ChangesOnly (s.examine i) [.records, .ports] := by
  unfold State.examine
  split
  · exact .refl s _
  · exact (frame_ageDue s i _).trans (frame_ageSilence _ i _)

theorem keepsServed_sweepStep : KeepsServed s s.sweepStep :=
  (State.ChangesOnly.foldl _ (fun t k => frame_examine t _) (List.range 8) s).keepsServed.trans (frame_age _ _).keepsServed

/-! ## The tick -/

theorem keepsServed_advanceRack (r : Nat) : KeepsServed s (s.advanceRack r) :=
  (keepsServed_setScanner s r _ fun h => by
    dsimp only at h
    split at h
    · exact absurd h (by decide)
    · exact h).trans (keepsServed_setChannel _ r _ (by simp))

theorem keepsServed_advance : KeepsServed s s.advance := by
  have hr := KeepsServed.foldl State.advanceRack keepsServed_advanceRack rackNumbers s
  have hm (l : List Nat) := hr.trans (.foldl State.advanceMic (fun t m => (frame_setMic t m _).keepsServed) l _)
  have ht (l k : List Nat) := (hm l).trans (.foldl State.advanceTimer (fun t i => (frame_setTimer t i _).keepsServed) k _)
  unfold State.advance
  dsimp only
  exact (ht _ _).of_racks rfl rfl

theorem keepsServed_tick : KeepsServed s s.tick := (keepsServed_advance s).of_racks rfl rfl

/-! ## Every command -/

/-- A command's outcome is a next state that is served if the state before was. -/
def AnswersServed (s : State) (o : Host.Outcome State Fault Refusal) : Prop := ∀ t, o = .next t → KeepsServed s t

theorem answersServed_next {t : State} (h : KeepsServed s t) : AnswersServed s (.next t) := fun u e => by
  injection e with e; exact e ▸ h

theorem answersServed_event {t : State} (h : KeepsServed s t) : AnswersServed s (s.event t) :=
  answersServed_next s (.ite _ (.refl s) h)

theorem answersServed_timed {due : Bool} {t : State} (h : KeepsServed s t) : AnswersServed s (s.timed due t) :=
  answersServed_event s (.ite _ h (.refl s))

theorem answersServed_serve (l : Link) (a : Answer) (h : KeepsServed s a.1) : AnswersServed s (s.serve l a) :=
  answersServed_next s (.ite _ (h.trans (frame_respond l a).keepsServed) (frame_passOver s l true).keepsServed)

theorem answersServed_serveRead (l : Link) (g : Group) (a : Answer) (h : KeepsServed s a.1) :
    AnswersServed s (s.serveRead l g a) := by
  refine answersServed_serve s l _ ?_
  split
  · exact h
  · exact .refl s

theorem answersServed_serveWrite (l : Link) (g : Group) (a : Answer) (h : KeepsServed s a.1) :
    AnswersServed s (s.serveWrite l g a) := by
  refine answersServed_serve s l _ ?_
  split
  · exact h
  · exact .refl s

theorem frame_lock : s.ChangesOnly { s with access := { s.access with lock := true } } [.access] := by
  intro p hp; cases p <;> first | rfl | exact ⟨rfl, rfl⟩ | exact absurd (by decide) hp

theorem answersServed_exec (c : Instr) : AnswersServed s (exec c s) := by
  cases c with
  | readStatus l => exact answersServed_serve s l _ (.refl s)
  | readNotices l => exact answersServed_serve s l _ (frame_setPort s l _).keepsServed
  | setNoticeMask l m => exact answersServed_serve s l _ (frame_setPort s l _).keepsServed
  | readRecord l i => exact answersServed_serveRead s l _ _ (keepsServed_readRecord s i)
  | find l rid => exact answersServed_serveRead s l _ _ (keepsServed_byRid s rid _ fun _ _ => .refl s)
  | enrol l rid g i => exact answersServed_serveWrite s l _ _ (keepsServed_enrol s rid g i)
  | retire l rid => exact answersServed_serveWrite s l _ _ (keepsServed_retire s rid)
  | reinstate l rid => exact answersServed_serveWrite s l _ _ (keepsServed_reinstate s rid)
  | remove l rid => exact answersServed_serveWrite s l _ _ (keepsServed_removeRecord s rid)
  | clearFaultRecord l rid => exact answersServed_serveWrite s l _ _ (keepsServed_clearFaultRecord s rid)
  | clearFaultBay l r b => exact answersServed_serveWrite s l _ _ (keepsServed_clearFaultBay s r b)
  | writeOff l rid => exact answersServed_serveWrite s l _ _ (keepsServed_writeOff s rid)
  | readBay l r b => exact answersServed_serveRead s l _ _ (by unfold State.readBay; split <;> exact .refl s)
  | readRack l r => exact answersServed_serveRead s l _ _ (by unfold State.readRack; split <;> exact .refl s)
  | readLoan l i => exact answersServed_serveRead s l _ _ (keepsServed_byLoan s i _ fun _ => .refl s)
  | issue l t p n f =>
    exact answersServed_serveWrite s l _ _ (keepsServed_underReserveUse s l _ _ (keepsServed_issue s t p n f))
  | add l i n =>
    exact answersServed_serveWrite s l _ _ (keepsServed_underReserveUse s l _ _ (keepsServed_addToLoan s i n))
  | cancel l i => exact answersServed_serveWrite s l _ _ (keepsServed_cancel s i)
  | extend l i d => exact answersServed_serveWrite s l _ _ (keepsServed_extend s i d)
  | readTour l t => exact answersServed_serveRead s l _ _ (by unfold State.readTour; split <;> exact .refl s)
  | readProgramme l p => exact answersServed_serveRead s l _ _ (by unfold State.readProgramme; split <;> exact .refl s)
  | openTour l d c => exact answersServed_serveWrite s l _ _ (keepsServed_openTour s d c)
  | closeTour l t => exact answersServed_serveWrite s l _ _ (keepsServed_closeTour s t)
  | setRelay l p f => exact answersServed_serveWrite s l _ _ (keepsServed_setRelay s p f)
  | readFloor l p => exact answersServed_serveRead s l _ _ (by unfold State.readFloor; split <;> exact .refl s)
  | bindMic l m p q => exact answersServed_serveWrite s l _ _ (keepsServed_bindMic s m p q)
  | unbindMic l m => exact answersServed_serveWrite s l _ _ (keepsServed_unbindRequest s m)
  | talkRequest l m => exact answersServed_serveWrite s l _ _ (keepsServed_talkRequest s m)
  | talkActive l m => exact answersServed_serveWrite s l _ _ (keepsServed_talkActive s m)
  | talkRelease l m => exact answersServed_serveWrite s l _ _ (keepsServed_talkRelease s m)
  | cut l p => exact answersServed_serveWrite s l _ _ (keepsServed_cut s p)
  | setMask l p v => exact answersServed_serveWrite s l _ _ (keepsServed_setMask s p v)
  | readPlan l => exact answersServed_serveRead s l _ _ (.refl s)
  | reportBeacon l rid z q => exact answersServed_serveWrite s l _ _ (keepsServed_reportBeacon s rid z q)
  | readSetting l k r => exact answersServed_serveRead s l _ _ (keepsServed_readSetting s k r)
  | setSettingRackLimit l r v => exact answersServed_serveWrite s l _ _ (keepsServed_setRackLimit s r v)
  | setSettingSenseThreshold l r v => exact answersServed_serveWrite s l _ _ (frame_setSettings s _).keepsServed
  | setSettingBaseInit l r v => exact answersServed_serveWrite s l _ _ (frame_setSettings s _).keepsServed
  | setSettingColdAfter l r v => exact answersServed_serveWrite s l _ _ (keepsServed_setColdAfter s v)
  | setSettingGaugeInterval l r v => exact answersServed_serveWrite s l _ _ (keepsServed_finish s _ _ _)
  | setSettingReadyLevel l r v => exact answersServed_serveWrite s l _ _ (keepsServed_finish s _ _ _)
  | setSettingReleaseWindow l r v => exact answersServed_serveWrite s l _ _ (frame_setSettings s _).keepsServed
  | setSettingMissingAfter l r v => exact answersServed_serveWrite s l _ _ (frame_setSettings s _).keepsServed
  | setSettingKeepalive l r v => exact answersServed_serveWrite s l _ _ (keepsServed_setKeepalive s v)
  | setSettingDlSlots l r v => exact answersServed_serveWrite s l _ _ (keepsServed_setDlSlots s v)
  | setSettingDefaultDuration l r v => exact answersServed_serveWrite s l _ _ (frame_setSettings s _).keepsServed
  | setClock l n => exact answersServed_serveWrite s l _ _ (frame_age s _).keepsServed
  | setReserve l g => exact answersServed_serveWrite s l _ _ (keepsServed_underLock s _ (keepsServed_setReserve s g))
  | setAccess l a b c f => exact answersServed_serveWrite s l _ _ (keepsServed_underLock s _ (keepsServed_setAccess s a b c f))
  | lockAccess l => exact answersServed_serveWrite s l _ _ (keepsServed_underLock s _ (frame_lock s).keepsServed)
  | restart l => exact answersServed_serveWrite s l _ _ fun _ => served_warmRestart s
  | forceClose l t => exact answersServed_serveWrite s l _ _ (keepsServed_forceClose s t)
  | unknownRequestCode l c a => exact answersServed_serve s l _ (keepsServed_unknownRequest s l c a)
  | readTransaction l n =>
    exact answersServed_next s (.ite _ (frame_passOver s l _).keepsServed (frame_readTransaction s l _ _).keepsServed)
  | writeTransactionAborted l b =>
    exact answersServed_next s (.ite _ (frame_passOver s l _).keepsServed (frame_abortedTransaction s l _ _).keepsServed)
  | fullReset => exact answersServed_next s fun _ => served_fullReset s true
  | fullResetEnd => exact answersServed_next s fun _ => served_fullReset s false
  | scanCompletion r v => exact answersServed_event s (keepsServed_scanCompletion s r v)
  | sweepWaitExpiry r => exact answersServed_event s (keepsServed_sweepWaitExpiry s r)
  | coldAfterExpiry r => exact answersServed_event s (.ite _ (keepsServed_coolIfQuiet s r) (.refl s))
  | confirmingScan r v => exact answersServed_event s (keepsServed_confirmingScan s r v)
  | byteCrossed r b => exact answersServed_event s (.ite _ (keepsServed_takeByte s r b) (.refl s))
  | wordCrossed r w => exact answersServed_event s (keepsServed_wordCrossed s r w)
  | wordTimeout r => exact answersServed_event s (.ite _ (keepsServed_failAttempt s r) (.refl s))
  | identifyCompletion r rid g f c w => exact answersServed_event s (keepsServed_identifyCompletion s r _)
  | programCompletion r => exact answersServed_event s (keepsServed_programCompletion s r)
  | readUsageCompletion r m => exact answersServed_event s (keepsServed_readUsageCompletion s r m)
  | gaugeCompletion r c f k => exact answersServed_event s (keepsServed_gaugeCompletion s r c f k)
  | gaugePoll r => exact answersServed_event s (.ite _ (keepsServed_finish s _ _ _) (.refl s))
  | chargeFrameBoundary => exact answersServed_timed s (keepsServed_chargeFrameBoundary s)
  | keepaliveExpiry m => exact answersServed_event s (keepsServed_keepaliveExpiry s m)
  | releaseWindowExpiry i => exact answersServed_timed s (keepsServed_releaseWindowExpiry s i)
  | compareA => exact answersServed_timed s (frame_air s _).keepsServed
  | frameBoundary => exact answersServed_timed s (frame_air s _).keepsServed
  | clockAdvance => exact answersServed_timed s (frame_age s _).keepsServed
  | sweepStep => exact answersServed_timed s (keepsServed_sweepStep s)

theorem step_keepsServed {t : State} (h : step s = .next t) : KeepsServed s t := by
  unfold step at h
  split at h
  · rename_i c rest _
    exact answersServed_exec { s with pending := rest } c t h
  · exact answersServed_next s (.ite _ (.refl s) (keepsServed_tick s)) t h

/-- Settles O58: each block's part of soundness is kept by every move, and no request is left waiting at a free
multiplexer by any command. -/
theorem everyStepKeepsTheStateSound : Obligations.EveryStepKeepsTheStateSound := fun s _ hs h =>
  { settings := step_keeps s (fun _ _ => settingsInRange_move) h hs.settings
    duties := step_keeps s (fun _ _ => dutiesAgree_move) h hs.duties
    notices := step_keeps s (fun _ _ => noticesKept_move) h hs.notices
    rids := step_keeps s (fun _ _ => ridsUnique_move) h hs.rids
    plans := step_keeps s (fun _ _ => plansHalved_move) h hs.plans
    counters := step_keeps s (fun _ _ => countersFit_move) h hs.counters
    tables := step_keeps s (fun _ _ => canonical_move) h hs.tables
    served := step_keepsServed s h hs.served }

end Sys2Proof.Machine
end

