-- ==== Sys2Proof/Proofs/Reset.lean ====
section
/-! PROOFS. The part right after a full reset: its blocks' values (R187), and that it is sound and lawful. The blocks other
than scanners and channels keep their laws whatever scanners, channels and queue stand beside them. -/

namespace Sys2Proof.Machine

/-! ## The reset state with scanners, channels and waiting commands of one's own -/

/-- The part at its reset values but for the racks and the waiting commands. -/
def State.idle (cs : List Instr) (scan : Table Scanner) (chan : Table Channel) : State :=
  { State.reset with pending := cs, scan := scan, chan := chan }

theorem idle_nil : State.idle [] [] [] = State.reset := rfl

section
variable (cs : List Instr) (scan : Table Scanner) (chan : Table Channel)

theorem idle_record (i : Nat) : (State.idle cs scan chan).record i = none := rfl
theorem idle_loan (id : Nat) : (State.idle cs scan chan).loan id = none := rfl
theorem idle_timer (i : Nat) : (State.idle cs scan chan).timer i = none := rfl
theorem idle_wanting : (State.idle cs scan chan).loans.wanting = [] := rfl
theorem idle_drive (r b : Nat) : (State.idle cs scan chan).drive r b = resetDrive := rfl
theorem idle_rackCharge (r : Nat) : (State.idle cs scan chan).rackCharge r = resetRackCharge := rfl
theorem idle_floorOf (p : Nat) : (State.idle cs scan chan).floorOf p = resetFloor := rfl

theorem idle_record_ne {i : Nat} {x : Record} : (State.idle cs scan chan).record i ≠ some x := by
  rw [idle_record]; nofun

theorem idle_loan_ne {id : Nat} {l : Loan} : (State.idle cs scan chan).loan id ≠ some l := by
  rw [idle_loan]; nofun

theorem splitFits_reset : SplitFits 40 := ⟨by decide, by decide⟩
theorem limitFits_reset : LimitFits resetRackCharge.stagedLimit := ⟨by decide, by decide⟩

theorem idle_settingsInRange : (State.idle cs scan chan).SettingsInRange where
  settings := defaultSettings_fits
  nextSplit := splitFits_reset
  currentSplit := splitFits_reset
  frameSplit := splitFits_reset
  stagedLimit := fun r => by rw [idle_rackCharge]; exact limitFits_reset
  appliedLimit := fun r => by rw [idle_rackCharge]; exact limitFits_reset

theorem reset_noticesKept : State.reset.NoticesKept := fun l => by cases l <;> exact kept_nil _ rfl

theorem idle_countersFit (h : ∀ r, ((State.idle cs scan chan).scanner r).sweepPos ≤ 63) :
    (State.idle cs scan chan).CountersFit where
  records := fun _ _ hx => absurd hx (idle_record_ne cs scan chan)
  sweepPos := h
  key := ⟨Nat.le_refl 1, (by decide : 1 ≤ 65535)⟩
  mask := fun p => by rw [idle_floorOf]; decide
  sequence := (by decide : 0 < 65536)
  age := ⟨(by decide : 0 < 1024 ∧ 0 % 8 = 0), (by decide : 0 ≤ 65535)⟩

theorem idle_canonical (hs : Table.wf (fun _ => resetScanner) scan = true) (hc : Table.wf (fun _ => resetChannel) chan = true)
    (hb : ∀ r, Table.wf (fun _ => resetBay) ((State.idle cs scan chan).scanner r).bays = true) :
    (State.idle cs scan chan).Canonical where
  records := rfl
  scan := hs
  bays := hb
  chan := hc
  racks := rfl
  drives := fun _ => rfl
  tours := rfl
  programmes := rfl
  loans := rfl
  timers := rfl
  mics := rfl
  floors := rfl
  nextPlan := rfl
  currentPlan := rfl

/-- The rest of soundness is the racks' own. -/
theorem idle_sound (hp : ∀ r, ((State.idle cs scan chan).scanner r).sweepPos ≤ 63)
    (ht : (State.idle cs scan chan).Canonical) (hq : (State.idle cs scan chan).Served) : (State.idle cs scan chan).Sound where
  settings := idle_settingsInRange cs scan chan
  duties := fun r b => by rw [idle_drive]; exact resetDrive_agrees
  notices := noticesKept_of_ports (s := State.reset) rfl reset_noticesKept
  rids := ⟨fun _ _ hx => absurd hx (idle_record_ne cs scan chan), fun _ _ _ _ hx => absurd hx (idle_record_ne cs scan chan)⟩
  plans := ⟨emptyPlan_halved 40, emptyPlan_halved 40⟩
  counters := idle_countersFit cs scan chan hp
  tables := ht
  served := hq

theorem idle_floorsLawful : (State.idle cs scan chan).FloorsLawful where
  priority := nofun
  waiting := nofun
  distinct := fun _ => .nil
  serving := nofun
  ordered := fun _ => .nil

theorem idle_loansLawful : (State.idle cs scan chan).LoansLawful where
  member := fun _ _ _ h => absurd h (idle_loan_ne cs scan chan)
  distinct := fun _ _ h => absurd h (idle_loan_ne cs scan chan)
  listed := fun _ _ _ h => absurd h (idle_record_ne cs scan chan)
  lent := fun _ _ h => absurd h (idle_record_ne cs scan chan)
  conserved := fun _ _ h => absurd h (idle_loan_ne cs scan chan)
  kept := fun _ _ h => absurd h (idle_loan_ne cs scan chan)
  wants := fun _ _ h => absurd h (idle_loan_ne cs scan chan)
  given := fun _ _ _ _ h => absurd h (idle_loan_ne cs scan chan)
  once := .nil
  wanting := fun _ => by
    rw [idle_wanting]
    exact ⟨nofun, fun ⟨_, h, _⟩ => absurd h (idle_loan_ne cs scan chan)⟩
  timers := fun i => by
    rw [idle_timer]
    exact ⟨fun h => absurd rfl h, fun ⟨_, h, _⟩ => absurd h (idle_record_ne cs scan chan)⟩
  reserve := fun _ _ _ _ _ h => absurd h (idle_loan_ne cs scan chan)

theorem idle_toursLawful : (State.idle cs scan chan).ToursLawful where
  free := fun _ _ => rfl
  holds := nofun
  distinct := fun _ => .nil
  belongs := fun _ hp hu => absurd (of_decide_eq_true hu) hp
  house := ⟨rfl, rfl⟩
  loans := fun _ _ h => absurd h (idle_loan_ne cs scan chan)
  closing := fun _ _ h => absurd h (idle_loan_ne cs scan chan)
  listeners := fun _ => rfl
  mics := nofun

theorem idle_slotsLawful : (State.idle cs scan chan).SlotsLawful where
  down := fun _ => ⟨fun h => absurd rfl h, fun h => h.elim nofun nofun⟩
  downApart := nofun
  downOnce := nofun
  downQueue := .nil
  downServed := fun h => absurd rfl h
  up := fun _ => ⟨fun h => absurd rfl h, nofun⟩
  upOnce := nofun
  upQueue := .nil
  upWaits := nofun
  upServed := fun h => absurd rfl h
  shown := fun _ => rfl

theorem sum_map_zero (l : List Nat) : (l.map fun _ => 0).sum = 0 := by
  induction l with
  | nil => rfl
  | cons a l ih => rw [List.map_cons, List.sum_cons, ih]

theorem idle_budgetsKept : (State.idle cs scan chan).BudgetsKept where
  staged := fun _ _ => Nat.le_trans (Nat.le_of_eq (sum_map_zero (List.range 64))) (Nat.zero_le _)
  demand := fun r b _ _ => by rw [idle_drive]; exact Nat.zero_le _
  applied := fun _ _ => Nat.le_trans (Nat.le_of_eq (sum_map_zero (List.range 64))) (Nat.zero_le _)

/-- With no record, a bay must hold no binding: it is neither OCCUPIED nor LEAVING, and its latch is closed. -/
theorem idle_bindingsAgree (h : ∀ r b, ((State.idle cs scan chan).bay r b).bound = none ∧
    ((State.idle cs scan chan).bay r b).latchOpen = false ∧
    ((State.idle cs scan chan).bay r b).state ≠ .occupied ∧ ((State.idle cs scan chan).bay r b).state ≠ .leaving) :
    (State.idle cs scan chan).BindingsAgree where
  bay := fun r b i k => by rw [(h r b).1] at k; cases k
  full := fun r b k => absurd k (not_or.mpr ⟨(h r b).2.2.1, (h r b).2.2.2⟩)
  record := fun _ _ _ k => absurd k (idle_record_ne cs scan chan)
  docks := fun _ _ k => absurd k (idle_record_ne cs scan chan)
  free := fun _ _ k => absurd k (idle_record_ne cs scan chan)
  latch := fun r b => by
    obtain ⟨hb, hl, -⟩ := h r b
    rw [hb, hl]
    exact ⟨nofun, fun ⟨_, _, k, _⟩ => nomatch k⟩

theorem idle_lawful (hb : (State.idle cs scan chan).BindingsAgree) (hr : (State.idle cs scan chan).RequestsLawful) :
    (State.idle cs scan chan).Lawful :=
  ⟨hb, hr, idle_loansLawful cs scan chan, idle_toursLawful cs scan chan, idle_slotsLawful cs scan chan,
    idle_budgetsKept cs scan chan⟩

end

/-! ## The reset state itself -/

theorem reset_sound : State.reset.Sound :=
  idle_sound [] [] [] (fun _ => (by decide : 0 ≤ 63)) (idle_canonical [] [] [] rfl rfl fun _ => rfl) fun _ _ _ => rfl

theorem reset_requestsLawful : State.reset.RequestsLawful where
  multiplexer := fun _ => ⟨nofun, fun h => absurd rfl h⟩
  distinct := fun _ => .nil
  apart := nofun
  ordered := fun _ => .nil
  stamped := fun _ _ h => h.elim nofun nofun
  queued := nofun
  flying := nofun

theorem reset_lawful : State.reset.Lawful :=
  idle_lawful [] [] [] (idle_bindingsAgree [] [] [] fun _ _ => ⟨rfl, rfl, nofun, nofun⟩) reset_requestsLawful

/-- Settles O60. -/
theorem resetStateIsSound : Obligations.ResetStateIsSound := ⟨reset_sound, idle_floorsLawful [] [] [], reset_lawful⟩

/-! ## The laws are not inductive: a request at a bay the rack does not have

`State.Lawful` bounds the bays that are bound (`BindingsAgree.bay`), and not the bays that requests stand at: an IDENTIFY in
flight at bay 64, in state IDENTIFYING, is lawful. Its completion binds a record there. No event of the part queues a
request at such a bay, so the state below is one that no run from reset meets: the statement lacks the bound. -/

/-- The IDENTIFY in flight at bay 64 of rack 0. -/
def strayIdentify : Req where
  kind := .identify
  bay := 64
  record := none
  loan := none
  attempts := 0
  stamp := 0
  withdraw := false

def strayScanner : Scanner := { resetScanner with holder := .channel, bays := [(64, { resetBay with state := .identifying })] }

def strayChannel : Channel := { resetChannel with inFlight := some strayIdentify, nextStamp := 1 }

/-- The reset state with that IDENTIFY in flight, and its completion waiting: receiver 1, G1, 50 % charged, firmware 1. -/
def stray : State := State.idle [.identifyCompletion 0 1 1 false 500 1] [(0, strayScanner)] [(0, strayChannel)]

theorem stray_scanner (r : Nat) : stray.scanner r = if r = 0 then strayScanner else resetScanner := by
  cases r <;> rfl

theorem stray_channel (r : Nat) : stray.channel r = if r = 0 then strayChannel else resetChannel := by
  cases r <;> rfl

theorem stray_bay (r b : Nat) :
    stray.bay r b = if r = 0 ∧ b = 64 then { resetBay with state := .identifying } else resetBay := by
  unfold State.bay
  rw [stray_scanner]
  by_cases hr : r = 0
  · by_cases hb : b = 64
    · simp [hr, hb, strayScanner, Table.read]
    · simp [hr, hb, strayScanner, Table.read, Ne.symm hb]
  · simp [hr, resetScanner, Table.read]

theorem stray_sound : stray.Sound := by
  refine idle_sound _ _ _ (fun r => ?_) (idle_canonical _ _ _ rfl rfl fun r => ?_) fun r _ _ => ?_
  · rw [show State.idle _ _ _ = stray from rfl, stray_scanner]; split <;> decide
  · rw [show State.idle _ _ _ = stray from rfl, stray_scanner]; split <;> rfl
  · rw [show State.idle _ _ _ = stray from rfl, stray_channel]; split <;> rfl

theorem stray_bindingsAgree : stray.BindingsAgree :=
  idle_bindingsAgree _ _ _ fun r b => by
    rw [show State.idle _ _ _ = stray from rfl, stray_bay]
    split <;> exact ⟨rfl, rfl, nofun, nofun⟩

theorem stray_queue (r : Nat) : (stray.channel r).queue = [] := by
  rw [stray_channel]; split <;> rfl

theorem stray_inFlight {r : Nat} {q : Req} (h : (stray.channel r).inFlight = some q) : r = 0 ∧ q = strayIdentify := by
  rw [stray_channel] at h
  split at h
  · rename_i hr; cases h; exact ⟨hr, rfl⟩
  · cases h

theorem stray_requestsLawful : stray.RequestsLawful where
  multiplexer := fun r => by
    rw [stray_scanner, stray_channel]
    split
    · exact ⟨fun _ => nofun, fun _ => rfl⟩
    · exact ⟨nofun, fun h => absurd rfl h⟩
  distinct := fun r => by rw [stray_queue]; exact .nil
  apart := fun r q p _ hp => by rw [stray_queue] at hp; cases hp
  ordered := fun r => by rw [stray_queue]; exact .nil
  stamped := fun r q h => by
    rw [stray_queue] at h
    obtain ⟨rfl, rfl⟩ := stray_inFlight (h.resolve_left nofun)
    decide
  queued := fun r q h => by rw [stray_queue] at h; cases h
  flying := fun r q h => by
    obtain ⟨rfl, rfl⟩ := stray_inFlight h
    exact ⟨⟨rfl, rfl⟩, nofun, nofun⟩

theorem stray_lawful : stray.Lawful := idle_lawful _ _ _ stray_bindingsAgree stray_requestsLawful

/-- The part as its completion finds it, and what the completion reports. -/
def strayIdle : State := State.idle [] [(0, strayScanner)] [(0, strayChannel)]

def strayReport : Report where
  rid := 1
  generation := 1
  thermal := false
  soc := 500
  firmware := 1

/-- What the completion leaves before the end of its event. -/
def strayBound : State := strayIdle.identified 0 strayIdentify strayReport

theorem step_stray : step stray = .next (State.finish strayIdle strayBound [0]) := by
  have hc : strayIdle.completing 0 .identify = some strayIdentify := rfl
  calc step stray = strayIdle.event (strayIdle.identifyCompletion 0 strayReport) := rfl
    _ = .next (strayIdle.identifyCompletion 0 strayReport) := event_of_running _ _ rfl
    _ = .next (State.finish strayIdle strayBound [0]) := by simp only [State.identifyCompletion, hc, strayBound]

theorem strayBound_bound : (strayBound.bay 0 64).bound = some 0 := by decide +kernel

/-- Refutes O26: an IDENTIFY in flight at bay 64 meets every hypothesis, and its completion binds a record to a bay outside
0 to 63, which `BindingsAgree.bay` rules out. -/
theorem not_everyStepKeepsTheLawsOfThePart : ¬ Obligations.EveryStepKeepsTheLawsOfThePart := by
  intro h
  have hl := h stray _ stray_sound (idle_floorsLawful _ _ _) stray_lawful step_stray
  obtain ⟨_, hlt, _⟩ := hl.bindings.bay 0 64 0 (by rw [bay_finish]; exact strayBound_bound)
  exact absurd hlt (by decide)

end Sys2Proof.Machine
end

