-- ==== Sys2Proof/Proofs/Links.lean ====
section
/-! PROOFS. Requests are served on their link and events are taken by `State.event`, said once over all commands; then the
full reset (R187) and the reads of the tables (R20, R44, R103, R123, R146, R159, R189). -/

namespace Sys2Proof.Machine

variable (s : State)

/-! ## Every command is a request served on its link, a transaction, a reset or an event -/

theorem exec_of_sender {c : Instr} {l : Link} (h : sender c = some l) : ∃ a, exec c s = s.serve l a := by
  cases c <;> first | exact ⟨_, congrArg (fun k => s.serve k _) (Option.some.inj h)⟩ | nomatch h

theorem exec_of_no_sender {c : Instr} (h : sender c = none) (h1 : c ≠ .fullReset) (h2 : c ≠ .fullResetEnd)
    (h3 : ∀ l n, c ≠ .readTransaction l n) (h4 : ∀ l n, c ≠ .writeTransactionAborted l n) :
    ∃ t, exec c s = s.event t := by
  cases c
  case fullReset => exact absurd rfl h1
  case fullResetEnd => exact absurd rfl h2
  case readTransaction l n => exact absurd rfl (h3 l n)
  case writeTransactionAborted l n => exact absurd rfl (h4 l n)
  all_goals first | exact ⟨_, rfl⟩ | nomatch h

/-! ## While RSTN is held low (R187) -/

theorem event_of_held (t : State) (h : s.resetHeld = true) : s.event t = .next s := by simp [State.event, h]

theorem passOver_of_held (l : Link) (ends : Bool) (h : s.resetHeld = true) :
    s.passOver l ends = s.setPort l { s.port l with select := if ends then .high else .ignored } := by
  unfold State.passOver
  rw [if_pos h]
  rfl

theorem serve_of_held (l : Link) (a : Answer) (h : s.resetHeld = true) :
    s.serve l a = .next (s.setPort l { s.port l with select := .high }) := by
  rw [serve_of_unheard s l a (fun k => nomatch h.symm.trans k.1), passOver_of_held s l true h]
  rfl

theorem execReadTransaction_of_held (l : Link) (n : Clocked Nat) (h : s.resetHeld = true) :
    exec (.readTransaction l n) s = .next (s.setPort l { s.port l with select := if n.ends then .high else .ignored }) := by
  show Host.Outcome.next (if s.resetHeld then _ else _) = _
  rw [if_pos h, passOver_of_held s l n.ends h]

theorem execWriteTransactionAborted_of_held (l : Link) (n : Clocked (List Byte)) (h : s.resetHeld = true) :
    exec (.writeTransactionAborted l n) s =
      .next (s.setPort l { s.port l with select := if n.ends then .high else .ignored }) := by
  show Host.Outcome.next (if s.resetHeld then _ else _) = _
  rw [if_pos h, passOver_of_held s l n.ends h]

theorem attention_of_held (l : Link) (h : s.resetHeld = true) : s.attention l = false := by simp [State.attention, h]

theorem charging_of_held (r b : Nat) (h : s.resetHeld = true) : s.charging r b = false := by simp [State.charging, h]

/-! ## A full reset, held or released -/

theorem frame_fullReset (held : Bool) :
    State.reset.ChangesOnly (s.fullReset held) [.queue, .draws, .reset, .ports] := by
  intro p hp; cases p <;> first | rfl | exact ⟨rfl, rfl⟩ | exact absurd (by decide) hp

theorem port_fullReset (held : Bool) (l : Link) : (s.fullReset held).port l =
    { State.reset.port l with select := if (s.port l).select = .high then .high else .ignored } := by
  cases l <;> rfl

theorem resetProgramme_tour {p : Nat} (h : 1 ≤ p) : resetProgramme p =
    { inUse := false, tour := none, language := 0, key := 0, listeners := 0, relay := true } := by
  have hp : p ≠ 0 := by omega
  simp [resetProgramme, hp]

/-- Settles O4. -/
theorem fullResetSetsEveryBlock : Obligations.FullResetSetsEveryBlock := by
  refine ⟨fun s h => ⟨?_, ?_, ?_, ?_, ?_, ?_⟩, fun s => ?_, State.reset, rfl, ?_⟩
  · intro c h1 h2 hc h3 h4
    obtain ⟨t, ht⟩ := exec_of_no_sender s hc h1 h2 h3 h4
    rw [ht, event_of_held s t h]
  · intro c l hc
    obtain ⟨a, ha⟩ := exec_of_sender s hc
    rw [ha, serve_of_held s l a h]
  · exact fun l n => execReadTransaction_of_held s l n h
  · exact fun l n => execWriteTransactionAborted_of_held s l n h
  · exact fun l => attention_of_held s l h
  · exact fun r b => charging_of_held s r b h
  · refine ⟨s.fullReset true, s.fullReset false, rfl, rfl, rfl, rfl, fun x hx => ?_⟩
    rcases hx with rfl | rfl
    · exact ⟨frame_fullReset s true, rfl, rfl, port_fullReset s true⟩
    · exact ⟨frame_fullReset s false, rfl, rfl, port_fullReset s false⟩
  · have hl (l : Link) : (State.reset.port l).requestBuffer = [] ∧ State.reset.responseOf l = none ∧
        (State.reset.port l).notices = [] ∧ State.reset.attention l = false ∧ (State.reset.port l).select = .high := by
      cases l <;> exact ⟨rfl, rfl, rfl, rfl, rfl⟩
    exact ⟨fun _ => rfl, rfl, rfl, fun _ _ => rfl, fun _ => ⟨rfl, rfl, rfl, rfl, rfl, rfl⟩,
      fun _ => ⟨rfl, rfl, rfl, rfl, rfl, rfl⟩, fun _ => ⟨rfl, rfl⟩, fun _ _ => rfl, rfl, rfl, fun _ => rfl, rfl,
      fun _ h => resetProgramme_tour h, rfl, fun _ => rfl, rfl, fun _ => rfl, fun _ => rfl, fun _ => rfl, rfl, rfl,
      rfl, rfl, rfl, fun _ => rfl, fun _ => rfl, rfl, rfl, rfl, rfl, rfl, rfl, rfl, rfl, rfl, rfl, rfl, rfl, rfl, hl,
      rfl, rfl, rfl, rfl⟩

/-! ## A request that is taken -/

variable {s} {l : Link} {c : Instr} {g : Group}

theorem serveRead_of_takes (h : s.Takes c l) (hn : needs c = some (g, false)) (a : Answer) :
    s.serveRead l g a = .next (State.respond l a) := by
  obtain ⟨hears, _, right⟩ := h
  rw [hn] at right
  exact serveRead_of_right s l g a hears right

theorem serveWrite_of_takes (h : s.Takes c l) (hn : needs c = some (g, true)) (a : Answer) :
    s.serveWrite l g a = .next (State.respond l a) :=
  serveWrite_of_right s l g a h.1 (mayWrite_of_takes h hn)

/-! ## What the reads answer -/

variable (s)

theorem readRecord_held {i : Nat} {x : Record} (hi : i ≤ 1023) (hx : s.record i = some x) :
    s.readRecord i = s.ok (recordBytes i x) := by
  unfold State.readRecord
  rw [if_neg (by omega), hx]

theorem readRecord_free {i : Nat} (hi : i ≤ 1023) (hx : s.record i = none) : s.readRecord i = s.no .notFound := by
  unfold State.readRecord
  rw [if_neg (by omega), hx]

theorem readRecord_bad {i : Nat} (hi : 1023 < i) : s.readRecord i = s.no .badRequest := if_pos hi

theorem readBay_good {r b : Nat} (hr : r ≤ 3) (hb : b ≤ 63) : s.readBay r b = s.ok (s.bayBytes r b) :=
  if_neg (by omega)

theorem readBay_bad {r b : Nat} (h : 3 < r ∨ 63 < b) : s.readBay r b = s.no .badRequest := if_pos h

theorem readRack_good {r : Nat} (hr : r ≤ 3) : s.readRack r = s.ok (s.rackBytes r) := if_neg (by omega)

theorem readRack_bad {r : Nat} (h : 3 < r) : s.readRack r = s.no .badRequest := if_pos h

theorem readTour_good {t : Nat} (h1 : 1 ≤ t) (h2 : t ≤ 32) : s.readTour t = s.ok (s.tourBytes t) := if_neg (by omega)

theorem readTour_bad {t : Nat} (h : t = 0 ∨ 32 < t) : s.readTour t = s.no .badRequest := if_pos h

theorem readProgramme_good {p : Nat} (h : p ≤ 63) : s.readProgramme p = s.ok (s.programmeBytes p) := if_neg (by omega)

theorem readProgramme_bad {p : Nat} (h : 63 < p) : s.readProgramme p = s.no .badRequest := if_pos h

theorem readFloor_good {p : Nat} (h : p ≤ 63) : s.readFloor p = s.ok (s.floorBytes p) := if_neg (by omega)

theorem readFloor_bad {p : Nat} (h : 63 < p) : s.readFloor p = s.no .badRequest := if_pos h

/-! ## The results field by field (R189) -/

theorem Generation.code_eq (g : Generation) : g.code = if g = .g1 then 1 else 2 := by cases g <;> rfl
theorem Phase.code_eq (p : Phase) : p.code = if p = .sweep then 0 else 1 := by cases p <;> rfl
theorem Cadence.code_eq (c : Cadence) : c.code = if c = .hot then 0 else 1 := by cases c <;> rfl

/-- An optional field: a presence byte and the value, or zeros of the same length. -/
theorem optBytes_some (n : Nat) (v : List Byte) : optBytes n (some v) = 1#8 :: v := rfl
theorem optBytes_none (n : Nat) : optBytes n none = List.replicate (n + 1) 0#8 := rfl

theorem stateCode_eq (i : Nat) : s.stateCode i = ((s.record i).map fun x => x.state.code).getD 0 := by
  unfold State.stateCode
  cases s.record i <;> rfl

/-- The place of an element, counted from 1 at the head. -/
theorem placeOf_head (a : Nat) (q : List Nat) : placeOf a 0 q = if a ∈ q then some (q.idxOf a + 1) else none :=
  placeOf_eq a q 0

theorem entry_bytes (e : Entry) : e.bytes =
    match e with
    | .free => [0#8, 0#8, 0#8]
    | .down q .none => [1#8] ++ bytes1 q ++ [0#8]
    | .down q (.mic m) => [0x11#8] ++ bytes1 q ++ bytes1 m
    | .down q (.house m) => [0x21#8] ++ bytes1 q ++ bytes1 m
    | .up q m => [2#8] ++ bytes1 q ++ bytes1 m := by
  cases e with
  | free => rfl
  | down q x => cases x <;> rfl
  | up q m => rfl

theorem stackEntryBytes_eq (e : StackEntry) : s.stackEntryBytes e =
    match e with | .mic m => bytes1 m ++ bytes1 (s.priorityOf m) | .cascade => [0xFF#8, 0#8] := by
  cases e <;> rfl

/-- Settles O11. -/
theorem tableReadsAnswerTheContents : Obligations.TableReadsAnswerTheContents := by
  refine ⟨fun s l => ⟨?_, ?_, ?_, ?_, ?_, ?_, ?_, ?_, ?_⟩, fun s l => ⟨?_, ?_, ?_, ?_, ?_, ?_, ?_, ?_, ?_⟩,
    ⟨fun n => ⟨rfl, rfl, rfl, rfl, rfl, rfl⟩, rfl, rfl, rfl, rfl, rfl, fun _ => rfl⟩, ⟨?_, rfl, rfl⟩, ?_, ?_, ?_⟩
  · exact fun i x h hi hx => (serveRead_of_takes h rfl _).trans (by rw [readRecord_held s hi hx, respond_ok])
  · intro rid i x h hu _ hx hr
    subst hr
    exact (serveRead_of_takes h rfl _).trans (by rw [State.findRid, byRid_known s hu hx, respond_ok])
  · exact fun r b h hr hb => (serveRead_of_takes h rfl _).trans (by rw [readBay_good s hr hb, respond_ok])
  · exact fun r h hr => (serveRead_of_takes h rfl _).trans (by rw [readRack_good s hr, respond_ok])
  · exact fun id x h h1 h2 hx =>
      (serveRead_of_takes h rfl _).trans (by rw [State.readLoan, byLoan_held s id _ h1 h2 hx, respond_ok])
  · exact fun t h h1 h2 => (serveRead_of_takes h rfl _).trans (by rw [readTour_good s h1 h2, respond_ok])
  · exact fun p h hp => (serveRead_of_takes h rfl _).trans (by rw [readProgramme_good s hp, respond_ok])
  · exact fun p h hp => (serveRead_of_takes h rfl _).trans (by rw [readFloor_good s hp, respond_ok])
  · exact fun h => serveRead_of_takes h rfl _
  · exact fun i h hi => (serveRead_of_takes h rfl _).trans (by rw [readRecord_bad s hi, respond_no])
  · exact fun i h hi hx => (serveRead_of_takes h rfl _).trans (by rw [readRecord_free s hi hx, respond_no])
  · exact fun r b h hb => (serveRead_of_takes h rfl _).trans (by rw [readBay_bad s hb, respond_no])
  · exact fun r h hr => (serveRead_of_takes h rfl _).trans (by rw [readRack_bad s hr, respond_no])
  · exact fun id h hb => (serveRead_of_takes h rfl _).trans (by rw [State.readLoan, byLoan_bad s id _ hb, respond_no])
  · exact fun id h h1 h2 hx =>
      (serveRead_of_takes h rfl _).trans (by rw [State.readLoan, byLoan_free s id _ h1 h2 hx, respond_no])
  · exact fun t h hb => (serveRead_of_takes h rfl _).trans (by rw [readTour_bad s hb, respond_no])
  · exact fun p h hb => (serveRead_of_takes h rfl _).trans (by rw [readProgramme_bad s hb, respond_no])
  · exact fun p h hb => (serveRead_of_takes h rfl _).trans (by rw [readFloor_bad s hb, respond_no])
  · intro i x
    rw [recordBytes, Generation.code_eq]
    cases x.bay <;> rfl
  · intro s r b
    constructor
    · rw [State.bayBytes]
      cases s.requestAt r b <;> rfl
    · rw [State.rackBytes, Phase.code_eq, Cadence.code_eq]
      cases (s.scanner r).holder <;> rfl
  · intro s id p t l
    refine ⟨?_, ?_, rfl⟩
    · rw [State.loanBytes, placeOf_head]
      simp only [stateCode_eq]
      rfl
    · rw [State.tourBytes]
      cases (s.tour t).state <;> rfl
  · intro s p
    constructor
    · rw [State.floorBytes, placeOf_head, funext (stackEntryBytes_eq s)]
      rfl
    · rw [State.planBytes]
      simp only [entry_bytes]
      rfl

end Sys2Proof.Machine
end

