-- ==== Sys2Proof/Proofs/EndOfEvent.lean ====
section
/-! PROOFS. More of what the end of an event does: it begins no PROGRAM that does not wait at a free multiplexer, takes
requests only from the head of a queue (R25), posts FLOOR_CHANGED only where a floor has changed (R133), and leaves the
racks it stages with their shares (R77). -/

namespace Sys2Proof.Machine

variable (s : State)

/-! ## The hand-over (R25) -/

theorem sealStamp_queue (r k : Nat) : ((s.sealStamp r).channel k).queue = (s.channel k).queue := (sealStamp_spec s r k).2.2.1

theorem sealStamp_inFlight (r k : Nat) : ((s.sealStamp r).channel k).inFlight = (s.channel k).inFlight :=
  (sealStamp_spec s r k).2.2.2

theorem sealStamp_scanner (r k : Nat) : (s.sealStamp r).scanner k = s.scanner k := (sealStamp_spec s r k).1

/-- No PROGRAM waits at the rack while neither block holds its multiplexer. -/
def State.NoProgramWaits (s : State) (r : Nat) : Prop :=
  (s.scanner r).holder = .none → ∀ q ∈ (s.channel r).queue, q.kind ≠ .program

theorem noProgramWaits_handOver {r k : Nat} (e : r ≠ k) (h : s.NoProgramWaits k) : (s.handOver r).NoProgramWaits k := by
  obtain ⟨h1, h2⟩ := handOver_other s r k e
  unfold State.NoProgramWaits
  rw [h1, h2]
  exact h

theorem frame_beginAttempt_of_no_program (r : Nat) (h : ∀ q ∈ (s.channel r).queue, q.kind ≠ .program) :
    s.ChangesOnly (s.beginAttempt r) [.scan, .chan] := by
  unfold State.beginAttempt
  dsimp only
  split
  · exact .refl s _
  · rename_i q rest hq
    split
    · rename_i hk _
      exact absurd hk (h q (by rw [hq]; exact List.mem_cons_self ..))
    · exact ((frame_setChannel s r _).mono (by decide)).trans ((frame_setHolder _ r _).mono (by decide))

theorem frame_handOver_of_no_program (r : Nat) (h : s.NoProgramWaits r) : s.ChangesOnly (s.handOver r) [.scan, .chan] := by
  have hs := (frame_sealStamp s r).mono (m := [.scan, .chan]) (by decide)
  unfold State.handOver
  dsimp only
  split
  · rename_i hh
    rw [sealStamp_scanner] at hh
    refine .ite _ (.ite _ (hs.trans ((frame_setHolder _ r _).mono (by decide))) hs) (hs.trans ?_)
    exact frame_beginAttempt_of_no_program _ r fun q hq => h hh q (by rw [← sealStamp_queue s r r]; exact hq)
  · exact hs

theorem frame_handOvers_of_no_program (h : ∀ r, r < 4 → s.NoProgramWaits r) :
    s.ChangesOnly (rackNumbers.foldl State.handOver s) [.scan, .chan] := by
  rw [handOvers_eq]
  have n1 := noProgramWaits_handOver s (r := 0) (by decide) (h 1 (by decide))
  have n2 := noProgramWaits_handOver (s.handOver 0) (r := 1) (by decide)
    (noProgramWaits_handOver s (r := 0) (by decide) (h 2 (by decide)))
  have n3 := noProgramWaits_handOver ((s.handOver 0).handOver 1) (r := 2) (by decide)
    (noProgramWaits_handOver (s.handOver 0) (r := 1) (by decide)
      (noProgramWaits_handOver s (r := 0) (by decide) (h 3 (by decide))))
  exact (((frame_handOver_of_no_program s 0 (h 0 (by decide))).trans (frame_handOver_of_no_program _ 1 n1)).trans
    (frame_handOver_of_no_program _ 2 n2)).trans (frame_handOver_of_no_program _ 3 n3)

/-- Where no PROGRAM waits at a free multiplexer, the end of an event changes no record. -/
theorem records_finish_of_no_program (before : State) (l : List Nat) (h : ∀ r, r < 4 → s.NoProgramWaits r) :
    (State.finish before s l).fleet.records = s.fleet.records := by
  rw [records_finish]
  exact frame_handOvers_of_no_program s h .records (by decide)

theorem noProgramWaits_of_served (h : s.Served) (r : Nat) (hr : r < 4) : s.NoProgramWaits r := fun hh q hq => by
  rw [h r hr hh] at hq
  cases hq

theorem record_finish_of_served (before : State) (l : List Nat) (h : s.Served) (i : Nat) :
    (State.finish before s l).record i = s.record i :=
  record_eq_of_records (records_finish_of_no_program s before l (noProgramWaits_of_served s h)) i

/-- The attempt that begins takes the head of the queue (R50). -/
theorem channel_beginAttempt {r : Nat} {q : Req} {rest : List Req} (h : (s.channel r).queue = q :: rest) :
    ((s.beginAttempt r).channel r).queue = rest ∧ ((s.beginAttempt r).channel r).inFlight = some q := by
  have hm (t : State) (i : Nat) (f : Record → Record) : (t.modRecord i f).channel r = t.channel r :=
    channel_congr (frame_modRecord t i f .chan (by decide)) r
  unfold State.beginAttempt
  dsimp only
  rw [h]
  dsimp only
  split <;> simp [hm, State.setHolder]

theorem suffix_of_eq {α : Type} {a b : List α} (h : a = b) : a <:+ b := h ▸ List.suffix_refl a

/-- A hand-over takes at most the head of a queue. -/
theorem queue_handOver (r k : Nat) : ((s.handOver r).channel k).queue <:+ (s.channel k).queue := by
  by_cases e : r = k
  · subst e
    have hs := sealStamp_queue s r r
    unfold State.handOver
    dsimp only
    split
    · split
      · split
        · exact suffix_of_eq hs
        · exact suffix_of_eq hs
      · rw [← hs]
        cases hq : ((s.sealStamp r).channel r).queue with
        | nil => simp_all
        | cons q rest =>
          rw [(channel_beginAttempt _ hq).1]
          exact List.suffix_cons q rest
    · exact suffix_of_eq hs
  · exact suffix_of_eq (congrArg Channel.queue (handOver_other s r k e).2)

/-- The end of an event adds no request to a queue. -/
theorem queue_finish (before : State) (l : List Nat) (r : Nat) :
    ((State.finish before s l).channel r).queue <:+ (s.channel r).queue := by
  rw [channel_congr (racks_finish s before l).2, handOvers_eq]
  exact (queue_handOver _ 3 r).trans ((queue_handOver _ 2 r).trans ((queue_handOver _ 1 r).trans (queue_handOver s 0 r)))

/-! ## A request that is asked for stands at its bay afterwards (R49) -/

theorem mem_insertBy {α : Type} (before : α → α → Bool) (a b : α) (l : List α) :
    b ∈ insertBy before a l ↔ b = a ∨ b ∈ l := by
  induction l with
  | nil => simp [insertBy]
  | cons c l ih =>
    unfold insertBy
    split
    · simp
    · simp only [List.mem_cons, ih]
      exact or_left_comm

/-- A find passes over what it does not look for, and meets the one element that it does. -/
theorem find?_insertBy {α : Type} (before : α → α → Bool) (p : α → Bool) (a : α) (l : List α) (ha : p a = true)
    (hl : ∀ b ∈ l, p b = false) : (insertBy before a l).find? p = some a := by
  induction l with
  | nil => simp [insertBy, ha]
  | cons c l ih =>
    have hc : p c = false := hl c (List.mem_cons_self ..)
    unfold insertBy
    split
    · simp [ha]
    · simp [hc, ih fun b hb => hl b (List.mem_cons_of_mem _ hb)]

theorem scanner_wake_holder (r k : Nat) : ((s.wake r).scanner k).holder = (s.scanner k).holder := by
  unfold State.wake
  dsimp only
  rw [scanner_setScanner]
  split
  · rename_i e; subst e; split <;> rfl
  · rfl

theorem bay_wake (r k b : Nat) : (s.wake r).bay k b = s.bay k b := by
  unfold State.wake
  dsimp only
  rw [bay_setScanner]
  split
  · rename_i e; subst e; split <;> rfl
  · rfl

theorem channel_wake (r k : Nat) : (s.wake r).channel k = s.channel k := rfl

/-- The fresh request of an `ask` (R47, R49). -/
def State.fresh (s : State) (r b : Nat) (kind : Kind) (record loan : Option Nat) : Req where
  kind := kind
  bay := b
  record := record
  loan := loan
  attempts := 0
  stamp := (s.channel r).nextStamp
  withdraw := false

theorem channel_ask (r b : Nat) (kind : Kind) (record loan : Option Nat) (k : Nat) :
    (s.ask r b kind record loan).channel k =
      if r = k then { s.channel r with queue := insertBy Req.before (s.fresh r b kind record loan) (s.channel r).queue }
      else s.channel k := channel_setChannel s r _ k

theorem bay_ask (r b : Nat) (kind : Kind) (record loan : Option Nat) (k c : Nat) :
    (s.ask r b kind record loan).bay k c = s.bay k c := bay_wake _ r k c

theorem holder_ask (r b : Nat) (kind : Kind) (record loan : Option Nat) (k : Nat) :
    ((s.ask r b kind record loan).scanner k).holder = (s.scanner k).holder := scanner_wake_holder _ r k

theorem queuedAt_eq_none {r b : Nat} : s.queuedAt r b = none ↔ ∀ q ∈ (s.channel r).queue, q.bay ≠ b := by
  unfold State.queuedAt
  simp [List.find?_eq_none]

theorem requestAt_eq_none {r b : Nat} : s.requestAt r b = none ↔ s.inFlightAt r b = none ∧ s.queuedAt r b = none := by
  unfold State.requestAt
  exact Option.or_eq_none_iff

theorem requestAt_congr {t : State} {r b : Nat} (h1 : (t.channel r).inFlight = (s.channel r).inFlight)
    (h2 : (t.channel r).queue = (s.channel r).queue) : t.requestAt r b = s.requestAt r b := by
  simp only [State.requestAt, State.inFlightAt, State.queuedAt, h1, h2]

/-- The request asked for at an idle bay of a served rack stands there at the end of the event, in flight if the
multiplexer was free (R25). -/
theorem requestAt_finish_ask (before : State) (l : List Nat) {r b : Nat} (kind : Kind) (record loan : Option Nat)
    (hs : s.Served) (hr : r < 4) (hn : s.requestAt r b = none) :
    (State.finish before (s.ask r b kind record loan) l).requestAt r b = some (s.fresh r b kind record loan) := by
  obtain ⟨hf, hq⟩ := (requestAt_eq_none s).mp hn
  have hq := (queuedAt_eq_none s).mp hq
  obtain ⟨u, hu1, hu2, _, hc⟩ := handOvers_rack (s.ask r b kind record loan) r hr
  have hcu : u.channel r =
      { s.channel r with queue := insertBy Req.before (s.fresh r b kind record loan) (s.channel r).queue } := by
    rw [hu2, channel_ask, if_pos rfl]
  have hhu : (u.scanner r).holder = (s.scanner r).holder := by rw [hu1, holder_ask]
  rw [requestAt_congr (u.handOver r) (by rw [channel_congr (racks_finish _ before l).2, hc])
    (by rw [channel_congr (racks_finish _ before l).2, hc])]
  by_cases hh : (s.scanner r).holder = .none
  · have hone : ((u.sealStamp r).channel r).queue = [s.fresh r b kind record loan] := by
      rw [sealStamp_queue, hcu, hs r hr hh]
      rfl
    have ho : u.handOver r = (u.sealStamp r).beginAttempt r := by
      unfold State.handOver
      dsimp only
      rw [sealStamp_scanner, if_pos (hhu.trans hh), hone]
      rfl
    rw [ho, State.requestAt, State.inFlightAt, (channel_beginAttempt _ hone).2]
    simp [State.fresh]
  · rw [handOver_held u r (fun k => hh (hhu.symm.trans k)),
      requestAt_congr u (sealStamp_inFlight u r r) (sealStamp_queue u r r)]
    have hfu : u.inFlightAt r b = none := by
      unfold State.inFlightAt at hf ⊢
      rw [hcu]
      exact hf
    have hqu : u.queuedAt r b = some (s.fresh r b kind record loan) := by
      unfold State.queuedAt
      rw [hcu]
      exact find?_insertBy _ _ _ _ (by simp [State.fresh]) fun p hp => by simpa using hq p hp
    rw [State.requestAt, hfu, hqu]
    rfl

/-! ## Floors an event leaves alone (R133) -/

theorem isUpOf_refreshedEntry (e : Entry) (p : Nat) : (s.refreshedEntry e).isUpOf p = e.isUpOf p := by cases e <;> rfl

/-- A programme holds an uplink slot exactly where an entry names it. -/
theorem isSome_uplinkSlot (p : Nat) : (s.uplinkSlot p).isSome = true ↔ ∃ i, (s.entry i).isUpOf p = true := by
  unfold State.uplinkSlot
  rw [List.find?_isSome]
  constructor
  · rintro ⟨i, _, h⟩
    exact ⟨i, h⟩
  · rintro ⟨i, h⟩
    refine ⟨i, Decidable.byContradiction fun hn => ?_, h⟩
    rw [State.entry, Plan.entry, Table.read_of_notMem_keys _ _ _ hn] at h
    cases h

theorem floorView_syncPlan (p : Nat) : s.syncPlan.floorView p = s.floorView p := by
  have hf (q : Nat) : s.syncPlan.floorOf q = s.floorOf q := floorOf_congr (frame_syncPlan s .floor (by decide)) q
  have hu : (s.syncPlan.uplinkSlot p).isSome = (s.uplinkSlot p).isSome := by
    rw [Bool.eq_iff_iff, isSome_uplinkSlot, isSome_uplinkSlot]
    simp only [entry_syncPlan, isUpOf_refreshedEntry]
  rw [State.floorView, State.floorView, hf, hu]

theorem floorView_congr {t : State} (hf : t.floor = s.floor) (ha : t.air = s.air) (p : Nat) :
    t.floorView p = s.floorView p := by
  simp only [State.floorView, State.floorOf, State.uplinkSlot, State.usedSlots, State.entry, hf, ha]

theorem foldl_kept {α β : Type} (a : α) (l : List β) : l.foldl (fun b _ => b) a = a := by
  induction l with
  | nil => rfl
  | cons _ l ih => exact ih

/-- An event that has changed no floor and no slot posts no FLOOR_CHANGED. -/
theorem finishFloors_of_same {before : State} (hf : s.floor = before.floor) (ha : s.air = before.air) :
    State.finishFloors before s = s.syncPlan := by
  have hv (p : Nat) : before.floorView p = s.syncPlan.floorView p := by
    rw [floorView_syncPlan, floorView_congr before hf ha]
  unfold State.finishFloors State.postFloorChanges
  simp only [hv, if_true]
  exact foldl_kept s.syncPlan (List.range 64)

/-- Such an event posts RACK_SHORT at most. -/
theorem postsOnly_finish {before : State} (l : List Nat) (hf : s.floor = before.floor) (ha : s.air = before.air) :
    s.PostsOnly (State.finish before s l) [15] := by
  have hh := State.ChangesOnly.foldl _ (fun t r => frame_handOver t r) rackNumbers s
  rw [State.finish]
  generalize rackNumbers.foldl State.handOver s = w at hh
  have hwf : w.floor = s.floor := hh .floor (by decide)
  have hwa : w.air = s.air := hh .air (by decide)
  have hwp : w.ports = s.ports := hh .ports (by decide)
  have hsp : w.syncPlan.ports = w.ports := frame_syncPlan w .ports (by decide)
  rw [finishFloors_of_same w (hwf.trans hf) (hwa.trans ha)]
  obtain ⟨t, ht, hp, _⟩ := settleCharge_spec w.syncPlan before l
  rw [← ht]
  exact (State.PostsOnly.of_ports _ (hsp.trans hwp)).trans hp

/-! ## Stagings (R76, R77) -/

/-- What a staging of a rack reads of the part. -/
theorem turns_congr {t : State} (r : Nat) (hr : t.fleet.records = s.fleet.records) (hs : t.scan = s.scan)
    (hv : t.settings = s.settings) (hp : t.charge.promoted = s.charge.promoted)
    (hl : (t.rackCharge r).stagedLimit = (s.rackCharge r).stagedLimit) (w : Turns) (b : Nat) :
    t.turns r = s.turns r ∧ t.stagedShare r w b = s.stagedShare r w b := by
  have hb (b : Nat) : t.boundRecord r b = s.boundRecord r b := by
    simp only [State.boundRecord, bay_congr hs, State.record, hr]
  have hd (b : Nat) : t.demand r b = s.demand r b := by simp only [State.demand, hb]
  have hc (b : Nat) : t.chargeClass r b = s.chargeClass r b := by simp only [State.chargeClass, hb, hv, hp]
  constructor
  · simp only [State.turns, State.available, State.nonEmpty, State.classDemands, hl, hd, hc, bay_congr hs]
  · simp only [State.stagedShare, hd, hc]

/-- A rack staged gives each bay its share of the current as the staging leaves it, also once other racks are staged. -/
theorem staged_restages (rs : List Nat) (hn : rs.Nodup) : ∀ t : State, ∀ r b, r ∈ rs → b ∈ bayNumbers →
    ((rs.foldl State.restage t).drive r b).staged = t.stagedShare r (t.turns r) b := by
  induction rs with
  | nil => exact fun _ _ _ h => nomatch h
  | cons a rs ih =>
    intro t r b hr hb
    obtain ⟨ha, hn⟩ := List.nodup_cons.mp hn
    have hf := frame_restage t a
    obtain ⟨u, hu, _, hlim, hoth, hst, hpro, _⟩ := restage_charge t a
    rw [← hu] at hf
    have hcong (k : Nat) (w : Turns) (c : Nat) := turns_congr t (t := u) k (hf .records (by decide)) (hf .scan (by decide))
      (hf .settings (by decide)) hpro (hlim k).1 w c
    rw [List.foldl_cons, ← hu]
    rcases List.mem_cons.mp hr with rfl | hr
    · have hkeep : ∀ (ks : List Nat) (v : State), r ∉ ks → ((ks.foldl State.restage v).drive r b) = v.drive r b := by
        intro ks
        induction ks with
        | nil => exact fun _ _ => rfl
        | cons k ks ihk =>
          intro v hk
          have hk1 : r ≠ k := fun e => hk (e ▸ List.mem_cons_self)
          have hk2 : r ∉ ks := fun h => hk (List.mem_cons_of_mem k h)
          obtain ⟨w, hw, _, _, hother, _⟩ := restage_charge v k
          rw [List.foldl_cons, ← hw, ihk w hk2, State.drive, hother r hk1, State.drive]
      rw [hkeep rs u ha, hst b, if_pos hb]
    · rw [ih hn u r b hr hb, (hcong r (t.turns r) b).1, (hcong r (t.turns r) b).2]

/-- An event that names every rack leaves them all with their shares (R16, R76, R77). -/
theorem staged_finish (before : State) (k b : Nat) (hk : k < 4) (hb : b < 64) :
    ((State.finish before s rackNumbers).drive k b).staged =
      (State.finish before s rackNumbers).stagedShare k ((State.finish before s rackNumbers).turns k) b := by
  generalize hu : State.finishFloors before (rackNumbers.foldl State.handOver s) = u
  have hrs (q : Nat) : q ∈ rackNumbers → (rackNumbers.contains q || State.rackDirty before u q) = true := by
    intro h; simp [h]
  have he : State.finish before s rackNumbers =
      rackNumbers.foldl State.restage { u with charge := { u.charge with promoted := u.promotedSet } } := by
    rw [State.finish, hu, settleCharge_eq, List.filter_eq_self.mpr hrs, ite_self]
  generalize { u with charge := { u.charge with promoted := u.promotedSet } } = w at he
  have hm : k ∈ rackNumbers := by
    unfold rackNumbers; match k, hk with | 0, _ | 1, _ | 2, _ | 3, _ => decide
  have hf := State.ChangesOnly.foldl _ frame_restage rackNumbers w
  obtain ⟨_, hpro, _, _, hlim⟩ := restages_spec rackNumbers w
  have hcong := turns_congr w (t := rackNumbers.foldl State.restage w) k (hf .records (by decide)) (hf .scan (by decide))
    (hf .settings (by decide)) hpro (hlim k).1
  rw [he, staged_restages rackNumbers (by decide) w k b hm (List.mem_range.mpr hb), (hcong (w.turns k) b).1,
    (hcong (w.turns k) b).2]

end Sys2Proof.Machine
end

