-- ==== Sys2Proof/Proofs/Loans.lean ====
section
/-! PROOFS. What the loan table's shared operations keep, said once over the records that a loan may take: a record that is
not READY, the release timers, the bays. Then the removal of a record from its loan (R109, R110), readiness (R14 to R16),
the reserve range (R17 to R19) and what a READ_USAGE and a GAUGE write (R64 to R67). -/

namespace Sys2Proof.Machine

variable (s : State)

/-! ## Records and loans written through -/

theorem modRecord_of_record {i : Nat} {x : Record} (h : s.record i = some x) (f : Record → Record) :
    s.modRecord i f = s.setRecord i (some (f x)) := by
  unfold State.modRecord
  rw [h]

theorem modRecord_of_free {i : Nat} (h : s.record i = none) (f : Record → Record) : s.modRecord i f = s := by
  unfold State.modRecord
  rw [h]

theorem recordIs_eq {i : Nat} {x : Record} (h : s.record i = some x) (st : RecState) :
    s.recordIs i st = (x.state == st) := by
  unfold State.recordIs
  rw [h]

theorem recordIs_iff (i : Nat) (st : RecState) : s.recordIs i st = true ↔ ∃ x, s.record i = some x ∧ x.state = st := by
  unfold State.recordIs
  cases s.record i with
  | none => simp
  | some x => simp

theorem recordIs_congr {t : State} {i : Nat} (h : t.record i = s.record i) (st : RecState) :
    t.recordIs i st = s.recordIs i st := by
  unfold State.recordIs
  rw [h]

theorem loanOf_eq {i : Nat} {x : Record} (h : s.record i = some x) : s.loanOf i = x.loan := by
  unfold State.loanOf
  rw [h]
  rfl

/-! ## What holds of a state through the offers and tests that follow a removal

`F` marks records that no loan takes, because `P` says that they are not READY. -/

section
variable {P : State → Prop} {F : Nat → Prop}

theorem offer_keeps (hj : ∀ t id i, ¬F i → P t → P (t.joinLoan id i))
    (hF : ∀ t i, P t → F i → t.recordIs i .ready = false) (i : Nat) (h : P s) : P (s.offer i) := by
  unfold State.offer
  split
  · rename_i id hid
    refine hj s id i (fun hi => ?_) h
    have hf := List.find?_some hid
    split at hf
    · simp [State.eligible, hF s i h hi] at hf
    · cases hf
  · exact h

theorem offers_keep (hj : ∀ t id i, ¬F i → P t → P (t.joinLoan id i))
    (hF : ∀ t i, P t → F i → t.recordIs i .ready = false) (l : List Nat) : ∀ s, P s → P (l.foldl State.offer s) := by
  induction l with
  | nil => exact fun _ h => h
  | cons i l ih => exact fun s h => ih _ (offer_keeps s hj hF i h)

theorem settle_keeps (hj : ∀ t id i, ¬F i → P t → P (t.joinLoan id i))
    (hF : ∀ t i, P t → F i → t.recordIs i .ready = false) (hl : ∀ t id, P t → P (t.testLoan id))
    (hr : ∀ t, P t → P t.testReserve) (before : State) (loans offers : List Nat) (h : P s) :
    P (State.settle before s loans offers) := by
  have tests : ∀ (l : List Nat) (t : State), P t → P (l.foldl State.testLoan t) := by
    intro l
    induction l with
    | nil => exact fun _ h => h
    | cons id l ih => exact fun t h => ih _ (hl t id h)
  exact offers_keep hj hF _ _ (offers_keep hj hF offers _ (hr _ (tests loans s h)))

theorem mem_insertBy_iff {α : Type} (before : α → α → Bool) (l : List α) (acc : List α) (a : α) :
    a ∈ l.foldl (fun acc a => insertBy before a acc) acc ↔ a ∈ l ∨ a ∈ acc := by
  induction l generalizing acc with
  | nil => simp
  | cons b l ih =>
    rw [List.foldl_cons, ih, mem_insertBy, List.mem_cons]
    constructor
    · rintro (h | h | h)
      · exact .inl (.inr h)
      · exact .inl (.inl h)
      · exact .inr h
    · rintro ((h | h) | h)
      · exact .inr (.inl h)
      · exact .inl h
      · exact .inr (.inr h)

theorem mem_sortBy {α : Type} (before : α → α → Bool) (l : List α) (a : α) : a ∈ sortBy before l ↔ a ∈ l := by
  unfold sortBy
  rw [mem_insertBy_iff]
  simp

theorem fill_keeps (hj : ∀ t id i, ¬F i → P t → P (t.joinLoan id i))
    (hF : ∀ t i, P t → F i → t.recordIs i .ready = false) (hw : ∀ t id, P t → P (t.enterWanting id)) (id : Nat) (h : P s) :
    P (s.fill id) := by
  have joins : ∀ (l : List Nat) (t : State), (∀ i ∈ l, ¬F i) → P t → P (l.foldl (fun t i => t.joinLoan id i) t) := by
    intro l
    induction l with
    | nil => exact fun _ _ h => h
    | cons i l ih =>
      exact fun t hl h => ih _ (fun k hk => hl k (List.mem_cons_of_mem _ hk)) (hj t id i (hl i (List.mem_cons_self ..)) h)
  unfold State.fill
  split
  · exact h
  · refine hw _ id ?_
    unfold State.select
    split
    · exact h
    · refine joins _ s (fun i hi hf => ?_) h
      have hm := (mem_sortBy _ _ _).mp (List.mem_of_mem_take hi)
      have he := (List.mem_filter.mp hm).2
      simp [State.eligible, hF s i h hf] at he

end

/-! ## A record that is not READY stays as it is (R107, R114) -/

theorem record_joinLoan {id i j : Nat} (h : i ≠ j) : (s.joinLoan id i).record j = s.record j := by
  have hp (t : State) : (t.askProgram i).record j = t.record j :=
    record_eq_of_records (frame_askProgram t i .records (by decide)) j
  unfold State.joinLoan
  split
  · rfl
  · dsimp only
    have hm (f : Record → Record) (v : Option Loan) : (((s.modRecord i f).setLoan id v).askProgram i).record j = s.record j := by
      rw [hp, record_setLoan, modRecord_record, if_neg h]
    split
    · exact hm _ _
    · exact hm _ _

/-- The record at an index holds these values and is not READY. -/
def NotReady (i : Nat) (x : Record) (t : State) : Prop := t.record i = some x ∧ x.state ≠ .ready

theorem notReady_recordIs {i : Nat} {x : Record} (t : State) (j : Nat) (h : NotReady i x t) (hj : j = i) :
    t.recordIs j .ready = false := by
  rw [hj, recordIs_eq t h.1]
  exact beq_eq_false_iff_ne.mpr h.2

theorem notReady_of_records {i : Nat} {x : Record} {t u : State} (hr : u.fleet.records = t.fleet.records)
    (h : NotReady i x t) : NotReady i x u := ⟨(record_eq_of_records hr i).trans h.1, h.2⟩

theorem notReady_joinLoan {i : Nat} {x : Record} (t : State) (id j : Nat) (hj : ¬j = i) (h : NotReady i x t) :
    NotReady i x (t.joinLoan id j) := ⟨(record_joinLoan t hj).trans h.1, h.2⟩

theorem record_settle_of_not_ready {i : Nat} {x : Record} (before : State) (loans offers : List Nat)
    (h : s.record i = some x) (hx : x.state ≠ .ready) : (State.settle before s loans offers).record i = some x :=
  (settle_keeps (P := NotReady i x) (F := (· = i)) s notReady_joinLoan notReady_recordIs
    (fun t id => notReady_of_records (frame_testLoan t id .records (by decide)))
    (fun t => notReady_of_records (frame_testReserve t .records (by decide))) before loans offers ⟨h, hx⟩).1

theorem record_fill_of_not_ready {i : Nat} {x : Record} (id : Nat) (h : s.record i = some x) (hx : x.state ≠ .ready) :
    (s.fill id).record i = some x :=
  (fill_keeps (P := NotReady i x) (F := (· = i)) s notReady_joinLoan notReady_recordIs
    (fun t id => notReady_of_records (frame_enterWanting t id .records (by decide))) id ⟨h, hx⟩).1

/-! ## Release timers, bays and cadence through offers and tests -/

theorem bay_askProgram (i r b : Nat) : (s.askProgram i).bay r b = s.bay r b := by
  unfold State.askProgram
  split
  · rfl
  · split
    · rfl
    · split
      · rfl
      · rw [bay_ask]
        rfl

/-- The release timers, and the bays, are these. -/
def Holds (timers : Table (Option Timer)) (bays : Nat → Nat → Bay) (t : State) : Prop :=
  t.loans.timers = timers ∧ ∀ r b, t.bay r b = bays r b

theorem holds_joinLoan {timers : Table (Option Timer)} {bays : Nat → Nat → Bay} (t : State) (id i : Nat)
    (h : Holds timers bays t) : Holds timers bays (t.joinLoan id i) := by
  unfold State.joinLoan
  split
  · exact h
  · dsimp only
    have hm (f : Record → Record) (v : Option Loan) :
        Holds timers bays (((t.modRecord i f).setLoan id v).askProgram i) := by
      have hl : (t.modRecord i f).loans = t.loans := frame_modRecord t i f .loans (by decide)
      have ha : (((t.modRecord i f).setLoan id v).askProgram i).loans = ((t.modRecord i f).setLoan id v).loans :=
        frame_askProgram _ i .loans (by decide)
      refine ⟨?_, fun r b => ?_⟩
      · rw [ha, State.setLoan, hl]
        exact h.1
      · rw [bay_askProgram, bay_setLoan, bay_congr (frame_modRecord t i f .scan (by decide))]
        exact h.2 r b
    split
    · exact hm _ _
    · exact hm _ _

theorem timers_setLoan (id : Nat) (v : Option Loan) : (s.setLoan id v).loans.timers = s.loans.timers := rfl

theorem timers_closeLoan (id : Nat) : (s.closeLoan id).loans.timers = s.loans.timers := by
  unfold State.closeLoan
  split
  · rfl
  · split <;> rfl

theorem timers_testLoan (id : Nat) : (s.testLoan id).loans.timers = s.loans.timers := by
  unfold State.testLoan
  split
  · rfl
  · rename_i l _
    have h : ((s.closeLoan id).testTour l.tour).loans = (s.closeLoan id).loans := frame_testTour _ _ .loans (by decide)
    rw [h, timers_closeLoan]

theorem timers_enterWanting (id : Nat) : (s.enterWanting id).loans.timers = s.loans.timers := by
  unfold State.enterWanting
  split
  · rfl
  · split <;> rfl

/-- The offers and tests that follow a removal leave timers and bays alone. -/
theorem holds_settle (before : State) (loans offers : List Nat) :
    Holds s.loans.timers s.bay (State.settle before s loans offers) := by
  refine settle_keeps (F := fun _ => False) s (fun t id i _ => holds_joinLoan t id i) (fun _ _ _ h => h.elim)
    (fun t id h => ⟨?_, fun r b => ?_⟩) (fun t h => ⟨?_, fun r b => ?_⟩) before loans offers ⟨rfl, fun _ _ => rfl⟩
  · rw [timers_testLoan]; exact h.1
  · rw [bay_congr (frame_testLoan t id .scan (by decide))]; exact h.2 r b
  · have hl : t.testReserve.loans = t.loans := frame_testReserve t .loans (by decide)
    rw [hl]; exact h.1
  · rw [bay_congr (frame_testReserve t .scan (by decide))]; exact h.2 r b

theorem holds_fill (id : Nat) : Holds s.loans.timers s.bay (s.fill id) := by
  refine fill_keeps (F := fun _ => False) s (fun t id i _ => holds_joinLoan t id i) (fun _ _ _ h => h.elim)
    (fun t k h => ⟨?_, fun r b => ?_⟩) id ⟨rfl, fun _ _ => rfl⟩
  · rw [timers_enterWanting]; exact h.1
  · rw [bay_congr (frame_enterWanting t k .scan (by decide))]; exact h.2 r b

/-- A rack is HOT with quiet time 0 (R34). -/
def State.Woken (s : State) (r : Nat) : Prop := (s.scanner r).cadence = .hot ∧ (s.scanner r).quiet = 0

theorem woken_of_scan {t : State} {r : Nat} (hs : t.scan = s.scan) (h : s.Woken r) : t.Woken r := by
  unfold State.Woken
  rw [scanner_congr hs]
  exact h

theorem woken_wake (r : Nat) : (s.wake r).Woken r := ⟨(scanner_wake s r).1, (scanner_wake s r).2.1⟩

theorem woken_wake_other {r : Nat} (k : Nat) (h : s.Woken r) : (s.wake k).Woken r := by
  by_cases e : r = k
  · exact e ▸ woken_wake s r
  · unfold State.Woken
    rw [(scanner_wake s k).2.2 r e]
    exact h

theorem woken_askProgram {r : Nat} (i : Nat) (h : s.Woken r) : (s.askProgram i).Woken r := by
  unfold State.askProgram
  split
  · exact h
  · split
    · exact h
    · split
      · exact h
      · exact woken_wake_other _ _ (woken_of_scan s rfl h)

theorem woken_joinLoan {r : Nat} (id i : Nat) (h : s.Woken r) : (s.joinLoan id i).Woken r := by
  unfold State.joinLoan
  split
  · exact h
  · have hm (f : Record → Record) (v : Option Loan) : (((s.modRecord i f).setLoan id v).askProgram i).Woken r :=
      woken_askProgram _ i (woken_of_scan s (((frame_modRecord s i f).mono (m := [.records, .loans]) (by decide)).trans
        ((frame_setLoan _ id v).mono (by decide)) .scan (by decide)) h)
    dsimp only
    split
    · exact hm _ _
    · exact hm _ _

theorem woken_settle {r : Nat} (before : State) (loans offers : List Nat) (h : s.Woken r) :
    (State.settle before s loans offers).Woken r :=
  settle_keeps (P := (State.Woken · r)) (F := fun _ => False) s (fun t id i _ => woken_joinLoan t id i)
    (fun _ _ _ h => h.elim) (fun t id => woken_of_scan t (frame_testLoan t id .scan (by decide)))
    (fun t => woken_of_scan t (frame_testReserve t .scan (by decide))) before loans offers h

/-- The tests and offers look at the state before an event for its reserve exclusion set alone (R116). -/
theorem settle_congr {before before' : State} (h : before'.fleet = before.fleet) (loans offers : List Nat) :
    State.settle before' s loans offers = State.settle before s loans offers := by
  have he (i : Nat) : before'.excluded i = before.excluded i := by simp only [State.excluded, h]
  simp only [State.settle, State.offerFreed, he]

/-! ## Leaving a loan (R109) -/

/-- Everything of a removal but the loan, its programme and the plan: the record leaves, a RELEASED one with its timer and
its latch (R42, R120). -/
theorem leaveLoan_frame {i : Nat} {x : Record} (dest : RecState) (e : Term) (hx : s.record i = some x) :
    ∃ u : State, u = (if x.state = .released then (s.setTimer i none).closeLatchOf i else s).setRecord i (some
        { x with state := dest, loan := none, programme := none, due := none, overdueFlag := false }) ∧
      u.ChangesOnly (s.leaveLoan i dest e) [.loans, .tours, .air] ∧
      (s.leaveLoan i dest e).loans.timers = u.loans.timers := by
  refine ⟨_, rfl, ?_⟩
  unfold State.leaveLoan
  simp only [hx]
  generalize State.setRecord _ i _ = u
  have h3 : ∃ v, v = (match x.loan with | some id => u.modLoan id fun l => l.without i e | none => u) ∧
      u.ChangesOnly v [.loans, .tours, .air] ∧ v.loans.timers = u.loans.timers := by
    refine ⟨_, rfl, ?_⟩
    split
    · exact ⟨(frame_modLoan u _ _).mono (by decide), (modLoan_keeps u _ _).2⟩
    · exact ⟨.refl u _, rfl⟩
  obtain ⟨v, hv, hf, ht⟩ := h3
  have hl (p : Nat) : u.ChangesOnly (v.loseListener p) [.loans, .tours, .air] ∧
      (v.loseListener p).loans.timers = u.loans.timers := by
    have hk : (v.loseListener p).loans = v.loans := frame_loseListener v p .loans (by decide)
    exact ⟨hf.trans ((frame_loseListener v p).mono (by decide)), by rw [hk, ht]⟩
  subst hv
  split
  · cases x.programme with
    | none => exact ⟨hf, ht⟩
    | some p => exact hl p
  · exact ⟨hf, ht⟩

theorem record_leaveLoan {i : Nat} {x : Record} (dest : RecState) (e : Term) (hx : s.record i = some x) (j : Nat) :
    (s.leaveLoan i dest e).record j = if i = j then
      some { x with state := dest, loan := none, programme := none, due := none, overdueFlag := false }
      else s.record j := by
  obtain ⟨u, hu, hf, _⟩ := leaveLoan_frame s dest e hx
  obtain ⟨t, ht, hc, _⟩ := stopRelease s i x hx
  rw [record_eq_of_records (hf .records (by decide)), hu, ← ht, record_setRecord,
    record_eq_of_records (hc .records (by decide))]

/-- A RELEASED record's timer stops and its latch closes (R42, R120). -/
theorem leaveLoan_released {i : Nat} {x : Record} (dest : RecState) (e : Term) (hx : s.record i = some x)
    (hr : x.state = .released) : (s.leaveLoan i dest e).timer i = none ∧
      ∀ b, x.bay = some b → ((s.leaveLoan i dest e).bay b.rack b.bay).latchOpen = false := by
  obtain ⟨u, hu, hf, hti⟩ := leaveLoan_frame s dest e hx
  obtain ⟨t, ht, _, _, _, hrel, _⟩ := stopRelease s i x hx
  rw [← ht] at hu
  obtain ⟨h1, h2⟩ := hrel hr
  constructor
  · rw [State.timer, hti, hu]
    exact h1
  · intro b hb
    rw [bay_congr (hf .scan (by decide)), hu]
    exact h2 b hb

theorem without_eq (l : Loan) (i : Nat) (e : Term) : l.without i e =
    { l with
      outstanding := l.outstanding.filter (· != i)
      returned := l.returned + (if e = .returned then 1 else 0)
      dropped := l.dropped + (if e = .dropped then 1 else 0)
      shortfall := l.shortfall + (if e = .shortfall then 1 else 0) } := by
  cases e <;> simp [Loan.without]

theorem listening_iff (x : RecState) :
    x.listening = true ↔ x = .released ∨ x = .onLoan ∨ x = .overdue ∨ x = .missing := by
  cases x <;> simp [RecState.listening]

/-- The parts a lost listener touches are the programmes and the plan. -/
theorem leaveLoan_counts {i id p : Nat} {dest : RecState} {e : Term} {x : Record} {l : Loan} (hx : s.record i = some x)
    (hl : x.loan = some id) (hp : x.programme = some p) (hy : s.loan id = some l) :
    (s.leaveLoan i dest e).loan id = some (l.without i e) ∧
      (∀ k, k ≠ id → (s.leaveLoan i dest e).loan k = s.loan k) ∧
      (s.leaveLoan i dest e).loans.wanting = s.loans.wanting ∧
      ((s.leaveLoan i dest e).programme p).listeners =
        (if x.state.listening then (s.programme p).listeners - 1 else (s.programme p).listeners) ∧
      (∀ k, k ≠ p → (s.leaveLoan i dest e).programme k = s.programme k) ∧
      (x.state ≠ .released → (s.leaveLoan i dest e).loans.timers = s.loans.timers ∧
        (s.leaveLoan i dest e).scan = s.scan) := by
  obtain ⟨u, he, hf, _, _, h1, h2, h3, _, h5⟩ := leaveLoan_spec s i id p dest e x l hx hl hp hy
  have hu (k : Nat) : u.programme k = s.programme k := programme_congr (hf .tours (by decide)) k
  rw [he]
  split
  · have hk : (u.loseListener p).loans = u.loans := frame_loseListener u p .loans (by decide)
    have hs : (u.loseListener p).scan = u.scan := frame_loseListener u p .scan (by decide)
    obtain ⟨hp1, hp2, _⟩ := loseListener_spec u p
    refine ⟨by rw [loan_congr hk, h1], fun k hk' => by rw [loan_congr hk, h2 k hk'], by rw [hk, h3],
      by rw [hp1, hu], fun k hk' => by rw [hp2 k hk', hu], fun hr => ⟨by rw [hk, (h5 hr).1], by rw [hs, (h5 hr).2]⟩⟩
  · exact ⟨h1, h2, h3, by rw [hu], fun k _ => hu k, h5⟩

/-! ## The test for closing (R110) -/

theorem closeLoan_done {id : Nat} {l : Loan} (h : s.loan id = some l) (h1 : l.shortfall = 0) (h2 : l.outstanding = []) :
    s.closeLoan id = (s.setLoan id none).post (.loanClosed id l.requested l.returned l.dropped) := by
  unfold State.closeLoan
  rw [h]
  exact if_pos ⟨h1, h2⟩

theorem closeLoan_open {id : Nat} {l : Loan} (h : s.loan id = some l) (h1 : l.shortfall ≠ 0 ∨ l.outstanding ≠ []) :
    s.closeLoan id = s := by
  unfold State.closeLoan
  rw [h]
  exact if_neg fun ⟨a, b⟩ => h1.elim (· a) (· b)

theorem testLoan_held {id : Nat} {l : Loan} (h : s.loan id = some l) : s.testLoan id = (s.closeLoan id).testTour l.tour := by
  unfold State.testLoan
  rw [h]

theorem testLoan_free {id : Nat} (h : s.loan id = none) : s.testLoan id = s := by
  unfold State.testLoan
  rw [h]

/-- Settles O44. -/
theorem leavingALoanCountsOnce : Obligations.LeavingALoanCountsOnce := by
  refine ⟨fun s i id p dest e x l hx hl hp hy => ⟨_, rfl, ?_, ?_, ?_, ?_, ?_, ?_, ?_, ?_, ?_, ?_⟩,
    fun s id l h => ⟨closeLoan_done s h, closeLoan_open s h, testLoan_held s h⟩, fun s id h => testLoan_free s h,
    fun _ _ _ _ => rfl⟩
  all_goals obtain ⟨h1, h2, h3, h4, _, h5⟩ := leaveLoan_counts s (dest := dest) (e := e) hx hl hp hy
  · rw [record_leaveLoan s dest e hx, if_pos rfl]
  · exact fun j hj => by rw [record_leaveLoan s dest e hx, if_neg (Ne.symm hj)]
  · rw [h1, without_eq]
  · exact h2
  · exact h3
  · simp only [h4, listening_iff]
  · exact fun hr => leaveLoan_released s dest e hx hr
  · exact h5
  · exact (frame_leaveLoan s i dest e).mono (by decide)
  · exact frame_leaveLoan s i dest e .ports (by decide)

end Sys2Proof.Machine
end

