-- ==== Sys2Proof/Proofs/Readiness.lean ====
section
/-! PROOFS. Readiness (R14 to R16), the reserve range (R17 to R19, R116), and what a READ_USAGE and a GAUGE write (R64 to
R67). -/

namespace Sys2Proof.Machine

variable (s : State)

/-! ## Readiness (R14, R15) -/

theorem meetsReady_iff (x : Record) : s.meetsReady x = true ↔
    (∃ c, x.soc = some c ∧ s.settings.readyLevel ≤ c) ∧ x.usagePending = false ∧ x.thermalHold = false := by
  unfold State.meetsReady
  cases x.soc <;> simp [and_assoc]

theorem losesReady_iff (x : Record) : s.losesReady x = true ↔
    (∃ c, x.soc = some c ∧ c + 50 < s.settings.readyLevel) ∨ x.thermalHold = true ∨ x.usagePending = true := by
  unfold State.losesReady
  cases x.soc <;> simp [or_assoc]

theorem record_testReadiness {i : Nat} {x : Record} (hx : s.record i = some x) :
    (s.testReadiness i).record i = some { x with
      state :=
        if x.state = .docked ∧ s.meetsReady x = true then .ready
        else if x.state = .ready ∧ s.losesReady x = true then .docked
        else x.state } := by
  obtain ⟨rid, gen, st, rest⟩ := x
  unfold State.testReadiness
  rw [modRecord_record, if_pos rfl, hx, Option.map_some]
  cases st with
  | docked => cases s.meetsReady _ <;> rfl
  | ready => cases s.losesReady _ <;> rfl
  | _ => rfl

theorem record_testReadiness_other {i j : Nat} (h : j ≠ i) : (s.testReadiness i).record j = s.record j := by
  unfold State.testReadiness
  rw [modRecord_record, if_neg (Ne.symm h)]

theorem frame_testAndOffer (i : Nat) : s.ChangesOnly (s.testAndOffer i) [.records, .loans, .scan, .chan, .ports] := by
  have h := (frame_testReadiness s i).mono (m := [.records, .loans, .scan, .chan, .ports]) (by decide)
  exact .ite _ (h.trans (frame_offer _ i)) h

/-- Settles O16. -/
theorem readinessHasAFiftyPermilleBand : Obligations.ReadinessHasAFiftyPermilleBand := by
  refine ⟨fun s i x hx => ⟨?_, fun j hj => record_testReadiness_other s hj, frame_testReadiness s i⟩,
    fun s l r v h => ⟨_, _, rfl, rfl, serveWrite_of_takes h rfl _, ?_, fun k b hk hb => staged_finish _ s k b hk hb⟩⟩
  · simp only [record_testReadiness s hx, meetsReady_iff, losesReady_iff]
  · have hu := State.ChangesOnly.foldl State.testAndOffer frame_testAndOffer
      (s.setSettings { s.settings with readyLevel := fit 500 1000 v }).recordIndices
      (s.setSettings { s.settings with readyLevel := fit 500 1000 v })
    exact ((hu.mono (m := [.records, .loans, .scan, .chan, .ports, .charge, .air]) (by decide)).trans
      ((frame_finish _ s rackNumbers).mono (by decide))) .settings (by decide)

/-! ## The reserve range (R17, R18) -/

theorem testReserve_none (h : s.fleet.staged = none) : s.testReserve = s := by
  unfold State.testReserve
  rw [h]

theorem testReserve_clear {g : Range} (h : s.fleet.staged = some g) (hc : s.rangeClear g = true) :
    s.testReserve = { s with fleet := { s.fleet with applied := some g, staged := none } } := by
  unfold State.testReserve
  rw [h]
  exact if_pos hc

theorem testReserve_held {g : Range} (h : s.fleet.staged = some g) (hc : s.rangeClear g = false) : s.testReserve = s := by
  unfold State.testReserve
  rw [h]
  exact if_neg (by rw [hc]; decide)

/-- A range that some loan not flagged reserve holds a record of is not clear. -/
theorem rangeClear_eq_false {g : Range} (h : ∃ id x i, s.loan id = some x ∧ x.reserve = false ∧ i ∈ x.outstanding ∧
    g.lo ≤ i ∧ i ≤ g.hi) : s.rangeClear g = false := by
  obtain ⟨id, x, i, hx, hr, hi, hg⟩ := h
  exact Bool.eq_false_iff.mpr fun hc => (rangeClear_iff s g).mp hc id x i hx hr hi hg

theorem frame_ranges (a g : Option Range) :
    s.ChangesOnly { s with fleet := { s.fleet with applied := a, staged := g } } [.ranges] := by
  intro p hp; cases p <;> first | rfl | exact absurd (by decide) hp

theorem frame_stageReserve (range : Option (Nat × Nat)) : s.ChangesOnly (s.stageReserve range) [.ranges] := by
  unfold State.stageReserve
  split
  · exact frame_ranges s none s.fleet.staged
  · exact (frame_ranges s s.fleet.applied _).trans (frame_testReserve _)

theorem frame_offerFreed (before : State) (l : List Nat) :
    s.ChangesOnly (State.offerFreed before s l) [.records, .loans, .scan, .chan, .ports] :=
  .foldl _ frame_offer _ s

theorem badRange_iff (range : Option (Nat × Nat)) :
    badRange range = true ↔ ∃ lo hi, range = some (lo, hi) ∧ (hi < lo ∨ 1023 < hi) := by
  cases range with
  | none => exact ⟨nofun, fun ⟨_, _, h, _⟩ => nomatch h⟩
  | some g =>
    have hg : badRange (some g) = true ↔ g.2 < g.1 ∨ 1023 < g.2 := by
      simp only [badRange, Bool.or_eq_true, decide_eq_true_iff]
    refine hg.trans ⟨fun h => ⟨g.1, g.2, rfl, h⟩, fun ⟨lo, hi, e, h⟩ => ?_⟩
    cases e
    exact h

theorem execSetReserve_eq {s : State} {l : Link} {range : Option (Nat × Nat)} (h : s.Takes (.setReserve l range) l)
    (hk : s.access.lock = false) : exec (.setReserve l range) s = .next (State.respond l (s.setReserve range)) := by
  refine (serveWrite_of_takes h rfl _).trans ?_
  rw [State.underLock, hk]
  rfl

theorem setReserve_staged {range : Option (Nat × Nat)} (hb : badRange range = false) (hs : s.fleet.staged = none) :
    s.setReserve range = (State.finish s (State.offerFreed s (s.stageReserve range) []) []).ok
      (bytes1 (State.finish s (State.offerFreed s (s.stageReserve range) []) []).reserveStatus) := by
  unfold State.setReserve
  rw [hb, hs]
  rfl

theorem setReserve_bad {range : Option (Nat × Nat)} (hb : badRange range = true) : s.setReserve range = s.no .badRequest :=
  if_pos hb

theorem setReserve_pending {range : Option (Nat × Nat)} (hb : badRange range = false) (hs : s.fleet.staged ≠ none) :
    s.setReserve range = s.no .busy := by
  unfold State.setReserve
  rw [hb, if_neg nofun, if_pos (Option.isSome_iff_ne_none.mpr hs)]

/-- The exclusion set is the applied range with the pending one (R19). -/
theorem excluded_iff (i : Nat) : s.excluded i = true ↔
    ∃ g : Range, (s.fleet.applied = some g ∨ s.fleet.staged = some g) ∧ g.lo ≤ i ∧ i ≤ g.hi := by
  have hr (g : Option Range) : rangeHas g i = true ↔ ∃ k, g = some k ∧ k.lo ≤ i ∧ i ≤ k.hi := by
    cases g with
    | none => simp [rangeHas]
    | some k => simp [rangeHas, Range.has]
  rw [State.excluded, Bool.or_eq_true, hr, hr]
  constructor
  · rintro (⟨g, h, k⟩ | ⟨g, h, k⟩)
    · exact ⟨g, .inl h, k⟩
    · exact ⟨g, .inr h, k⟩
  · rintro ⟨g, h | h, k⟩
    · exact .inl ⟨g, h, k⟩
    · exact .inr ⟨g, h, k⟩

/-- Settles O17. -/
theorem setReserveStagesARange : Obligations.SetReserveStagesARange := by
  have good {range : Option (Nat × Nat)} (h : ∀ lo hi, range = some (lo, hi) → lo ≤ hi ∧ hi ≤ 1023) :
      badRange range = false := Bool.eq_false_iff.mpr fun k => by
    obtain ⟨lo, hi, e, hb⟩ := (badRange_iff range).mp k
    have := h lo hi e
    omega
  refine ⟨fun s l range h hk => ⟨?_, ?_, fun hg hs => ?_⟩, fun s => ⟨testReserve_none s, fun g hg => ⟨?_, ?_⟩⟩,
    fun before s hc already => ⟨excluded_iff s, _, rfl, ?_, fun i => ?_⟩⟩
  · intro lo hi e hb
    rw [execSetReserve_eq h hk, setReserve_bad s ((badRange_iff range).mpr ⟨lo, hi, e, hb⟩), respond_no]
  · intro hg hs
    rw [execSetReserve_eq h hk, setReserve_pending s (good hg) hs, respond_no]
  · have hr : (s.stageReserve range).ChangesOnly (State.finish s (State.offerFreed s (s.stageReserve range) []) [])
        [.records, .loans, .scan, .chan, .ports, .charge, .air] :=
      ((frame_offerFreed _ s []).mono (by decide)).trans ((frame_finish _ s []).mono (by decide))
    obtain ⟨ha, hst⟩ := hr .ranges (by decide)
    refine ⟨s.stageReserve range, _, ?_, rfl, frame_stageReserve s range, ha, hst, ?_, ?_⟩
    · rw [execSetReserve_eq h hk, setReserve_staged s (good hg) hs, respond_ok]
    · intro e
      subst e
      exact ⟨rfl, hs⟩
    · intro lo hi e
      subst e
      have hl (g : Range) : ({ s with fleet := { s.fleet with staged := some { lo := lo, hi := hi } } } : State).rangeClear g =
        s.rangeClear g := rfl
      refine ⟨fun hc => ?_, fun hc => ?_⟩
      · rw [State.stageReserve, testReserve_clear _ rfl ((hl _).trans ((rangeClear_iff s { lo := lo, hi := hi }).mpr hc))]
        exact ⟨rfl, rfl⟩
      · rw [State.stageReserve, testReserve_held _ rfl ((hl _).trans (rangeClear_eq_false s (g := { lo := lo, hi := hi }) hc))]
        exact ⟨rfl, rfl⟩
  · exact fun hc => testReserve_clear s hg ((rangeClear_iff s g).mpr hc)
  · exact fun hc => testReserve_held s hg (rangeClear_eq_false s hc)
  · exact ((Table.keys_rise _ none _ hc.records).1).filter _
  · simp only [List.mem_filter, Bool.and_eq_true, Bool.not_eq_true', recordIs_iff, List.contains_eq_mem,
      decide_eq_false_iff_not]
    constructor
    · rintro ⟨_, ⟨⟨hr, hb⟩, he⟩, ha⟩
      exact ⟨hr, hb, he, ha⟩
    · rintro ⟨⟨x, hx, hr⟩, hb, he, ha⟩
      exact ⟨mem_recordIndices_of_record s hx, ⟨⟨⟨x, hx, hr⟩, hb⟩, he⟩, ha⟩

/-! ## READ_USAGE and GAUGE (R64 to R67) -/

/-- The completion of a transfer in flight that has not failed (R53). -/
theorem completing_eq {r : Nat} {q : Req} (hr : r < 4) (hq : (s.channel r).inFlight = some q)
    (hc : (s.channel r).confirming = false) : s.completing r q.kind = some q := by
  unfold State.completing Channel.exchanging
  simp [hr, hq, hc]

theorem record_endAttempt (r i : Nat) : (s.endAttempt r).record i = s.record i :=
  record_eq_of_records (frame_endAttempt s r .records (by decide)) i

theorem usageRead_eq {r i : Nat} {q : Req} {x : Record} (hq : q.record = some i) (hx : s.record i = some x)
    (minutes : List Nat) :
    s.usageRead r q minutes = ((s.endAttempt r).setRecord i (some (x.usageRead minutes))).testAndOffer i := by
  unfold State.usageRead
  rw [hq]
  dsimp only
  rw [modRecord_of_record _ ((record_endAttempt s r i).trans hx)]

theorem gauged_eq {r i : Nat} {q : Req} {x : Record} (hq : q.record = some i) (hx : s.record i = some x) (soc : Nat)
    (thermal : Bool) : s.gauged r q soc thermal false =
      (((s.endAttempt r).setRecord i (some { x with soc := some (min 1000 soc), thermalHold := thermal })).endGauge
        i).testAndOffer i := by
  unfold State.gauged
  rw [hq]
  dsimp only
  rw [modRecord_of_record _ ((record_endAttempt s r i).trans hx)]
  rfl

theorem gauged_fault {r i : Nat} {q : Req} (hq : q.record = some i) (soc : Nat) (thermal : Bool) :
    s.gauged r q soc thermal true = ((s.endAttempt r).faultRecord i).endGauge i := by
  unfold State.gauged
  rw [hq]
  rfl

/-- The PROGRAM of a reserved record with no request in flight at its bay is queued in place of any other (R49, R66). -/
theorem askProgram_idle {i : Nat} {x : Record} {p : BayPos} (hx : s.record i = some x) (hp : x.bay = some p)
    (hf : s.inFlightAt p.rack p.bay = none) : s.askProgram i =
      (s.removeQueued p.rack p.bay).ask p.rack p.bay .program (some i) x.loan := by
  unfold State.askProgram
  rw [hx]
  dsimp only
  rw [hp]
  dsimp only
  rw [hf]
  rfl

/-- Settles O32. -/
theorem usageAndGaugeAreWritten : Obligations.UsageAndGaugeAreWritten := by
  refine ⟨fun s r i q x hh hr hq hc hi hx => ⟨fun minutes hk => ?_, fun soc thermal hk => ⟨?_, ?_⟩⟩,
    fun s i x y hx hy => ⟨fun h1 h2 => ?_, fun h => ?_⟩,
    fun s i x hx => ⟨fun h => ?_, fun p hr hp hf => ⟨_, _, rfl, ?_, rfl, fun a => ?_, ?_, fun k hk => ?_⟩⟩⟩
  · have hcm := hk ▸ completing_eq s hr hq hc
    refine (event_of_running s _ hh).trans ?_
    rw [State.readUsageCompletion, hcm]
    exact congrArg (fun t => Host.Outcome.next (State.finish s t [])) (usageRead_eq s hi hx minutes)
  · have hcm := hk ▸ completing_eq s hr hq hc
    refine (event_of_running s _ hh).trans ?_
    rw [State.gaugeCompletion, hcm, ← gauged_eq s (r := r) hi hx soc thermal]
  · have hcm := hk ▸ completing_eq s hr hq hc
    refine (event_of_running s _ hh).trans ?_
    rw [State.gaugeCompletion, hcm, ← gauged_fault s (r := r) hi soc thermal]
  · unfold State.testAndOffer
    dsimp only
    rw [recordIs_eq _ hy, recordIs_eq _ hx, h2, beq_false_of_ne h1]
    rfl
  · unfold State.testAndOffer
    dsimp only
    rw [recordIs_eq _ hy, recordIs_eq _ hx]
    rcases h with h | h
    · rw [h]
      cases y.state <;> rfl
    · rw [beq_false_of_ne h]
      rfl
  · unfold State.endGauge
    rw [recordIs_eq s hx, beq_false_of_ne h]
    rfl
  · exact .ite _ (frame_askProgram s i) (.refl s _)
  all_goals
    have he : s.endGauge i = (s.removeQueued p.rack p.bay).ask p.rack p.bay .program (some i) x.loan := by
      rw [State.endGauge, recordIs_eq s hx, hr, ← askProgram_idle s hx hp hf]
      rfl
    rw [he, channel_ask]
  · rw [if_pos rfl, mem_insertBy]
    simp [State.removeQueued, State.fresh]
  · rw [if_pos rfl]
    simp [State.removeQueued]
  · rw [if_neg (Ne.symm hk)]
    simp [State.removeQueued, Ne.symm hk]

end Sys2Proof.Machine
end

