-- ==== Sys2Proof/Proofs/Fleet.lean ====
section
/-! PROOFS. The FLEET requests and WRITE_OFF: ENROL (R6), RETIRE (R7), REINSTATE (R9), REMOVE (R10), CLEAR_FAULT (R11,
R12) and WRITE_OFF (R13). -/

namespace Sys2Proof.Machine

variable (s : State)

/-! ## ENROL (R1, R6) -/

theorem indexOfRid_isSome {rid j : Nat} {x : Record} (hx : s.record j = some x) (hr : x.rid = rid) :
    (s.indexOfRid rid).isSome = true :=
  Option.isSome_iff_ne_none.mpr fun h => (indexOfRid_eq_none s rid).mp h j x hx hr

/-- The lowest free position outside the exclusion set (R5, R6). -/
theorem freePosition_eq_some {i : Nat} (hi : i ≤ 1023) (hf : s.record i = none) (he : s.excluded i = false)
    (hl : ∀ j, j < i → s.excluded j = true ∨ s.record j ≠ none) : s.freePosition = some i := by
  unfold State.freePosition
  rw [List.find?_range_eq_some]
  refine ⟨by simp [hf, he], List.mem_range.mpr (by omega), fun j hj => ?_⟩
  rcases hl j hj with h | h
  · simp [h]
  · simp [Option.isNone_eq_false_iff.mpr (Option.isSome_iff_ne_none.mpr h)]

theorem freePosition_eq_none (hl : ∀ i, i ≤ 1023 → s.excluded i = true ∨ s.record i ≠ none) : s.freePosition = none := by
  unfold State.freePosition
  rw [List.find?_eq_none]
  intro i hi
  rcases hl i (by have := List.mem_range.mp hi; omega) with h | h
  · simp [h]
  · simp [Option.isNone_eq_false_iff.mpr (Option.isSome_iff_ne_none.mpr h)]

theorem enrol_given {rid code i : Nat} {g : Generation} (hg : generationOf code = some g) (h0 : rid ≠ 0) (hi : i ≤ 1023)
    (hn : s.indexOfRid rid = none) (hf : s.record i = none) : s.enrol rid code (some i) = s.enrolAt rid g i := by
  unfold State.enrol
  rw [hg]
  dsimp only
  rw [if_neg h0, if_neg (by omega), hn, hf]
  rfl

theorem enrol_lowest {rid code i : Nat} {g : Generation} (hg : generationOf code = some g) (h0 : rid ≠ 0)
    (hn : s.indexOfRid rid = none) (hf : s.freePosition = some i) : s.enrol rid code none = s.enrolAt rid g i := by
  unfold State.enrol
  rw [hg]
  dsimp only
  rw [if_neg h0, hn, hf]
  rfl

theorem enrol_bad {rid code : Nat} {index : Option Nat}
    (h : rid = 0 ∨ generationOf code = none ∨ ∃ i, index = some i ∧ 1023 < i) : s.enrol rid code index = s.no .badRequest := by
  unfold State.enrol
  split
  · rfl
  · rename_i g hg
    split
    · rfl
    · rename_i h0
      obtain ⟨i, rfl, hi⟩ := (h.resolve_left h0).resolve_left (by rw [hg]; nofun)
      exact if_pos hi

/-- A receiver ID that is held, or a position that is, is refused (R6). -/
theorem enrol_busy {rid code : Nat} {index : Option Nat} {g : Generation} (hg : generationOf code = some g) (h0 : rid ≠ 0)
    (hi : ∀ i, index = some i → i ≤ 1023)
    (h : (s.indexOfRid rid).isSome = true ∨ ∃ i, index = some i ∧ s.record i ≠ none) :
    s.enrol rid code index = s.no .busy := by
  unfold State.enrol
  rw [hg]
  dsimp only
  rw [if_neg h0]
  cases index with
  | none => exact if_pos (h.resolve_right nofun)
  | some i =>
    dsimp only
    rw [if_neg (Nat.not_lt.mpr (hi i rfl))]
    split
    · rfl
    · rename_i hn
      obtain ⟨k, e, hk⟩ := h.resolve_left hn
      cases e
      exact if_pos (Option.isSome_iff_ne_none.mpr hk)

theorem enrol_full {rid code : Nat} {g : Generation} (hg : generationOf code = some g) (h0 : rid ≠ 0)
    (hn : s.indexOfRid rid = none) (hf : s.freePosition = none) : s.enrol rid code none = s.no .full := by
  unfold State.enrol
  rw [hg]
  dsimp only
  rw [if_neg h0, hn, hf]
  rfl

/-- Settles O13. -/
theorem enrolPlacesANewRecord : Obligations.EnrolPlacesANewRecord := by
  refine ⟨fun s l rid code g index i h h0 hg hr hf hi hc => ?_, fun s l rid code index h => ⟨fun hb => ?_,
    fun h0 hg hi => ⟨fun ⟨j, x, hx, hr⟩ => ?_, fun i e hf => ?_, fun hr e hl => ?_⟩⟩⟩
  · have hn := (indexOfRid_eq_none s rid).mpr hr
    refine (serveWrite_of_takes h rfl _).trans ?_
    rcases hc with rfl | ⟨rfl, he, hl⟩
    · rw [enrol_given s hg h0 hi hn hf]
      rfl
    · rw [enrol_lowest s hg h0 hn (freePosition_eq_some s hi hf he hl)]
      rfl
  · exact (serveWrite_of_takes h rfl _).trans (by rw [enrol_bad s hb, respond_no])
  all_goals
    obtain ⟨g, hg⟩ := Option.ne_none_iff_exists'.mp hg
    refine (serveWrite_of_takes h rfl _).trans ?_
  · rw [enrol_busy s hg h0 hi (.inl (indexOfRid_isSome s hx hr)), respond_no]
  · rw [enrol_busy s hg h0 hi (.inr ⟨i, e, hf⟩), respond_no]
  · subst e
    rw [enrol_full s hg h0 ((indexOfRid_eq_none s rid).mpr hr) (freePosition_eq_none s hl), respond_no]

/-! ## RETIRE (R7) -/

/-- A rack whose queues lose requests stays served. -/
theorem served_of_queues {t : State} (hs : t.scan = s.scan)
    (hq : ∀ r, (t.channel r).queue ⊆ (s.channel r).queue) (h : s.Served) : t.Served := fun r hr hn => by
  rw [scanner_congr hs] at hn
  have := hq r
  rw [h r hr hn] at this
  exact List.subset_nil.mp this

theorem channel_removeQueued (r b k : Nat) : (s.removeQueued r b).channel k =
    if r = k then { s.channel r with queue := (s.channel r).queue.filter (fun q => q.bay != b) } else s.channel k :=
  channel_setChannel s r _ k

theorem queue_removeQueuedOf (i r : Nat) : ((s.removeQueuedOf i).channel r).queue ⊆ (s.channel r).queue := by
  unfold State.removeQueuedOf
  split
  · rw [channel_removeQueued]
    split
    · rename_i e
      subst e
      exact List.filter_sublist.subset
    · exact List.Subset.refl _
  · exact List.Subset.refl _

/-- No request is queued at the bay of a record whose queued request has been removed (R51). -/
theorem queuedAt_removeQueuedOf {i : Nat} {x : Record} {p : BayPos} (hx : s.record i = some x) (hp : x.bay = some p) :
    (s.removeQueuedOf i).queuedAt p.rack p.bay = none := by
  rw [queuedAt_eq_none, State.removeQueuedOf, hx, Option.bind_some, hp]
  dsimp only
  rw [channel_removeQueued, if_pos rfl]
  intro q hq
  simpa using (List.mem_filter.mp hq).2

/-- A RETIRE before the end of its event. -/
def State.retired (s : State) (i : Nat) (x : Record) : State :=
  (s.setRecord i (some { x with state := .retired })).removeQueuedOf i

theorem frame_retired (i : Nat) (x : Record) : s.ChangesOnly (s.retired i x) [.records, .chan] :=
  ((frame_setRecord s i _).mono (by decide)).trans ((frame_removeQueuedOf _ i).mono (by decide))

theorem record_retired (i : Nat) (x : Record) (j : Nat) :
    (s.retired i x).record j = if i = j then some { x with state := .retired } else s.record j := by
  unfold State.retired
  rw [record_eq_of_records (frame_removeQueuedOf _ i .records (by decide)), record_setRecord]

theorem served_retired (i : Nat) (x : Record) (h : s.Served) : (s.retired i x).Served :=
  served_of_queues s (frame_retired s i x .scan (by decide))
    (fun r => queue_removeQueuedOf (s.setRecord i (some { x with state := .retired })) i r) h

theorem queuedAt_retired {i : Nat} {x : Record} {p : BayPos} (hp : x.bay = some p) :
    (s.retired i x).queuedAt p.rack p.bay = none :=
  queuedAt_removeQueuedOf (s.setRecord i (some { x with state := .retired }))
    (x := { x with state := .retired }) (by rw [record_setRecord, if_pos rfl]) hp

theorem retire_good {i : Nat} {x : Record} (hu : s.RidsUnique) (hx : s.record i = some x)
    (h : x.state = .docked ∨ x.state = .ready ∨ x.state = .absent ∨ x.state = .fault) :
    s.retire x.rid = (State.finish s (s.retired i x) []).ok [] := by
  unfold State.retire
  rw [byRid_known s hu hx]
  rcases h with h | h | h | h <;> rw [h] <;> rfl

theorem retire_busy {i : Nat} {x : Record} (hu : s.RidsUnique) (hx : s.record i = some x)
    (h : x.state ≠ .docked ∧ x.state ≠ .ready ∧ x.state ≠ .absent ∧ x.state ≠ .fault) :
    s.retire x.rid = s.no .busy := by
  unfold State.retire
  rw [byRid_known s hu hx]
  obtain ⟨h1, h2, h3, h4⟩ := h
  cases hs : x.state <;> simp_all

/-! ## REMOVE (R10) -/

theorem loan_modLoans (f : Loan → Loan) (hf : ∀ l, f (f l) = f l) (ids : List Nat) : ∀ (s : State) (id : Nat),
    (ids.foldl (fun t k => t.modLoan k f) s).loan id = if id ∈ ids then (s.loan id).map f else s.loan id := by
  induction ids with
  | nil => intro s id; simp
  | cons k ids ih =>
    intro s id
    have hff : f ∘ f = f := funext hf
    rw [List.foldl_cons, ih, loan_modLoan]
    by_cases e : k = id
    · subst e; simp [hff]
    · simp [e, Ne.symm e]

/-- The index is deleted from every passed list. -/
theorem loan_forgetPassed (i id : Nat) : (s.forgetPassed i).loan id =
    (s.loan id).map fun y => { y with passed := y.passed.filter (· != i) } := by
  unfold State.forgetPassed
  rw [loan_modLoans _ (fun l => by simp)]
  split
  · rfl
  · rename_i h
    cases hl : s.loan id with
    | none => rfl
    | some l => exact absurd (mem_loanIds hl) h

theorem forgetPassed_keeps (i : Nat) : (s.forgetPassed i).loans.wanting = s.loans.wanting ∧
    (s.forgetPassed i).loans.timers = s.loans.timers := by
  unfold State.forgetPassed
  generalize s.loanIds = ids
  induction ids generalizing s with
  | nil => exact ⟨rfl, rfl⟩
  | cons k ids ih =>
    obtain ⟨h1, h2⟩ := modLoan_keeps s k fun l => { l with passed := l.passed.filter (· != i) }
    exact ⟨(ih _).1.trans h1, (ih _).2.trans h2⟩

theorem removeRecord_good {i : Nat} {x : Record} (hu : s.RidsUnique) (hx : s.record i = some x) (hb : x.bay = none)
    (h : x.state = .absent ∨ x.state = .retired) : s.removeRecord x.rid = ((s.setRecord i none).forgetPassed i).ok [] := by
  unfold State.removeRecord
  rw [byRid_known s hu hx]
  exact if_pos ⟨hb, h⟩

theorem removeRecord_busy {i : Nat} {x : Record} (hu : s.RidsUnique) (hx : s.record i = some x)
    (h : x.bay ≠ none ∨ (x.state ≠ .absent ∧ x.state ≠ .retired)) : s.removeRecord x.rid = s.no .busy := by
  unfold State.removeRecord
  rw [byRid_known s hu hx]
  exact if_neg fun ⟨hb, hk⟩ => h.elim (· hb) fun ⟨h1, h2⟩ => hk.elim h1 h2

/-! ## WRITE_OFF (R13) -/

theorem writeOff_good {i : Nat} {x : Record} (hu : s.RidsUnique) (hx : s.record i = some x)
    (h : x.state = .onLoan ∨ x.state = .overdue ∨ x.state = .missing) : s.writeOff x.rid =
      (State.finish s (State.settle s (s.leaveLoan i .absent .dropped) (s.loanList i) []) []).ok [] := by
  unfold State.writeOff
  rw [byRid_known s hu hx]
  rcases h with h | h | h <;> rw [h]

theorem writeOff_busy {i : Nat} {x : Record} (hu : s.RidsUnique) (hx : s.record i = some x)
    (h : x.state ≠ .onLoan ∧ x.state ≠ .overdue ∧ x.state ≠ .missing) : s.writeOff x.rid = s.no .busy := by
  unfold State.writeOff
  rw [byRid_known s hu hx]
  obtain ⟨h1, h2, h3⟩ := h
  cases hs : x.state <;> simp_all

/-- Settles O14. -/
theorem retireRemoveAndWriteOff : Obligations.RetireRemoveAndWriteOff := by
  refine ⟨fun s l i x h hu hx => ⟨fun hst hsv => ?_, fun hst => ?_⟩, fun s l i x h hu hx => ⟨fun hb hst => ?_, fun hst => ?_⟩,
    fun s l i x h hu hx => ⟨fun hst => ⟨?_, ?_⟩, fun hst => ?_⟩⟩
  · have hsr := served_retired s i x hsv
    have hf := frame_retired s i x
    refine ⟨State.finish s (s.retired i x) [], ?_, ?_, fun j hj => ?_, fun p hp => ?_, ?_, ?_⟩
    · exact (serveWrite_of_takes h rfl _).trans (by rw [retire_good s hu hx hst, respond_ok])
    · rw [record_finish_of_served _ s [] hsr, record_retired, if_pos rfl]
    · rw [record_finish_of_served _ s [] hsr, record_retired, if_neg (Ne.symm hj)]
    · rw [queuedAt_eq_none]
      exact fun q hq => (queuedAt_eq_none _).mp (queuedAt_retired s hp) q ((queue_finish _ s [] p.rack).subset hq)
    · exact (hf.mono (by decide)).trans ((frame_finish _ s []).mono (by decide))
    · exact (State.PostsOnly.of_ports _ (hf .ports (by decide))).trans
        (postsOnly_finish _ [] (hf .floor (by decide)) (hf .air (by decide)))
  · exact (serveWrite_of_takes h rfl _).trans (by rw [retire_busy s hu hx hst, respond_no])
  · have hr := frame_forgetPassed (s.setRecord i none) i
    obtain ⟨hw, ht⟩ := forgetPassed_keeps (s.setRecord i none) i
    refine ⟨(s.setRecord i none).forgetPassed i, ?_, ?_, fun j hj => ?_, fun id => ?_, hw, ht, ?_⟩
    · exact (serveWrite_of_takes h rfl _).trans (by rw [removeRecord_good s hu hx hb hst, respond_ok])
    · rw [record_eq_of_records (hr .records (by decide)), record_setRecord, if_pos rfl]
    · rw [record_eq_of_records (hr .records (by decide)), record_setRecord, if_neg (Ne.symm hj)]
    · rw [loan_forgetPassed, loan_setRecord]
    · exact ((frame_setRecord s i none).mono (by decide)).trans (hr.mono (by decide))
  · exact (serveWrite_of_takes h rfl _).trans (by rw [removeRecord_busy s hu hx hst, respond_no])
  · exact (serveWrite_of_takes h rfl _).trans (by rw [writeOff_good s hu hx hst, respond_ok])
  · rw [record_leaveLoan s .absent .dropped hx, if_pos rfl]
  · exact (serveWrite_of_takes h rfl _).trans (by rw [writeOff_busy s hu hx hst, respond_no])

/-! ## REINSTATE and CLEAR_FAULT (R9, R11, R12) -/

/-- An `ask` of a READ_USAGE, an IDENTIFY or a GAUGE on a served rack lets the end of the event change no record. -/
theorem records_finish_ask (before : State) {r b : Nat} {kind : Kind} (record loan : Option Nat) (l : List Nat)
    (hs : s.Served) (hk : kind ≠ .program) :
    (State.finish before (s.ask r b kind record loan) l).fleet.records = s.fleet.records := by
  have hr : (s.ask r b kind record loan).fleet.records = s.fleet.records :=
    frame_ask s r b kind record loan .records (by decide)
  rw [records_finish_of_no_program _ before l (fun k hk4 hh q hq => ?_), hr]
  rw [holder_ask] at hh
  rw [channel_ask] at hq
  have hn := hs k hk4 hh
  split at hq
  · rename_i e
    subst e
    rcases (mem_insertBy _ _ _ _).mp hq with rfl | hq
    · exact hk
    · rw [hn] at hq; cases hq
  · rw [hn] at hq; cases hq

/-- The record prepared again at its bay (R9, R11). -/
def Record.prepared (x : Record) : Record := { x with state := .docked, usagePending := true }

theorem prepareAgain_bound {i : Nat} {x : Record} {p : BayPos} (hp : x.bay = some p) : s.prepareAgain i x =
    (s.setRecord i (some x.prepared)).ask p.rack p.bay .readUsage (some i) none := by
  have hy : (s.setRecord i (some x.prepared)).record i = some x.prepared := by rw [record_setRecord, if_pos rfl]
  have hb : x.prepared.bay = some p := hp
  show (s.setRecord i (some x.prepared)).askReadUsage i = _
  unfold State.askReadUsage
  rw [hy, Option.bind_some, hb]

theorem reinstate_bound {i : Nat} {x : Record} {p : BayPos} (hu : s.RidsUnique) (hx : s.record i = some x)
    (hst : x.state = .retired) (hp : x.bay = some p) (hn : s.requestAt p.rack p.bay = none) :
    s.reinstate x.rid = (State.finish s (s.prepareAgain i x) []).ok [] := by
  unfold State.reinstate
  rw [byRid_known s hu hx, hst, hp]
  dsimp only
  rw [hn]
  rfl

theorem reinstate_unbound {i : Nat} {x : Record} (hu : s.RidsUnique) (hx : s.record i = some x)
    (hst : x.state = .retired) (hp : x.bay = none) :
    s.reinstate x.rid = (s.setRecord i (some { x with state := .absent })).ok [] := by
  unfold State.reinstate
  rw [byRid_known s hu hx, hst, hp]

theorem reinstate_busy {i : Nat} {x : Record} (hu : s.RidsUnique) (hx : s.record i = some x)
    (h : x.state ≠ .retired ∨ ∃ p, x.bay = some p ∧ s.requestAt p.rack p.bay ≠ none) : s.reinstate x.rid = s.no .busy := by
  unfold State.reinstate
  rw [byRid_known s hu hx]
  by_cases hst : x.state = .retired
  · obtain ⟨p, hp, hn⟩ := h.resolve_left (· hst)
    rw [hst, hp]
    exact if_pos (Option.isSome_iff_ne_none.mpr hn)
  · cases hs : x.state <;> first | rfl | exact absurd hs hst

theorem clearFaultRecord_good {i : Nat} {x : Record} (hu : s.RidsUnique) (hx : s.record i = some x)
    (hst : x.state = .fault) : s.clearFaultRecord x.rid = (State.finish s (s.prepareAgain i x) []).ok [] := by
  unfold State.clearFaultRecord
  rw [byRid_known s hu hx]
  exact if_pos hst

theorem clearFaultRecord_busy {i : Nat} {x : Record} (hu : s.RidsUnique) (hx : s.record i = some x)
    (hst : x.state ≠ .fault) : s.clearFaultRecord x.rid = s.no .busy := by
  unfold State.clearFaultRecord
  rw [byRid_known s hu hx]
  exact if_neg hst

/-- A bay that changes its state keeps all but that and its debounce count, and the other bays stay (R31). -/
theorem bay_moveBay (r b : Nat) (dest : BayState) (k c : Nat) : (s.moveBay r b dest).bay k c =
    if r = k ∧ b = c then { s.bay r b with state := dest, debounce := 0 } else s.bay k c := by
  unfold State.moveBay
  rw [bay_wake, bay_setBay]

theorem holder_moveBay (r b : Nat) (dest : BayState) (k : Nat) :
    ((s.moveBay r b dest).scanner k).holder = (s.scanner k).holder := by
  unfold State.moveBay
  rw [scanner_wake_holder, scanner_setBay]
  split <;> rfl

theorem served_moveBay (r b : Nat) (dest : BayState) (h : s.Served) : (s.moveBay r b dest).Served := fun k hk hn => by
  rw [holder_moveBay] at hn
  exact h k hk hn

/-- Settles O15. -/
theorem reinstateAndClearFaultPrepareAgain : Obligations.ReinstateAndClearFaultPrepareAgain := by
  refine ⟨fun s l i x hu hx => ⟨fun c hc h hsv p hr hp hn => ?_, fun h => ⟨fun hst hb => ?_, fun hst => ?_⟩, fun h hst => ?_⟩,
    fun s l r b h => ⟨fun hb => ?_, fun hr hb hst => ?_, fun hr hb hst hsv hn => ?_⟩⟩
  · have hf : (s.setRecord i (some x.prepared)).ChangesOnly (s.prepareAgain i x) [.scan, .chan] := by
      rw [prepareAgain_bound s hp]
      exact frame_ask _ _ _ _ _ _
    have hall : s.ChangesOnly (s.prepareAgain i x) [.records, .scan, .chan] :=
      ((frame_setRecord s i _).mono (by decide)).trans (hf.mono (by decide))
    have hsr : (s.setRecord i (some x.prepared)).Served := hsv
    refine ⟨State.finish s (s.prepareAgain i x) [],
      (s.setRecord i (some x.prepared)).fresh p.rack p.bay .readUsage (some i) none, ?_, ?_, fun j hj => ?_, ?_, rfl, rfl,
      rfl, ?_, ?_⟩
    · rcases hc with ⟨rfl, hst⟩ | ⟨rfl, hst⟩
      · exact (serveWrite_of_takes h rfl _).trans (by rw [reinstate_bound s hu hx hst hp hn, respond_ok])
      · exact (serveWrite_of_takes h rfl _).trans (by rw [clearFaultRecord_good s hu hx hst, respond_ok])
    · rw [prepareAgain_bound s hp, record_eq_of_records (records_finish_ask _ s _ _ [] hsr (by decide)), record_setRecord, if_pos rfl]
      rfl
    · rw [prepareAgain_bound s hp, record_eq_of_records (records_finish_ask _ s _ _ [] hsr (by decide)), record_setRecord, if_neg (Ne.symm hj)]
    · rw [prepareAgain_bound s hp]
      exact requestAt_finish_ask _ s [] .readUsage (some i) none hsr hr hn
    · exact (hall.mono (by decide)).trans ((frame_finish _ s []).mono (by decide))
    · exact (State.PostsOnly.of_ports _ (hall .ports (by decide))).trans
        (postsOnly_finish _ [] (hall .floor (by decide)) (hall .air (by decide)))
  · exact (serveWrite_of_takes h rfl _).trans (by rw [reinstate_unbound s hu hx hst hb, respond_ok])
  · exact (serveWrite_of_takes h rfl _).trans (by rw [reinstate_busy s hu hx hst, respond_no])
  · exact (serveWrite_of_takes h rfl _).trans (by rw [clearFaultRecord_busy s hu hx hst, respond_no])
  · exact (serveWrite_of_takes h rfl _).trans (by rw [State.clearFaultBay, if_pos hb, respond_no])
  · exact (serveWrite_of_takes h rfl _).trans
      (by rw [State.clearFaultBay, if_neg (by omega), if_neg hst, respond_no])
  · have hall : s.ChangesOnly ((s.moveBay r b .identifying).ask r b .identify none none) [.scan, .chan] :=
      ((frame_moveBay s r b _).mono (by decide)).trans (frame_ask _ r b _ _ _)
    refine ⟨State.finish s ((s.moveBay r b .identifying).ask r b .identify none none) [],
      (s.moveBay r b .identifying).fresh r b .identify none none, ?_, ?_, fun k c hkc => ?_, ?_, rfl, rfl, ?_, ?_⟩
    · exact (serveWrite_of_takes h rfl _).trans
        (by rw [State.clearFaultBay, if_neg (by omega), if_pos hst, respond_ok])
    · rw [bay_finish, bay_ask, bay_moveBay, if_pos ⟨rfl, rfl⟩]
    · rw [bay_finish, bay_ask, bay_moveBay, if_neg fun ⟨h1, h2⟩ => hkc (by rw [h1, h2])]
    · exact requestAt_finish_ask _ s [] .identify none none (served_moveBay s r b _ hsv) (by omega) hn
    · intro q hq
      by_cases e : q = .records
      · subst e
        exact records_finish_ask _ s _ _ [] (served_moveBay s r b _ hsv) (by decide)
      · exact ((hall.mono (m := [.records, .scan, .chan, .charge, .air, .ports]) (by decide)).trans
          (frame_finish _ s [])) q (by simpa [e] using hq)
    · exact (State.PostsOnly.of_ports _ (hall .ports (by decide))).trans
        (postsOnly_finish _ [] (hall .floor (by decide)) (hall .air (by decide)))

end Sys2Proof.Machine
end

