-- ==== Sys2Proof/Proofs/Transfers.lean ====
section
/-! PROOFS. The confirming scan and the transfers that end failed (R26, R56, R60, R63, R68), and what an IDENTIFY binds
(R5, R57 to R59). -/

namespace Sys2Proof.Machine

variable (s : State)

/-! ## The end of an attempt, and the bay's side of a confirming scan -/

theorem bay_setHolder (r : Nat) (h : Holder) (k b : Nat) : (s.setHolder r h).bay k b = s.bay k b := by
  unfold State.setHolder
  rw [bay_setScanner]
  split
  · rename_i e; subst e; rfl
  · rfl

theorem bay_endAttempt (r k b : Nat) : (s.endAttempt r).bay k b = s.bay k b := bay_setHolder _ r _ k b

theorem channel_endAttempt (r : Nat) : ((s.endAttempt r).channel r).inFlight = none ∧
    ((s.endAttempt r).channel r).queue = (s.channel r).queue := by
  have h : (s.endAttempt r).channel r = { s.channel r with
      inFlight := none, wordsRemaining := 0, lowByte := none, words := [], formed := [], wordElapsed := 0,
      confirming := false } := (channel_setChannel s r _ r).trans (if_pos rfl)
  rw [h]
  exact ⟨rfl, rfl⟩

/-- The rack's reading of a bay, written before the scan decides (R27). -/
def State.sensed (s : State) (r b reading : Nat) : State := s.setBay r b { s.bay r b with sense := reading }

theorem bay_sensed (r b reading : Nat) : (s.sensed r b reading).bay r b = { s.bay r b with sense := reading } := by
  unfold State.sensed
  rw [bay_setBay, if_pos ⟨rfl, rfl⟩]

theorem frame_confirmBay (r b : Nat) : s.ChangesOnly (s.confirmBay r b) [.scan] := by
  unfold State.confirmBay
  split
  · exact frame_moveBay s r b _
  · exact frame_setBay s r b _
  · exact .refl s _

/-- A LEAVING bay read present is OCCUPIED again (R26). -/
theorem state_confirmBay (r b : Nat) : ((s.confirmBay r b).bay r b).state =
    if (s.bay r b).state = .leaving then .occupied else (s.bay r b).state := by
  unfold State.confirmBay
  cases h : (s.bay r b).state <;> simp [bay_moveBay, h]

theorem ports_post_congr {t : State} (h : t.ports = s.ports) (n : Notice) : (t.post n).ports = (s.post n).ports := by
  simp only [State.post, h]

/-! ## A retry (R50, R56) -/

theorem channel_requeue (r : Nat) (q : Req) : (s.requeue r q).channel r =
    { s.channel r with queue := insertBy Req.before { q with attempts := q.attempts + 1 } (s.channel r).queue } := by
  have he : (s.enqueue r { q with attempts := q.attempts + 1 }).channel r =
      { s.channel r with queue := insertBy Req.before { q with attempts := q.attempts + 1 } (s.channel r).queue } :=
    (channel_setChannel s r _ r).trans (if_pos rfl)
  unfold State.requeue
  dsimp only
  split
  · rw [channel_congr (frame_modRecord _ _ _ .chan (by decide)), he]
  · exact he

/-- The record of a PROGRAM goes back to RESERVED (R50). -/
theorem record_requeue {r i : Nat} {q : Req} {x : Record} (hk : q.kind = .program) (hi : q.record = some i)
    (hx : s.record i = some x) (hp : x.state = .programming) :
    (s.requeue r q).record i = some { x with state := .reserved } := by
  have he (p : Req) : (s.enqueue r p).record i = some x := hx
  unfold State.requeue
  rw [hk, hi]
  dsimp only
  rw [modRecord_of_record _ (he _), record_setRecord, if_pos rfl, if_pos hp]

/-! ## The confirming scan (R26, R56) -/

theorem present_iff (y : Bay) (reading : Nat) :
    s.present y reading = true ↔ y.baseline + s.settings.senseThreshold / 2 ≤ reading := decide_eq_true_iff

theorem confirmRestages_iff (q : Req) : q.confirmRestages = true ↔
    q.kind = .program ∨ ((q.kind = .readUsage ∨ q.kind = .gauge) ∧ 2 ≤ q.attempts) := by
  unfold Req.confirmRestages
  cases q.kind <;> simp

section
variable {s} {r reading : Nat} {q : Req} (hr : r < 4) (hq : (s.channel r).inFlight = some q)
  (hc : (s.channel r).confirming = true)
include hr hq hc

theorem confirmingScan_eq : s.confirmingScan r reading =
    if s.present (s.bay r q.bay) reading then
      State.finish s ((s.sensed r q.bay reading).confirmPresent r q) (if q.confirmRestages then [r] else [])
    else State.finish s ((s.sensed r q.bay reading).confirmAbsent r q) [] := by
  unfold State.confirmingScan
  rw [hq]
  dsimp only
  rw [hc, decide_eq_true hr]
  rfl

theorem confirmingScan_present (hp : (s.bay r q.bay).baseline + s.settings.senseThreshold / 2 ≤ reading) :
    s.confirmingScan r reading =
      State.finish s ((s.sensed r q.bay reading).confirmPresent r q) (if q.confirmRestages then [r] else []) := by
  rw [confirmingScan_eq hr hq hc, if_pos ((present_iff s _ _).mpr hp)]

theorem confirmingScan_absent (ha : reading < (s.bay r q.bay).baseline + s.settings.senseThreshold / 2) :
    s.confirmingScan r reading = State.finish s ((s.sensed r q.bay reading).confirmAbsent r q) [] := by
  rw [confirmingScan_eq hr hq hc, if_neg fun h => Nat.not_le.mpr ha ((present_iff s _ _).mp h)]

end

theorem confirmAbsent_identify {r : Nat} {q : Req} (hk : q.kind = .identify) :
    s.confirmAbsent r q = (s.endAttempt r).moveBay r q.bay .empty := by
  unfold State.confirmAbsent
  rw [hk]

theorem confirmAbsent_other {r : Nat} {q : Req} (hk : q.kind ≠ .identify) :
    s.confirmAbsent r q = (s.endAttempt r).depart r q.bay := by
  unfold State.confirmAbsent
  cases h : q.kind with
  | identify => exact absurd h hk
  | _ => rfl

theorem confirmPresent_withdrawn {r i : Nat} {q : Req} (hw : q.withdraw = true) (hi : q.record = some i) :
    s.confirmPresent r q = ((s.confirmBay r q.bay).endAttempt r).endWithdrawn i := by
  unfold State.confirmPresent
  dsimp only
  rw [if_pos hw, hi]

theorem confirmPresent_retry {r : Nat} {q : Req} (hw : q.withdraw = false) (ha : q.attempts < 2) :
    s.confirmPresent r q = ((s.confirmBay r q.bay).endAttempt r).requeue r q := by
  unfold State.confirmPresent
  dsimp only
  rw [if_neg (by rw [hw]; nofun), if_pos ha]

theorem confirmPresent_fail {r : Nat} {q : Req} (hw : q.withdraw = false) (ha : 2 ≤ q.attempts) :
    s.confirmPresent r q = ((s.confirmBay r q.bay).endAttempt r).failRequest r q := by
  unfold State.confirmPresent
  dsimp only
  rw [if_neg (by rw [hw]; nofun), if_neg (by omega)]

theorem failRequest_identify {r : Nat} {q : Req} (hk : q.kind = .identify) : s.failRequest r q = s.faultBay r q.bay := by
  unfold State.failRequest
  rw [hk]

theorem failRequest_other {r i : Nat} {q : Req} (hk : q.kind ≠ .identify) (hi : q.record = some i) :
    s.failRequest r q = s.faultRecord i := by
  unfold State.failRequest
  rw [hi]
  cases h : q.kind with
  | identify => exact absurd h hk
  | _ => rfl

/-- The state a present confirming scan hands the request back in: the reading written, the bay's state confirmed and
the attempt over. -/
def State.confirmed (s : State) (r b reading : Nat) : State := ((s.sensed r b reading).confirmBay r b).endAttempt r

theorem frame_confirmed (r b reading : Nat) : s.ChangesOnly (s.confirmed r b reading) [.scan, .chan] :=
  (((frame_setBay s r b _).mono (by decide)).trans ((frame_confirmBay _ r b).mono (by decide))).trans (frame_endAttempt _ r)

theorem channel_confirmed (r b reading : Nat) : ((s.confirmed r b reading).channel r).inFlight = none ∧
    ((s.confirmed r b reading).channel r).queue = (s.channel r).queue := by
  obtain ⟨h1, h2⟩ := channel_endAttempt ((s.sensed r b reading).confirmBay r b) r
  have h3 : ((s.sensed r b reading).confirmBay r b).chan = s.chan :=
    frame_confirmBay (s.sensed r b reading) r b .chan (by decide)
  exact ⟨h1, by rw [State.confirmed, h2, channel_congr h3]⟩

theorem state_confirmed (r b reading : Nat) : ((s.confirmed r b reading).bay r b).state =
    if (s.bay r b).state = .leaving then .occupied else (s.bay r b).state := by
  rw [State.confirmed, bay_endAttempt, state_confirmBay, bay_sensed]

/-- An IDENTIFY read absent leaves its bay EMPTY and its queue as it was (R56). -/
theorem absent_identify {r : Nat} {q : Req} (reading : Nat) (hk : q.kind = .identify) :
    ((s.sensed r q.bay reading).confirmAbsent r q).bay r q.bay =
        { s.bay r q.bay with sense := reading, state := .empty, debounce := 0 } ∧
      (((s.sensed r q.bay reading).confirmAbsent r q).channel r).inFlight = none ∧
      (((s.sensed r q.bay reading).confirmAbsent r q).channel r).queue = (s.channel r).queue := by
  obtain ⟨h1, h2⟩ := channel_endAttempt (s.sensed r q.bay reading) r
  have hc : ((s.sensed r q.bay reading).confirmAbsent r q).channel r =
      ((s.sensed r q.bay reading).endAttempt r).channel r := by
    rw [confirmAbsent_identify _ hk]
    exact channel_congr (frame_moveBay _ r q.bay .empty .chan (by decide)) r
  have h3 : (s.sensed r q.bay reading).chan = s.chan := frame_setBay s r q.bay _ .chan (by decide)
  refine ⟨?_, by rw [hc, h1], by rw [hc, h2, channel_congr h3]⟩
  rw [confirmAbsent_identify _ hk, bay_moveBay, if_pos ⟨rfl, rfl⟩, bay_endAttempt, bay_sensed]

/-- A first or second failure goes back to the queue with one attempt more (R50, R56). -/
theorem present_retry {r : Nat} {q : Req} (reading : Nat) (hw : q.withdraw = false) (ha : q.attempts < 2) :
    (((s.sensed r q.bay reading).confirmPresent r q).channel r).queue =
        insertBy Req.before { q with attempts := q.attempts + 1 } (s.channel r).queue ∧
      (((s.sensed r q.bay reading).confirmPresent r q).channel r).inFlight = none ∧
      (((s.sensed r q.bay reading).confirmPresent r q).bay r q.bay).state =
        (if (s.bay r q.bay).state = .leaving then .occupied else (s.bay r q.bay).state) ∧
      ∀ i x, q.kind = .program → q.record = some i → s.record i = some x → x.state = .programming →
        ((s.sensed r q.bay reading).confirmPresent r q).record i = some { x with state := .reserved } := by
  obtain ⟨h1, h2⟩ := channel_confirmed s r q.bay reading
  have hst := state_confirmed s r q.bay reading
  have hrec (i : Nat) : (s.confirmed r q.bay reading).record i = s.record i :=
    record_eq_of_records (frame_confirmed s r q.bay reading .records (by decide)) i
  have he : (s.sensed r q.bay reading).confirmPresent r q = (s.confirmed r q.bay reading).requeue r q :=
    confirmPresent_retry _ hw ha
  rw [he]
  generalize s.confirmed r q.bay reading = w at h1 h2 hst hrec
  have hscan : (w.requeue r q).scan = w.scan := frame_requeue w r q .scan (by decide)
  refine ⟨?_, ?_, ?_, fun i x hk hi hx hp => record_requeue w hk hi ((hrec i).trans hx) hp⟩
  · rw [channel_requeue, h2]
  · rw [channel_requeue, h1]
  · rw [bay_congr hscan, hst]

/-- A third failure of an IDENTIFY leaves its bay FAULT and posts BAY_FAULT (R60). -/
theorem present_fail_identify {r : Nat} {q : Req} (reading : Nat) (hw : q.withdraw = false) (ha : 2 ≤ q.attempts)
    (hk : q.kind = .identify) :
    (((s.sensed r q.bay reading).confirmPresent r q).bay r q.bay).state = .fault ∧
      (((s.sensed r q.bay reading).confirmPresent r q).bay r q.bay).debounce = 0 ∧
      ((s.sensed r q.bay reading).confirmPresent r q).ports = (s.post (.bayFault r q.bay)).ports ∧
      (((s.sensed r q.bay reading).confirmPresent r q).channel r).inFlight = none := by
  obtain ⟨h1, _⟩ := channel_confirmed s r q.bay reading
  have hports : (s.confirmed r q.bay reading).ports = s.ports := frame_confirmed s r q.bay reading .ports (by decide)
  have he : (s.sensed r q.bay reading).confirmPresent r q =
      ((s.confirmed r q.bay reading).moveBay r q.bay .fault).post (.bayFault r q.bay) :=
    (confirmPresent_fail _ hw ha).trans (failRequest_identify _ hk)
  rw [he]
  generalize s.confirmed r q.bay reading = w at h1 hports
  have hm := frame_moveBay w r q.bay .fault
  have hchan : (w.moveBay r q.bay .fault).chan = w.chan := hm .chan (by decide)
  have hmoved : (w.moveBay r q.bay .fault).ports = w.ports := hm .ports (by decide)
  have hbay : ((w.moveBay r q.bay .fault).post (.bayFault r q.bay)).bay r q.bay =
      { w.bay r q.bay with state := .fault, debounce := 0 } := by
    rw [bay_post, bay_moveBay, if_pos ⟨rfl, rfl⟩]
  refine ⟨by rw [hbay], by rw [hbay], ports_post_congr s (hmoved.trans hports) _, ?_⟩
  rw [channel_post, channel_congr hchan, h1]

/-! ## A transfer that ends failed (R63, R68, R115) -/

theorem loseBeforeHandout_cases (i : Nat) (dest : RecState) :
    s.loseBeforeHandout i dest = s.leaveLoan i dest .dropped ∨
      ∃ id, s.loseBeforeHandout i dest = (s.leaveLoan i dest .shortfall).fill id := by
  unfold State.loseBeforeHandout
  split
  · exact .inl rfl
  · split
    · split
      · exact .inr ⟨_, rfl⟩
      · exact .inl rfl
    · exact .inl rfl

/-- A record lost before its handout is out of its loan, and no refill takes it (R107, R115). -/
theorem record_loseBeforeHandout {i : Nat} {x : Record} {dest : RecState} (hx : s.record i = some x) (hd : dest ≠ .ready) :
    (s.loseBeforeHandout i dest).record i =
      some { x with state := dest, loan := none, programme := none, due := none, overdueFlag := false } := by
  have h (e : Term) := (record_leaveLoan s dest e hx i).trans (if_pos rfl)
  rcases loseBeforeHandout_cases s i dest with e | ⟨id, e⟩
  · rw [e, h]
  · rw [e]
    exact record_fill_of_not_ready _ id (h _) hd

theorem loseBeforeHandout_released {i : Nat} {x : Record} (dest : RecState) (hx : s.record i = some x)
    (hr : x.state = .released) : (s.loseBeforeHandout i dest).timer i = none ∧
      ∀ b, x.bay = some b → ((s.loseBeforeHandout i dest).bay b.rack b.bay).latchOpen = false := by
  rcases loseBeforeHandout_cases s i dest with e | ⟨id, e⟩
  · rw [e]
    exact leaveLoan_released s dest .dropped hx hr
  · obtain ⟨h1, h2⟩ := leaveLoan_released s dest .shortfall hx hr
    obtain ⟨ht, hb⟩ := holds_fill (s.leaveLoan i dest .shortfall) id
    rw [e]
    exact ⟨by rw [State.timer, ht]; exact h1, fun b hxb => by rw [hb]; exact h2 b hxb⟩

/-- The fault counted (R63). -/
def Record.faulted (x : Record) : Record := { x with faultCount := min 255 (x.faultCount + 1) }

theorem countFault_eq {i : Nat} {x : Record} (hx : s.record i = some x) :
    s.countFault i = (s.setRecord i (some x.faulted)).post (.receiverFault i) := by
  unfold State.countFault
  rw [modRecord_of_record s hx]
  rfl

theorem record_countFault {i : Nat} {x : Record} (hx : s.record i = some x) : (s.countFault i).record i = some x.faulted := by
  rw [countFault_eq s hx, record_post, record_setRecord, if_pos rfl]

theorem faultRecord_docked {i : Nat} {x : Record} (hx : s.record i = some x) (h : x.state = .docked ∨ x.state = .ready) :
    s.faultRecord i = (s.countFault i).setRecord i (some { x.faulted with state := .fault }) := by
  unfold State.faultRecord
  rw [hx, ← modRecord_of_record _ (record_countFault s hx) fun y => { y with state := .fault }]
  rcases h with h | h <;> simp only [h]

theorem faultRecord_lent {i : Nat} {x : Record} (hx : s.record i = some x)
    (h : x.state = .reserved ∨ x.state = .programming ∨ x.state = .released) : s.faultRecord i =
      State.settle s (((s.setRecord i (some x.faulted)).post (.receiverFault i)).loseBeforeHandout i .fault)
        x.loan.toList [] := by
  have hl : s.loanList i = x.loan.toList := by rw [State.loanList, loanOf_eq s hx]
  unfold State.faultRecord
  rw [hx, ← countFault_eq s hx, ← hl]
  rcases h with h | h | h <;> simp only [h]

theorem faultRecord_retired {i : Nat} {x : Record} (hx : s.record i = some x) (h : x.state = .retired) :
    s.faultRecord i = s.countFault i := by
  unfold State.faultRecord
  rw [hx]
  simp only [h]

theorem ports_countFault {i : Nat} {x : Record} (hx : s.record i = some x) :
    (s.countFault i).ports = (s.post (.receiverFault i)).ports := by
  rw [countFault_eq s hx]
  exact ports_post_congr s rfl _

theorem loseBeforeHandout_wanting {i id : Nat} {dest : RecState} {x : Record} {l : Loan} (hx : s.record i = some x)
    (hl : x.loan = some id) (hy : s.loan id = some l) (hw : l.wants = true) :
    s.loseBeforeHandout i dest = (s.leaveLoan i dest .shortfall).fill id := by
  unfold State.loseBeforeHandout
  rw [loanOf_eq s hx, hl]
  dsimp only
  rw [hy]
  exact if_pos hw

theorem loseBeforeHandout_settled {i id : Nat} {dest : RecState} {x : Record} {l : Loan} (hx : s.record i = some x)
    (hl : x.loan = some id) (hy : s.loan id = some l) (hw : l.wants = false) :
    s.loseBeforeHandout i dest = s.leaveLoan i dest .dropped := by
  unfold State.loseBeforeHandout
  rw [loanOf_eq s hx, hl]
  dsimp only
  rw [hy]
  exact if_neg (by rw [hw]; nofun)

/-- The statement's description of a faulted record: docked, lent before its handout, released, retired (R63, R68). -/
theorem faultRecord_spec {i : Nat} {x : Record} (hx : s.record i = some x) :
    (x.state = .docked ∨ x.state = .ready →
      (s.faultRecord i).record i = some { x.faulted with state := .fault } ∧
      (s.faultRecord i).ports = (s.post (.receiverFault i)).ports) ∧
    (x.state = .reserved ∨ x.state = .programming ∨ x.state = .released →
      (s.faultRecord i).record i = some { x.faulted with
        state := .fault, loan := none, programme := none, due := none, overdueFlag := false } ∧
      s.faultRecord i = State.settle s
        (((s.setRecord i (some x.faulted)).post (.receiverFault i)).loseBeforeHandout i .fault) x.loan.toList []) ∧
    (x.state = .released → (s.faultRecord i).timer i = none ∧
      ∀ p, x.bay = some p → ((s.faultRecord i).bay p.rack p.bay).latchOpen = false) ∧
    (x.state = .retired →
      (s.faultRecord i).record i = some x.faulted ∧ (s.faultRecord i).ports = (s.post (.receiverFault i)).ports) := by
  have hy : ((s.setRecord i (some x.faulted)).post (.receiverFault i)).record i = some x.faulted := by
    rw [record_post, record_setRecord, if_pos rfl]
  refine ⟨fun h => ?_, fun h => ⟨?_, faultRecord_lent s hx h⟩, fun h => ?_, fun h => ?_⟩
  · rw [faultRecord_docked s hx h]
    exact ⟨by rw [record_setRecord, if_pos rfl], ports_countFault s hx⟩
  · rw [faultRecord_lent s hx h]
    exact record_settle_of_not_ready _ s _ [] (record_loseBeforeHandout _ hy nofun) nofun
  · obtain ⟨h1, h2⟩ := loseBeforeHandout_released _ .fault hy h
    obtain ⟨ht, hb⟩ := holds_settle
      (((s.setRecord i (some x.faulted)).post (.receiverFault i)).loseBeforeHandout i .fault) s x.loan.toList []
    rw [faultRecord_lent s hx (.inr (.inr h))]
    exact ⟨by rw [State.timer, ht]; exact h1, fun p hp => by rw [hb]; exact h2 p hp⟩
  · rw [faultRecord_retired s hx h]
    exact ⟨record_countFault s hx, ports_countFault s hx⟩

/-- Settles O29: a confirming scan finds its request absent or present, and what follows is read off for each. -/
theorem confirmingScanDecidesTheRetry : Obligations.ConfirmingScanDecidesTheRetry := by
  refine ⟨fun s r reading q hh hr hq hc => ?_, fun s i x hx => ⟨_, rfl, faultRecord_spec s hx⟩,
    fun s i id dest x l hx hl hy => ⟨loseBeforeHandout_wanting s hx hl hy, loseBeforeHandout_settled s hx hl hy⟩⟩
  rcases Nat.lt_or_ge reading ((s.bay r q.bay).baseline + s.settings.senseThreshold / 2) with ha | hp
  · refine ⟨(s.sensed r q.bay reading).confirmAbsent r q, s.sensed r q.bay reading, rfl,
      fun _ => ⟨?_, absent_identify s reading, confirmAbsent_other _⟩, fun hp => absurd ha (Nat.not_lt.mpr hp)⟩
    exact (event_of_running s _ hh).trans (by rw [confirmingScan_absent hr hq hc ha])
  · refine ⟨(s.sensed r q.bay reading).confirmPresent r q, s.sensed r q.bay reading, rfl,
      fun ha => absurd ha (Nat.not_lt.mpr hp), fun _ => ⟨?_, present_retry s reading, fun hw ha =>
        ⟨present_fail_identify s reading hw ha, fun i hk hi => ?_⟩, fun hw i hi => confirmPresent_withdrawn _ hw hi⟩⟩
    · refine (event_of_running s _ hh).trans ?_
      simp only [confirmingScan_present hr hq hc hp, confirmRestages_iff]
    · rw [confirmPresent_fail _ hw ha, failRequest_other _ hk hi]

end Sys2Proof.Machine
end

