-- ==== Sys2Proof/Proofs/Binding.lean ====
section
/-! PROOFS. What an IDENTIFY binds (R5, R34, R57 to R59): the sides of a binding, what each kind of record found makes of
it, and the rack that the bay's change wakes. -/

namespace Sys2Proof.Machine

variable (s : State)

/-! ## The rack is woken (R34) -/

theorem woken_setBay {r : Nat} (k b : Nat) (y : Bay) (h : s.Woken r) : (s.setBay k b y).Woken r := by
  unfold State.Woken
  rw [scanner_setBay]
  split
  · rename_i e
    subst e
    exact h
  · exact h

theorem woken_moveBay (r b : Nat) (dest : BayState) : (s.moveBay r b dest).Woken r := woken_wake _ r

theorem woken_foreignBay (r b : Nat) (n : Notice) : (s.foreignBay r b n).Woken r :=
  woken_of_scan (s.moveBay r b .foreign) rfl (woken_moveBay s r b .foreign)

theorem woken_occupy (r b i : Nat) : (s.occupy r b i).Woken r := woken_setBay _ r b _ (woken_moveBay s r b .occupied)

/-! ## A bay goes FOREIGN (R5, R57, R58) -/

theorem bay_foreignBay (r b : Nat) (n : Notice) :
    (s.foreignBay r b n).bay r b = { s.bay r b with state := .foreign, debounce := 0 } := by
  rw [State.foreignBay, bay_post, bay_moveBay, if_pos ⟨rfl, rfl⟩]

theorem record_foreignBay (r b : Nat) (n : Notice) (i : Nat) : (s.foreignBay r b n).record i = s.record i :=
  record_eq_of_records (frame_moveBay s r b .foreign .records (by decide)) i

theorem ports_foreignBay (r b : Nat) (n : Notice) : (s.foreignBay r b n).ports = (s.post n).ports :=
  ports_post_congr s (frame_moveBay s r b .foreign .ports (by decide)) n

/-! ## A record is bound (R31, R58) -/

theorem frame_occupy (r b i : Nat) : s.ChangesOnly (s.occupy r b i) [.scan] :=
  (frame_moveBay s r b _).trans (frame_setBay _ r b _)

theorem bay_occupy (r b i : Nat) : (s.occupy r b i).bay r b =
    { s.bay r b with state := .occupied, debounce := 0, bound := some i } := by
  unfold State.occupy
  dsimp only
  rw [bay_setBay, if_pos ⟨rfl, rfl⟩, bay_moveBay, if_pos ⟨rfl, rfl⟩]

section
variable (r b i : Nat) (g : Generation) (v : Report) (x : Record)

theorem woken_bindDocked : (s.bindDocked r b i g v x).Woken r := woken_wake _ r

theorem frame_bindDocked : s.ChangesOnly (s.bindDocked r b i g v x) [.records, .scan, .chan] :=
  (((frame_setRecord s i _).mono (by decide)).trans ((frame_occupy _ r b i).mono (by decide))).trans
    ((frame_ask _ r b _ _ _).mono (by decide))

/-- A bound record is DOCKED with its usage to be read (R58). -/
theorem record_bindDocked (j : Nat) : (s.bindDocked r b i g v x).record j =
    if i = j then some { x.bound r b g v with state := .docked, usagePending := true } else s.record j := by
  unfold State.bindDocked
  rw [record_eq_of_records (frame_ask _ r b .readUsage (some i) none .records (by decide)),
    record_eq_of_records (frame_occupy _ r b i .records (by decide)), record_setRecord]

theorem bay_bindDocked : (s.bindDocked r b i g v x).bay r b =
    { s.bay r b with state := .occupied, debounce := 0, bound := some i } := by
  rw [State.bindDocked, bay_ask, bay_occupy, bay_congr (frame_setRecord s i _ .scan (by decide))]

/-- The READ_USAGE of a bound record is queued at its bay (R58). -/
theorem queue_bindDocked : ∃ p, p ∈ ((s.bindDocked r b i g v x).channel r).queue ∧ p.kind = .readUsage ∧ p.bay = b ∧
    p.record = some i ∧ p.attempts = 0 := by
  unfold State.bindDocked
  generalize State.occupy _ r b i = t
  refine ⟨t.fresh r b .readUsage (some i) none, ?_, rfl, rfl, rfl, rfl⟩
  rw [channel_ask, if_pos rfl]
  exact (mem_insertBy _ _ _ _).mpr (.inl rfl)

/-! ## A record comes back from its loan (R59) -/

/-- The record on loan i, out of its loan and bound DOCKED, before the tests and offers of a removal. -/
def State.broughtBack (s : State) (r b i : Nat) (g : Generation) (v : Report) (x : Record) : State :=
  (s.leaveLoan i .docked .returned).bindDocked r b i g v
    { x with state := .docked, loan := none, programme := none, due := none, overdueFlag := false, backFromLoan := true }

variable {i x}

theorem bindReturned_eq (hx : s.record i = some x) :
    s.bindReturned r b i g v = State.settle s (s.broughtBack r b i g v x) x.loan.toList [] := by
  unfold State.bindReturned
  dsimp only
  rw [record_leaveLoan s _ _ hx, if_pos rfl, State.loanList, loanOf_eq s hx]
  rfl

/-- What every bound record holds that comes back from a loan (R59). -/
def Record.broughtBack (x : Record) (r b : Nat) (g : Generation) (v : Report) : Record :=
  { x.bound r b g v with
    state := .docked, usagePending := true, backFromLoan := true, loan := none, programme := none, due := none
    overdueFlag := false }

theorem record_broughtBack (hx : s.record i = some x) (j : Nat) : (s.broughtBack r b i g v x).record j =
    if i = j then some (x.broughtBack r b g v) else s.record j := by
  rw [State.broughtBack, record_bindDocked, record_leaveLoan s _ _ hx]
  split
  · rfl
  · rfl

theorem record_bindReturned (hx : s.record i = some x) :
    (s.bindReturned r b i g v).record i = some (x.broughtBack r b g v) := by
  rw [bindReturned_eq s r b g v hx]
  exact record_settle_of_not_ready _ s _ [] ((record_broughtBack s r b g v hx i).trans (if_pos rfl)) nofun

theorem bay_bindReturned (hx : s.record i = some x) : ((s.bindReturned r b i g v).bay r b).state = .occupied ∧
    ((s.bindReturned r b i g v).bay r b).bound = some i := by
  have hb : (s.bindReturned r b i g v).bay r b = (s.broughtBack r b i g v x).bay r b := by
    rw [bindReturned_eq s r b g v hx]
    exact (holds_settle (s.broughtBack r b i g v x) s x.loan.toList []).2 r b
  rw [hb, State.broughtBack, bay_bindDocked]
  exact ⟨rfl, rfl⟩

theorem woken_bindReturned (hx : s.record i = some x) : (s.bindReturned r b i g v).Woken r := by
  rw [bindReturned_eq s r b g v hx]
  exact woken_settle _ s _ [] (woken_bindDocked _ r b i g v _)

/-- A return counts once: its loan one returned, its programme one listener less (R59, R102, R109). -/
theorem broughtBack_counts {id p : Nat} {y : Loan} (hx : s.record i = some x) (hl : x.loan = some id)
    (hy : s.loan id = some y) (hp : x.programme = some p) (hs : x.state.listening = true) :
    (s.broughtBack r b i g v x).loan id =
        some { y with outstanding := y.outstanding.filter (· != i), returned := y.returned + 1 } ∧
      (∀ k, k ≠ id → (s.broughtBack r b i g v x).loan k = s.loan k) ∧
      (s.broughtBack r b i g v x).loans.wanting = s.loans.wanting ∧
      ((s.broughtBack r b i g v x).programme p).listeners = (s.programme p).listeners - 1 ∧
      ∀ k, k ≠ p → (s.broughtBack r b i g v x).programme k = s.programme k := by
  obtain ⟨h1, h2, h3, h4, h5, _⟩ := leaveLoan_counts s (dest := .docked) (e := .returned) hx hl hp hy
  unfold State.broughtBack
  generalize s.leaveLoan i .docked .returned = w at h1 h2 h3 h4 h5
  generalize hz : { x with
    state := .docked, loan := none, programme := none, due := none, overdueFlag := false, backFromLoan := true } = z
  have hf := frame_bindDocked w r b i g v z
  have hloans : (w.bindDocked r b i g v z).loans = w.loans := hf .loans (by decide)
  have htours : (w.bindDocked r b i g v z).tours = w.tours := hf .tours (by decide)
  refine ⟨?_, fun k hk => ?_, ?_, ?_, fun k hk => ?_⟩
  · rw [loan_congr hloans, h1]
    rfl
  · rw [loan_congr hloans, h2 k hk]
  · rw [hloans, h3]
  · rw [programme_congr htours, h4, if_pos hs]
  · rw [programme_congr htours, h5 k hk]

/-! ## The record an IDENTIFY finds, by its state (R58, R59) -/

theorem bindFound_bound (h : x.bay ≠ none) : s.bindFound r b i g v x = s.foreignBay r b (.foreign r b) := by
  unfold State.bindFound
  rw [if_pos (Option.isSome_iff_ne_none.mpr h)]

theorem bindFound_absent (h : x.bay = none) (hs : x.state = .absent) :
    s.bindFound r b i g v x = s.bindDocked r b i g v x := by
  unfold State.bindFound
  rw [h, hs]
  rfl

theorem bindFound_lent (h : x.bay = none) (hs : x.state = .onLoan ∨ x.state = .overdue ∨ x.state = .missing) :
    s.bindFound r b i g v x = s.bindReturned r b i g v := by
  unfold State.bindFound
  rw [h]
  rcases hs with hs | hs | hs <;> rw [hs] <;> rfl

theorem bindFound_retired (h : x.bay = none) (hs : x.state = .retired) :
    s.bindFound r b i g v x = (s.setRecord i (some (x.bound r b g v))).occupy r b i := by
  unfold State.bindFound
  rw [h, hs]
  rfl

theorem woken_bindFound (hx : s.record i = some x) : (s.bindFound r b i g v x).Woken r := by
  unfold State.bindFound
  split
  · exact woken_foreignBay s r b _
  · split
    · exact woken_bindDocked s r b i g v x
    · exact woken_bindReturned s r b g v hx
    · exact woken_bindReturned s r b g v hx
    · exact woken_bindReturned s r b g v hx
    · exact woken_occupy _ r b i
    · exact woken_foreignBay s r b _

end

/-! ## The report (R5, R57, R58) -/

section
variable {r : Nat} {q : Req} {v : Report}

theorem identified_bad (h : v.rid = 0 ∨ v.firmware = 0 ∨ generationOf v.generation = none) :
    s.identified r q v = (s.endAttempt r).foreignBay r q.bay (.foreign r q.bay) := by
  unfold State.identified
  dsimp only
  split
  · rfl
  · rename_i g hg
    exact if_pos (h.imp_right fun h => h.resolve_right (by rw [hg]; nofun))

variable {g : Generation} (hg : generationOf v.generation = some g) (h0 : v.rid ≠ 0) (hf : v.firmware ≠ 0)
include hg h0 hf

theorem identified_full (hi : s.indexOfRid v.rid = none) (hn : s.freePosition = none) :
    s.identified r q v = (s.endAttempt r).foreignBay r q.bay (.fleetFull r q.bay) := by
  have h1 : (s.endAttempt r).indexOfRid v.rid = none := hi
  have h2 : (s.endAttempt r).freePosition = none := hn
  unfold State.identified
  dsimp only
  rw [hg]
  dsimp only
  rw [if_neg (not_or.mpr ⟨h0, hf⟩), h1, h2]

theorem identified_new {i : Nat} (hi : s.indexOfRid v.rid = none) (hn : s.freePosition = some i) :
    s.identified r q v = (s.endAttempt r).bindDocked r q.bay i g v (newRecord v.rid g) := by
  have h1 : (s.endAttempt r).indexOfRid v.rid = none := hi
  have h2 : (s.endAttempt r).freePosition = some i := hn
  unfold State.identified
  dsimp only
  rw [hg]
  dsimp only
  rw [if_neg (not_or.mpr ⟨h0, hf⟩), h1, h2]

theorem identified_known {i : Nat} {x : Record} (hi : s.indexOfRid v.rid = some i) (hx : s.record i = some x) :
    s.identified r q v = (s.endAttempt r).bindFound r q.bay i g v x := by
  have h1 : (s.endAttempt r).indexOfRid v.rid = some i := hi
  have h2 : (s.endAttempt r).record i = some x := hx
  unfold State.identified
  dsimp only
  rw [hg]
  dsimp only
  rw [if_neg (not_or.mpr ⟨h0, hf⟩), h1]
  dsimp only
  rw [h2]

end

theorem record_of_indexOfRid {rid i : Nat} (h : s.indexOfRid rid = some i) : ∃ x, s.record i = some x := by
  have hi := List.find?_some h
  cases hx : s.record i with
  | none => simp [hx] at hi
  | some x => exact ⟨x, rfl⟩

/-- Every end of an IDENTIFY changes the bay's state and so wakes the rack (R34). -/
theorem woken_identified (r : Nat) (q : Req) (v : Report) : (s.identified r q v).Woken r := by
  by_cases hb : v.rid = 0 ∨ v.firmware = 0 ∨ generationOf v.generation = none
  · rw [identified_bad s hb]
    exact woken_foreignBay _ r q.bay _
  · obtain ⟨h0, hb⟩ := not_or.mp hb
    obtain ⟨hf, hg⟩ := not_or.mp hb
    obtain ⟨g, hg⟩ := Option.ne_none_iff_exists'.mp hg
    cases hi : s.indexOfRid v.rid with
    | some i =>
      obtain ⟨x, hx⟩ := record_of_indexOfRid s hi
      rw [identified_known s hg h0 hf hi hx]
      exact woken_bindFound _ r q.bay g v ((record_endAttempt s r i).trans hx)
    | none =>
      cases hn : s.freePosition with
      | none =>
        rw [identified_full s hg h0 hf hi hn]
        exact woken_foreignBay _ r q.bay _
      | some i =>
        rw [identified_new s hg h0 hf hi hn]
        exact woken_bindDocked _ r q.bay i g v _

/-- A bay made FOREIGN at the end of an attempt changes no record and posts its one notice. -/
theorem foreign_endAttempt (r b : Nat) (n : Notice) :
    (((s.endAttempt r).foreignBay r b n).bay r b).state = .foreign ∧
      (((s.endAttempt r).foreignBay r b n).bay r b).debounce = 0 ∧
      (∀ i, ((s.endAttempt r).foreignBay r b n).record i = s.record i) ∧
      ((s.endAttempt r).foreignBay r b n).ports = (s.post n).ports := by
  have hp : (s.endAttempt r).ports = s.ports := frame_endAttempt s r .ports (by decide)
  refine ⟨by rw [bay_foreignBay], by rw [bay_foreignBay], fun i => ?_, ?_⟩
  · rw [record_foreignBay, record_endAttempt]
  · rw [ports_foreignBay, ports_post_congr s hp]

theorem foreign_bound {r b i : Nat} {g : Generation} {v : Report} {x : Record} (h : x.bay ≠ none) :
    (((s.endAttempt r).bindFound r b i g v x).bay r b).state = .foreign ∧
      (∀ j, ((s.endAttempt r).bindFound r b i g v x).record j = s.record j) ∧
      ((s.endAttempt r).bindFound r b i g v x).ports = (s.post (.foreign r b)).ports := by
  rw [bindFound_bound _ r b g v h]
  obtain ⟨h1, _, h3, h4⟩ := foreign_endAttempt s r b (.foreign r b)
  exact ⟨h1, h3, h4⟩

/-! ## The bindings at the end of an attempt -/

section
variable {r b i : Nat} {g : Generation} {v : Report} {x : Record}

theorem bound_new : ((s.endAttempt r).bindDocked r b i g v x).record i =
      some { x.bound r b g v with state := .docked, usagePending := true } ∧
    (((s.endAttempt r).bindDocked r b i g v x).bay r b).state = .occupied ∧
    (((s.endAttempt r).bindDocked r b i g v x).bay r b).bound = some i := by
  rw [record_bindDocked, if_pos rfl, bay_bindDocked]
  exact ⟨rfl, rfl, rfl⟩

theorem bound_absent (h : x.bay = none) (hs : x.state = .absent) :
    ((s.endAttempt r).bindFound r b i g v x).record i =
        some { x.bound r b g v with state := .docked, usagePending := true } ∧
      (((s.endAttempt r).bindFound r b i g v x).bay r b).state = .occupied ∧
      (((s.endAttempt r).bindFound r b i g v x).bay r b).bound = some i ∧
      s.loans = ((s.endAttempt r).bindFound r b i g v x).loans ∧
      ∃ p, p ∈ (((s.endAttempt r).bindFound r b i g v x).channel r).queue ∧ p.kind = .readUsage ∧ p.bay = b ∧
        p.record = some i ∧ p.attempts = 0 := by
  rw [bindFound_absent _ r b g v h hs]
  obtain ⟨h1, h2, h3⟩ := bound_new s (r := r) (b := b) (i := i) (g := g) (v := v) (x := x)
  have hl : ((s.endAttempt r).bindDocked r b i g v x).loans = s.loans :=
    frame_bindDocked (s.endAttempt r) r b i g v x .loans (by decide)
  exact ⟨h1, h2, h3, hl.symm, queue_bindDocked _ r b i g v x⟩

theorem bound_retired (h : x.bay = none) (hs : x.state = .retired) :
    ((s.endAttempt r).bindFound r b i g v x).record i = some (x.bound r b g v) ∧
      (((s.endAttempt r).bindFound r b i g v x).bay r b).state = .occupied ∧
      (((s.endAttempt r).bindFound r b i g v x).bay r b).bound = some i ∧
      s.loans = ((s.endAttempt r).bindFound r b i g v x).loans := by
  rw [bindFound_retired _ r b g v h hs]
  generalize hw : (s.endAttempt r).setRecord i (some (x.bound r b g v)) = w
  have hl : w.loans = s.loans := by rw [← hw]; rfl
  have ho : (w.occupy r b i).loans = w.loans := frame_occupy w r b i .loans (by decide)
  refine ⟨?_, by rw [bay_occupy], by rw [bay_occupy], by rw [ho, hl]⟩
  rw [record_eq_of_records (frame_occupy w r b i .records (by decide)), ← hw, record_setRecord, if_pos rfl]

/-- A record on loan is a return (R59, R102, R109). -/
theorem bound_lent (hx : s.record i = some x) (h : x.bay = none)
    (hs : x.state = .onLoan ∨ x.state = .overdue ∨ x.state = .missing) :
    ((s.endAttempt r).bindFound r b i g v x).record i = some (x.broughtBack r b g v) ∧
      (((s.endAttempt r).bindFound r b i g v x).bay r b).state = .occupied ∧
      (((s.endAttempt r).bindFound r b i g v x).bay r b).bound = some i ∧
      ∀ id y p, x.loan = some id → s.loan id = some y → x.programme = some p →
        ∃ w : State, (s.endAttempt r).bindFound r b i g v x = State.settle s w [id] [] ∧
          w.record i = ((s.endAttempt r).bindFound r b i g v x).record i ∧
          (∀ j, j ≠ i → w.record j = s.record j) ∧
          w.loan id = some { y with outstanding := y.outstanding.filter (· != i), returned := y.returned + 1 } ∧
          (∀ k, k ≠ id → w.loan k = s.loan k) ∧ w.loans.wanting = s.loans.wanting ∧
          (w.programme p).listeners = (s.programme p).listeners - 1 ∧
          (∀ k, k ≠ p → w.programme k = s.programme k) ∧
          ∃ a, a ∈ (w.channel r).queue ∧ a.kind = .readUsage ∧ a.bay = b ∧ a.record = some i ∧ a.attempts = 0 := by
  have hx1 : (s.endAttempt r).record i = some x := (record_endAttempt s r i).trans hx
  rw [bindFound_lent _ r b g v h hs]
  have hrec := record_bindReturned (s.endAttempt r) r b g v hx1
  obtain ⟨h2, h3⟩ := bay_bindReturned (s.endAttempt r) r b g v hx1
  refine ⟨hrec, h2, h3, fun id y p hl hy hp => ⟨(s.endAttempt r).broughtBack r b i g v x, ?_, ?_, fun j hj => ?_, ?_⟩⟩
  · rw [bindReturned_eq _ r b g v hx1, hl]
    exact settle_congr _ rfl [id] []
  · rw [hrec, record_broughtBack _ r b g v hx1, if_pos rfl]
  · rw [record_broughtBack _ r b g v hx1, if_neg (Ne.symm hj), record_endAttempt]
  · obtain ⟨h4, h5, h6, h7, h8⟩ := broughtBack_counts (s.endAttempt r) r b g v hx1 hl hy hp
      ((listening_iff _).mpr (.inr hs))
    exact ⟨h4, h5, h6, h7, h8, queue_bindDocked _ r b i g v _⟩

end

/-- Settles O30: the report is bad, its ID unknown, or known to a record whose state says what the binding makes of it. -/
theorem identifyBindsByReceiverId : Obligations.IdentifyBindsByReceiverId := by
  intro s r rid code soc firmware thermal q hh hr hq hk hc
  have hcm := hk ▸ completing_eq s hr hq hc
  obtain ⟨hhot, hquiet⟩ := woken_identified s r q ⟨rid, code, thermal, soc, firmware⟩
  refine ⟨s.identified r q ⟨rid, code, thermal, soc, firmware⟩, ?_, hhot, hquiet, fun hb => ?_,
    fun g hg h0 hf => ⟨fun hu => ⟨fun i hn => ?_, fun hn => ?_⟩, fun i x hu hx hrid => ?_⟩⟩
  · refine (event_of_running s _ hh).trans ?_
    rw [State.identifyCompletion, hcm]
  · rw [identified_bad s hb]
    exact foreign_endAttempt s r q.bay _
  · rw [identified_new s hg h0 hf ((indexOfRid_eq_none s rid).mpr hu) hn]
    obtain ⟨h1, h2, h3⟩ := bound_new s (r := r) (b := q.bay) (i := i) (g := g)
      (v := ⟨rid, code, thermal, soc, firmware⟩) (x := newRecord rid g)
    obtain ⟨p, hp, hpk, hpb, hpr, _⟩ := queue_bindDocked (s.endAttempt r) r q.bay i g
      ⟨rid, code, thermal, soc, firmware⟩ (newRecord rid g)
    exact ⟨h1, h2, h3, p, hp, hpk, hpb, hpr⟩
  · rw [identified_full s hg h0 hf ((indexOfRid_eq_none s rid).mpr hu) hn]
    obtain ⟨h1, _, h3, h4⟩ := foreign_endAttempt s r q.bay (.fleetFull r q.bay)
    exact ⟨h1, h3, h4⟩
  · subst hrid
    rw [identified_known s hg h0 hf (indexOfRid_eq_some s hu hx) hx]
    exact ⟨foreign_bound s, bound_absent s, bound_lent s hx, bound_retired s⟩

end Sys2Proof.Machine
end

