-- ==== Sys2Proof/Proofs/Words.lean ====
section
/-! PROOFS. The last word of a transfer (R53, R55, R190): what it is checked against, and what its crossing leaves where
the check fails and where it holds. -/

namespace Sys2Proof.Machine

/-! ## A table written twice at one key -/

theorem Table.erase_erase {α : Type} (t : Table α) (k : Nat) : Table.erase (Table.erase t k) k = Table.erase t k := by
  induction t with
  | nil => rfl
  | cons e t ih =>
    by_cases h : e.1 = k
    · simp [Table.erase, h, ih]
    · simp [Table.erase, h, ih]

theorem Table.erase_insert {α : Type} (t : Table α) (k : Nat) (v : α) :
    Table.erase (Table.insert t k v) k = Table.erase t k := by
  induction t with
  | nil => simp [Table.insert, Table.erase]
  | cons e t ih =>
    unfold Table.insert
    split
    · simp [Table.erase]
    · by_cases h : e.1 = k
      · simp [Table.erase, h, ih]
      · simp [Table.erase, h, ih]

theorem Table.erase_write {α : Type} [DecidableEq α] (d : Nat → α) (t : Table α) (k : Nat) (v : α) :
    Table.erase (Table.write d t k v) k = Table.erase t k := by
  unfold Table.write
  split
  · exact Table.erase_erase t k
  · rw [Table.erase_insert, Table.erase_erase]

/-- The later of two writes at one key stands. -/
theorem Table.write_write {α : Type} [DecidableEq α] (d : Nat → α) (t : Table α) (k : Nat) (v w : α) :
    Table.write d (Table.write d t k v) k w = Table.write d t k w := by
  rw [Table.write, Table.erase_write]
  rfl

variable (s : State)

theorem setChannel_setChannel (r : Nat) (v w : Channel) : (s.setChannel r v).setChannel r w = s.setChannel r w := by
  simp only [State.setChannel, Table.write_write]

/-! ## The channel at its last word (R53 to R55) -/

section
variable {c : Channel} {k : Kind} {word : Nat}

/-- A word that the receiver drives has its own value, in BYTE width too once its low byte is held (R54). -/
theorem crossed_driven_by_receiver (hd : c.driven = none) (hw : c.width = .word ∨ c.lowByte = some (word % 256)) :
    c.crossed word = some word := by
  have hbytes : 256 * (word / 256) + word % 256 = word := Nat.div_add_mod word 256
  unfold Channel.crossed
  cases h : c.width with
  | word => simp [hd]
  | byte =>
    have hl : c.lowByte = some (word % 256) := hw.resolve_left (by rw [h]; nofun)
    simp [hl, hd, hbytes]

/-- With one word remaining that is no count word, none remains after it (R53). -/
theorem wordsRemaining_took_last (h1 : c.wordsRemaining = 1) (hn : k = .readUsage → c.words ≠ []) :
    (c.took k word).wordsRemaining = 0 := by
  have hcount : ¬(k = .readUsage ∧ c.words = [] ∧ word ≤ 48) := fun ⟨hk, he, _⟩ => hn hk he
  simp [Channel.took, h1, hcount]

/-- The last word fails where it is not the acknowledge of a PROGRAM, or not the check of another kind (R55). -/
theorem wordFails_last (h1 : c.wordsRemaining = 1) (hn : k = .readUsage → c.words ≠ []) : c.wordFails k word = true ↔
    (k = .program ∧ c.formed.getLast? ≠ some word) ∨ (k ≠ .program ∧ c.words.sum % 65536 ≠ word) := by
  have h0 := wordsRemaining_took_last (word := word) h1 hn
  unfold Channel.wordFails
  cases k with
  | program => simp [h0]
  | identify => simp [h0, checkWord]
  | readUsage => simp [h0, checkWord, hn rfl]
  | gauge => simp [h0, checkWord]

end

/-! ## The crossing of the last word (R53, R55, R190; log 4) -/

section
variable {s} {r word : Nat} {q : Req} (hr : r < 4) (hq : (s.channel r).inFlight = some q)
  (hc : (s.channel r).confirming = false)
include hr hq hc

theorem wordCrossed_eq (hw : (s.channel r).crossed word = some word) : s.wordCrossed r word =
    if (s.channel r).wordFails q.kind word then (s.setChannel r ((s.channel r).took q.kind word)).failAttempt r
    else if ((s.channel r).took q.kind word).wordsRemaining = 0 then
      s.complete r q ((s.channel r).took q.kind word).words
    else s.setChannel r ((s.channel r).took q.kind word) := by
  have he : (s.channel r).exchanging = true := by simp [Channel.exchanging, hq, hc]
  unfold State.wordCrossed
  dsimp only
  rw [hq, hw]
  dsimp only
  rw [decide_eq_true hr, he]
  rfl

variable (hd : (s.channel r).driven = none)
  (hw : (s.channel r).width = .word ∨ (s.channel r).lowByte = some (word % 256)) (h1 : (s.channel r).wordsRemaining = 1)
  (hn : q.kind = .readUsage → (s.channel r).words ≠ [])
include hd hw h1 hn

/-- The check holds: the crossing takes the completion, with the words taken. -/
theorem wordCrossed_completes (hok : (s.channel r).wordFails q.kind word = false) :
    s.wordCrossed r word = s.complete r q ((s.channel r).words ++ [word]) := by
  rw [wordCrossed_eq hr hq hc (crossed_driven_by_receiver hd hw), if_neg (by rw [hok]; nofun),
    if_pos (wordsRemaining_took_last h1 hn)]
  rfl

/-- The check of a READ_USAGE, an IDENTIFY or a GAUGE holds. -/
theorem wordCrossed_checked (hk : q.kind ≠ .program) (hok : word = (s.channel r).words.sum % 65536) :
    s.wordCrossed r word = s.complete r q ((s.channel r).words ++ [word]) := by
  refine wordCrossed_completes hr hq hc hd hw h1 hn (Bool.eq_false_iff.mpr fun hf => ?_)
  rcases (wordFails_last h1 hn).mp hf with ⟨hp, _⟩ | ⟨_, hne⟩
  · exact hk hp
  · exact hne hok.symm

/-- The acknowledge of a PROGRAM is the check written. -/
theorem wordCrossed_acknowledged (hk : q.kind = .program) (hok : (s.channel r).formed.getLast? = some word) :
    s.wordCrossed r word = s.complete r q ((s.channel r).words ++ [word]) := by
  refine wordCrossed_completes hr hq hc hd hw h1 hn (Bool.eq_false_iff.mpr fun hf => ?_)
  rcases (wordFails_last h1 hn).mp hf with ⟨_, hne⟩ | ⟨hp, _⟩
  · exact hne hok
  · exact hp hk

/-- The check fails: the word has crossed, and the attempt ends failed with the channel still at its bay (R55, R56). -/
theorem wordCrossed_fails (hf : (s.channel r).wordFails q.kind word = true) : s.wordCrossed r word =
    s.setChannel r { s.channel r with
      words := [], lowByte := none, wordElapsed := 0, wordsRemaining := 0, confirming := true
      width := ((s.channel r).took q.kind word).width } := by
  have h0 := wordsRemaining_took_last (word := word) h1 hn
  rw [wordCrossed_eq hr hq hc (crossed_driven_by_receiver hd hw), if_pos hf, State.failAttempt, channel_setChannel,
    if_pos rfl, setChannel_setChannel]
  dsimp only
  rw [h0]
  rfl

end

/-! ## The completion that the words spell (R190; log 4) -/

section
variable {s} {r : Nat} {q : Req} (hcm : s.completing r q.kind = some q)
include hcm

theorem complete_identify (hk : q.kind = .identify) (lo hi g soc firmware check : Nat) :
    s.complete r q [lo, hi, g, soc, firmware, check] =
      s.identifyCompletion r ⟨lo + 65536 * hi, g % 256, g.testBit 8, soc, firmware⟩ := by
  rw [hk] at hcm
  rw [State.complete, State.identifyCompletion, hk, hcm]
  rfl

theorem complete_gauge (hk : q.kind = .gauge) (soc flags check : Nat) :
    s.complete r q [soc, flags, check] = s.gaugeCompletion r soc (flags.testBit 0) (flags.testBit 1) := by
  rw [hk] at hcm
  rw [State.complete, State.gaugeCompletion, hk, hcm]
  rfl

theorem complete_readUsage (hk : q.kind = .readUsage) (n check : Nat) (entries : List Nat) :
    s.complete r q (n :: entries ++ [check]) = s.readUsageCompletion r (entries.map (· % 1024)) := by
  rw [hk] at hcm
  rw [State.complete, State.readUsageCompletion, hk, hcm]
  simp

theorem complete_program (hk : q.kind = .program) (ws : List Nat) : s.complete r q ws = s.programCompletion r := by
  rw [hk] at hcm
  rw [State.complete, State.programCompletion, hk, hcm]

end

/-- A word that has not crossed within its time fails the attempt (R53, R56). -/
theorem wordTimeout_due {r : Nat} {q : Req} (hr : r < 4) (hq : (s.channel r).inFlight = some q)
    (hc : (s.channel r).confirming = false) (ht : 25600 ≤ (s.channel r).wordElapsed) :
    s.wordTimeout r = s.failAttempt r := by
  have hdue : (s.channel r).wordDue = true := by simp [Channel.wordDue, Channel.exchanging, hq, hc, wordTicks, ht]
  unfold State.wordTimeout
  rw [decide_eq_true hr, hdue]
  rfl

/-- Settles O28: the last word either passes its check, and the words taken spell the completion, or it fails. -/
theorem lastWordIsChecked : Obligations.LastWordIsChecked := by
  refine ⟨?_, fun s r q hh hr hq hc ht => (event_of_running s _ hh).trans (by rw [wordTimeout_due s hr hq hc ht]; rfl)⟩
  rintro s r word q c hh hr rfl hq hc - hd hw h1
  have hcm := completing_eq s hr hq hc
  have checked := wordCrossed_checked (word := word) hr hq hc hd hw h1
  refine ⟨fun lo hi g soc firmware hk hws hok => ?_, fun soc flags hk hws hok => ?_, fun n entries hk hws hok => ?_,
    fun hk hok => ?_, fun hbad => ?_⟩
  · have hsum : word = (s.channel r).words.sum % 65536 := by rw [hok, hws]; simp [Nat.add_assoc]
    refine congrArg s.event ?_
    rw [checked (by rw [hk]; nofun) (by rw [hk]; nofun) hsum, hws]
    exact complete_identify hcm hk lo hi g soc firmware word
  · have hsum : word = (s.channel r).words.sum % 65536 := by rw [hok, hws]; simp
    refine congrArg s.event ?_
    rw [checked (by rw [hk]; nofun) (by rw [hk]; nofun) hsum, hws]
    exact complete_gauge hcm hk soc flags word
  · have hsum : word = (s.channel r).words.sum % 65536 := by rw [hok, hws, List.sum_cons]
    refine congrArg s.event ?_
    rw [checked (fun _ => by rw [hws]; nofun) (by rw [hk]; nofun) hsum, hws]
    exact complete_readUsage hcm hk n word entries
  · refine congrArg s.event ?_
    rw [wordCrossed_acknowledged hr hq hc hd hw h1 (by rw [hk]; nofun) hk hok]
    exact complete_program hcm hk _
  · have hn : q.kind = .readUsage → (s.channel r).words ≠ [] := fun hk =>
      hbad.elim (fun ⟨hp, _⟩ => absurd (hk.symm.trans hp) nofun) fun ⟨_, hne, _⟩ => hne
    have hfail := (wordFails_last h1 hn).mpr (hbad.imp_right fun ⟨hp, _, hne⟩ => ⟨hp, hne⟩)
    refine (event_of_running s _ hh).trans ?_
    rw [wordCrossed_fails hr hq hc hd hw h1 hn hfail]
    rfl

end Sys2Proof.Machine
end

