-- ==== Sys2Proof/Proofs/Joining.lean ====
section
/-! PROOFS. A record joins a loan (R108, R113): the two tables written, its PROGRAM queued (R49), and a loan so filled
out of the wanting queue. Then the loan that an offer goes to (R114). -/

namespace Sys2Proof.Machine

variable (s : State)

/-! ## The PROGRAM of a record that a loan has taken (R49) -/

section
variable {i : Nat} {x : Record} {p : BayPos} (hx : s.record i = some x) (hp : x.bay = some p)
include hx hp

theorem queuedAt_askProgram (hf : s.inFlightAt p.rack p.bay = none) : (s.askProgram i).queuedAt p.rack p.bay =
    some ((s.removeQueued p.rack p.bay).fresh p.rack p.bay .program (some i) x.loan) := by
  rw [askProgram_idle s hx hp hf, State.queuedAt, channel_ask, if_pos rfl]
  refine find?_insertBy _ _ _ _ (by simp [State.fresh]) fun q hq => ?_
  rw [channel_removeQueued, if_pos rfl] at hq
  simpa using (List.mem_filter.mp hq).2

theorem askProgram_busy (hf : s.inFlightAt p.rack p.bay ≠ none) : s.askProgram i = s := by
  unfold State.askProgram
  rw [hx]
  dsimp only
  rw [hp]
  exact if_pos (Option.isSome_iff_ne_none.mpr hf)

end

/-! ## A record joins a loan (R108) -/

/-- A record that a loan has taken (R108). -/
def Record.takenBy (x : Record) (id : Nat) (l : Loan) : Record :=
  { x with state := .reserved, loan := some id, programme := some l.programme, due := some l.due }

/-- A loan that has taken a record (R108). -/
def Loan.taking (l : Loan) (i : Nat) : Loan :=
  { l with outstanding := l.outstanding ++ [i], shortfall := l.shortfall - 1 }

/-- The record and the loan written, before the PROGRAM and the wanting queue. -/
def State.paired (s : State) (id i : Nat) (l : Loan) (x : Record) : State :=
  (s.setRecord i (some (x.takenBy id l))).setLoan id (some (l.taking i))

section
variable {s} {id i : Nat} {l : Loan} {x : Record} (hl : s.loan id = some l) (hx : s.record i = some x)

theorem record_paired (j : Nat) :
    (s.paired id i l x).record j = if i = j then some (x.takenBy id l) else s.record j := by
  rw [State.paired, record_setLoan, record_setRecord]

theorem loan_paired (k : Nat) : (s.paired id i l x).loan k = if id = k then some (l.taking i) else s.loan k := by
  rw [State.paired, loan_setLoan, loan_setRecord]

theorem wanting_askProgram (t : State) (i : Nat) : (t.askProgram i).loans.wanting = t.loans.wanting :=
  congrArg Loans.wanting (frame_askProgram t i .loans (by decide))

include hl hx

/-- A loan filled by the record leaves the wanting queue with LOAN_FILLED (R113). -/
theorem joinLoan_fills (h : l.shortfall ≤ 1 ∧ id ∈ s.loans.wanting) : s.joinLoan id i =
    (((s.paired id i l x).askProgram i).setWanting (s.loans.wanting.filter (· != id))).post (.loanFilled id) := by
  unfold State.joinLoan
  rw [hl]
  dsimp only
  rw [modRecord_of_record s hx, if_pos h, wanting_askProgram]
  rfl

theorem joinLoan_leaves_wanting (h : ¬(l.shortfall ≤ 1 ∧ id ∈ s.loans.wanting)) :
    s.joinLoan id i = (s.paired id i l x).askProgram i := by
  unfold State.joinLoan
  rw [hl]
  dsimp only
  rw [modRecord_of_record s hx]
  exact if_neg h

/-- Whether it fills the loan or not, a joining is the pairing and the PROGRAM but for the wanting queue and its
notice. -/
theorem joinLoan_paired :
    ((s.paired id i l x).askProgram i).ChangesOnly (s.joinLoan id i) [.loans, .ports] ∧
    (s.joinLoan id i).loans.loans = (s.paired id i l x).loans.loans ∧
    (s.joinLoan id i).loans.timers = s.loans.timers := by
  have ha : ((s.paired id i l x).askProgram i).loans = (s.paired id i l x).loans :=
    frame_askProgram _ i .loans (by decide)
  have hloans : ((s.paired id i l x).askProgram i).loans.loans = (s.paired id i l x).loans.loans := by rw [ha]
  have htimers : ((s.paired id i l x).askProgram i).loans.timers = s.loans.timers := by rw [ha]; rfl
  by_cases h : l.shortfall ≤ 1 ∧ id ∈ s.loans.wanting
  · rw [joinLoan_fills hl hx h]
    exact ⟨((frame_setWanting _ _).mono (by decide)).trans ((frame_post _ _).mono (by decide)), hloans, htimers⟩
  · rw [joinLoan_leaves_wanting hl hx h]
    exact ⟨.refl _ _, hloans, htimers⟩

theorem record_joinLoan_taken : (s.joinLoan id i).record i = some (x.takenBy id l) := by
  obtain ⟨hf, -⟩ := joinLoan_paired hl hx
  rw [record_eq_of_records (hf .records (by decide)),
    record_eq_of_records (frame_askProgram _ i .records (by decide)), record_paired, if_pos rfl]

theorem loan_joinLoan (k : Nat) : (s.joinLoan id i).loan k = if id = k then some (l.taking i) else s.loan k := by
  obtain ⟨-, hloans, -⟩ := joinLoan_paired hl hx
  rw [State.loan, hloans]
  exact loan_paired k

/-- LOAN_FILLED is posted and the loan is out of the wanting queue (R113). -/
theorem joinLoan_filled (h : l.shortfall ≤ 1 ∧ id ∈ s.loans.wanting) :
    (s.joinLoan id i).loans.wanting = s.loans.wanting.filter (· != id) ∧
      (s.joinLoan id i).ports = (s.post (.loanFilled id)).ports := by
  have hp : ((s.paired id i l x).askProgram i).ports = s.ports := frame_askProgram _ i .ports (by decide)
  rw [joinLoan_fills hl hx h]
  exact ⟨rfl, ports_post_congr s hp _⟩

theorem joinLoan_not_filled (h : ¬(l.shortfall ≤ 1 ∧ id ∈ s.loans.wanting)) :
    (s.joinLoan id i).loans.wanting = s.loans.wanting ∧ (s.joinLoan id i).ports = s.ports := by
  rw [joinLoan_leaves_wanting hl hx h]
  exact ⟨wanting_askProgram _ i, frame_askProgram _ i .ports (by decide)⟩

/-- The PROGRAM of the record is queued at its bay, unless a transfer is in flight there (R49). -/
theorem joinLoan_program {p : BayPos} (hp : x.bay = some p) :
    (s.inFlightAt p.rack p.bay = none →
      ∃ q, (s.joinLoan id i).queuedAt p.rack p.bay = some q ∧ q.kind = .program ∧ q.record = some i ∧
        q.loan = some id ∧ q.attempts = 0 ∧ q.withdraw = false) ∧
    (s.inFlightAt p.rack p.bay ≠ none → (s.joinLoan id i).chan = s.chan) := by
  obtain ⟨hf, -⟩ := joinLoan_paired hl hx
  have hchan : (s.joinLoan id i).chan = ((s.paired id i l x).askProgram i).chan := hf .chan (by decide)
  have hrec : (s.paired id i l x).record i = some (x.takenBy id l) := (record_paired i).trans (if_pos rfl)
  refine ⟨fun hf => ?_, fun hf => ?_⟩
  · have hqueued := queuedAt_askProgram (s.paired id i l x) hrec hp hf
    rw [State.queuedAt, ← channel_congr hchan] at hqueued
    exact ⟨_, hqueued, rfl, rfl, rfl, rfl, rfl⟩
  · rw [hchan, askProgram_busy (s.paired id i l x) hrec hp hf]
    rfl

end

/-! ## The loan an offer goes to (R114) -/

theorem offer_refused {i : Nat} (h : ∀ id l, id ∈ s.loans.wanting → s.loan id = some l → s.eligible l i = false) :
    s.offer i = s := by
  unfold State.offer
  rw [List.find?_eq_none.mpr fun id hid => ?_]
  cases hl : s.loan id with
  | none => simp
  | some l => simp [h id l hid hl]

theorem offer_taken {i id : Nat} {front rest : List Nat} {l : Loan} (hw : s.loans.wanting = front ++ id :: rest)
    (hl : s.loan id = some l) (he : s.eligible l i = true)
    (h : ∀ k y, k ∈ front → s.loan k = some y → s.eligible y i = false) : s.offer i = s.joinLoan id i := by
  unfold State.offer
  rw [hw, List.find?_append, List.find?_eq_none.mpr fun k hk => ?_, Option.none_or,
    List.find?_cons_of_pos (by rw [hl]; exact he)]
  cases hy : s.loan k with
  | none => simp
  | some y => simp [h k y hk hy]

/-- Settles O43: the pairing, the PROGRAM and the wanting queue of a joining, and the first loan that takes an offer. -/
theorem joiningALoanReservesTheRecord : Obligations.JoiningALoanReservesTheRecord := by
  refine ⟨fun s id i l x hl hx => ?_, fun s i => ⟨offer_refused s, fun _ _ _ _ hw hl => offer_taken s hw hl⟩⟩
  obtain ⟨-, -, htimers⟩ := joinLoan_paired hl hx
  refine ⟨_, rfl, record_joinLoan_taken hl hx, fun j hj => record_joinLoan s hj.symm, ?_, fun k hk => ?_,
    fun h1 hw => joinLoan_filled hl hx ⟨h1, hw⟩, fun h => joinLoan_not_filled hl hx ?_,
    fun p => joinLoan_program hl hx, frame_joinLoan s id i, htimers⟩
  · exact (loan_joinLoan hl hx id).trans (if_pos rfl)
  · exact (loan_joinLoan hl hx k).trans (if_neg hk.symm)
  · rintro ⟨h1, hw⟩
    exact h.elim (Nat.not_lt.mpr h1) (· hw)

end Sys2Proof.Machine
end

