-- ==== Sys2Proof/Proofs/Programs.lean ====
section
/-! PROOFS. A PROGRAM ends (R61, R62): its record released with a listener more, or, withdrawn, out of its loan with the
tests and offers that follow a removal. -/

namespace Sys2Proof.Machine

variable (s : State)

/-! ## A listener gained, and the listeners of a tour that is freed (R97, R101) -/

theorem listeners_gainListener (p : Nat) :
    ((s.gainListener p).programme p).listeners = (s.programme p).listeners + 1 := by
  have hset (x : Programme) : (s.setProgramme p x).programme p = x :=
    (programme_setProgramme s p x p).trans (if_pos rfl)
  unfold State.gainListener
  dsimp only
  split
  · rw [programme_congr (frame_needDownlink _ p .tours (by decide)), hset]
  · rw [hset]

theorem listeners_leaveUse (p k : Nat) :
    ((s.leaveUse p).programme k).listeners = if p = k then 0 else (s.programme k).listeners := by
  have h : (s.leaveUse p).programme k = if p = k then
      { s.programme p with inUse := false, tour := none, listeners := 0, relay := Config.relayOutOfUse s.draws }
      else s.programme k := programme_setProgramme s.draw.2 p _ k
  rw [h]
  split
  · rfl
  · rfl

/-- A programme without listeners leaves use without one. -/
theorem listeners_leaveUses (ps : List Nat) : ∀ s : State, (∀ p ∈ ps, (s.programme p).listeners = 0) → ∀ k,
    ((ps.foldl (fun u p => u.leaveUse p) s).programme k).listeners = (s.programme k).listeners := by
  induction ps with
  | nil => exact fun _ _ _ => rfl
  | cons p ps ih =>
    intro s h k
    have hp : (s.programme p).listeners = 0 := h p (List.mem_cons_self ..)
    have hone (j : Nat) : ((s.leaveUse p).programme j).listeners = (s.programme j).listeners := by
      rw [listeners_leaveUse]
      split
      · rename_i e; rw [← e, hp]
      · rfl
    rw [List.foldl_cons, ih _ (fun j hj => (hone j).trans (h j (List.mem_cons_of_mem _ hj))), hone]

/-- A tour is freed only with no listener left (R97). -/
theorem listeners_testTour (t k : Nat) : ((s.testTour t).programme k).listeners = (s.programme k).listeners := by
  unfold State.testTour
  split
  · rename_i h
    obtain ⟨-, -, hall⟩ := h
    refine listeners_leaveUses (s.tour t).programmes s (fun p hp => ?_) k
    exact eq_of_beq (List.all_eq_true.mp hall p hp)
  · rfl

theorem listeners_testLoan (id k : Nat) : ((s.testLoan id).programme k).listeners = (s.programme k).listeners := by
  cases hl : s.loan id with
  | none => rw [testLoan_free s hl]
  | some l =>
    rw [testLoan_held s hl, listeners_testTour, programme_congr (frame_closeLoan s id .tours (by decide))]

/-- The offers and tests that follow a removal count no listener. -/
theorem listeners_settle (before : State) (loans offers : List Nat) (k : Nat) :
    ((State.settle before s loans offers).programme k).listeners = (s.programme k).listeners :=
  settle_keeps (P := fun t => (t.programme k).listeners = (s.programme k).listeners) (F := fun _ => False) s
    (fun t id i _ h => by rw [programme_congr (frame_joinLoan t id i .tours (by decide))]; exact h)
    (fun _ _ _ h => h.elim) (fun t id h => (listeners_testLoan t id k).trans h)
    (fun t h => by rw [programme_congr (frame_testReserve t .tours (by decide))]; exact h) before loans offers rfl

/-! ## A PROGRAM completes (R61) -/

/-- The record RELEASED, the latch open and the release window started, before the programme gains its listener. -/
def State.released (s : State) (r b i : Nat) (x : Record) : State :=
  ((((s.endAttempt r).setRecord i (some { x with state := .released })).setLatch r b true).wake r).setTimer i
    (some { length := s.settings.releaseWindow * secondTicks, elapsed := 0 })

theorem frame_released (r b i : Nat) (x : Record) :
    s.ChangesOnly (s.released r b i x) [.records, .scan, .chan, .loans] :=
  (((((frame_endAttempt s r).mono (by decide)).trans ((frame_setRecord _ i _).mono (by decide))).trans
    ((frame_setLatch _ r b true).mono (by decide))).trans ((frame_wake _ r).mono (by decide))).trans
    ((frame_setTimer _ i _).mono (by decide))

theorem record_released (r b i : Nat) (x : Record) (j : Nat) : (s.released r b i x).record j =
    if i = j then some { x with state := .released } else s.record j := by
  rw [State.released, record_setTimer, record_eq_of_records (frame_wake _ r .records (by decide)),
    record_eq_of_records (frame_setLatch _ r b true .records (by decide)), record_setRecord, record_endAttempt]

theorem bay_released (r b i : Nat) (x : Record) :
    (s.released r b i x).bay r b = { s.bay r b with latchOpen := true } := by
  rw [State.released, bay_setTimer, bay_wake, State.setLatch, bay_setBay, if_pos ⟨rfl, rfl⟩, bay_setRecord,
    bay_endAttempt]

theorem timer_released (r b i : Nat) (x : Record) : (s.released r b i x).timer i =
    some { length := s.settings.releaseWindow * secondTicks, elapsed := 0 } := by
  rw [State.released, timer_setTimer, if_pos rfl]

theorem loan_released (r b i : Nat) (x : Record) (id : Nat) : (s.released r b i x).loan id = s.loan id := by
  rw [State.released, loan_setTimer, loan_congr (frame_wake _ r .loans (by decide)),
    loan_congr (frame_setLatch _ r b true .loans (by decide)), loan_setRecord,
    loan_congr (frame_endAttempt s r .loans (by decide))]

theorem channel_released (r b i : Nat) (x : Record) : ((s.released r b i x).channel r).inFlight = none ∧
    ((s.released r b i x).channel r).queue = (s.channel r).queue := by
  rw [State.released, channel_setTimer, channel_wake, channel_congr (frame_setLatch _ r b true .chan (by decide)),
    channel_setRecord]
  exact channel_endAttempt s r

theorem woken_released (r b i : Nat) (x : Record) : (s.released r b i x).Woken r := by
  unfold State.released
  exact woken_of_scan _ (scan_setTimer _ i _) (woken_wake _ r)

section
variable {s} {r i : Nat} {q : Req} {x : Record} (hi : q.record = some i)
include hi

theorem programmed_withdrawn (hw : q.withdraw = true) : s.programmed r q = (s.endAttempt r).endWithdrawn i := by
  unfold State.programmed
  rw [hi]
  exact if_pos hw

variable (hw : q.withdraw = false) (hx : s.record i = some x)
include hw hx

/-- A PROGRAM releases its record, and the programme that the record names gains a listener. -/
theorem programmed_cases :
    (∃ p, x.programme = some p ∧ s.programmed r q = (s.released r q.bay i x).gainListener p) ∨
      (x.programme = none ∧ s.programmed r q = s.released r q.bay i x) := by
  have h1 : (s.endAttempt r).record i = some x := (record_endAttempt s r i).trans hx
  unfold State.programmed
  rw [hi]
  dsimp only
  rw [if_neg (by rw [hw]; nofun), h1]
  dsimp only
  split
  · rename_i p hp
    exact .inl ⟨p, hp, rfl⟩
  · rename_i hp
    exact .inr ⟨hp, rfl⟩

/-- The listener gained touches the programmes, the plan and the notices alone. -/
theorem frame_programmed : (s.released r q.bay i x).ChangesOnly (s.programmed r q) [.tours, .air, .ports] := by
  rcases programmed_cases (r := r) hi hw hx with ⟨p, _, he⟩ | ⟨_, he⟩
  · rw [he]
    exact frame_gainListener _ p
  · rw [he]
    exact .refl _ _

theorem listeners_programmed {p : Nat} (hp : x.programme = some p) :
    ((s.programmed r q).programme p).listeners = (s.programme p).listeners + 1 := by
  rcases programmed_cases (r := r) hi hw hx with ⟨k, hk, he⟩ | ⟨hnone, _⟩
  · obtain rfl : k = p := Option.some.inj (hk.symm.trans hp)
    rw [he, listeners_gainListener, programme_congr (frame_released s r q.bay i x .tours (by decide))]
  · cases hnone.symm.trans hp

end

/-! ## A withdrawn PROGRAM ends (R62, R109) -/

/-- The record out of its loan for readiness, before the tests and offers of a removal. -/
def State.withdrawn (s : State) (i id : Nat) (x : Record) (l : Loan) : State :=
  (s.setRecord i (some { x with
    state := s.readiness x, loan := none, programme := none, due := none, overdueFlag := false })).setLoan id
    (some (l.without i .dropped))

theorem frame_withdrawn (i id : Nat) (x : Record) (l : Loan) :
    s.ChangesOnly (s.withdrawn i id x l) [.records, .loans] :=
  ((frame_setRecord s i _).mono (by decide)).trans ((frame_setLoan _ id _).mono (by decide))

theorem record_withdrawn (i id : Nat) (x : Record) (l : Loan) (j : Nat) : (s.withdrawn i id x l).record j =
    if i = j then
      some { x with state := s.readiness x, loan := none, programme := none, due := none, overdueFlag := false }
    else s.record j := by
  rw [State.withdrawn, record_setLoan, record_setRecord]

theorem loan_withdrawn (i id : Nat) (x : Record) (l : Loan) (k : Nat) :
    (s.withdrawn i id x l).loan k = if id = k then some (l.without i .dropped) else s.loan k := by
  rw [State.withdrawn, loan_setLoan, loan_setRecord]

section
variable {s} {i id : Nat} {x : Record} {l : Loan} (hx : s.record i = some x) (hs : x.state = .programming)
  (hl : x.loan = some id) (hy : s.loan id = some l)
include hx hs hl hy

theorem withdraw_programming : s.withdraw i = s.withdrawn i id x l := by
  have hloan (v : Option Record) : (s.setRecord i v).loan id = some l := hy
  have hstate : x.state ≠ .released := by rw [hs]; nofun
  unfold State.withdraw
  rw [hx]
  dsimp only
  unfold State.leaveLoan
  rw [hx]
  dsimp only
  rw [if_neg hstate, hs, hl]
  dsimp only
  rw [if_neg (by nofun), State.modLoan, hloan]
  rfl

theorem endWithdrawn_programming : s.endWithdrawn i =
    State.settle s (s.withdrawn i id x l) [id] (if s.meetsReady x then [i] else []) := by
  have hready : (s.withdrawn i id x l).readyOf [i] = if s.meetsReady x then [i] else [] := by
    rw [State.readyOf, List.filter_cons, List.filter_nil,
      recordIs_eq _ ((record_withdrawn s i id x l i).trans (if_pos rfl))]
    cases h : s.meetsReady x with
    | false => simp only [State.readiness, h]; rfl
    | true => simp only [State.readiness, h]; rfl
  have hlist : s.loanList i = [id] := by rw [State.loanList, loanOf_eq s hx, hl]; rfl
  unfold State.endWithdrawn
  dsimp only
  rw [withdraw_programming hx hs hl hy, hready, hlist]

end

/-- Settles O31: a PROGRAM in force releases its record, and a withdrawn one gives it back. -/
theorem programReleasesTheRecord : Obligations.ProgramReleasesTheRecord := by
  refine ⟨fun s r i q x hh hr hq hk hc hi hx => ?_, fun s i id x l hx hs hl hy => ?_⟩
  · have hcm := hk ▸ completing_eq s hr hq hc
    have hexec : exec (.programCompletion r) s = .next (State.finish s (s.programmed r q) []) :=
      (event_of_running s _ hh).trans (by rw [State.programCompletion, hcm])
    refine ⟨fun hw => ?_, fun hw => by rw [hexec, programmed_withdrawn hi hw]⟩
    have hf := frame_programmed (r := r) hi hw hx
    have hrec (j : Nat) := (record_eq_of_records (hf .records (by decide)) j).trans (record_released s r q.bay i x j)
    have hchan := channel_congr (hf .chan (by decide)) r
    obtain ⟨hflight, hqueue⟩ := channel_released s r q.bay i x
    refine ⟨s.programmed r q, hexec, (hrec i).trans (if_pos rfl), fun j hj => (hrec j).trans (if_neg hj.symm), ?_, ?_,
      fun p hp => listeners_programmed hi hw hx hp, ?_, ?_, ?_, fun id => ?_⟩
    · exact (bay_congr (hf .scan (by decide)) r q.bay).trans (bay_released s r q.bay i x)
    · exact (timer_congr (hf .loans (by decide)) i).trans (timer_released s r q.bay i x)
    · rw [hchan, hflight]
    · rw [hchan, hqueue]
    · exact (woken_of_scan _ (hf .scan (by decide)) (woken_released s r q.bay i x)).1
    · exact (loan_congr (hf .loans (by decide)) id).trans (loan_released s r q.bay i x id)
  · have hrec := record_withdrawn s i id x l
    have hloan := loan_withdrawn s i id x l
    have hf := frame_withdrawn s i id x l
    have he := endWithdrawn_programming hx hs hl hy
    obtain ⟨htimers, hbays⟩ := holds_settle (s.withdrawn i id x l) s [id] (if s.meetsReady x then [i] else [])
    refine ⟨s.withdrawn i id x l, he, hf, (hrec i).trans (if_pos rfl), fun j hj => (hrec j).trans (if_neg hj.symm),
      (hloan id).trans (if_pos rfl), fun k hk => (hloan k).trans (if_neg hk.symm), rfl, rfl, fun hm => ?_,
      fun r b => ?_, ?_, fun p => ?_⟩
    · have hdocked : s.readiness x ≠ .ready := by simp [State.readiness, hm]
      rw [he, (hrec i).trans (if_pos rfl)]
      exact record_settle_of_not_ready _ s _ _ ((hrec i).trans (if_pos rfl)) hdocked
    · rw [he, hbays, bay_congr (hf .scan (by decide))]
    · rw [he, htimers]
      rfl
    · rw [he, listeners_settle, programme_congr (hf .tours (by decide))]

end Sys2Proof.Machine
end

section
/-! PROOFS. The drives of the bays: the duty code of an applied current (R83), its spread over the frame (R84) and the
boundary at which the staged currents are applied (R81, R82). -/

namespace Sys2Proof.Machine

variable (s : State)

/-! ## The counts of a frame for which a drive is on (R84) -/

theorem driveOn_iff (duty p c : Nat) :
    driveOn duty p c = true ↔ c < duty / 4 + (if p < duty % 4 then 1 else 0) := decide_eq_true_iff

theorem driveOn_zero (p c : Nat) : driveOn 0 p c = false := by simp [driveOn]

/-- At the highest code every drive is off for the last 16 counts of a sub-period. -/
theorem driveOn_highest {c : Nat} (p : Nat) (h : 240 ≤ c) : driveOn 960 p c = false := by simp [driveOn, h]

theorem length_filter_lt_range (n k : Nat) : ((List.range n).filter fun c => decide (c < k)).length = min k n := by
  induction n with
  | zero => simp
  | succ n ih =>
    rw [List.range_succ, List.filter_append, List.length_append, ih]
    by_cases h : n < k
    · simp [h]; omega
    · simp [h]; omega

/-- The counts of one sub-period for which a drive is on. -/
theorem length_driveOn {duty : Nat} (p : Nat) (h : duty ≤ 960) :
    ((List.range 256).filter fun c => driveOn duty p c).length = duty / 4 + (if p < duty % 4 then 1 else 0) := by
  unfold driveOn
  rw [length_filter_lt_range]
  split <;> omega

/-- Over the four sub-periods a drive is on for as many counts as its duty code says. -/
theorem sum_length_driveOn {duty : Nat} (h : duty ≤ 960) :
    ((List.range 4).map fun p => ((List.range 256).filter fun c => driveOn duty p c).length).sum = duty := by
  have four (f : Nat → Nat) : ((List.range 4).map f).sum = f 0 + f 1 + f 2 + f 3 := by
    simp [List.range_succ, Nat.add_assoc]
  have lo : duty % 4 < 4 := Nat.mod_lt _ (by decide)
  rw [four, length_driveOn 0 h, length_driveOn 1 h, length_driveOn 2 h, length_driveOn 3 h]
  repeat' split
  all_goals omega

/-! ## The duty code of an applied current (R83) -/

/-- A duty code's average current is at most the applied current, and short of it by less than 0.625 mA. -/
theorem Drive.Agrees.average {d : Drive} (h : d.Agrees) :
    640 * d.duty ≤ 1024 * d.applied ∧ 1024 * d.applied < 640 * d.duty + 640 ∧ d.duty ≤ 960 := by
  have hd := h.duty
  have ha := h.applied
  omega

/-- Settles O36, from the law that a drive's code belongs to its applied current. -/
theorem dutyCodeOfTheAppliedCurrent : Obligations.DutyCodeOfTheAppliedCurrent := by
  refine ⟨fun s r b h => ?_, by decide, by decide, by decide, by decide, by decide, by decide⟩
  obtain ⟨below, above, highest⟩ := (h r b).average
  exact ⟨(h r b).duty, sum_length_driveOn highest, below, above, highest⟩

/-- A cut drive has duty code 0 (R85). -/
theorem duty_cutDrive (r b : Nat) : ((s.cutDrive r b).drive r b).duty = 0 := by
  rw [State.cutDrive, drive_setDrive, if_pos ⟨rfl, rfl⟩]

/-- Settles O37, counting the on-counts of each sub-period. -/
theorem dutyCodeIsSpreadOverTheSubPeriods : Obligations.DutyCodeIsSpreadOverTheSubPeriods := by
  refine ⟨fun duty p c _ _ => driveOn_iff duty p c,
    fun duty h => ⟨sum_length_driveOn h, fun p c _ hc => driveOn_highest p hc⟩, driveOn_zero, fun s r b h => ?_,
    fun s r b n => ?_⟩
  · rw [State.charging, h]
    rfl
  · rw [State.charging]
    have cut : ({ s.cutDrive r b with charge := { (s.cutDrive r b).charge with frameTime := n } } : State).drive r b =
      (s.cutDrive r b).drive r b := rfl
    rw [cut, duty_cutDrive, driveOn_zero, Bool.and_false]

/-! ## The charge frame boundary (R82) -/

/-- A drive applied twice is as applied once: the staged current stays. -/
theorem Drive.apply_apply (d : Drive) : d.apply.apply = d.apply := rfl

/-- The drives of some bays of a rack applied. -/
def State.applyBays (s : State) (r : Nat) (bs : List Nat) : State :=
  bs.foldl (fun t b => t.setDrive r b (t.drive r b).apply) s

theorem applyBays_cons (r b : Nat) (bs : List Nat) :
    s.applyBays r (b :: bs) = (s.setDrive r b (s.drive r b).apply).applyBays r bs := rfl

theorem applyRack_eq (r : Nat) : s.applyRack r =
    (s.setRackCharge r { s.rackCharge r with appliedLimit := (s.rackCharge r).stagedLimit }).applyBays r
      (Table.keys (s.rackCharge r).drives) := rfl

theorem drive_applyBays (r : Nat) (bs : List Nat) (q b : Nat) : ∀ t : State,
    (t.applyBays r bs).drive q b = if q = r ∧ b ∈ bs then (t.drive q b).apply else t.drive q b := by
  induction bs with
  | nil => intro t; simp [State.applyBays]
  | cons a bs ih =>
    intro t
    rw [applyBays_cons, ih, drive_setDrive]
    by_cases hq : q = r
    · subst hq
      by_cases hb : b = a
      · subst hb; simp [Drive.apply_apply]
      · simp [hb, Ne.symm hb]
    · simp [hq, Ne.symm hq]

/-- Applying drives leaves the promoted set and every rack's limits. -/
theorem charge_applyBays (r : Nat) (bs : List Nat) : ∀ t : State,
    (t.applyBays r bs).charge.promoted = t.charge.promoted ∧
    ∀ q, ((t.applyBays r bs).rackCharge q).stagedLimit = (t.rackCharge q).stagedLimit ∧
      ((t.applyBays r bs).rackCharge q).appliedLimit = (t.rackCharge q).appliedLimit := by
  induction bs with
  | nil => exact fun t => ⟨rfl, fun _ => ⟨rfl, rfl⟩⟩
  | cons a bs ih =>
    intro t
    obtain ⟨hp, hl⟩ := ih (t.setDrive r a (t.drive r a).apply)
    refine ⟨hp, fun q => ?_⟩
    obtain ⟨hs, ha⟩ := hl q
    rw [applyBays_cons, hs, ha, rackCharge_setDrive]
    split <;> exact ⟨rfl, rfl⟩

/-- An applied rack: each drive runs on its staged current, an unlisted one staged at 0 like the rest. -/
theorem drive_applyRack (r q b : Nat) : (s.applyRack r).drive q b = if q = r then (s.drive q b).apply else s.drive q b := by
  rw [applyRack_eq, drive_applyBays, drive_setRackCharge]
  by_cases hq : q = r
  · subst hq
    by_cases hb : b ∈ Table.keys (s.rackCharge q).drives
    · simp [hb, State.drive]
    · have unlisted : s.drive q b = resetDrive := Table.read_of_notMem_keys _ _ b hb
      rw [if_neg fun h => hb h.2, if_pos rfl, if_pos rfl, unlisted]
      exact unlisted
  · simp [hq, Ne.symm hq]

theorem charge_applyRack (r : Nat) : (s.applyRack r).charge.promoted = s.charge.promoted ∧
    ∀ q, ((s.applyRack r).rackCharge q).stagedLimit = (s.rackCharge q).stagedLimit ∧
      ((s.applyRack r).rackCharge q).appliedLimit =
        if q = r then (s.rackCharge q).stagedLimit else (s.rackCharge q).appliedLimit := by
  rw [applyRack_eq]
  obtain ⟨hp, hl⟩ := charge_applyBays r (Table.keys (s.rackCharge r).drives)
    (s.setRackCharge r { s.rackCharge r with appliedLimit := (s.rackCharge r).stagedLimit })
  refine ⟨hp, fun q => ?_⟩
  obtain ⟨hs, ha⟩ := hl q
  rw [hs, ha, rackCharge_setRackCharge]
  by_cases hq : q = r
  · subst hq; simp
  · simp [hq, Ne.symm hq]

/-- Racks applied one after another, each once. -/
theorem applyRacks_spec (rs : List Nat) (hn : rs.Nodup) : ∀ t : State,
    (rs.foldl State.applyRack t).charge.promoted = t.charge.promoted ∧
    ∀ q, ((rs.foldl State.applyRack t).rackCharge q).stagedLimit = (t.rackCharge q).stagedLimit ∧
      ((rs.foldl State.applyRack t).rackCharge q).appliedLimit =
        (if q ∈ rs then (t.rackCharge q).stagedLimit else (t.rackCharge q).appliedLimit) ∧
      ∀ b, (rs.foldl State.applyRack t).drive q b = if q ∈ rs then (t.drive q b).apply else t.drive q b := by
  induction rs with
  | nil => intro t; simp
  | cons r rs ih =>
    intro t
    obtain ⟨hr, hn⟩ := List.nodup_cons.mp hn
    obtain ⟨hp, hq⟩ := ih hn (t.applyRack r)
    obtain ⟨hp', hl⟩ := charge_applyRack t r
    refine ⟨hp.trans hp', fun q => ?_⟩
    obtain ⟨hs, ha, hd⟩ := hq q
    obtain ⟨hs', ha'⟩ := hl q
    rw [List.foldl_cons, hs, ha, hs', ha']
    refine ⟨rfl, ?_, fun b => ?_⟩
    · by_cases e : q = r
      · subst e; simp
      · simp [e]
    · rw [hd, drive_applyRack]
      by_cases e : q = r
      · subst e; simp [hr]
      · simp [e]

/-- The frame begun anew after a boundary. -/
def State.newFrame (s : State) : State := { s with charge := { s.charge with frameTime := 0 } }

theorem frame_newFrame : s.ChangesOnly s.newFrame [.charge] := frame_chargeState s _

theorem chargeFrameBoundary_eq : s.chargeFrameBoundary = (rackNumbers.foldl State.applyRack s).newFrame := rfl

theorem mem_rackNumbers {r : Nat} (h : r < 4) : r ∈ rackNumbers := by
  unfold rackNumbers; match r, h with | 0, _ | 1, _ | 2, _ | 3, _ => decide

/-- Settles O35, by the racks applied one after another. -/
theorem boundaryAppliesTheStaging : Obligations.BoundaryAppliesTheStaging := by
  intro s hh hf
  have frame := State.ChangesOnly.foldl _ frame_applyRack rackNumbers s
  obtain ⟨promoted, racks⟩ := applyRacks_spec rackNumbers (by decide) s
  refine ⟨s.chargeFrameBoundary, timed_of_due s _ hh (decide_eq_true hf), ?_⟩
  rw [chargeFrameBoundary_eq]
  generalize rackNumbers.foldl State.applyRack s = w at frame promoted racks
  refine ⟨frame.trans (frame_newFrame w), rfl, promoted, fun r hr => ?_⟩
  obtain ⟨staged, applied, drives⟩ := racks r
  have hm := mem_rackNumbers hr
  exact ⟨staged, applied.trans (if_pos hm), fun b => (drives b).trans (if_pos hm)⟩

end Sys2Proof.Machine
end

section
/-! PROOFS. A staging of a rack: the turns of the three classes, what each bay is given, the budget that the staged currents
keep and RACK_SHORT (R77 to R79, R86). -/

namespace Sys2Proof.Machine

variable (s : State)

/-! ## What a class is given (R77) -/

theorem give_of_fits {t : Turn} (hs : t.served = true) (h : t.total ≤ t.avail) (d : Nat) : t.give d = d := by
  rw [Turn.give, if_pos hs, share, if_pos h]

theorem give_of_scaled {t : Turn} (hs : t.served = true) (h : t.avail < t.total) (d : Nat) :
    t.give d = d * t.avail / t.total := by
  rw [Turn.give, if_pos hs, share, if_neg (Nat.not_le.mpr h)]

theorem give_of_unserved {t : Turn} (hs : t.served = false) (d : Nat) : t.give d = 0 := by
  rw [Turn.give, hs]
  rfl

theorem give_of_served {t : Turn} (hs : t.served = true) (d : Nat) :
    t.give d = if t.total ≤ t.avail then d else d * t.avail / t.total := by
  rw [Turn.give, if_pos hs, share]

theorem give_zero (t : Turn) : t.give 0 = 0 := Nat.le_zero.mp (Turn.give_le t 0)

theorem scaled_iff (t : Turn) : t.scaled = true ↔ t.served = true ∧ t.avail < t.total := by simp [Turn.scaled]

theorem sum_div_le (a n : Nat) (l : List Nat) : (l.map fun d => d * a / n).sum ≤ l.sum * a / n := by
  induction l with
  | nil => simp
  | cons d l ih =>
    rw [List.map_cons, List.sum_cons, List.sum_cons, Nat.add_mul]
    exact Nat.le_trans (Nat.add_le_add_left ih _) Nat.div_add_div_le_add_div

/-- A class is given no more than what is available to it. -/
theorem sum_give_le {t : Turn} {l : List Nat} (h : t.total = l.sum) : (l.map t.give).sum ≤ t.avail := by
  cases hs : t.served with
  | false =>
    rw [funext (give_of_unserved hs), sum_map_zero]
    exact Nat.zero_le _
  | true =>
    by_cases ht : t.total ≤ t.avail
    · rw [funext (give_of_fits hs ht), List.map_id', ← h]
      exact ht
    · have scaled := Nat.lt_of_not_le ht
      rw [funext (give_of_scaled hs scaled)]
      refine Nat.le_trans (sum_div_le _ _ l) (Nat.le_of_eq ?_)
      rw [← h, Nat.mul_div_cancel_left _ (Nat.zero_lt_of_lt scaled)]

/-- A class served in full leaves the rest of the available current to the next. -/
theorem avail_after {t : Turn} {l m : List Nat} (h : t.total = l.sum) (hs : t.served = true) (ht : t.total ≤ t.avail) :
    (t.after l m).avail = t.avail - t.total := by
  rw [Turn.after, funext (give_of_fits hs ht), List.map_id', ← h]

theorem served_after (t : Turn) (l m : List Nat) :
    (t.after l m).served = true ↔ t.served = true ∧ t.total ≤ t.avail := by
  cases hs : t.served <;> simp [Turn.after, Turn.scaled, hs]

/-! ## The three turns of a staging (R77) -/

/-- The sum of the demands of a class. -/
def State.classTotal (s : State) (r : Nat) (c : ChargeClass) : Nat := (s.classDemands r c).sum

theorem turns_total (r : Nat) (c : ChargeClass) : ((s.turns r).of c).total = s.classTotal r c := by cases c <;> rfl

theorem avail_first (r : Nat) : (s.turns r).first.avail = s.available r := rfl

theorem served_first (r : Nat) : (s.turns r).first.served = true := rfl

theorem served_needed (r : Nat) : (s.turns r).needed.served = true ↔ s.classTotal r .first ≤ s.available r :=
  (served_after _ _ _).trans (and_iff_right rfl)

theorem avail_needed {r : Nat} (h : s.classTotal r .first ≤ s.available r) :
    (s.turns r).needed.avail = s.available r - s.classTotal r .first := avail_after rfl rfl h

theorem served_topup (r : Nat) : (s.turns r).topup.served = true ↔
    s.classTotal r .first ≤ s.available r ∧ s.classTotal r .needed ≤ s.available r - s.classTotal r .first := by
  have needed : (s.turns r).topup.served = true ↔
      (s.turns r).needed.served = true ∧ s.classTotal r .needed ≤ (s.turns r).needed.avail := served_after _ _ _
  rw [needed, served_needed]
  exact and_congr_right fun first => by rw [avail_needed s first]

theorem avail_topup {r : Nat} (h1 : s.classTotal r .first ≤ s.available r)
    (h2 : s.classTotal r .needed ≤ s.available r - s.classTotal r .first) :
    (s.turns r).topup.avail = s.available r - s.classTotal r .first - s.classTotal r .needed := by
  rw [← avail_needed s h1] at h2 ⊢
  exact avail_after rfl ((served_needed s r).mpr h1) h2

/-- A bay's share, by its class. -/
theorem stagedShare_class {r b : Nat} {c : ChargeClass} (h : s.chargeClass r b = c) :
    s.stagedShare r (s.turns r) b = ((s.turns r).of c).give (s.demand r b) := by rw [State.stagedShare, h]

theorem stagedShare_first {r b : Nat} (h : s.chargeClass r b = .first) : s.stagedShare r (s.turns r) b =
    if s.classTotal r .first ≤ s.available r then s.demand r b
    else s.demand r b * s.available r / s.classTotal r .first :=
  (stagedShare_class s h).trans (give_of_served (served_first s r) _)

theorem stagedShare_needed {r b : Nat} (h : s.chargeClass r b = .needed) : s.stagedShare r (s.turns r) b =
    if s.available r < s.classTotal r .first then 0
    else if s.classTotal r .needed ≤ s.available r - s.classTotal r .first then s.demand r b
    else s.demand r b * (s.available r - s.classTotal r .first) / s.classTotal r .needed := by
  refine (stagedShare_class s h).trans ?_
  split
  · rename_i short
    exact give_of_unserved (Bool.eq_false_iff.mpr fun k => Nat.not_le.mpr short ((served_needed s r).mp k)) _
  · rename_i full
    have full := Nat.le_of_not_lt full
    rw [Turns.of, give_of_served ((served_needed s r).mpr full), avail_needed s full]
    rfl

theorem stagedShare_topup {r b : Nat} (h : s.chargeClass r b = .topup) : s.stagedShare r (s.turns r) b =
    if s.available r < s.classTotal r .first ∨ s.available r - s.classTotal r .first < s.classTotal r .needed then 0
    else if s.classTotal r .topup ≤ s.available r - s.classTotal r .first - s.classTotal r .needed then s.demand r b
    else s.demand r b * (s.available r - s.classTotal r .first - s.classTotal r .needed) / s.classTotal r .topup := by
  refine (stagedShare_class s h).trans ?_
  split
  · rename_i short
    refine give_of_unserved (Bool.eq_false_iff.mpr fun k => ?_) _
    obtain ⟨first, needed⟩ := (served_topup s r).mp k
    exact short.elim (Nat.not_lt.mpr first) (Nat.not_lt.mpr needed)
  · rename_i full
    obtain ⟨first, needed⟩ := not_or.mp full
    have first := Nat.le_of_not_lt first
    have needed := Nat.le_of_not_lt needed
    rw [Turns.of, give_of_served ((served_topup s r).mpr ⟨first, needed⟩), avail_topup s first needed]
    rfl

/-- FIRST or NEEDED is scaled (R79). -/
theorem scaled_turns_iff (r : Nat) : ((s.turns r).first.scaled || (s.turns r).needed.scaled) = true ↔
    s.available r < s.classTotal r .first ∨ s.available r - s.classTotal r .first < s.classTotal r .needed := by
  rw [Bool.or_eq_true, scaled_iff, scaled_iff, served_needed, avail_first, and_iff_right (served_first s r)]
  by_cases full : s.classTotal r .first ≤ s.available r
  · rw [avail_needed s full, and_iff_right full]
    rfl
  · have short := Nat.lt_of_not_le full
    exact iff_of_true (.inl short) (.inl short)

/-! ## The budget (R77, R86) -/

theorem sum_map_three {α : Type} (f g h k : α → Nat) (l : List α) (e : ∀ a, f a = g a + h a + k a) :
    (l.map f).sum = (l.map g).sum + (l.map h).sum + (l.map k).sum := by
  induction l with
  | nil => rfl
  | cons a l ih =>
    simp only [List.map_cons, List.sum_cons, ih, e]
    omega

/-- What the bays of a class are given together. -/
def State.classGiven (s : State) (r : Nat) (c : ChargeClass) : Nat := ((s.classDemands r c).map ((s.turns r).of c).give).sum

/-- A bay's share stands in the column of its own class. -/
theorem stagedShare_columns (r b : Nat) : s.stagedShare r (s.turns r) b =
    (s.turns r).first.give (if s.chargeClass r b = .first then s.demand r b else 0) +
    (s.turns r).needed.give (if s.chargeClass r b = .needed then s.demand r b else 0) +
    (s.turns r).topup.give (if s.chargeClass r b = .topup then s.demand r b else 0) := by
  unfold State.stagedShare
  cases s.chargeClass r b <;> simp [give_zero, Turns.of]

theorem sum_stagedShare (r : Nat) : (bayNumbers.map (s.stagedShare r (s.turns r))).sum =
    s.classGiven r .first + s.classGiven r .needed + s.classGiven r .topup := by
  rw [sum_map_three _ _ _ _ bayNumbers (stagedShare_columns s r)]
  simp only [State.classGiven, State.classDemands, List.map_map, Function.comp_def, Turns.of]

theorem classGiven_le (r : Nat) (c : ChargeClass) : s.classGiven r c ≤ ((s.turns r).of c).avail :=
  sum_give_le (turns_total s r c)

theorem sum_stagedShare_le (r : Nat) : (bayNumbers.map (s.stagedShare r (s.turns r))).sum ≤ s.available r := by
  have first : s.classGiven r .first ≤ s.available r := classGiven_le s r .first
  have needed : s.classGiven r .needed ≤ s.available r - s.classGiven r .first := classGiven_le s r .needed
  have topup : s.classGiven r .topup ≤ s.available r - s.classGiven r .first - s.classGiven r .needed :=
    classGiven_le s r .topup
  rw [sum_stagedShare]
  omega

/-! ## The rack after its staging -/

theorem mem_bayNumbers {b : Nat} : b ∈ bayNumbers ↔ b < 64 := List.mem_range

theorem staged_restage {b : Nat} (r : Nat) (hb : b < 64) :
    ((s.restage r).drive r b).staged = s.stagedShare r (s.turns r) b := by
  obtain ⟨t, ht, _, _, _, staged, _⟩ := restage_charge s r
  rw [← ht, staged, if_pos (mem_bayNumbers.mpr hb)]

theorem ports_restage (r : Nat) : (s.restage r).ports =
    if s.available r < s.classTotal r .first ∨ s.available r - s.classTotal r .first < s.classTotal r .needed then
      (s.post (.rackShort r)).ports
    else s.ports := by
  have same : (s.stageBays r (s.stagedShare r (s.turns r)) bayNumbers).ports = s.ports :=
    frame_stageBays s r _ _ .ports (by decide)
  rw [restage_eq]
  simp only [← scaled_turns_iff s r]
  split
  · exact ports_post_congr s same _
  · exact same

/-- Settles O34, by the turns of the three classes. -/
theorem stagingServesTheClassesInOrder : Obligations.StagingServesTheClassesInOrder := by
  refine ⟨fun s r => ?_, fun s r => ⟨?_, fun b hb => ?_⟩⟩
  · have frame := frame_restage s r
    have ports := ports_restage s r
    have staged (b : Nat) (hb : b < 64) := staged_restage s r hb
    obtain ⟨t, ht, drives, limits, others, _⟩ := restage_charge s r
    rw [← ht] at frame ports staged
    refine ⟨t, _, _, _, _, ht, frame, rfl, rfl, rfl, rfl, fun b hb => ?_, ports, others, limits r⟩
    obtain ⟨applied, duty⟩ := drives r b
    rw [staged b hb]
    refine ⟨applied, duty, fun none => ?_, stagedShare_first s, stagedShare_needed s, stagedShare_topup s⟩
    rw [State.stagedShare, none, give_zero]
  · have shares : ((List.range 64).map fun b => ((s.restage r).drive r b).staged) =
        bayNumbers.map (s.stagedShare r (s.turns r)) :=
      List.map_congr_left fun b hb => staged_restage s r (List.mem_range.mp hb)
    rw [shares]
    exact sum_stagedShare_le s r
  · rw [staged_restage s r hb]
    exact ⟨Turn.give_le _ _, stagedShare_le s r _ b⟩

end Sys2Proof.Machine
end

section
/-! PROOFS. What charge a record asks for and in which class (R72, R73), and the promoted set: the best charged of the
candidates, as many as the wanting loans lack (R74). -/

namespace Sys2Proof.Machine

variable (s : State)

/-! ## Demand and class (R72, R73) -/

theorem boundRecord_of_bound {r b i : Nat} {x : Record} (hb : (s.bay r b).state = .occupied ∨ (s.bay r b).state = .leaving)
    (hi : (s.bay r b).bound = some i) (hx : s.record i = some x) : s.boundRecord r b = some (i, x) := by
  unfold State.boundRecord
  dsimp only
  rw [if_pos hb, hi]
  dsimp only
  rw [hx]
  rfl

theorem boundRecord_elsewhere {r b : Nat} (ho : (s.bay r b).state ≠ .occupied) (hl : (s.bay r b).state ≠ .leaving) :
    s.boundRecord r b = none := if_neg (not_or.mpr ⟨ho, hl⟩)

theorem demand_of_boundRecord {r b i : Nat} {x : Record} (h : s.boundRecord r b = some (i, x)) :
    s.demand r b = x.demand := by
  unfold State.demand
  rw [h]

theorem demand_unbound {r b : Nat} (h : s.boundRecord r b = none) : s.demand r b = 0 := by
  unfold State.demand
  rw [h]

theorem Record.demand_charged {x : Record} {c : Nat} (h : x.soc = some c) : x.demand =
    if x.state = .fault ∨ x.state = .retired then 0
    else if x.thermalHold then 0
    else if c = 1000 then 0
    else if c < 800 then 600
    else 40 + 560 * (1000 - c) / 200 := by
  unfold Record.demand
  rw [h]

theorem chargeClass_of_boundRecord {r b i c : Nat} {x : Record} (h : s.boundRecord r b = some (i, x))
    (hc : x.soc = some c) : s.chargeClass r b =
      if x.state = .reserved ∨ x.state = .programming ∨ x.state = .released ∨ i ∈ s.charge.promoted then .first
      else if c < s.settings.readyLevel then .needed
      else .topup := by
  unfold State.chargeClass
  rw [h]
  simp only [hc, Option.getD_some, List.contains_eq_mem, decide_eq_true_eq]

/-! ## A list sorted by a strict order -/

section
variable {α : Type} (before : α → α → Bool)

theorem perm_insertBy (a : α) (l : List α) : (insertBy before a l).Perm (a :: l) := by
  induction l with
  | nil => exact .refl _
  | cons b l ih =>
    unfold insertBy
    split
    · exact .refl _
    · exact (ih.cons b).trans (.swap a b l)

theorem perm_sortBy (l : List α) : (sortBy before l).Perm l := by
  have fold (l : List α) : ∀ acc : List α, (l.foldl (fun acc a => insertBy before a acc) acc).Perm (l ++ acc) := by
    induction l with
    | nil => exact fun acc => .refl acc
    | cons a l ih =>
      exact fun acc => (ih _).trans (((perm_insertBy before a acc).append_left l).trans List.perm_middle)
  exact (fold l []).trans (.of_eq (List.append_nil l))

variable {before} (trans : ∀ a b c, before a b = true → before b c = true → before a c = true)
  (total : ∀ a b, a ≠ b → before a b = true ∨ before b a = true)
include trans total

theorem pairwise_insertBy (a : α) (l : List α) (ha : a ∉ l) (hl : l.Pairwise fun b c => before b c = true) :
    (insertBy before a l).Pairwise fun b c => before b c = true := by
  induction l with
  | nil => exact List.pairwise_singleton _ a
  | cons b l ih =>
    obtain ⟨hb, hl⟩ := List.pairwise_cons.mp hl
    obtain ⟨hab, ha⟩ := not_or.mp fun h => ha (List.mem_cons.mpr h)
    unfold insertBy
    split
    · rename_i h
      refine List.pairwise_cons.mpr ⟨fun c hc => ?_, List.pairwise_cons.mpr ⟨hb, hl⟩⟩
      rcases List.mem_cons.mp hc with rfl | hc
      · exact h
      · exact trans a b c h (hb c hc)
    · rename_i h
      refine List.pairwise_cons.mpr ⟨fun c hc => ?_, ih ha hl⟩
      rcases (mem_insertBy before a c l).mp hc with rfl | hc
      · exact (total c b hab).resolve_left h
      · exact hb c hc

/-- A list without repetitions is sorted with each element before those after it. -/
theorem pairwise_sortBy (l : List α) (h : l.Nodup) : (sortBy before l).Pairwise fun b c => before b c = true := by
  have fold (l : List α) : ∀ acc : List α, (l ++ acc).Nodup → (acc.Pairwise fun b c => before b c = true) →
      (l.foldl (fun acc a => insertBy before a acc) acc).Pairwise fun b c => before b c = true := by
    induction l with
    | nil => exact fun _ _ h => h
    | cons a l ih =>
      intro acc hn hs
      obtain ⟨ha, -⟩ := List.nodup_cons.mp hn
      refine ih _ ?_ (pairwise_insertBy trans total a acc (fun h => ha (List.mem_append_right l h)) hs)
      exact ((List.perm_middle.symm.trans ((perm_insertBy before a acc).append_left l).symm).nodup_iff).mp hn
  exact fold l [] ((List.append_nil l).symm ▸ h) .nil

/-- The first elements of such a list stand before all others of it. -/
theorem before_of_mem_take_sortBy {l : List α} (h : l.Nodup) {n : Nat} {a b : α} (ha : a ∈ (sortBy before l).take n)
    (hb : b ∈ l) (hn : b ∉ (sortBy before l).take n) : before a b = true := by
  have sorted := pairwise_sortBy trans total l h
  rw [← List.take_append_drop n (sortBy before l)] at sorted
  have rest : b ∈ (sortBy before l).drop n := by
    have all := (mem_sortBy before l b).mpr hb
    rw [← List.take_append_drop n (sortBy before l)] at all
    exact (List.mem_append.mp all).resolve_left hn
  exact (List.pairwise_append.mp sorted).2.2 a ha b rest

end

/-! ## The promoted set (R74) -/

theorem chargedMore_iff (a b : Nat) :
    s.chargedMore a b = true ↔ s.socOf b < s.socOf a ∨ (s.socOf a = s.socOf b ∧ a < b) := by
  simp [State.chargedMore]

theorem chargedMore_trans (a b c : Nat) (hab : s.chargedMore a b = true) (hbc : s.chargedMore b c = true) :
    s.chargedMore a c = true := by
  rw [chargedMore_iff] at *
  omega

theorem chargedMore_total (a b : Nat) (h : a ≠ b) : s.chargedMore a b = true ∨ s.chargedMore b a = true := by
  rw [chargedMore_iff, chargedMore_iff]
  omega

theorem totalShortfall_eq :
    s.totalShortfall = (s.loans.wanting.map fun id => ((s.loan id).map (·.shortfall)).getD 0).sum := by
  unfold State.totalShortfall
  refine congrArg List.sum (List.map_congr_left fun id _ => ?_)
  cases s.loan id <;> rfl

theorem candidate_of_record {i : Nat} {x : Record} (h : s.record i = some x) :
    s.candidate i = true ↔ x.state = .docked ∧ x.thermalHold = false ∧ s.excluded i = false := by
  unfold State.candidate
  rw [h]
  simp [and_assoc]

theorem record_of_candidate {i : Nat} (h : s.candidate i = true) : i ∈ s.recordIndices := by
  cases hx : s.record i with
  | none => simp [State.candidate, hx] at h
  | some x => exact mem_recordIndices_of_record s hx

/-- The candidates, ascending. -/
def State.candidates (s : State) : List Nat := s.recordIndices.filter s.candidate

theorem mem_candidates (i : Nat) : i ∈ s.candidates ↔ s.candidate i = true :=
  List.mem_filter.trans (and_iff_right_of_imp (record_of_candidate s))

/-- The S candidates of highest charge, best charged first. -/
def State.bestCandidates (s : State) : List Nat := (sortBy s.chargedMore s.candidates).take s.totalShortfall

/-- The promoted set is the best candidates in ascending order, none of them where no loan lacks a receiver. -/
theorem promotedSet_eq : s.promotedSet = s.recordIndices.filter (s.bestCandidates.contains ·) := by
  unfold State.promotedSet
  dsimp only
  split
  · rename_i h
    rw [State.bestCandidates, h]
    simp
  · rfl

theorem candidate_of_mem_bestCandidates {i : Nat} (h : i ∈ s.bestCandidates) : s.candidate i = true :=
  (mem_candidates s i).mp ((mem_sortBy _ _ _).mp (List.mem_of_mem_take h))

theorem mem_promotedSet (i : Nat) : i ∈ s.promotedSet ↔ i ∈ s.bestCandidates := by
  rw [promotedSet_eq, List.mem_filter, List.contains_iff_mem]
  exact and_iff_right_of_imp fun h => record_of_candidate s (candidate_of_mem_bestCandidates s h)

variable {s}

theorem nodup_recordIndices (h : s.Canonical) : s.recordIndices.Nodup :=
  (Table.keys_rise _ none _ h.records).1.imp Nat.ne_of_lt

theorem nodup_candidates (h : s.Canonical) : s.candidates.Nodup := (nodup_recordIndices h).filter _

theorem nodup_promotedSet (h : s.Canonical) : s.promotedSet.Nodup := by
  rw [promotedSet_eq]
  exact (nodup_recordIndices h).filter _

theorem nodup_bestCandidates (h : s.Canonical) : s.bestCandidates.Nodup :=
  (((perm_sortBy s.chargedMore s.candidates).nodup_iff).mpr (nodup_candidates h)).sublist (List.take_sublist _ _)

theorem length_promotedSet (h : s.Canonical) : s.promotedSet.length = min s.totalShortfall s.candidates.length := by
  have perm : s.promotedSet.Perm s.bestCandidates :=
    (List.perm_ext_iff_of_nodup (nodup_promotedSet h) (nodup_bestCandidates h)).mpr (mem_promotedSet s)
  rw [perm.length_eq, State.bestCandidates, List.length_take, (perm_sortBy s.chargedMore s.candidates).length_eq]

/-- A candidate left out is charged less than each promoted one, or as much at a higher index. -/
theorem chargedMore_of_promoted (h : s.Canonical) {i j : Nat} (hi : i ∈ s.promotedSet) (hj : s.candidate j = true)
    (hn : j ∉ s.promotedSet) : s.chargedMore i j = true :=
  before_of_mem_take_sortBy (chargedMore_trans s) (chargedMore_total s) (nodup_candidates h) ((mem_promotedSet s i).mp hi)
    ((mem_candidates s j).mpr hj) fun k => hn ((mem_promotedSet s j).mpr k)

/-- Settles O33; the promoted set is a front of the candidates sorted by charge. -/
theorem chargeClassesFollowTheRecords : Obligations.ChargeClassesFollowTheRecords := by
  refine ⟨fun s r b => ⟨fun ho hl => demand_unbound s (boundRecord_elsewhere s ho hl), fun i x c hb hi hx hc _ => ?_⟩,
    fun s r b i x c hb hi hx hc => chargeClass_of_boundRecord s (boundRecord_of_bound s hb hi hx) hc,
    fun s h => ⟨nodup_promotedSet h, fun i hi => ?_, length_promotedSet h, totalShortfall_eq s, fun i j hi hj hn => ?_,
      fun i x hx => candidate_of_record s hx⟩⟩
  · exact (demand_of_boundRecord s (boundRecord_of_bound s hb hi hx)).trans (Record.demand_charged hc)
  · exact candidate_of_mem_bestCandidates s ((mem_promotedSet s i).mp hi)
  · exact (chargedMore_iff s i j).mp (chargedMore_of_promoted h hi hj hn)

end Sys2Proof.Machine
end

section
/-! PROOFS. RACK_LIMIT and DL_SLOTS (R80, R158): the rack staged at the write of its limit, and the free slots that a new split
makes handed to the wait queues (R141, R152). -/

namespace Sys2Proof.Machine

variable (s : State)

/-! ## RACK_LIMIT (R80) -/

/-- The end of an event leaves the limits of every rack. -/
theorem limits_finish (before : State) (l : List Nat) (k : Nat) :
    ((State.finish before s l).rackCharge k).stagedLimit = (s.rackCharge k).stagedLimit ∧
    ((State.finish before s l).rackCharge k).appliedLimit = (s.rackCharge k).appliedLimit := by
  rw [State.finish]
  have handed := State.ChangesOnly.foldl _ frame_handOver rackNumbers s .charge (by decide)
  generalize rackNumbers.foldl State.handOver s = w at handed
  have same : (State.finishFloors before w).charge = s.charge := handed.trans (frame_finishFloors w before .charge (by decide))
  generalize State.finishFloors before w = u at same
  obtain ⟨t, ht, _, _, _, _, limits⟩ := settleCharge_spec u before l
  rw [← ht, ← rackCharge_congr same]
  exact limits k

/-- The racks that the end of an event stages again (R75, R76). -/
def State.restaged (before s : State) (l : List Nat) : List Nat :=
  if s.promotedSet = s.charge.promoted then rackNumbers.filter fun r => l.contains r || State.rackDirty before s r
  else rackNumbers

theorem settleCharge_restaged (before : State) (l : List Nat) : State.settleCharge before s l =
    (State.restaged before s l).foldl State.restage { s with charge := { s.charge with promoted := s.promotedSet } } := rfl

theorem mem_restaged_of_named {before : State} {l : List Nat} {k : Nat} (hk : k < 4) (hm : k ∈ l) :
    k ∈ State.restaged before s l := by
  unfold State.restaged
  split
  · exact List.mem_filter.mpr ⟨mem_rackNumbers hk, by simp [hm]⟩
  · exact mem_rackNumbers hk

theorem nodup_restaged (before : State) (l : List Nat) : (State.restaged before s l).Nodup := by
  have all : rackNumbers.Nodup := by decide
  unfold State.restaged
  split
  · exact all.filter _
  · exact all

/-- A rack that an event names is left with its shares (R76, R77). -/
theorem staged_finish_of_named {before : State} {l : List Nat} {k b : Nat} (hk : k < 4) (hm : k ∈ l) (hb : b < 64) :
    ((State.finish before s l).drive k b).staged =
      (State.finish before s l).stagedShare k ((State.finish before s l).turns k) b := by
  rw [State.finish, settleCharge_restaged]
  generalize State.finishFloors before (rackNumbers.foldl State.handOver s) = u
  have named := mem_restaged_of_named u (before := before) hk hm
  have once := nodup_restaged u before l
  generalize State.restaged before u l = rs at named once
  generalize ({ u with charge := { u.charge with promoted := u.promotedSet } } : State) = w
  have frame := State.ChangesOnly.foldl _ frame_restage rs w
  obtain ⟨_, promoted, _, _, limits⟩ := restages_spec rs w
  obtain ⟨turns, share⟩ := turns_congr w (t := rs.foldl State.restage w) k (frame .records (by decide))
    (frame .scan (by decide)) (frame .settings (by decide)) promoted (limits k).1 (w.turns k) b
  rw [staged_restages rs once w k b named (mem_bayNumbers.mpr hb), turns, share]

/-- A rack's staged limit written (R80). -/
def State.stageLimit (s : State) (r n : Nat) : State := s.setRackCharge r { s.rackCharge r with stagedLimit := n }

theorem stagedLimit_stageLimit (r n k : Nat) : ((s.stageLimit r n).rackCharge k).stagedLimit =
    if k = r then n else (s.rackCharge k).stagedLimit := by
  rw [State.stageLimit, rackCharge_setRackCharge]
  by_cases h : k = r
  · subst h; simp
  · simp [h, Ne.symm h]

theorem appliedLimit_stageLimit (r n k : Nat) :
    ((s.stageLimit r n).rackCharge k).appliedLimit = (s.rackCharge k).appliedLimit := by
  rw [State.stageLimit, rackCharge_setRackCharge]
  split
  · rename_i h; rw [h]
  · rfl

theorem setRackLimit_bad {r : Nat} (h : 3 < r) (v : Nat) : s.setRackLimit r v = s.no .badRequest := if_pos h

theorem setRackLimit_good {r : Nat} (h : r ≤ 3) (v : Nat) : s.setRackLimit r v =
    (State.finish s (s.stageLimit r (min 16000 v / 50 * 50)) [r]).ok (bytes2 (min 16000 v / 50 * 50)) := by
  have fitted : fit 0 16000 v = min 16000 v := Nat.zero_max _
  unfold State.setRackLimit
  rw [if_neg (Nat.not_lt.mpr h), fitted]
  rfl

theorem rackLimit_takes {l : Link} {r v : Nat} (h : s.Takes (.setSettingRackLimit l r v) l) :
    exec (.setSettingRackLimit l r v) s = .next (State.respond l (s.setRackLimit r v)) := serveWrite_of_takes h rfl _

/-! ## The free slots of the next plan (R152, R155) -/

/-- The lowest free downlink slot. -/
theorem freeDownlink_eq_some (i : Nat) : s.freeDownlink = some i ↔
    i < 64 ∧ i < s.air.nextPlan.split ∧ s.entry i = .free ∧ ∀ j, j < i → s.entry j ≠ .free := by
  unfold State.freeDownlink slotNumbers
  simp only [List.find?_range_eq_some, Bool.and_eq_true, decide_eq_true_eq, beq_iff_eq, List.mem_range, Bool.not_eq_true',
    Bool.and_eq_false_iff, decide_eq_false_iff_not, beq_eq_false_iff_ne]
  constructor
  · rintro ⟨⟨below, free⟩, listed, lower⟩
    exact ⟨listed, below, free, fun j hj => (lower j hj).resolve_left fun h => h (Nat.lt_trans hj below)⟩
  · rintro ⟨listed, below, free, lower⟩
    exact ⟨⟨below, free⟩, listed, fun j hj => .inr (lower j hj)⟩

/-- Every held slot fits a split exactly where no entry stands on the wrong side of it. -/
theorem slotsFit_iff (n : Nat) : s.slotsFit n = true ↔ ∀ i, (s.entry i).FitsAt n i := by
  refine ⟨fitsAt_of_slotsFit (s := s), fun h => List.all_eq_true.mpr fun i _ => ?_⟩
  have fits := h i
  revert fits
  cases s.entry i <;> simp [Entry.FitsAt]

/-! ## The downlink wait queue is served (R158) -/

theorem serveDownlink_done (n : Nat) (h : s.air.downlinkQueue = [] ∨ s.freeDownlink = none) : serveDownlink n s = s := by
  cases n with
  | zero => rfl
  | succ n =>
    rw [serveDownlink]
    split
    · rename_i q rest i hq hi
      rcases h with h | h
      · rw [h] at hq; cases hq
      · rw [h] at hi; cases hi
    · rfl

theorem serveDownlink_next (n : Nat) {q i : Nat} {rest : List Nat} (hq : s.air.downlinkQueue = q :: rest)
    (hi : s.freeDownlink = some i) : serveDownlink (n + 1) s =
      serveDownlink n ((s.setDownlinkQueue rest).setEntry i (.down q (s.sourceOf q))) := by
  rw [serveDownlink, hq, hi]
  rfl

/-- A service as long as the queue ends with the queue empty or no slot free. -/
theorem serveDownlink_serves (n : Nat) : ∀ s : State, s.air.downlinkQueue.length ≤ n →
    (serveDownlink n s).air.downlinkQueue = [] ∨ (serveDownlink n s).freeDownlink = none := by
  induction n with
  | zero => exact fun s h => .inl (List.length_eq_zero_iff.mp (Nat.le_zero.mp h))
  | succ n ih =>
    intro s h
    cases hq : s.air.downlinkQueue with
    | nil => exact .inl ((serveDownlink_done s _ (.inl hq)).symm ▸ hq)
    | cons q rest =>
      cases hi : s.freeDownlink with
      | none => exact .inr ((serveDownlink_done s _ (.inr hi)).symm ▸ hi)
      | some i =>
        rw [serveDownlink_next s n hq hi]
        rw [hq] at h
        exact ih _ (Nat.le_of_succ_le_succ h)

/-! ## The uplink wait queue is served (R141) -/

theorem queue_leaveUplinkQueue_le (p : Nat) :
    (s.leaveUplinkQueue p).floor.uplinkQueue.length ≤ s.floor.uplinkQueue.length := List.length_filter_le _ _

theorem uplinkQueue_holdTop (p : Nat) : (s.holdTop p).floor.uplinkQueue = s.floor.uplinkQueue := by
  unfold State.holdTop
  split <;> rfl

theorem uplinkQueue_pushHead (p m : Nat) : (s.pushHead p m).floor.uplinkQueue = s.floor.uplinkQueue :=
  uplinkQueue_holdTop s p

theorem queue_pushCascade_le (p : Nat) : (s.pushCascade p).floor.uplinkQueue.length ≤ s.floor.uplinkQueue.length := by
  unfold State.pushCascade
  dsimp only
  split
  · exact Nat.le_refl _
  · refine Nat.le_trans (queue_leaveUplinkQueue_le _ p) (Nat.le_of_eq ?_)
    rw [uplinkQueue_setFloor, uplinkQueue_holdTop]

theorem queue_pushCascades_le : s.pushCascades.floor.uplinkQueue.length ≤ s.floor.uplinkQueue.length := by
  unfold State.pushCascades
  generalize tourProgrammes = ps
  induction ps generalizing s with
  | nil => exact Nat.le_refl _
  | cons p ps ih =>
    refine Nat.le_trans (ih _) ?_
    dsimp only
    split
    · exact queue_pushCascade_le s p
    · exact Nat.le_refl _

theorem queue_grantSlot_le (p m i : Nat) :
    (s.grantSlot p m i).floor.uplinkQueue.length ≤ s.floor.uplinkQueue.length := by
  have granted : (((s.setEntry i (.up p m)).pushHead p m).leaveUplinkQueue p).floor.uplinkQueue.length ≤
      s.floor.uplinkQueue.length :=
    Nat.le_trans (queue_leaveUplinkQueue_le _ p) (Nat.le_of_eq (congrArg List.length (uplinkQueue_pushHead _ p m)))
  unfold State.grantSlot
  dsimp only
  split
  · exact Nat.le_trans (queue_pushCascades_le _) granted
  · exact granted

/-- With an uplink slot free, evaluating a floor lets no programme into the uplink wait queue. -/
theorem queue_reevaluate_le (p : Nat) (h : s.freeUplink ≠ none) :
    (s.reevaluate p).floor.uplinkQueue.length ≤ s.floor.uplinkQueue.length := by
  unfold State.reevaluate
  split
  · exact queue_leaveUplinkQueue_le s p
  · split
    · exact Nat.le_of_eq (congrArg List.length (uplinkQueue_pushHead s p _))
    · split
      · exact queue_grantSlot_le s p _ _
      · exact absurd ‹_› h

theorem serveUplink_done (n : Nat) (h : s.floor.uplinkQueue = [] ∨ s.freeUplink = none) : serveUplink n s = s := by
  cases n with
  | zero => rfl
  | succ n =>
    rw [serveUplink]
    split
    · rfl
    · rename_i q rest hq
      rcases h with h | h
      · rw [h] at hq; cases hq
      · rw [h]; rfl

theorem serveUplink_next (n : Nat) {q : Nat} {rest : List Nat} (hq : s.floor.uplinkQueue = q :: rest)
    (hi : s.freeUplink ≠ none) : serveUplink (n + 1) s = serveUplink n ((s.setUplinkQueue rest).reevaluate q) := by
  rw [serveUplink, hq]
  exact if_pos (Option.isSome_iff_ne_none.mpr hi)

/-- A service as long as the queue ends with the queue empty or no slot free. -/
theorem serveUplink_serves (n : Nat) : ∀ s : State, s.floor.uplinkQueue.length ≤ n →
    (serveUplink n s).floor.uplinkQueue = [] ∨ (serveUplink n s).freeUplink = none := by
  induction n with
  | zero => exact fun s h => .inl (List.length_eq_zero_iff.mp (Nat.le_zero.mp h))
  | succ n ih =>
    intro s h
    cases hq : s.floor.uplinkQueue with
    | nil => exact .inl ((serveUplink_done s _ (.inl hq)).symm ▸ hq)
    | cons q rest =>
      by_cases hi : s.freeUplink = none
      · exact .inr ((serveUplink_done s _ (.inr hi)).symm ▸ hi)
      · rw [serveUplink_next s n hq hi]
        rw [hq] at h
        exact ih _ (Nat.le_trans (queue_reevaluate_le (s.setUplinkQueue rest) q hi) (Nat.le_of_succ_le_succ h))

/-! ## What a service and the end of an event leave of the frame (R148, R151) -/

/-- The split of the next plan, that of the frame and the current plan are the same. -/
def SameFrame (s t : State) : Prop :=
  t.air.nextPlan.split = s.air.nextPlan.split ∧ t.air.frameSplit = s.air.frameSplit ∧ t.air.currentPlan = s.air.currentPlan

variable {s}

theorem SameFrame.of_air {t : State} (h : t.air = s.air) : SameFrame s t := by
  unfold SameFrame
  rw [h]
  exact ⟨rfl, rfl, rfl⟩

theorem SameFrame.trans {t u : State} (h : SameFrame s t) (k : SameFrame t u) : SameFrame s u :=
  ⟨k.1.trans h.1, k.2.1.trans h.2.1, k.2.2.trans h.2.2⟩

variable (s)

theorem sameFrame_setEntry (i : Nat) (e : Entry) : SameFrame s (s.setEntry i e) := ⟨rfl, rfl, rfl⟩

theorem sameFrame_serveDownlink (n : Nat) : ∀ s : State, SameFrame s (serveDownlink n s) := by
  induction n with
  | zero => exact fun s => .of_air rfl
  | succ n ih =>
    intro s
    unfold serveDownlink
    split
    · exact SameFrame.trans ⟨rfl, rfl, rfl⟩ (ih _)
    · exact .of_air rfl

theorem sameFrame_grantSlot (p m i : Nat) : SameFrame s (s.grantSlot p m i) := by
  have entered : SameFrame s (((s.setEntry i (.up p m)).pushHead p m).leaveUplinkQueue p) :=
    (sameFrame_setEntry s i (.up p m)).trans
      (.of_air (((frame_pushHead _ p m).trans (frame_leaveUplinkQueue _ p)) .air (by decide)))
  unfold State.grantSlot
  dsimp only
  split
  · exact entered.trans (.of_air (frame_pushCascades _ .air (by decide)))
  · exact entered

theorem sameFrame_reevaluate (p : Nat) : SameFrame s (s.reevaluate p) := by
  unfold State.reevaluate
  split
  · exact .of_air rfl
  · split
    · exact .of_air (frame_pushHead s p _ .air (by decide))
    · split
      · exact sameFrame_grantSlot s p _ _
      · split
        · exact .of_air rfl
        · exact .of_air rfl

theorem sameFrame_serveUplink (n : Nat) : ∀ s : State, SameFrame s (serveUplink n s) := by
  induction n with
  | zero => exact fun s => .of_air rfl
  | succ n ih =>
    intro s
    unfold serveUplink
    split
    · exact .of_air rfl
    · rename_i q rest _
      split
      · exact (SameFrame.trans (.of_air rfl) (sameFrame_reevaluate (s.setUplinkQueue rest) q)).trans (ih _)
      · exact .of_air rfl

theorem sameFrame_finishFloors (before : State) : SameFrame s (State.finishFloors before s) := by
  obtain ⟨air, split⟩ := syncPlan_air s
  have synced : SameFrame s s.syncPlan := ⟨split, by rw [air], by rw [air]⟩
  exact synced.trans (.of_air (frame_postFloorChanges s.syncPlan before .air (by decide)))

/-! ## DL_SLOTS (R158) -/

/-- The wait queue of the half that a new split has enlarged is served. -/
def State.serveNewSlots (s u : State) (d : Nat) : State :=
  if s.air.nextPlan.split < d then serveDownlink s.air.downlinkQueue.length u
  else if d < s.air.nextPlan.split then u.offerUplink
  else u

theorem frame_serveNewSlots (u : State) (d : Nat) : u.ChangesOnly (s.serveNewSlots u d) [.air, .floor] :=
  .ite _ ((frame_serveDownlink _ u).mono (by decide)) (.ite _ ((frame_offerUplink u).mono (by decide)) (.refl u _))

theorem sameFrame_serveNewSlots (u : State) (d : Nat) : SameFrame u (s.serveNewSlots u d) := by
  unfold State.serveNewSlots
  split
  · exact sameFrame_serveDownlink _ u
  · split
    · exact sameFrame_serveUplink _ u
    · exact .of_air rfl

theorem serveNewSlots_raised {d : Nat} (h : s.air.nextPlan.split < d) :
    (s.serveNewSlots (s.setSplit d) d).air.downlinkQueue = [] ∨ (s.serveNewSlots (s.setSplit d) d).freeDownlink = none := by
  rw [State.serveNewSlots, if_pos h]
  exact serveDownlink_serves _ (s.setSplit d) (Nat.le_refl _)

theorem serveNewSlots_lowered {d : Nat} (h : d < s.air.nextPlan.split) :
    (s.serveNewSlots (s.setSplit d) d).floor.uplinkQueue = [] ∨ (s.serveNewSlots (s.setSplit d) d).freeUplink = none := by
  rw [State.serveNewSlots, if_neg (Nat.lt_asymm h), if_pos h]
  exact serveUplink_serves _ (s.setSplit d) (Nat.le_refl _)

theorem setDlSlots_busy {v : Nat} (h : ∃ i, ¬(s.entry i).FitsAt (max 16 (min 56 v)) i) : s.setDlSlots v = s.no .busy := by
  obtain ⟨i, h⟩ := h
  exact if_neg fun k => h ((slotsFit_iff s _).mp k i)

theorem setDlSlots_fits {v : Nat} (h : ∀ i, (s.entry i).FitsAt (max 16 (min 56 v)) i) : s.setDlSlots v =
    (State.finishFloors s (s.serveNewSlots (s.setSplit (max 16 (min 56 v))) (max 16 (min 56 v)))).ok
      (bytes2 (max 16 (min 56 v))) :=
  if_pos ((slotsFit_iff s _).mpr h)

theorem dlSlots_takes {l : Link} {r v : Nat} (h : s.Takes (.setSettingDlSlots l r v) l) :
    exec (.setSettingDlSlots l r v) s = .next (State.respond l (s.setDlSlots v)) := serveWrite_of_takes h rfl _

/-- Settles O20; a service of a queue is as long as the queue, which it never lengthens. -/
theorem limitsAndSplitWaitForABoundary : Obligations.LimitsAndSplitWaitForABoundary := by
  refine ⟨fun s l r v h => ⟨fun hr => ?_, fun hr => ?_⟩, fun s l r v d h hd => ⟨fun misfit => ?_, fun fits => ?_⟩,
    fun s n => ⟨freeDownlink_eq_some s, serveDownlink_done s n, fun q rest i => serveDownlink_next s n⟩,
    fun s n => ⟨rfl, serveUplink_done s n, fun q rest => serveUplink_next s n⟩⟩
  · rw [rackLimit_takes s h, setRackLimit_bad s hr, respond_no]
  · generalize hw : min 16000 v / 50 * 50 = n
    have limits (k : Nat) := limits_finish (s.stageLimit r n) s [r] k
    refine ⟨State.finish s (s.stageLimit r n) [r], ?_, ?_, fun k hk => ?_, fun k => ?_, fun b hb => ?_, ?_, ?_⟩
    · rw [rackLimit_takes s h, setRackLimit_good s hr, hw, respond_ok]
    · rw [(limits r).1, stagedLimit_stageLimit, if_pos rfl]
    · rw [(limits k).1, stagedLimit_stageLimit, if_neg hk]
    · rw [(limits k).2, appliedLimit_stageLimit]
    · exact staged_finish_of_named _ (Nat.lt_succ_of_le hr) (List.mem_singleton_self r) hb
    · exact ((frame_setRackCharge s r _).mono (by decide)).trans (frame_finish _ s [r])
    · exact postsOnly_finish (s.stageLimit r n) [r] rfl rfl
  · subst hd
    rw [dlSlots_takes s h, setDlSlots_busy s misfit, respond_no]
  · have takes := dlSlots_takes s h
    rw [setDlSlots_fits s (hd ▸ fits), ← hd, respond_ok] at takes
    have frame := frame_serveNewSlots s (s.setSplit d) d
    obtain ⟨split, frameSplit, currentPlan⟩ :=
      (sameFrame_serveNewSlots s (s.setSplit d) d).trans (sameFrame_finishFloors _ s)
    refine ⟨s.setSplit d, s.serveNewSlots (s.setSplit d) d, _, rfl, rfl, rfl, takes, serveNewSlots_raised s,
      serveNewSlots_lowered s, split, frameSplit, currentPlan, ?_, ?_⟩
    · exact (((frame_setSplit s d).mono (by decide)).trans (frame.mono (by decide))).trans
        ((frame_finishFloors _ s).mono (by decide))
    · exact (State.PostsOnly.of_ports _ (frame .ports (by decide))).trans (postsOnly_finishFloors _ s)

end Sys2Proof.Machine
end

section
/-! PROOFS. Selection (R107): the order that ranks the eligible records, and the front of the records so ranked that
joins the loan. -/

namespace Sys2Proof.Machine

variable (s : State)

/-! ## Eligibility and rank -/

theorem eligible_iff (l : Loan) (i : Nat) : s.eligible l i = true ↔
    (∃ x, s.record i = some x ∧ x.state = .ready) ∧ i ∉ l.passed ∧ (l.reserve = true ∨ s.excluded i = false) := by
  simp [State.eligible, recordIs_iff, and_assoc]

/-- Outside the exclusion set before inside it, then by charge, then by index. -/
theorem ranksBefore_iff (i j : Nat) : s.ranksBefore i j = true ↔
    (s.excluded i = false ∧ s.excluded j = true) ∨
    (s.excluded i = s.excluded j ∧ (s.socOf j < s.socOf i ∨ (s.socOf i = s.socOf j ∧ i < j))) := by
  unfold State.ranksBefore
  split
  · rename_i h
    simp [h]
  · rename_i h
    simp [Bool.eq_not.mpr h]

/-- Within a part of the exclusion set the rank is the order by charge. -/
theorem ranksBefore_iff_chargedMore (i j : Nat) : s.ranksBefore i j = true ↔
    (s.excluded i = false ∧ s.excluded j = true) ∨ (s.excluded i = s.excluded j ∧ s.chargedMore i j = true) := by
  rw [ranksBefore_iff, chargedMore_iff]

theorem ranksBefore_trans (a b c : Nat) (hab : s.ranksBefore a b = true) (hbc : s.ranksBefore b c = true) :
    s.ranksBefore a c = true := by
  rw [ranksBefore_iff_chargedMore] at *
  obtain ⟨ha, hb⟩ | ⟨ha, hab⟩ := hab <;> obtain ⟨hb', hc⟩ | ⟨hb', hbc⟩ := hbc
  · exact absurd (hb.symm.trans hb') (by decide)
  · exact .inl ⟨ha, hb'.symm.trans hb⟩
  · exact .inl ⟨ha.trans hb', hc⟩
  · exact .inr ⟨ha.trans hb', chargedMore_trans s a b c hab hbc⟩

theorem ranksBefore_total (a b : Nat) (h : a ≠ b) : s.ranksBefore a b = true ∨ s.ranksBefore b a = true := by
  rw [ranksBefore_iff_chargedMore, ranksBefore_iff_chargedMore]
  have charge := chargedMore_total s a b h
  cases ha : s.excluded a <;> cases hb : s.excluded b
  case false.true => exact .inl (.inl ⟨rfl, rfl⟩)
  case true.false => exact .inr (.inl ⟨rfl, rfl⟩)
  all_goals exact charge.imp (fun k => .inr ⟨rfl, k⟩) (fun k => .inr ⟨rfl, k⟩)

/-! ## The records taken -/

/-- The records eligible for a loan, ascending. -/
def State.eligibles (s : State) (l : Loan) : List Nat := s.recordIndices.filter (s.eligible l)

theorem mem_eligibles (l : Loan) (i : Nat) : i ∈ s.eligibles l ↔ s.eligible l i = true := by
  refine List.mem_filter.trans (and_iff_right_of_imp fun h => ?_)
  obtain ⟨⟨x, hx, -⟩, -⟩ := (eligible_iff s l i).mp h
  exact mem_recordIndices_of_record s hx

/-- The eligible records of highest rank, best first, at most `k` of them. -/
def State.bestRanked (s : State) (l : Loan) (k : Nat) : List Nat := (sortBy s.ranksBefore (s.eligibles l)).take k

theorem select_eq {id : Nat} {l : Loan} (h : s.loan id = some l) (k : Nat) :
    s.select id k = (s.bestRanked l k).foldl (fun t i => t.joinLoan id i) s := by
  unfold State.select
  rw [h]
  rfl

theorem eligible_of_mem_bestRanked {l : Loan} {k i : Nat} (h : i ∈ s.bestRanked l k) : s.eligible l i = true :=
  (mem_eligibles s l i).mp ((mem_sortBy _ _ _).mp (List.mem_of_mem_take h))

theorem length_bestRanked (l : Loan) (k : Nat) : (s.bestRanked l k).length = min k (s.eligibles l).length := by
  rw [State.bestRanked, List.length_take, (perm_sortBy s.ranksBefore (s.eligibles l)).length_eq]

section
variable {s} (hc : s.Canonical) (l : Loan) (k : Nat)
include hc

theorem nodup_eligibles : (s.eligibles l).Nodup := (nodup_recordIndices hc).filter _

theorem nodup_bestRanked : (s.bestRanked l k).Nodup :=
  (((perm_sortBy s.ranksBefore (s.eligibles l)).nodup_iff).mpr (nodup_eligibles hc l)).sublist (List.take_sublist _ _)

theorem pairwise_bestRanked : (s.bestRanked l k).Pairwise fun i j => s.ranksBefore i j = true :=
  (pairwise_sortBy (ranksBefore_trans s) (ranksBefore_total s) _ (nodup_eligibles hc l)).sublist (List.take_sublist _ _)

/-- An eligible record left out ranks behind each one taken. -/
theorem ranksBefore_of_bestRanked {i j : Nat} (hi : i ∈ s.bestRanked l k) (hj : s.eligible l j = true)
    (hn : j ∉ s.bestRanked l k) : s.ranksBefore i j = true :=
  before_of_mem_take_sortBy (ranksBefore_trans s) (ranksBefore_total s) (nodup_eligibles hc l) hi
    ((mem_eligibles s l j).mpr hj) hn

end

/-- Settles O42: selection takes a front of the eligible records sorted by rank. -/
theorem selectionTakesTheBestRanked : Obligations.SelectionTakesTheBestRanked := fun s _ k l hc hl =>
  ⟨s.bestRanked l k, select_eq s hl k, nodup_bestRanked hc l k, fun _ => eligible_of_mem_bestRanked s,
    length_bestRanked s l k, pairwise_bestRanked hc l k, fun _ _ => ranksBefore_of_bestRanked hc l k,
    eligible_iff s l, ranksBefore_iff s⟩

end Sys2Proof.Machine
end

section
/-! PROOFS. ISSUE and ADD (R111 to R113, R117): the tests in order, and the loan created or raised and filled by
selection. -/

namespace Sys2Proof.Machine

variable (s : State)

/-! ## The loan filled, and the wanting queue (R113) -/

theorem enterWanting_held {id : Nat} {y : Loan} (h : s.loan id = some y) : s.enterWanting id =
    if 0 < y.shortfall ∧ id ∉ s.loans.wanting then (s.setWanting (s.loans.wanting ++ [id])).post (.loanWanting id)
    else s := by
  unfold State.enterWanting
  rw [h]

/-- A loan just written is filled up to the shortfall it was written with. -/
theorem fill_setLoan (id : Nat) (y : Loan) : (s.setLoan id (some y)).fill id =
    ((s.setLoan id (some y)).select id y.shortfall).enterWanting id := by
  unfold State.fill
  rw [loan_setLoan, if_pos rfl]

/-! ## The lowest free loan ID (R112) -/

theorem loanNumbers_eq : (List.range 129).drop 1 = List.range' 1 128 := by
  rw [List.range_eq_range', List.drop_range']

theorem freeLoan_eq_some {id : Nat} (h1 : 1 ≤ id) (h2 : id ≤ 128) (hf : s.loan id = none)
    (hl : ∀ k, 1 ≤ k → k < id → s.loan k ≠ none) : s.freeLoan = some id := by
  unfold State.freeLoan
  rw [loanNumbers_eq, List.find?_range'_eq_some]
  refine ⟨by rw [hf]; rfl, List.mem_range'_1.mpr (by omega), fun k hk hlt => ?_⟩
  simpa [Option.isSome_iff_ne_none] using hl k hk hlt

theorem freeLoan_eq_none (hl : ∀ id, 1 ≤ id → id ≤ 128 → s.loan id ≠ none) : s.freeLoan = none := by
  unfold State.freeLoan
  rw [loanNumbers_eq, List.find?_eq_none]
  intro id hid
  have bounds := List.mem_range'_1.mp hid
  simpa using hl id bounds.1 (by omega)

/-! ## ISSUE (R111, R112) -/

theorem issue_bad {t p n : Nat} {f : Bool} (h : t = 0 ∨ 32 < t ∨ 63 < p ∨ n = 0 ∨ 64 < n) :
    s.issue t p n f = s.no .badRequest := if_pos h

section
variable {t p n : Nat} {f : Bool} (hargs : ¬(t = 0 ∨ 32 < t ∨ 63 < p ∨ n = 0 ∨ 64 < n))
include hargs

theorem issue_closed (h : (s.tour t).state ≠ .opened) : s.issue t p n f = s.no .busy := by
  unfold State.issue
  rw [if_neg hargs, if_pos h]

variable (hopen : (s.tour t).state = .opened)
include hopen

theorem issue_foreign (h : p ∉ (s.tour t).programmes) : s.issue t p n f = s.no .notFound := by
  unfold State.issue
  rw [if_neg hargs, if_neg (fun k => k hopen), if_pos h]

variable (hp : p ∈ (s.tour t).programmes)
include hp

theorem issue_full (h : s.freeLoan = none) : s.issue t p n f = s.no .full := by
  unfold State.issue
  rw [if_neg hargs, if_neg (fun k => k hopen), if_neg (fun k => k hp), h]

/-- The loan is created with its whole count as shortfall and filled (R112, R113). -/
theorem issue_created {id minutes : Nat} (hid : s.freeLoan = some id) (hm : (s.tour t).duration = some minutes) :
    ∃ (due : Nat) (u v : State), due = min 4294967295 (s.age.clock + minutes * 60) ∧
      u = s.setLoan id (some (newLoan t p n f due)) ∧
      v = State.finish s ((u.select id n).enterWanting id) [] ∧
      s.issue t p n f = v.ok (bytes1 id ++ bytes1 (v.outstandingOf id).length ++ bytes4 due) := by
  refine ⟨_, _, _, rfl, rfl, rfl, ?_⟩
  unfold State.issue
  rw [if_neg hargs, if_neg (fun k => k hopen), if_neg (fun k => k hp), hid]
  dsimp only
  rw [hm, Option.getD_some, fill_setLoan]
  rfl

end

/-! ## ADD (R117) -/

theorem addToLoan_bad {id n : Nat} (h : id = 0 ∨ 128 < id ∨ n = 0 ∨ 64 < n) : s.addToLoan id n = s.no .badRequest :=
  if_pos h

theorem addNames_bad {id n : Nat} (h : id = 0 ∨ 128 < id ∨ n = 0 ∨ 64 < n) : s.addNames id n = none := if_pos h

section
variable {id n : Nat} (hargs : ¬(id = 0 ∨ 128 < id ∨ n = 0 ∨ 64 < n))
include hargs

theorem addNames_good : s.addNames id n = s.loan id := if_neg hargs

theorem addToLoan_free (h : s.loan id = none) : s.addToLoan id n = s.no .notFound := by
  unfold State.addToLoan
  rw [if_neg hargs, h]

variable {y : Loan} (hy : s.loan id = some y)
include hy

theorem addToLoan_given (h : y.wants = false) : s.addToLoan id n = s.no .busy := by
  unfold State.addToLoan
  rw [if_neg hargs, hy]
  dsimp only
  rw [h]
  rfl

theorem addToLoan_full (hw : y.wants = true) (h : 255 < y.requested + n) : s.addToLoan id n = s.no .full := by
  unfold State.addToLoan
  rw [if_neg hargs, hy]
  dsimp only
  rw [hw, if_neg (by decide), if_pos h]

/-- The loan's counts rise by `n` and it is filled again. -/
theorem addToLoan_raised (hw : y.wants = true) (h : y.requested + n ≤ 255) :
    ∃ u v : State, u = s.setLoan id (some { y with requested := y.requested + n, shortfall := y.shortfall + n }) ∧
      v = State.finish s ((u.select id (y.shortfall + n)).enterWanting id) [] ∧
      s.addToLoan id n =
        v.ok (bytes1 ((v.outstandingOf id).length - y.outstanding.length) ++ bytes1 (v.shortfallOf id)) := by
  refine ⟨_, _, rfl, rfl, ?_⟩
  unfold State.addToLoan
  rw [if_neg hargs, hy]
  dsimp only
  rw [hw, if_neg (by decide), if_neg (Nat.not_lt.mpr h), fill_setLoan]

end

/-! ## The access check (R178) -/

theorem underReserveUse_permitted {l : Link} {flagged : Bool} (a : Answer)
    (h : flagged = true → (s.rights l).reserveUse = true) : s.underReserveUse l flagged a = a := by
  unfold State.underReserveUse
  cases flagged with
  | false => rfl
  | true => rw [h rfl]; rfl

variable {s} {l : Link}

theorem exec_issue_of_takes {t p n : Nat} {f : Bool} (h : s.Takes (.issue l t p n f) l)
    (hf : f = true → (s.rights l).reserveUse = true) :
    exec (.issue l t p n f) s = .next (State.respond l (s.issue t p n f)) :=
  (serveWrite_of_takes h rfl _).trans (by rw [underReserveUse_permitted s _ hf])

/-- An ADD needs reserve use only for the loan that its arguments name. -/
theorem exec_add_of_takes {id n : Nat} (h : s.Takes (.add l id n) l)
    (hf : ∀ y, s.addNames id n = some y → y.reserve = true → (s.rights l).reserveUse = true) :
    exec (.add l id n) s = .next (State.respond l (s.addToLoan id n)) := by
  refine (serveWrite_of_takes h rfl _).trans ?_
  rw [underReserveUse_permitted]
  cases hn : s.addNames id n with
  | none => exact nofun
  | some y => exact hf y hn

/-- Settles O45: each test of ISSUE and of ADD in order, and the loan filled by selection. -/
theorem issueAndAddFillALoan : Obligations.IssueAndAddFillALoan := by
  refine ⟨fun s l t p n f h hf => ⟨fun hb => ?_, fun _ _ _ _ _ => ⟨fun ho => ?_, fun ho hp => ?_, fun ho hp =>
      ⟨fun hall => ?_, fun id minutes due h1 h2 hn hlow hm hdue => ?_⟩⟩, fun u id y hy => enterWanting_held u hy⟩,
    fun s l id n h => ⟨fun hb => ?_, fun _ _ _ _ => ⟨fun hn => ?_, fun y hy hr => ?_⟩⟩⟩
  · rw [exec_issue_of_takes h hf, issue_bad s hb, respond_no]
  · rw [exec_issue_of_takes h hf, issue_closed s (by omega) ho, respond_no]
  · rw [exec_issue_of_takes h hf, issue_foreign s (by omega) ho hp, respond_no]
  · rw [exec_issue_of_takes h hf, issue_full s (by omega) ho hp (freeLoan_eq_none s hall), respond_no]
  · obtain ⟨_, u, v, rfl, hu, hv, he⟩ :=
      issue_created s (n := n) (f := f) (by omega) ho hp (freeLoan_eq_some s h1 h2 hn hlow) hm
    subst hdue
    exact ⟨u, v, hu, hv, by rw [exec_issue_of_takes h hf, he, respond_ok]⟩
  · have unnamed := addNames_bad s hb
    rw [exec_add_of_takes h (by rw [unnamed]; nofun), addToLoan_bad s hb, respond_no]
  · have named := addNames_good s (id := id) (n := n) (by omega)
    rw [exec_add_of_takes h (by rw [named, hn]; nofun), addToLoan_free s (by omega) hn, respond_no]
  · have named := (addNames_good s (id := id) (n := n) (by omega)).trans hy
    have hexec := exec_add_of_takes h (by rw [named]; rintro _ ⟨⟩; exact hr)
    refine ⟨fun hw => ?_, fun hw hfull => ?_, fun hw hfits => ?_⟩
    · rw [hexec, addToLoan_given s (by omega) hy hw, respond_no]
    · rw [hexec, addToLoan_full s (by omega) hy hw hfull, respond_no]
    · obtain ⟨u, v, hu, hv, he⟩ := addToLoan_raised s (n := n) (by omega) hy hw hfits
      exact ⟨u, v, hu, hv, by rw [hexec, he, respond_ok]⟩

end Sys2Proof.Machine
end

section
/-! PROOFS. EXTEND (R119): the due time of a loan and of its records. Then the release window that expires (R121): the
record given up by its loan, by readiness, and passed over from then on. -/

namespace Sys2Proof.Machine

variable (s : State)

/-! ## EXTEND (R119) -/

/-- Every record takes the due time; an OVERDUE or MISSING one whose new due is still to come is no longer late. -/
theorem extended_eq (x : Record) (clock due : Nat) : x.extended clock due = { x with
    due := some due
    state := if x.state = .overdue ∧ clock < due then .onLoan else x.state
    overdueFlag := if (x.state = .overdue ∨ x.state = .missing) ∧ clock < due then false else x.overdueFlag } := by
  obtain ⟨rid, gen, st, rest⟩ := x
  unfold Record.extended
  by_cases late : clock < due
  · cases st <;> simp [late]
  · cases st <;> simp [late]

/-- A record met twice is extended as if met once. -/
theorem extended_extended (x : Record) (clock due : Nat) :
    (x.extended clock due).extended clock due = x.extended clock due := by
  simp only [extended_eq]
  by_cases late : clock < due
  · cases x.state <;> simp [late]
  · simp [late]

/-- Records of a list changed one after another, by a change that is the same once or twice. -/
theorem record_modRecords {f : Record → Record} (hf : ∀ x, f (f x) = f x) (l : List Nat) (j : Nat) : ∀ s : State,
    (l.foldl (fun t i => t.modRecord i f) s).record j = if j ∈ l then (s.record j).map f else s.record j := by
  induction l with
  | nil => exact fun _ => rfl
  | cons i l ih =>
    intro s
    rw [List.foldl_cons, ih, modRecord_record]
    by_cases e : i = j
    · subst e
      cases s.record i <;> simp [hf]
    · simp [e, Ne.symm e]

/-- The loan and its records with the new due time, before the answer. -/
def State.withDue (s : State) (id due : Nat) (y : Loan) : State :=
  y.outstanding.foldl (fun t i => t.modRecord i fun x => x.extended s.age.clock due)
    (s.setLoan id (some { y with due := due }))

theorem extend_held {id due : Nat} {y : Loan} (h1 : 1 ≤ id) (h2 : id ≤ 128) (h : s.loan id = some y) :
    s.extend id due = (s.withDue id due y).ok (bytes1
      (y.outstanding.filter fun i => s.recordIs i .overdue && (s.withDue id due y).recordIs i .onLoan).length) :=
  byLoan_held s id _ h1 h2 h

theorem frame_withDue_records (id due : Nat) (y : Loan) :
    (s.setLoan id (some { y with due := due })).ChangesOnly (s.withDue id due y) [.records] :=
  .foldl _ (fun t i => frame_modRecord t i _) _ _

theorem frame_withDue (id due : Nat) (y : Loan) : s.ChangesOnly (s.withDue id due y) [.records, .loans] :=
  ((frame_setLoan s id _).mono (by decide)).trans ((frame_withDue_records s id due y).mono (by decide))

theorem loans_withDue (id due : Nat) (y : Loan) :
    (s.withDue id due y).loans = (s.setLoan id (some { y with due := due })).loans :=
  frame_withDue_records s id due y .loans (by decide)

theorem loan_withDue (id due : Nat) (y : Loan) (k : Nat) :
    (s.withDue id due y).loan k = if id = k then some { y with due := due } else s.loan k := by
  rw [loan_congr (loans_withDue s id due y), loan_setLoan]

theorem record_withDue (id due : Nat) (y : Loan) (j : Nat) : (s.withDue id due y).record j =
    if j ∈ y.outstanding then (s.record j).map (·.extended s.age.clock due) else s.record j :=
  record_modRecords (fun x => extended_extended x _ _) y.outstanding j _

/-! ## A record withdrawn from its loan (R109, R121) -/

/-- The loan's side of a removal, whatever programme the record names. -/
theorem loan_leaveLoan {i id : Nat} {dest : RecState} {e : Term} {x : Record} {y : Loan} (hx : s.record i = some x)
    (hl : x.loan = some id) (hy : s.loan id = some y) : (s.leaveLoan i dest e).loan id = some (y.without i e) := by
  obtain ⟨t, ht, _, hloan, _⟩ := stopRelease s i x hx
  have left (v : Option Record) : ((t.setRecord i v).modLoan id fun l => l.without i e).loan id =
      some (y.without i e) := by
    rw [loan_modLoan, if_pos rfl, loan_setRecord, hloan, hy, Option.map_some]
  unfold State.leaveLoan
  simp only [hx, hl, ← ht]
  split
  · cases x.programme with
    | none => exact left _
    | some p => exact (loan_congr (frame_loseListener _ p .loans (by decide)) id).trans (left _)
  · exact left _

theorem withdraw_eq {i : Nat} {x : Record} (hx : s.record i = some x) :
    s.withdraw i = s.leaveLoan i (s.readiness x) .dropped := by
  unfold State.withdraw
  rw [hx]

theorem readyOf_by_readiness {t : State} {i : Nat} {x z : Record} (hz : t.record i = some z)
    (hs : z.state = s.readiness x) : t.readyOf [i] = if s.meetsReady x then [i] else [] := by
  rw [State.readyOf, List.filter_cons, List.filter_nil, recordIs_eq t hz, hs, State.readiness]
  cases s.meetsReady x <;> rfl

/-! ## RELEASE_WINDOW_EXPIRY (R121) -/

theorem windowDue_none {i : Nat} (h : s.timer i = none) : s.windowDue i = false := by
  unfold State.windowDue
  rw [h]

theorem windowDue_run {i : Nat} {m : Timer} (h : s.timer i = some m) (hm : m.length ≤ m.elapsed) :
    s.windowDue i = true := by
  unfold State.windowDue
  rw [h]
  exact decide_eq_true hm

/-- The record out of its loan by readiness and on the loan's passed list, before the tests and offers. -/
def State.passedOver (s : State) (i id : Nat) : State := (s.withdraw i).modLoan id fun l => l.passOver i

section
variable {s} {i id : Nat} {x : Record} (hx : s.record i = some x)
include hx

theorem record_passedOver (j : Nat) : (s.passedOver i id).record j = if i = j then
    some { x with state := s.readiness x, loan := none, programme := none, due := none, overdueFlag := false }
    else s.record j := by
  rw [State.passedOver, record_eq_of_records (frame_modLoan _ id _ .records (by decide)), withdraw_eq s hx,
    record_leaveLoan s _ _ hx]

theorem loan_passedOver {y : Loan} (hl : x.loan = some id) (hy : s.loan id = some y) :
    (s.passedOver i id).loan id = some { y with
      outstanding := y.outstanding.filter (· != i), dropped := y.dropped + 1, passed := y.passed ++ [i] } := by
  rw [State.passedOver, loan_modLoan, if_pos rfl, withdraw_eq s hx, loan_leaveLoan s hx hl hy, Option.map_some]
  rfl

/-- The release window of a RELEASED record is over: its timer is stopped and its latch closed (R42, R120). -/
theorem passedOver_released (hr : x.state = .released) : (s.passedOver i id).timer i = none ∧
    ∀ p, x.bay = some p → ((s.passedOver i id).bay p.rack p.bay).latchOpen = false := by
  obtain ⟨htimer, hlatch⟩ := leaveLoan_released s (s.readiness x) .dropped hx hr
  obtain ⟨-, htimers⟩ := modLoan_keeps (s.withdraw i) id fun l => l.passOver i
  rw [← withdraw_eq s hx] at htimer hlatch
  refine ⟨?_, fun p hp => ?_⟩
  · rw [State.passedOver, State.timer, htimers]
    exact htimer
  · rw [State.passedOver, bay_congr (frame_modLoan _ id _ .scan (by decide))]
    exact hlatch p hp

theorem listeners_passedOver {y : Loan} {p : Nat} (hr : x.state = .released) (hl : x.loan = some id)
    (hp : x.programme = some p) (hy : s.loan id = some y) :
    ((s.passedOver i id).programme p).listeners = (s.programme p).listeners - 1 := by
  obtain ⟨-, -, -, hcount, -⟩ := leaveLoan_counts s (dest := s.readiness x) (e := .dropped) hx hl hp hy
  rw [State.passedOver, programme_congr (frame_modLoan _ id _ .tours (by decide)), withdraw_eq s hx, hcount, hr]
  rfl

/-- The tests and offers follow, the record offered if it has gone READY. -/
theorem releaseWindowExpiry_eq {m : Timer} (hm : s.timer i = some m) (hl : x.loan = some id) :
    s.releaseWindowExpiry i =
      State.finish s (State.settle s (s.passedOver i id) [id] (if s.meetsReady x then [i] else [])) [] := by
  have hready := readyOf_by_readiness s ((record_passedOver hx (id := id) i).trans (if_pos rfl)) rfl
  unfold State.releaseWindowExpiry
  rw [hm, loanOf_eq s hx, hl]
  dsimp only
  rw [← State.passedOver, hready]

end

/-- Settles O47: the due time written through the loan and its records, and the record of an expired window passed
over. -/
theorem dueTimesAndReleaseWindows : Obligations.DueTimesAndReleaseWindows := by
  refine ⟨fun s l id due h => ⟨fun hb => ?_, fun h1 h2 hn => ?_, fun y h1 h2 hy => ?_⟩,
    fun s i hh => ⟨fun hn => ?_, fun x id y m hm hlen hx hr hl hy => ?_⟩⟩
  · exact (serveWrite_of_takes h rfl _).trans (by rw [State.extend, byLoan_bad s id _ hb, respond_no])
  · exact (serveWrite_of_takes h rfl _).trans (by rw [State.extend, byLoan_free s id _ h1 h2 hn, respond_no])
  · have hloans := loans_withDue s id due y
    refine ⟨s.withDue id due y, (serveWrite_of_takes h rfl _).trans (by rw [extend_held s h1 h2 hy, respond_ok]),
      frame_withDue s id due y, ?_, fun k hk => ?_, by rw [hloans]; rfl, by rw [hloans]; rfl, fun i hi => ?_,
      fun i x hi hx => ?_⟩
    · rw [loan_withDue, if_pos rfl]
    · rw [loan_withDue, if_neg hk.symm]
    · rw [record_withDue, if_neg hi]
    · rw [record_withDue, if_pos hi, hx, Option.map_some, extended_eq]
  · exact timed_of_short s _ (windowDue_none s hn)
  · obtain ⟨htimer, hlatch⟩ := passedOver_released hx (id := id) hr
    refine ⟨s.passedOver i id, ?_, (record_passedOver hx i).trans (if_pos rfl),
      fun j hj => (record_passedOver hx j).trans (if_neg hj.symm), loan_passedOver hx hl hy, htimer, hlatch,
      fun p hp => listeners_passedOver hx hr hl hp hy⟩
    exact (timed_of_due s _ hh (windowDue_run s hm hlen)).trans
      (congrArg Host.Outcome.next (releaseWindowExpiry_eq hx hm hl))

end Sys2Proof.Machine
end

section
/-! PROOFS. The frame boundary (R150, R151): the sequence number that it advances and the plan that it copies. -/

namespace Sys2Proof.Machine

/-- The 16-bit sequence number advances by 1 and wraps from its last value to 0 (R151). -/
theorem sequence_advance {n : Nat} (h : n ≤ 65535) : (n + 1) % 65536 = if n = 65535 then 0 else n + 1 := by
  split
  · next last => rw [last]
  · next inner => exact Nat.mod_eq_of_lt (Nat.succ_lt_succ (Nat.lt_of_le_of_ne h inner))

variable (s : State)

/-- A frame boundary is taken once the frame has run its length (R150). -/
theorem frameBoundary_taken (hh : s.resetHeld = false) (hf : frameTicks ≤ s.air.frameTime) :
    exec .frameBoundary s = .next s.frameBoundary := timed_of_due s _ hh (decide_eq_true hf)

/-- Settles O54: the boundary that is taken, with its sequence number in the form of R151. -/
theorem frameBoundaryCopiesTheNextPlan : Obligations.FrameBoundaryCopiesTheNextPlan := by
  intro s running due bounded
  rw [frameBoundary_taken s running due, State.frameBoundary, sequence_advance bounded]

end Sys2Proof.Machine
end

section
/-! PROOFS. The clock: set by SET_CLOCK (R162), and advanced a second after its phase was set (R161). -/

namespace Sys2Proof.Machine

/-- The 32-bit clock advances by 1 and wraps from its last value to 0 (R161). -/
theorem clock_advance {n : Nat} (h : n ≤ 4294967295) :
    (n + 1) % 4294967296 = if n = 4294967295 then 0 else n + 1 := by
  split
  · next last => rw [last]
  · next inner => exact Nat.mod_eq_of_lt (Nat.succ_lt_succ (Nat.lt_of_le_of_ne h inner))

/-- An advance is taken once a second has passed since the clock's phase was set (R161). -/
theorem clockAdvance_taken (s : State) (hh : s.resetHeld = false) (hp : secondTicks ≤ s.age.clockPhase) :
    exec .clockAdvance s = .next s.clockAdvance := timed_of_due s _ hh (decide_eq_true hp)

/-- Settles O19: SET_CLOCK as it is answered, and the advance that is taken with its clock in the form of R161. -/
theorem clockIsSetAndAdvances : Obligations.ClockIsSetAndAdvances := by
  refine ⟨fun s l n takes => ?_, fun s running due bounded => ?_⟩
  · exact (serveWrite_of_takes takes rfl _).trans (by rw [State.setClock, respond_ok])
  · rw [clockAdvance_taken s running due, State.clockAdvance, clock_advance bounded]

end Sys2Proof.Machine
end

section
/-! PROOFS. Presence and aging: what a beacon writes (R163 to R165), what an examination makes of a record and which notices
it posts (R167, R168), and the eight positions of a sweep step (R166). -/

namespace Sys2Proof.Machine

variable (s : State)

/-! ## REPORT_BEACON (R163 to R165) -/

theorem heard_eq (x : Record) (clock zone quality : Nat) : x.heard clock zone quality = { x with
    lastHeard := some clock
    lastZone := if 0 < quality then zone else x.lastZone
    state := if x.state = .missing then (if x.overdueFlag then .overdue else .onLoan) else x.state } := by
  unfold Record.heard
  by_cases lost : x.state = .missing
  · simp only [lost, if_true]
  · simp only [lost, if_false]

theorem reportBeacon_zero (zone quality : Nat) : s.reportBeacon 0 zone quality = s.no .badRequest := rfl

theorem reportBeacon_unknown {rid : Nat} (zone quality : Nat) (h0 : rid ≠ 0)
    (h : ∀ i x, s.record i = some x → x.rid ≠ rid) : s.reportBeacon rid zone quality =
      ({ s with age := { s.age with unknownBeacons := min 65535 (s.age.unknownBeacons + 1) } }).ok
        [0#8, 0#8, 0#8, 0#8] := by
  unfold State.reportBeacon
  rw [if_neg h0, (indexOfRid_eq_none s rid).mpr h]
  rfl

/-- The record of a beacon written, and FOUND posted for one that was MISSING (R164). -/
def State.beaconHeard (s : State) (i zone quality : Nat) (x : Record) : State :=
  let u := s.modRecord i fun x => x.heard s.age.clock zone quality
  if x.state = .missing then u.post (.found i) else u

section
variable {s} {i : Nat} {x : Record} (zone quality : Nat)

theorem record_beaconHeard (hx : s.record i = some x) (j : Nat) : (s.beaconHeard i zone quality x).record j =
    if i = j then some (x.heard s.age.clock zone quality) else s.record j := by
  have written : (s.beaconHeard i zone quality x).record j =
      (s.modRecord i fun x => x.heard s.age.clock zone quality).record j := by
    unfold State.beaconHeard
    split <;> rfl
  rw [written, modRecord_record]
  split
  · next same => rw [← same, hx, Option.map_some]
  · rfl

theorem frame_beaconHeard : s.ChangesOnly (s.beaconHeard i zone quality x) [.records, .ports] :=
  have written : s.ChangesOnly (s.modRecord i fun x => x.heard s.age.clock zone quality) [.records, .ports] :=
    (frame_modRecord s i _).mono (by decide)
  .ite _ (written.trans ((frame_post _ _).mono (by decide))) written

theorem ports_beaconHeard : (s.beaconHeard i zone quality x).ports =
    if x.state = .missing then (s.post (.found i)).ports else s.ports := by
  have kept : (s.modRecord i fun x => x.heard s.age.clock zone quality).ports = s.ports :=
    frame_modRecord s i _ .ports (by decide)
  unfold State.beaconHeard
  split
  · exact ports_post_congr s kept _
  · exact kept

theorem reportBeacon_known (hu : s.RidsUnique) (hx : s.record i = some x) : s.reportBeacon x.rid zone quality =
    (s.beaconHeard i zone quality x).ok
      ([1#8] ++ bytes2 i ++ bytes1 (x.heard s.age.clock zone quality).state.code) := by
  have code : (s.beaconHeard i zone quality x).stateCode i = (x.heard s.age.clock zone quality).state.code := by
    rw [stateCode_eq, record_beaconHeard zone quality hx, if_pos rfl]
    rfl
  rw [← code]
  unfold State.reportBeacon
  rw [if_neg (hu.nonzero i x hx), indexOfRid_eq_some s hu hx]
  dsimp only
  rw [recordIs_eq s hx]
  unfold State.beaconHeard
  simp only [beq_iff_eq]
  rfl

end

/-! ## What an examination makes of a record (R167, R168) -/

/-- Test 1: a record ON_LOAN and at its due goes OVERDUE with its flag set. -/
def Record.testedDue (x : Record) (now : Nat) : Record :=
  if x.state = .onLoan ∧ x.pastDue now then { x with overdueFlag := true, state := .overdue } else x

/-- Tests 2 and 3: a record lent and silent goes MISSING; one MISSING before, and at its due, takes its flag. -/
def Record.testedSilence (x : Record) (now length : Nat) : Record :=
  if (x.state = .onLoan ∨ x.state = .overdue) ∧ x.silentFor now length then { x with state := .missing }
  else if x.state = .missing ∧ x.overdueFlag = false ∧ x.pastDue now then { x with overdueFlag := true }
  else x

/-- The three tests of an examination in their order. -/
def Record.examined (x : Record) (now length : Nat) : Record := (x.testedDue now).testedSilence now length

section
variable {x : Record} {now length : Nat}

theorem examined_unlent (h1 : x.state ≠ .onLoan) (h2 : x.state ≠ .overdue) (h3 : x.state ≠ .missing) :
    x.examined now length = x := by
  simp [Record.examined, Record.testedDue, Record.testedSilence, h1, h2, h3]

variable {d h : Nat}

theorem pastDue_iff (hd : x.due = some d) : x.pastDue now = true ↔ d ≤ now := by
  unfold Record.pastDue
  rw [hd]
  exact decide_eq_true_iff

theorem silentFor_iff (hh : x.lastHeard = some h) : x.silentFor now length = true ↔ length ≤ now - h := by
  unfold Record.silentFor
  rw [hh]
  exact decide_eq_true_iff

theorem testedDue_onLoan (hs : x.state = .onLoan) (hd : x.due = some d) : x.testedDue now = { x with
    overdueFlag := if d ≤ now then true else x.overdueFlag
    state := if d ≤ now then .overdue else .onLoan } := by
  unfold Record.testedDue
  simp only [hs, pastDue_iff hd, true_and]
  split
  · rfl
  · rw [← hs]

theorem testedDue_not_onLoan (hs : x.state ≠ .onLoan) : x.testedDue now = x := if_neg fun both => hs both.1

theorem testedSilence_out (hs : x.state = .onLoan ∨ x.state = .overdue) (hh : x.lastHeard = some h) :
    x.testedSilence now length = { x with state := if length ≤ now - h then .missing else x.state } := by
  have found : x.state ≠ .missing := by rintro e; rw [e] at hs; exact absurd hs (by decide)
  unfold Record.testedSilence
  simp only [hs, silentFor_iff hh, found, true_and, false_and, if_false]
  split <;> rfl

theorem testedSilence_missing (hs : x.state = .missing) (hd : x.due = some d) :
    x.testedSilence now length = { x with overdueFlag := if d ≤ now then true else x.overdueFlag } := by
  unfold Record.testedSilence
  rw [if_neg (fun both => absurd both.1 (by rw [hs]; decide))]
  split
  · next move => rw [if_pos ((pastDue_iff hd).mp move.2.2)]
  · next stay =>
    by_cases late : d ≤ now
    · have flagged : x.overdueFlag = true := by simpa [hs, pastDue_iff hd, late] using stay
      rw [if_pos late, ← flagged]
    · rw [if_neg late]

theorem examined_onLoan (hs : x.state = .onLoan) (hd : x.due = some d) (hh : x.lastHeard = some h) :
    x.examined now length = { x with
      overdueFlag := if d ≤ now then true else x.overdueFlag
      state := if length ≤ now - h then .missing else if d ≤ now then .overdue else .onLoan } := by
  unfold Record.examined
  rw [testedDue_onLoan hs hd]
  refine testedSilence_out ?_ hh
  dsimp only
  split
  · exact .inr rfl
  · exact .inl rfl

theorem examined_overdue (hs : x.state = .overdue) (hh : x.lastHeard = some h) :
    x.examined now length = { x with state := if length ≤ now - h then .missing else .overdue } := by
  unfold Record.examined
  rw [testedDue_not_onLoan (by rw [hs]; decide), testedSilence_out (.inr hs) hh, hs]

theorem examined_missing (hs : x.state = .missing) (hd : x.due = some d) :
    x.examined now length = { x with overdueFlag := if d ≤ now then true else x.overdueFlag } := by
  unfold Record.examined
  rw [testedDue_not_onLoan (by rw [hs]; decide), testedSilence_missing hs hd]

/-- Test 1 leaves a record that is out on loan out on loan. -/
theorem testedDue_out : (x.testedDue now).state = .onLoan ∨ (x.testedDue now).state = .overdue ↔
    x.state = .onLoan ∨ x.state = .overdue := by
  unfold Record.testedDue
  split
  · next move => exact ⟨fun _ => .inl move.1, fun _ => .inr rfl⟩
  · rfl

theorem testedDue_silentFor : (x.testedDue now).silentFor now length = x.silentFor now length := by
  unfold Record.testedDue
  split <;> rfl

end

/-! ## An examination of the state (R167) -/

theorem examine_free {i : Nat} (hx : s.record i = none) : s.examine i = s := by
  unfold State.examine
  rw [hx]

section
variable {s} {i : Nat} {x : Record} (hx : s.record i = some x)
include hx

theorem record_ageDue (j : Nat) : (s.ageDue i x).1.record j =
    if i = j then some (x.testedDue s.age.clock) else s.record j := by
  unfold State.ageDue Record.testedDue
  split
  · rw [record_post, record_setRecord]
  · split
    · next same => rw [← same, hx]
    · rfl

theorem record_ageSilence (j : Nat) : (s.ageSilence i x).record j =
    if i = j then some (x.testedSilence s.age.clock s.settings.missingAfter) else s.record j := by
  unfold State.ageSilence Record.testedSilence
  split
  · rw [record_post, record_setRecord]
  split
  · rw [record_setRecord]
  · split
    · next same => rw [← same, hx]
    · rfl

/-- The tests of silence are made of what the test of the due time has left. -/
theorem examine_held : s.examine i = (s.ageDue i x).1.ageSilence i (x.testedDue s.age.clock) := by
  have left : (s.ageDue i x).2 = x.testedDue s.age.clock := by
    unfold State.ageDue Record.testedDue
    split <;> rfl
  unfold State.examine
  rw [hx]
  dsimp only
  rw [left]

end

theorem record_examine (i j : Nat) : (s.examine i).record j =
    if i = j then (s.record j).map (·.examined s.age.clock s.settings.missingAfter) else s.record j := by
  cases hx : s.record i with
  | none =>
    rw [examine_free s hx]
    split
    · next same => rw [← same, hx, Option.map_none]
    · rfl
  | some x =>
    have frame := frame_ageDue s i x
    have clock : (s.ageDue i x).1.age = s.age := frame .age (by decide)
    have length : (s.ageDue i x).1.settings = s.settings := frame .settings (by decide)
    rw [examine_held hx, record_ageSilence ((record_ageDue hx i).trans (if_pos rfl)), clock, length]
    split
    · next same => rw [← same, hx, Option.map_some, Record.examined]
    · next other => rw [record_ageDue hx, if_neg other]

/-! ## The notices of an examination (R167) -/

/-- OVERDUE posted where test 1 moves the record, then MISSING where test 2 does. -/
def State.agingPosted (s : State) (i : Nat) (x : Record) : State :=
  let u := if x.state = .onLoan ∧ x.pastDue s.age.clock then s.post (.overdue i) else s
  if (x.state = .onLoan ∨ x.state = .overdue) ∧ x.silentFor s.age.clock s.settings.missingAfter then
    u.post (.missing i) else u

theorem ports_ageDue (i : Nat) (x : Record) : (s.ageDue i x).1.ports =
    (if x.state = .onLoan ∧ x.pastDue s.age.clock then s.post (.overdue i) else s).ports := by
  unfold State.ageDue
  split <;> rfl

theorem ports_ageSilence (i : Nat) (x : Record) : (s.ageSilence i x).ports =
    (if (x.state = .onLoan ∨ x.state = .overdue) ∧ x.silentFor s.age.clock s.settings.missingAfter then
      s.post (.missing i) else s).ports := by
  unfold State.ageSilence
  split
  · rfl
  · split <;> rfl

section
variable {s} {i : Nat} {x : Record}

theorem ports_examine (hx : s.record i = some x) : (s.examine i).ports = (s.agingPosted i x).ports := by
  have frame := frame_ageDue s i x
  have clock : (s.ageDue i x).1.age = s.age := frame .age (by decide)
  have length : (s.ageDue i x).1.settings = s.settings := frame .settings (by decide)
  have first := ports_ageDue s i x
  rw [examine_held hx, ports_ageSilence, clock, length, testedDue_silentFor]
  simp only [testedDue_out]
  unfold State.agingPosted
  split
  · exact ports_post_congr _ first _
  · exact first

theorem agingPosted_unlent (h1 : x.state ≠ .onLoan) (h2 : x.state ≠ .overdue) : s.agingPosted i x = s := by
  simp [State.agingPosted, h1, h2]

theorem agingPosted_both (hs : x.state = .onLoan) (late : x.pastDue s.age.clock = true)
    (silent : x.silentFor s.age.clock s.settings.missingAfter = true) :
    s.agingPosted i x = (s.post (.overdue i)).post (.missing i) := by
  simp [State.agingPosted, hs, late, silent]

theorem agingPosted_overdue (hs : x.state = .onLoan) (late : x.pastDue s.age.clock = true)
    (heard : ¬x.silentFor s.age.clock s.settings.missingAfter = true) : s.agingPosted i x = s.post (.overdue i) := by
  simp [State.agingPosted, hs, late, heard]

theorem agingPosted_missing (hs : x.state = .overdue ∨ x.state = .onLoan ∧ ¬x.pastDue s.age.clock = true)
    (silent : x.silentFor s.age.clock s.settings.missingAfter = true) : s.agingPosted i x = s.post (.missing i) := by
  obtain late | ⟨out, early⟩ := hs
  · simp [State.agingPosted, late, silent]
  · simp [State.agingPosted, out, early, silent]

end

theorem postsOnly_agingPosted (i : Nat) (x : Record) : s.PostsOnly (s.agingPosted i x) [4, 5] := by
  have first : s.PostsOnly (if x.state = .onLoan ∧ x.pastDue s.age.clock then s.post (.overdue i) else s) [4, 5] := by
    split
    · exact (postsOnly_post s (.overdue i)).mono (by simp [Notice.kind])
    · exact .refl s _
  unfold State.agingPosted
  dsimp only
  split
  · exact first.trans ((postsOnly_post _ (.missing i)).mono (by simp [Notice.kind]))
  · exact first

theorem postsOnly_examine (i : Nat) : s.PostsOnly (s.examine i) [4, 5] := by
  cases hx : s.record i with
  | none => rw [examine_free s hx]; exact .refl s _
  | some x => exact (postsOnly_agingPosted s i x).trans (.of_ports _ (ports_examine hx))

/-! ## A sweep step (R166) -/

/-- The 8 positions of a sweep step, from the pointer and wrapping at 1024. -/
def State.stepPositions (s : State) : List Nat := (List.range 8).map fun k => (s.age.sweepPointer + k) % 1024

theorem mem_stepPositions (i : Nat) : i ∈ s.stepPositions ↔ ∃ k, k < 8 ∧ i = (s.age.sweepPointer + k) % 1024 := by
  simp only [State.stepPositions, List.mem_map, List.mem_range, eq_comm]

theorem stepPositions_nodup : s.stepPositions.Nodup :=
  List.pairwise_map.mpr (List.nodup_range.imp_of_mem fun {a b} ha hb apart same => by
    rw [List.mem_range] at ha hb
    omega)

/-- The eight positions examined, before the pointer moves. -/
def State.examinedAll (s : State) : State := s.stepPositions.foldl State.examine s

theorem sweepStep_eq : s.sweepStep = { s.examinedAll with
    age := { s.age with sweepPointer := (s.age.sweepPointer + 8) % 1024, stepTime := 0 } } := by
  unfold State.examinedAll State.stepPositions State.sweepStep
  rw [List.foldl_map]
  dsimp only
  rw [age_foldl_examine fun k => (s.age.sweepPointer + k) % 1024]

/-- Positions examined one after another, none of them twice. -/
theorem record_foldl_examine (l : List Nat) (hl : l.Nodup) (j : Nat) : ∀ s : State,
    (l.foldl State.examine s).record j =
      if j ∈ l then (s.record j).map (·.examined s.age.clock s.settings.missingAfter) else s.record j := by
  induction l with
  | nil => exact fun _ => rfl
  | cons i l ih =>
    intro s
    obtain ⟨apart, rest⟩ := List.nodup_cons.mp hl
    have length : (s.examine i).settings = s.settings := frame_examine s i .settings (by decide)
    rw [List.foldl_cons, ih rest, age_examine, length, record_examine]
    by_cases same : i = j
    · subst same
      simp [apart]
    · simp [same, Ne.symm same]

theorem record_sweepStep (j : Nat) : s.sweepStep.record j =
    if j ∈ s.stepPositions then (s.record j).map (·.examined s.age.clock s.settings.missingAfter) else s.record j := by
  have fleet : s.sweepStep.fleet = s.examinedAll.fleet := by rw [sweepStep_eq]
  exact (record_congr fleet j).trans (record_foldl_examine _ (stepPositions_nodup s) j s)

theorem age_sweepStep : s.sweepStep.age =
    { s.age with sweepPointer := (s.age.sweepPointer + 8) % 1024, stepTime := 0 } := by rw [sweepStep_eq]

theorem frame_sweepStep : s.ChangesOnly s.sweepStep [.records, .age, .ports] := by
  rw [sweepStep_eq]
  exact (State.ChangesOnly.foldl _ frame_examine s.stepPositions s |>.mono (by decide)).trans
    ((frame_age _ _).mono (by decide))

theorem postsOnly_sweepStep : s.PostsOnly s.sweepStep [4, 5] := by
  rw [sweepStep_eq]
  exact (State.PostsOnly.foldl _ postsOnly_examine s.stepPositions s).trans (.of_ports _ rfl)

/-- Settles O56: the beacon refused, counted or written; the records of a sweep step by their state; and the notices of
an examination. -/
theorem beaconsAndAgingWriteTheRecords : Obligations.BeaconsAndAgingWriteTheRecords := by
  refine ⟨fun s l rid zone quality takes => ⟨?_, fun h0 unknown => ?_, ?_⟩, fun s running due => ?_,
    fun s i d h x hx hd hh => ⟨fun out late silent => ?_, fun out late heard => ?_, fun out silent => ?_,
      fun h1 h2 => ?_⟩⟩
  · rintro rfl
    exact (serveWrite_of_takes takes rfl _).trans (by rw [reportBeacon_zero, respond_no])
  · exact (serveWrite_of_takes takes rfl _).trans (by rw [reportBeacon_unknown s zone quality h0 unknown, respond_ok])
  · rintro i x - unique hx rfl
    exact ⟨s.beaconHeard i zone quality x, x.heard s.age.clock zone quality,
      (serveWrite_of_takes takes rfl _).trans (by rw [reportBeacon_known zone quality unique hx, respond_ok]),
      heard_eq x _ _ _, (record_beaconHeard zone quality hx i).trans (if_pos rfl),
      fun j hj => (record_beaconHeard zone quality hx j).trans (if_neg hj.symm), frame_beaconHeard zone quality,
      ports_beaconHeard zone quality⟩
  · refine ⟨s.sweepStep, timed_of_due s _ running (decide_eq_true due), frame_sweepStep s, postsOnly_sweepStep s,
      age_sweepStep s, fun i far => ?_, fun i k hk hi => ?_⟩
    · have passed : i ∉ s.stepPositions := fun near =>
        have ⟨k, hk, hi⟩ := (mem_stepPositions s i).mp near
        far k hk hi
      rw [record_sweepStep, if_neg passed]
    · have near := (mem_stepPositions s i).mpr ⟨k, hk, hi⟩
      rw [record_sweepStep, if_pos near]
      refine ⟨fun hx => by rw [hx, Option.map_none], fun x hx h1 h2 h3 => ?_, fun x d h hx hd hh =>
        ⟨fun hs => ?_, fun hs => ?_, fun hs => ?_⟩⟩
      · rw [hx, Option.map_some, examined_unlent h1 h2 h3]
      · rw [hx, Option.map_some, examined_onLoan hs hd hh]
      · rw [hx, Option.map_some, examined_overdue hs hh]
      · rw [hx, Option.map_some, examined_missing hs hd]
  · rw [ports_examine hx, agingPosted_both out ((pastDue_iff hd).mpr late) ((silentFor_iff hh).mpr silent)]
  · rw [ports_examine hx, agingPosted_overdue out ((pastDue_iff hd).mpr late)
      (by rw [silentFor_iff hh]; exact Nat.not_le.mpr heard)]
  · rw [ports_examine hx, agingPosted_missing (by rw [pastDue_iff hd, Nat.not_le]; exact out)
      ((silentFor_iff hh).mpr silent)]
  · rw [ports_examine hx, agingPosted_unlent h1 h2]

end Sys2Proof.Machine
end

section
/-! PROOFS. The link frames (R188, R189): the value of a field's bytes is the number they were taken from, so that each
request's arguments decode to that request; and the arguments of a frame that is no request decode to none. -/

namespace Sys2Proof

/-! ## Fields (section 11.1, R189) -/

theorem toNat_byte {n : Nat} (h : n < 256) : (BitVec.ofNat 8 n).toNat = n := by
  rw [BitVec.toNat_ofNat]; omega

theorem value2_bytes {n : Nat} (h : n < 65536) : value2 (BitVec.ofNat 8 n) (BitVec.ofNat 8 (n / 256)) = n := by
  simp only [value2, BitVec.toNat_ofNat]; omega

theorem value4_bytes {n : Nat} (h : n < 4294967296) :
    value4 (BitVec.ofNat 8 n) (BitVec.ofNat 8 (n / 256)) (BitVec.ofNat 8 (n / 65536))
      (BitVec.ofNat 8 (n / 16777216)) = n := by
  simp only [value4, BitVec.toNat_ofNat]; omega

theorem flagOf_byte (f : Bool) : flagOf (BitVec.ofNat 8 (if f then 1 else 0)) = f := by cases f <;> rfl

theorem map_toNat_bytes {codes : List Nat} (h : ∀ c ∈ codes, c < 256) :
    (codes.map (BitVec.ofNat 8)).map (fun c => c.toNat) = codes := by
  rw [List.map_map]
  exact (List.map_congr_left fun c hc => toNat_byte (h c hc)).trans (List.map_id codes)

variable {l : Link} {i : Instr} {code : Nat} {args : List Byte}

/-! ## Requests -/

/-- The arguments of a well-formed request decode to that request: each field is read back from its bytes. -/
theorem decodeArgs_of_encodeRequest (h : i.wellFormed = true) (he : encodeRequest i = some (l, code, args))
    (hu : ∀ k c a, i ≠ .unknownRequestCode k c a) : decodeArgs l code args = some i := by
  cases i
  case unknownRequestCode k c a => exact absurd rfl (hu k c a)
  all_goals cases he
  all_goals simp only [Instr.wellFormed, Bool.and_eq_true, decide_eq_true_eq] at h
  case enrol rid g index =>
    obtain ⟨⟨hr, hg⟩, hi⟩ := h
    cases index with
    | none =>
      show some (Instr.enrol l (value4 _ _ _ _) _ none) = _
      rw [value4_bytes hr, toNat_byte hg]
    | some i =>
      have hv := value2_bytes (of_decide_eq_true hi)
      show some (Instr.enrol l (value4 _ _ _ _) _ (some (value2 _ _))) = _
      rw [value4_bytes hr, toNat_byte hg, hv]
  case setReserve range =>
    cases range with
    | none => rfl
    | some g =>
      obtain ⟨lo, hi⟩ := g
      simp only [Bool.and_eq_true, decide_eq_true_eq] at h
      show some (Instr.setReserve l (some (value2 _ _, value2 _ _))) = _
      rw [value2_bytes h.1, value2_bytes h.2]
  case openTour d codes =>
    obtain ⟨⟨hd, _⟩, hc⟩ := h
    show some (Instr.openTour l (value2 _ _) ((codes.map (BitVec.ofNat 8)).map fun c => c.toNat)) = _
    rw [value2_bytes hd, map_toNat_bytes fun c hm => of_decide_eq_true (List.all_eq_true.mp hc c hm)]
  case clearFaultRecord rid => exact congrArg (fun r => some (Instr.clearFaultRecord l r)) (value4_bytes h)
  case clearFaultBay r b =>
    show some (Instr.clearFaultBay l (BitVec.toNat _) (BitVec.toNat _)) = _
    rw [toNat_byte h.1, toNat_byte h.2]
  -- Every other layout is a row of numbers and flags.
  all_goals
    simp only [decodeArgs, decodeSetSetting, bytes1, bytes2, bytes4, flagBytes, List.cons_append, List.nil_append,
      toNat_byte, value2_bytes, value4_bytes, flagOf_byte, h, Nat.reduceLT]

/-- The request code and the number of arguments of a well-formed request each fit the byte that carries them. -/
theorem encodeRequest_fits (h : i.wellFormed = true) (he : encodeRequest i = some (l, code, args)) :
    code < 256 ∧ args.length < 256 := by
  cases i
  all_goals cases he
  case enrol rid g index => cases index <;> exact ⟨of_decide_eq_true rfl, of_decide_eq_true rfl⟩
  case setReserve range => cases range <;> exact ⟨of_decide_eq_true rfl, of_decide_eq_true rfl⟩
  case openTour d codes =>
    simp only [Instr.wellFormed, Bool.and_eq_true, decide_eq_true_eq] at h
    refine ⟨of_decide_eq_true rfl, ?_⟩
    simp only [List.length_append, List.length_map, bytes2, List.length_cons, List.length_nil]
    omega
  case unknownRequestCode =>
    simp only [Instr.wellFormed, Bool.and_eq_true, decide_eq_true_eq] at h
    exact h.1
  all_goals exact ⟨of_decide_eq_true rfl, of_decide_eq_true rfl⟩

/-! ## Frames that are no request (R173, log 15) -/

variable {f a b c d : Byte} {r v : Nat}

theorem form_of_decodeClearFault (h : decodeClearFault l f.toNat a b c d = some i) : ¬1 < f.toNat := fun hf => by
  unfold decodeClearFault at h
  split at h
  · omega
  · omega
  · nomatch h

theorem form_of_decodeSetReserve (h : decodeSetReserve l f.toNat a b c d = some i) : ¬1 < f.toNat := fun hf => by
  unfold decodeSetReserve at h
  split at h
  · omega
  · omega
  · nomatch h

theorem setting_of_decodeSetSetting (h : decodeSetSetting l f.toNat r v = some i) : ¬10 < f.toNat := fun hf => by
  unfold decodeSetSetting at h
  split at h
  case h_12 => nomatch h
  all_goals omega

/-- Arguments that decode to a request pass the frame check and are none of the three bad forms. -/
theorem frameCheck_of_decodeArgs (h : decodeArgs l code args = some i) :
    frameCheck code args.length = true ∧ badForm code args = false := by
  unfold decodeArgs at h
  split at h
  all_goals try split at h
  all_goals first
    | exact ⟨rfl, rfl⟩
    | exact ⟨rfl, decide_eq_false (form_of_decodeClearFault h)⟩
    | exact ⟨rfl, decide_eq_false (form_of_decodeSetReserve h)⟩
    | exact ⟨rfl, decide_eq_false (setting_of_decodeSetSetting h)⟩
    | nomatch h

/-- A frame that fails the frame check, or has one of the three bad forms, decodes to no request. -/
theorem decodeArgs_of_unknown (h : (!frameCheck code args.length || badForm code args) = true) :
    decodeArgs l code args = none := by
  cases hd : decodeArgs l code args with
  | none => rfl
  | some i =>
    obtain ⟨hframe, hform⟩ := frameCheck_of_decodeArgs hd
    rw [hframe, hform] at h
    nomatch h

/-! ## Transactions (R172, R188) -/

/-- A write transaction that carries a whole frame is the request of that frame. -/
theorem decodeTransaction_frame (code : Byte) (h : args.length < 256) :
    decodeTransaction l (0xC1#8 :: code :: BitVec.ofNat 8 args.length :: args) = decodeRequest l code args := by
  show (if args.length < (BitVec.ofNat 8 args.length).toNat then _ else decodeRequest l code (args.take _)) = _
  rw [toNat_byte h, if_neg (Nat.lt_irrefl _), List.take_length]

theorem decodeRequest_of_encodeRequest (h : i.wellFormed = true) (he : encodeRequest i = some (l, code, args)) :
    decodeRequest l (BitVec.ofNat 8 code) args = i := by
  have hcode := toNat_byte (encodeRequest_fits h he).1
  unfold decodeRequest
  rw [hcode]
  by_cases hu : ∃ k c a, i = .unknownRequestCode k c a
  · obtain ⟨k, c, a, rfl⟩ := hu
    obtain ⟨rfl, rfl, rfl⟩ := he
    simp only [Instr.wellFormed, Bool.and_eq_true] at h
    rw [decodeArgs_of_unknown h.2, Option.getD_none]
  · rw [decodeArgs_of_encodeRequest h he fun k c a e => hu ⟨k, c, a, e⟩, Option.getD_some]

/-- Settles O57: the frame of a request is complete, and its arguments decode to that request. -/
theorem encodedRequestsDecodeToThemselves : Obligations.EncodedRequestsDecodeToThemselves := by
  intro i l bytes h he
  obtain ⟨⟨k, code, args⟩, hr, hb⟩ := Option.map_eq_some_iff.mp he
  obtain ⟨rfl, rfl⟩ := hb
  rw [decodeTransaction_frame _ (encodeRequest_fits h hr).2, decodeRequest_of_encodeRequest h hr]

end Sys2Proof
end

section
/-! PROOFS. The warm restart (R186): what each of its stages writes, and that the other stages leave it so. -/

namespace Sys2Proof.Machine

/-! ## A table or block written at each key of a list -/

/-- Where `set` writes one key of what `get` reads, a fold of writes leaves the value written at each key of the list and
what was read before everywhere else. -/
theorem get_foldl_set {σ α : Type} {get : σ → Nat → α} {set : σ → Nat → α → σ}
    (h : ∀ t k v j, get (set t k v) j = if k = j then v else get t j) (v : Nat → α) (l : List Nat) (t : σ) (j : Nat) :
    get (l.foldl (fun t k => set t k (v k)) t) j = if j ∈ l then v j else get t j := by
  induction l generalizing t with
  | nil => exact (if_neg List.not_mem_nil).symm
  | cons k l ih =>
    rw [List.foldl_cons, ih, h]
    by_cases hj : j ∈ l
    · rw [if_pos hj, if_pos (List.mem_cons_of_mem k hj)]
    · rw [if_neg hj]
      by_cases hk : k = j
      · subst hk; rw [if_pos rfl, if_pos List.mem_cons_self]
      · rw [if_neg hk, if_neg fun hm => (List.mem_cons.mp hm).elim (fun e => hk e.symm) hj]

/-- A change that a second one leaves as it is, made at each index of a list, is made once at each of them. -/
theorem record_foldl_modRecord {f : Record → Record} (hf : ∀ x, f (f x) = f x) (l : List Nat) (t : State) (j : Nat) :
    (l.foldl (fun t i => t.modRecord i f) t).record j = if j ∈ l then (t.record j).map f else t.record j := by
  induction l generalizing t with
  | nil => exact (if_neg List.not_mem_nil).symm
  | cons i l ih =>
    rw [List.foldl_cons, ih, modRecord_record]
    by_cases hi : i = j
    · subst hi
      rw [if_pos rfl, if_pos List.mem_cons_self, Option.map_map, (funext hf : f ∘ f = f), ite_self]
    · rw [if_neg hi]
      simp only [List.mem_cons, Ne.symm hi, false_or]

variable (s : State)

/-! ## The fleet table (R22) -/

theorem restarted_restarted (x : Record) : x.restarted.restarted = x.restarted := by
  unfold Record.restarted
  by_cases h : x.state = .retired <;> simp [h]

theorem record_restartFleet (i : Nat) : s.restartFleet.record i = (s.record i).map Record.restarted := by
  refine (record_foldl_modRecord restarted_restarted s.recordIndices s i).trans ?_
  cases hx : s.record i with
  | none => exact ite_self _
  | some x => exact if_pos (mem_recordIndices_of_record s hx)

theorem ranges_restartFleet : s.restartFleet.fleet.staged = none ∧
    s.restartFleet.fleet.applied = if s.fleet.staged = none then s.fleet.applied else s.fleet.staged := by
  refine ⟨rfl, ?_⟩
  show (match s.fleet.staged with | some g => some g | none => s.fleet.applied) = _
  cases s.fleet.staged <;> rfl

theorem frame_restartFleet : s.ChangesOnly s.restartFleet [.records, .ranges] := by
  refine State.ChangesOnly.trans
    ((State.ChangesOnly.foldl _ (fun t i => frame_modRecord t i Record.restarted) s.recordIndices s).mono (by decide)) ?_
  intro p hp; cases p <;> first | rfl | exact absurd (by decide) hp

/-! ## The racks (R45, R70, R89) -/

theorem scanner_restartRacks {r : Nat} (h : r < 4) :
    s.restartRacks.scanner r = restartedScanner s.settings.baseInit :=
  (get_foldl_set scanner_setScanner (fun _ => restartedScanner s.settings.baseInit) rackNumbers _ r).trans
    (if_pos (mem_rackNumbers h))

theorem bay_restartedScanner (n : Nat) {b : Nat} (h : b < 64) :
    Table.read (fun _ => resetBay) (restartedScanner n).bays b = { resetBay with baseline := n } :=
  (get_foldl_set (Table.read_write _) (fun _ => { resetBay with baseline := n }) bayNumbers _ b).trans
    (if_pos (List.mem_range.mpr h))

theorem frame_restartRacks : s.ChangesOnly s.restartRacks [.scan, .chan] := by
  refine State.ChangesOnly.trans (t := { s with scan := [], chan := [] }) ?_
    ((State.ChangesOnly.foldl _ (fun t r => frame_setScanner t r _) rackNumbers _).mono (by decide))
  intro p hp; cases p <;> first | rfl | exact ⟨rfl, rfl⟩ | exact absurd (by decide) hp

theorem rackCharge_restartCharge {r : Nat} (h : r < 4) :
    s.restartCharge.rackCharge r = { s.rackCharge r with drives := [] } :=
  (get_foldl_set rackCharge_setRackCharge (fun r => { s.rackCharge r with drives := [] }) rackNumbers s r).trans
    (if_pos (mem_rackNumbers h))

/-! ## The tours and programmes (R104) -/

theorem programme_restartTours (p : Nat) : s.restartTours.programme p = if p ∈ tourProgrammes then
    { resetProgramme p with language := (s.programme p).language, key := (s.programme p).key } else resetProgramme p :=
  get_foldl_set programme_setProgramme
    (fun p => { resetProgramme p with language := (s.programme p).language, key := (s.programme p).key }) tourProgrammes
    { s with tours := { tours := [], programmes := [], nextKey := s.tours.nextKey } } p

theorem tours_restartTours : s.restartTours.tours.tours = [] ∧ s.restartTours.tours.nextKey = s.tours.nextKey :=
  List.foldlRecOn (motive := fun t : State => t.tours.tours = [] ∧ t.tours.nextKey = s.tours.nextKey) tourProgrammes _
    ⟨rfl, rfl⟩ fun _ ht _ _ => ht

/-! ## The ports (R171, R186) -/

theorem Port.cutShort_eq (p : Port) : p.cutShort =
    if p.select = .write ∨ p.select = .read ∧ p.response ≠ none then .cleared else p.select := by
  unfold Port.cutShort
  cases p.select <;> cases p.response <;> rfl

theorem port_restartPorts (k : Link) : s.restartPorts.port k = (s.port k).restarted := by cases k <;> rfl

/-! ## The stages together (R186) -/

theorem frame_restartRest : s.ChangesOnly s.restartRest [.loans, .floor, .air, .age] := by
  intro p hp; cases p <;> first | rfl | exact ⟨rfl, rfl⟩ | exact absurd (by decide) hp

theorem frame_restartPorts : s.ChangesOnly s.restartPorts [.ports] := by
  intro p hp; cases p <;> first | rfl | exact ⟨rfl, rfl⟩ | exact absurd (by decide) hp

theorem frame_untilRacks : s.ChangesOnly s.restartFleet.restartRacks [.records, .ranges, .scan, .chan] :=
  ((frame_restartFleet s).mono (by decide)).trans ((frame_restartRacks _).mono (by decide))

theorem frame_untilCharge :
    s.ChangesOnly s.restartFleet.restartRacks.restartCharge [.records, .ranges, .scan, .chan, .charge] :=
  ((frame_untilRacks s).mono (by decide)).trans ((frame_restartCharge _).mono (by decide))

theorem frame_untilTours : s.ChangesOnly s.restartFleet.restartRacks.restartCharge.restartTours
    [.records, .ranges, .scan, .chan, .charge, .tours] :=
  ((frame_untilCharge s).mono (by decide)).trans ((frame_restartTours _).mono (by decide))

theorem frame_untilRest : s.ChangesOnly s.restartFleet.restartRacks.restartCharge.restartTours.restartRest
    [.records, .ranges, .scan, .chan, .charge, .tours, .loans, .floor, .air, .age] :=
  ((frame_untilTours s).mono (by decide)).trans ((frame_restartRest _).mono (by decide))

theorem frame_warmRestart : s.ChangesOnly s.warmRestart
    [.records, .ranges, .scan, .chan, .charge, .tours, .loans, .floor, .air, .age, .ports] :=
  ((frame_untilRest s).mono (by decide)).trans ((frame_restartPorts _).mono (by decide))

theorem frame_afterTours :
    s.restartFleet.restartRacks.restartCharge.restartTours.ChangesOnly s.warmRestart
      [.loans, .floor, .air, .age, .ports] :=
  ((frame_restartRest _).mono (by decide)).trans ((frame_restartPorts _).mono (by decide))

theorem frame_afterCharge : s.restartFleet.restartRacks.restartCharge.ChangesOnly s.warmRestart
    [.tours, .loans, .floor, .air, .age, .ports] :=
  ((frame_restartTours _).mono (by decide)).trans ((frame_afterTours s).mono (by decide))

theorem frame_afterRacks : s.restartFleet.restartRacks.ChangesOnly s.warmRestart
    [.charge, .tours, .loans, .floor, .air, .age, .ports] :=
  ((frame_restartCharge _).mono (by decide)).trans ((frame_afterCharge s).mono (by decide))

theorem frame_afterFleet : s.restartFleet.ChangesOnly s.warmRestart
    [.scan, .chan, .charge, .tours, .loans, .floor, .air, .age, .ports] :=
  ((frame_restartRacks _).mono (by decide)).trans ((frame_afterRacks s).mono (by decide))

theorem record_warmRestart (i : Nat) : s.warmRestart.record i = (s.record i).map Record.restarted := by
  rw [record_eq_of_records (frame_afterFleet s .records (by decide)), record_restartFleet]

theorem ranges_warmRestart : s.warmRestart.fleet.staged = none ∧
    s.warmRestart.fleet.applied = if s.fleet.staged = none then s.fleet.applied else s.fleet.staged := by
  obtain ⟨later_applied, later_staged⟩ := frame_afterFleet s .ranges (by decide)
  obtain ⟨staged, applied⟩ := ranges_restartFleet s
  exact ⟨later_staged.trans staged, later_applied.trans applied⟩

theorem scanner_warmRestart {r : Nat} (h : r < 4) : s.warmRestart.scanner r = restartedScanner s.settings.baseInit := by
  have settings : s.restartFleet.settings = s.settings := frame_restartFleet s .settings (by decide)
  rw [scanner_congr (frame_afterRacks s .scan (by decide)), scanner_restartRacks _ h, settings]

theorem bay_warmRestart {r b : Nat} (hr : r < 4) (hb : b < 64) :
    s.warmRestart.bay r b = { resetBay with baseline := s.settings.baseInit } := by
  rw [State.bay, scanner_warmRestart s hr, bay_restartedScanner _ hb]

theorem channel_warmRestart (r : Nat) : s.warmRestart.channel r = resetChannel := by
  have later : s.warmRestart.chan = s.restartFleet.restartRacks.chan := frame_afterRacks s .chan (by decide)
  rw [State.channel, later, chan_restartRacks]
  rfl

theorem charge_warmRestart : s.warmRestart.charge.promoted = [] ∧ s.warmRestart.charge.frameTime = 0 := by
  have charge : s.warmRestart.charge = s.restartFleet.restartRacks.restartCharge.charge :=
    frame_afterCharge s .charge (by decide)
  rw [charge]
  exact ⟨rfl, rfl⟩

theorem rackCharge_warmRestart {r : Nat} (h : r < 4) :
    s.warmRestart.rackCharge r = { s.rackCharge r with drives := [] } := by
  rw [rackCharge_congr (frame_afterCharge s .charge (by decide)), rackCharge_restartCharge _ h,
    rackCharge_congr (frame_untilRacks s .charge (by decide))]

theorem drive_warmRestart {r : Nat} (h : r < 4) (b : Nat) : s.warmRestart.drive r b = resetDrive := by
  rw [State.drive, rackCharge_warmRestart s h]
  rfl

theorem tour_warmRestart (k : Nat) : s.warmRestart.tour k = resetTour := by
  rw [tour_congr (frame_afterTours s .tours (by decide)), State.tour, (tours_restartTours _).1]
  rfl

theorem nextKey_warmRestart : s.warmRestart.tours.nextKey = s.tours.nextKey := by
  have later : s.warmRestart.tours = s.restartFleet.restartRacks.restartCharge.restartTours.tours :=
    frame_afterTours s .tours (by decide)
  have earlier : s.restartFleet.restartRacks.restartCharge.tours = s.tours := frame_untilCharge s .tours (by decide)
  rw [later, (tours_restartTours _).2, earlier]

theorem programme_warmRestart (p : Nat) : s.warmRestart.programme p = if p ∈ tourProgrammes then
    { resetProgramme p with language := (s.programme p).language, key := (s.programme p).key } else resetProgramme p := by
  have later := programme_congr (frame_afterTours s .tours (by decide)) p
  have earlier := programme_congr (frame_untilCharge s .tours (by decide)) p
  rw [← earlier]
  exact later.trans (programme_restartTours _ p)

theorem mem_tourProgrammes {p : Nat} (h1 : 1 ≤ p) (h2 : p ≤ 63) : p ∈ tourProgrammes := by
  unfold tourProgrammes
  rw [List.mem_drop_iff_getElem]
  exact ⟨p - 1, by simp; omega, by simp; omega⟩

theorem air_warmRestart : s.warmRestart.air = resetAir s.air.nextPlan.split := by
  have earlier : s.restartFleet.restartRacks.restartCharge.restartTours.air = s.air :=
    frame_untilTours s .air (by decide)
  rw [← earlier]
  rfl

theorem age_warmRestart : s.warmRestart.age =
    { clock := s.age.clock, clockPhase := 0, sweepPointer := 0, stepTime := 0, unknownBeacons := 0 } := by
  have earlier : s.restartFleet.restartRacks.restartCharge.restartTours.age = s.age :=
    frame_untilTours s .age (by decide)
  rw [← earlier]
  rfl

theorem port_warmRestart (k : Link) : s.warmRestart.port k = (s.port k).restarted := by
  rw [State.warmRestart, port_restartPorts, port_congr (frame_untilRest s .ports (by decide))]

/-- Settles O5: the state that the stages of the warm restart leave, block by block. -/
theorem restartKeepsSettingsAndIdentities : Obligations.RestartKeepsSettingsAndIdentities := by
  intro s l takes
  refine ⟨s.warmRestart, serveWrite_of_takes takes rfl _, frame_warmRestart s, record_warmRestart s,
    (ranges_warmRestart s).1, (ranges_warmRestart s).2, fun r hr => ?_,
    (charge_warmRestart s).1, (charge_warmRestart s).2,
    tour_warmRestart s, ?_, fun p h1 h2 => ?_, nextKey_warmRestart s, rfl, rfl, ?_⟩
  · rw [scanner_warmRestart s hr, channel_warmRestart, rackCharge_warmRestart s hr]
    exact ⟨fun b hb => bay_warmRestart s hr hb, rfl, rfl, rfl, rfl, rfl, rfl, rfl, rfl, rfl, rfl, rfl, rfl, rfl, rfl,
      drive_warmRestart s hr⟩
  · exact (programme_warmRestart s 0).trans (if_neg (by decide))
  · rw [programme_warmRestart, if_pos (mem_tourProgrammes h1 h2), resetProgramme_tour h1]
  · rw [air_warmRestart, age_warmRestart]
    refine ⟨rfl, rfl, rfl, rfl, rfl, rfl, rfl, rfl, rfl, rfl, rfl, rfl, rfl, fun k => ?_⟩
    rw [port_warmRestart, Port.restarted, Port.cutShort_eq]

end Sys2Proof.Machine
end

section
/-! PROOFS. What the rule of each request may reply: OK with what it does, or a refusal that leaves the state as it was and
carries no results (R173, R175). Then the requests that are not taken (R174, R186, R187). -/

namespace Sys2Proof.Machine

/-- The status codes of a refusal (R188): all but OK, and NO_RESPONSE, which answers no request. -/
def Status.refuses : Status → Bool
  | .ok | .noResponse => false
  | _ => true

/-- What the rule of a request may reply on a state: OK with results and any state, or a refusal of the state itself. -/
inductive State.Replies (s : State) : Answer → Prop
  | ok (t : State) (results : List Byte) : s.Replies (t.ok results)
  | no {e : Status} (h : e.refuses = true) : s.Replies (s.no e)

variable (s : State)

/-! ## Replies of the tests that requests share (R2, R178) -/

theorem State.Replies.ite {s : State} (c : Prop) [Decidable c] {a b : Answer} (ha : s.Replies a) (hb : s.Replies b) :
    s.Replies (if c then a else b) := by
  split
  · exact ha
  · exact hb

theorem replies_byRid (rid : Nat) {f : Nat → Record → Answer} (h : ∀ i x, s.Replies (f i x)) :
    s.Replies (s.byRid rid f) := by
  unfold State.byRid
  refine .ite _ (.no rfl) ?_
  split
  · exact .no rfl
  · split
    · exact .no rfl
    · exact h _ _

theorem replies_byLoan (id : Nat) {f : Loan → Answer} (h : ∀ l, s.Replies (f l)) : s.Replies (s.byLoan id f) := by
  unfold State.byLoan
  refine .ite _ (.no rfl) ?_
  split
  · exact .no rfl
  · exact h _

theorem replies_underReserveUse (l : Link) (b : Bool) {a : Answer} (h : s.Replies a) :
    s.Replies (s.underReserveUse l b a) := .ite _ (.no rfl) h

theorem replies_underLock {a : Answer} (h : s.Replies a) : s.Replies (s.underLock a) := .ite _ (.no rfl) h

/-! ## FLEET requests and WRITE_OFF -/

theorem replies_readRecord (i : Nat) : s.Replies (s.readRecord i) := by
  unfold State.readRecord
  refine .ite _ (.no rfl) ?_
  split
  · exact .no rfl
  · exact .ok _ _

theorem replies_findRid (rid : Nat) : s.Replies (s.findRid rid) := replies_byRid s rid fun _ _ => .ok _ _

theorem replies_enrol (rid g : Nat) (index : Option Nat) : s.Replies (s.enrol rid g index) := by
  unfold State.enrol
  split
  · exact .no rfl
  · refine .ite _ (.no rfl) ?_
    split
    · exact .ite _ (.no rfl) (.ite _ (.no rfl) (.ite _ (.no rfl) (.ok _ _)))
    · refine .ite _ (.no rfl) ?_
      split
      · exact .no rfl
      · exact .ok _ _

theorem replies_retire (rid : Nat) : s.Replies (s.retire rid) := replies_byRid s rid fun i x => by
  split
  case h_5 => exact .no rfl
  all_goals exact .ok _ _

theorem replies_reinstate (rid : Nat) : s.Replies (s.reinstate rid) := replies_byRid s rid fun i x => by
  split
  · exact .ite _ (.no rfl) (.ok _ _)
  · exact .ok _ _
  · exact .no rfl

theorem replies_removeRecord (rid : Nat) : s.Replies (s.removeRecord rid) :=
  replies_byRid s rid fun _ _ => .ite _ (.ok _ _) (.no rfl)

theorem replies_clearFaultRecord (rid : Nat) : s.Replies (s.clearFaultRecord rid) :=
  replies_byRid s rid fun _ _ => .ite _ (.ok _ _) (.no rfl)

theorem replies_clearFaultBay (r b : Nat) : s.Replies (s.clearFaultBay r b) :=
  .ite _ (.no rfl) (.ite _ (.ok _ _) (.no rfl))

theorem replies_writeOff (rid : Nat) : s.Replies (s.writeOff rid) := replies_byRid s rid fun i x => by
  split
  case h_4 => exact .no rfl
  all_goals exact .ok _ _

/-! ## LOAN requests -/

theorem replies_readLoan (id : Nat) : s.Replies (s.readLoan id) := replies_byLoan s id fun _ => .ok _ _

theorem replies_issue (t p n : Nat) (f : Bool) : s.Replies (s.issue t p n f) := by
  unfold State.issue
  refine .ite _ (.no rfl) (.ite _ (.no rfl) (.ite _ (.no rfl) ?_))
  split
  · exact .no rfl
  · exact .ok _ _

theorem replies_addToLoan (id n : Nat) : s.Replies (s.addToLoan id n) := by
  unfold State.addToLoan
  refine .ite _ (.no rfl) ?_
  split
  · exact .no rfl
  · exact .ite _ (.no rfl) (.ite _ (.no rfl) (.ok _ _))

theorem replies_cancel (id : Nat) : s.Replies (s.cancel id) := replies_byLoan s id fun _ => .ite _ (.no rfl) (.ok _ _)

theorem replies_extend (id due : Nat) : s.Replies (s.extend id due) := replies_byLoan s id fun _ => .ok _ _

/-! ## TOUR requests and FORCE_CLOSE -/

theorem replies_openTour (d : Nat) (codes : List Nat) : s.Replies (s.openTour d codes) := by
  unfold State.openTour
  refine .ite _ (.no rfl) ?_
  split
  · exact .no rfl
  · exact .ite _ (.no rfl) (.ok _ _)

theorem replies_closeTour (t : Nat) : s.Replies (s.closeTour t) := .ite _ (.no rfl) (.ite _ (.no rfl) (.ok _ _))

theorem replies_forceClose (t : Nat) : s.Replies (s.forceClose t) := .ite _ (.no rfl) (.ite _ (.no rfl) (.ok _ _))

theorem replies_setRelay (p : Nat) (f : Bool) : s.Replies (s.setRelay p f) :=
  .ite _ (.no rfl) (.ite _ (.no rfl) (.ok _ _))

/-! ## FLOOR requests -/

theorem replies_bindMic (m p q : Nat) : s.Replies (s.bindMic m p q) :=
  .ite _ (.no rfl) (.ite _ (.no rfl) (.ite _ (.no rfl) (.ite _ (.no rfl) (.ite _ (.no rfl) (.ok _ _)))))

theorem replies_unbindRequest (m : Nat) : s.Replies (s.unbindRequest m) := .ite _ (.no rfl) (.ite _ (.no rfl) (.ok _ _))

theorem replies_talkRequest (m : Nat) : s.Replies (s.talkRequest m) := by
  unfold State.talkRequest
  refine .ite _ (.no rfl) ?_
  split
  · exact .no rfl
  · exact .ok _ _

theorem replies_talkActive (m : Nat) : s.Replies (s.talkActive m) := .ite _ (.no rfl) (.ite _ (.ok _ _) (.ok _ _))

theorem replies_talkRelease (m : Nat) : s.Replies (s.talkRelease m) := by
  unfold State.talkRelease
  refine .ite _ (.no rfl) ?_
  split
  · exact .no rfl
  · exact .ite _ (.ok _ _) (.ok _ _)

theorem replies_cut (p : Nat) : s.Replies (s.cut p) := by
  unfold State.cut
  refine .ite _ (.no rfl) (.ite _ (.no rfl) ?_)
  split
  · exact .ok _ _
  · exact .no rfl

theorem replies_setMask (p level : Nat) : s.Replies (s.setMask p level) :=
  .ite _ (.no rfl) (.ite _ (.no rfl) (.ok _ _))

/-! ## AIR and SETTINGS requests, and frames that are no request -/

theorem replies_reportBeacon (rid z q : Nat) : s.Replies (s.reportBeacon rid z q) := by
  unfold State.reportBeacon
  refine .ite _ (.no rfl) ?_
  split
  · exact .ok _ _
  · exact .ok _ _

theorem replies_readSetting (k r : Nat) : s.Replies (s.readSetting k r) := by
  unfold State.readSetting
  split
  · exact .no rfl
  · exact .ok _ _

theorem replies_setRackLimit (r v : Nat) : s.Replies (s.setRackLimit r v) := .ite _ (.no rfl) (.ok _ _)

theorem replies_setDlSlots (v : Nat) : s.Replies (s.setDlSlots v) := .ite _ (.ok _ _) (.no rfl)

theorem replies_setReserve (g : Option (Nat × Nat)) : s.Replies (s.setReserve g) :=
  .ite _ (.no rfl) (.ite _ (.no rfl) (.ok _ _))

theorem replies_setAccess (k g r : Nat) (f : Bool) : s.Replies (s.setAccess k g r f) := by
  unfold State.setAccess
  split
  · exact .ok _ _
  · exact .no rfl

theorem replies_unknownRequest (l : Link) (code : Nat) (args : List Byte) : s.Replies (s.unknownRequest l code args) :=
  .ite _ (.ite _ (.ite _ (.no rfl) (.no rfl))
    (.ite _ (.no rfl) (.ite _ (replies_underLock s (.no rfl)) (.no rfl)))) (.no rfl)

/-! ## Every request -/

/-- A command of a link that is served with what the rule of a request may reply. -/
def ServedOn (l : Link) (c : Instr) : Prop := ∃ a, exec c s = s.serve l a ∧ s.Replies a

variable {s}

theorem servedOn_read {l : Link} {c : Instr} {g : Group} {a : Answer} (h : s.Replies a)
    (hc : exec c s = s.serveRead l g a) : ServedOn s l c := ⟨_, hc, .ite _ h (.no rfl)⟩

theorem servedOn_write {l : Link} {c : Instr} {g : Group} {a : Answer} (h : s.Replies a)
    (hc : exec c s = s.serveWrite l g a) : ServedOn s l c := ⟨_, hc, .ite _ h (.no rfl)⟩

variable (s)

/-- Every request is served on its link, with the reply of its rule or DENIED by the access check. -/
theorem servedOn_of_sender {c : Instr} {l : Link} (h : sender c = some l) : ServedOn s l c := by
  cases c
  all_goals first
    | obtain rfl := Option.some.inj h
    | nomatch h
  case readStatus | readNotices | setNoticeMask => exact ⟨_, rfl, .ok _ _⟩
  case unknownRequestCode => exact ⟨_, rfl, replies_unknownRequest s _ _ _⟩
  case readRecord => exact servedOn_read (replies_readRecord s _) rfl
  case find => exact servedOn_read (replies_findRid s _) rfl
  case enrol => exact servedOn_write (replies_enrol s _ _ _) rfl
  case retire => exact servedOn_write (replies_retire s _) rfl
  case reinstate => exact servedOn_write (replies_reinstate s _) rfl
  case remove => exact servedOn_write (replies_removeRecord s _) rfl
  case clearFaultRecord => exact servedOn_write (replies_clearFaultRecord s _) rfl
  case clearFaultBay => exact servedOn_write (replies_clearFaultBay s _ _) rfl
  case writeOff => exact servedOn_write (replies_writeOff s _) rfl
  case readBay | readRack | readTour | readProgramme | readFloor =>
    exact servedOn_read (.ite _ (.no rfl) (.ok _ _)) rfl
  case readPlan => exact servedOn_read (.ok _ _) rfl
  case readLoan => exact servedOn_read (replies_readLoan s _) rfl
  case issue => exact servedOn_write (replies_underReserveUse s _ _ (replies_issue s _ _ _ _)) rfl
  case add => exact servedOn_write (replies_underReserveUse s _ _ (replies_addToLoan s _ _)) rfl
  case cancel => exact servedOn_write (replies_cancel s _) rfl
  case extend => exact servedOn_write (replies_extend s _ _) rfl
  case openTour => exact servedOn_write (replies_openTour s _ _) rfl
  case closeTour => exact servedOn_write (replies_closeTour s _) rfl
  case forceClose => exact servedOn_write (replies_forceClose s _) rfl
  case setRelay => exact servedOn_write (replies_setRelay s _ _) rfl
  case bindMic => exact servedOn_write (replies_bindMic s _ _ _) rfl
  case unbindMic => exact servedOn_write (replies_unbindRequest s _) rfl
  case talkRequest => exact servedOn_write (replies_talkRequest s _) rfl
  case talkActive => exact servedOn_write (replies_talkActive s _) rfl
  case talkRelease => exact servedOn_write (replies_talkRelease s _) rfl
  case cut => exact servedOn_write (replies_cut s _) rfl
  case setMask => exact servedOn_write (replies_setMask s _ _) rfl
  case reportBeacon => exact servedOn_write (replies_reportBeacon s _ _ _) rfl
  case readSetting => exact servedOn_read (replies_readSetting s _ _) rfl
  case setSettingRackLimit => exact servedOn_write (replies_setRackLimit s _ _) rfl
  case setSettingDlSlots => exact servedOn_write (replies_setDlSlots s _) rfl
  case setReserve => exact servedOn_write (replies_underLock s (replies_setReserve s _)) rfl
  case setAccess => exact servedOn_write (replies_underLock s (replies_setAccess s _ _ _ _)) rfl
  case lockAccess => exact servedOn_write (replies_underLock s (.ok _ _)) rfl
  case setSettingSenseThreshold | setSettingBaseInit | setSettingColdAfter | setSettingGaugeInterval
    | setSettingReadyLevel | setSettingReleaseWindow | setSettingMissingAfter | setSettingKeepalive
    | setSettingDefaultDuration | setClock | restart => exact servedOn_write (.ok _ _) rfl

/-! ## Requests that are not taken (R174, R186, R187) -/

variable {s} {l : Link}

/-- More of a transaction that a warm restart has cut short, or that another rules out, carries nothing (R174, R186). -/
theorem passOver_carriesNothing (hh : s.resetHeld = false) (hs : (s.port l).select ≠ .ignored) (ends : Bool) :
    s.passOver l ends =
      s.setPort l { s.port l with requestBuffer := [], select := if ends then .high else .cleared } := by
  unfold State.passOver
  rw [hh, if_neg Bool.false_ne_true, if_neg hs]
  rfl

theorem carryIgnored_eq (s : State) (l : Link) (ends : Bool) : s.carryIgnored l ends =
    ({ s with draws := s.draws + 1 }).setPort l { s.port l with
      requestBuffer := [], output := Config.undrivenOutput s.draws, select := if ends then .high else .ignored } := by
  cases l <;> rfl

/-- More of a transaction ignored since a full reset changes its port and draws what the part drives (R187, log 31). -/
theorem passOver_ignored (hh : s.resetHeld = false) (hs : (s.port l).select = .ignored) (ends : Bool) :
    s.passOver l ends = s.carryIgnored l ends := by
  unfold State.passOver
  rw [hh, if_neg Bool.false_ne_true, if_pos hs]

/-- A request that is not taken is the end of a transaction passed over (R186, R187). -/
theorem exec_of_unheard {c : Instr} (h : sender c = some l) (hn : ¬s.Hears l) : exec c s = .next (s.passOver l true) := by
  obtain ⟨a, ha⟩ := exec_of_sender s h
  rw [ha, serve_of_unheard s l a hn]

/-- Settles O7: the reply of each request's rule for those that are taken, and the transaction passed over for the rest. -/
theorem refusedRequestChangesOnlyItsResponse : Obligations.RefusedRequestChangesOnlyItsResponse := by
  refine ⟨fun s t c l hears sends next => ?_, fun s c l running sends => ⟨fun shut => ?_, fun ignored => ?_⟩⟩
  · obtain ⟨a, served, replies⟩ := servedOn_of_sender s sends
    rw [served, serve_of_heard s l a hears] at next
    obtain rfl : State.respond l a = t := Host.Outcome.next.inj next
    cases replies with
    | ok u results =>
      exact ⟨_, responseOf_answered u l .ok results, nofun, fun h => absurd rfl h⟩
    | @no e refuses =>
      refine ⟨_, responseOf_answered s l e [], fun h => ?_, fun _ => ⟨rfl, rfl⟩⟩
      subst h
      nomatch refuses
  · have passed : (s.port l).select ≠ .ignored := by rcases shut with h | h <;> rw [h] <;> nofun
    have unheard : ¬s.Hears l := by rcases shut with h | h <;> rw [State.Hears, h] <;> simp
    rw [exec_of_unheard sends unheard, passOver_carriesNothing running passed]
    rfl
  · have unheard : ¬s.Hears l := by rw [State.Hears, ignored]; simp
    exact ⟨_, by rw [exec_of_unheard sends unheard, passOver_ignored running ignored, carryIgnored_eq]; rfl⟩

end Sys2Proof.Machine
end

section
/-! PROOFS. The tests a request passes before its own rule (R2, R173, R176, R178), and the requests that write the access map
(R179, R180). -/

namespace Sys2Proof.Machine

variable {s : State} {l : Link} {c : Instr}

/-! ## The right of a request's group (R176, R178) -/

/-- A request that needs a right is served under the access check of that right. -/
theorem exec_of_needs {g : Group} {write : Bool} (hc : sender c = some l) (hn : needs c = some (g, write)) :
    ∃ a, exec c s = if write then s.serveWrite l g a else s.serveRead l g a := by
  cases c
  all_goals first
    | obtain ⟨rfl, rfl⟩ := Prod.mk.inj (Option.some.inj hn)
    | nomatch hn
  all_goals
    obtain rfl := Option.some.inj hc
    exact ⟨_, rfl⟩

theorem denied_of_needs {g : Group} {write : Bool} (hears : s.Hears l) (hc : sender c = some l)
    (hn : needs c = some (g, write)) (unheld : s.holds l (some (g, write)) = false) :
    exec c s = .next (s.answered l .denied []) := by
  obtain ⟨a, ha⟩ := exec_of_needs (s := s) hc hn
  cases write with
  | true => exact ha.trans (serveWrite_of_none s l g a hears unheld)
  | false => exact ha.trans (serveRead_of_none s l g a hears unheld)

/-! ## Reserve use and the lock (R178) -/

theorem underReserveUse_denied (a : Answer) {flagged : Bool} (hf : flagged = true)
    (hn : (s.rights l).reserveUse = false) : s.underReserveUse l flagged a = s.no .denied := by
  unfold State.underReserveUse
  rw [hf, hn]
  rfl

/-- The reserve-flagged requests are those served under the test of reserve use. -/
theorem exec_of_reserveFlagged (takes : s.Takes c l) (hf : s.reserveFlagged c = true) :
    ∃ a, exec c s = .next (State.respond l (s.underReserveUse l (s.reserveFlagged c) a)) := by
  cases c
  case issue | add =>
    obtain rfl := Option.some.inj takes.2.1
    exact ⟨_, serveWrite_of_takes takes rfl _⟩
  all_goals nomatch hf

theorem underLock_locked (a : Answer) (h : s.access.lock = true) : s.underLock a = s.no .locked := if_pos h

theorem underLock_open (a : Answer) (h : s.access.lock = false) : s.underLock a = a := by
  unfold State.underLock
  rw [h]
  rfl

/-- The requests the lock refuses are those served under the lock's test. -/
theorem exec_of_lockable (takes : s.Takes c l) (hl : lockable c = true) :
    ∃ a, exec c s = .next (State.respond l (s.underLock a)) := by
  cases c
  case setReserve | setAccess | lockAccess =>
    obtain rfl := Option.some.inj takes.2.1
    exact ⟨_, serveWrite_of_takes takes rfl _⟩
  all_goals nomatch hl

/-! ## The record a request names (R2) -/

/-- A request by receiver ID answers by the lookup of that ID. -/
theorem exec_of_ridOf {rid : Nat} (takes : s.Takes c l) (hr : ridOf c = some rid) :
    ∃ f, exec c s = .next (State.respond l (s.byRid rid f)) := by
  cases c
  case find =>
    obtain rfl := Option.some.inj takes.2.1
    obtain rfl := Option.some.inj hr
    exact ⟨_, serveRead_of_takes takes rfl _⟩
  case retire | reinstate | remove | clearFaultRecord | writeOff =>
    obtain rfl := Option.some.inj takes.2.1
    obtain rfl := Option.some.inj hr
    exact ⟨_, serveWrite_of_takes takes rfl _⟩
  all_goals nomatch hr

/-! ## Frames that are no request (R173, log 15) -/

variable {code : Nat} {args : List Byte}

theorem exec_unknownRequestCode (hears : s.Hears l) :
    exec (.unknownRequestCode l code args) s = .next (State.respond l (s.unknownRequest l code args)) :=
  serve_of_heard s l _ hears

theorem unknownRequest_badFrame (h : frameCheck code args.length = false) :
    s.unknownRequest l code args = s.no .badRequest := by
  unfold State.unknownRequest
  rw [h]
  rfl

theorem unknownRequest_badForm (hframe : frameCheck code args.length = true) (hform : badForm code args = true) :
    s.unknownRequest l code args =
      if code = 0x16 then s.no (if s.mayWrite l .fleet then .badRequest else .denied)
      else s.no (if s.mayWrite l .settings = false then .denied
        else if code = 0x73 ∧ s.access.lock = true then .locked else .badRequest) := by
  unfold State.unknownRequest State.underLock
  rw [hframe, hform]
  by_cases clear : code = 0x16
  · cases s.mayWrite l .fleet <;> simp [clear]
  · by_cases reserve : code = 0x73
    · cases s.mayWrite l .settings <;> cases s.access.lock <;> simp [reserve]
    · cases s.mayWrite l .settings <;> simp [clear, reserve]

/-- Settles O6: each test before a request's own rule, from the frame check to the receiver ID. -/
theorem accessIsCheckedFirst : Obligations.AccessIsCheckedFirst := by
  refine ⟨fun s c l g write hears sends need unheld => denied_of_needs hears sends need unheld,
    fun s c l takes flagged unused => ?_,
    fun s c l takes locked lockable => ?_, fun s c l rid takes names => ?_,
    fun s l code args hears => ⟨fun bad => ?_, fun frame form => ⟨fun clear => ?_, fun clear => ?_⟩⟩⟩
  · obtain ⟨a, ha⟩ := exec_of_reserveFlagged takes flagged
    rw [ha, underReserveUse_denied a flagged unused, respond_no]
  · obtain ⟨a, ha⟩ := exec_of_lockable takes lockable
    rw [ha, underLock_locked a locked, respond_no]
  · obtain ⟨f, hf⟩ := exec_of_ridOf takes names
    refine ⟨fun zero => ?_, fun nonzero unknown => ?_⟩
    · rw [hf, zero, byRid_zero, respond_no]
    · rw [hf, byRid_unknown s rid f nonzero unknown, respond_no]
  · rw [exec_unknownRequestCode hears, unknownRequest_badFrame bad, respond_no]
  · rw [exec_unknownRequestCode hears, unknownRequest_badForm frame form, if_pos clear, respond_no]
  · rw [exec_unknownRequestCode hears, unknownRequest_badForm frame form, if_neg clear, respond_no]

/-! ## SET_ACCESS and LOCK_ACCESS (R179, R180) -/

theorem setAccess_bad {link group right : Nat} (use : Bool)
    (h : linkOf link = none ∨ groupOf group = none ∨ rightOf right = none) :
    s.setAccess link group right use = s.no .badRequest := by
  unfold State.setAccess
  split
  · next hk hg hx => rw [hk, hg, hx] at h; simp at h
  · rfl

theorem setAccess_good {link group right : Nat} {k : Link} {g : Group} {x : Right} (use : Bool)
    (hk : linkOf link = some k) (hg : groupOf group = some g) (hx : rightOf right = some x) :
    s.setAccess link group right use =
      (s.setRights k { (s.rights k).setOn g x with reserveUse := use }).ok [] := by
  unfold State.setAccess
  rw [hk, hg, hx]

theorem lock_setRights (k : Link) (v : Rights) : (s.setRights k v).access.lock = s.access.lock := by cases k <;> rfl

theorem on_reserveUse (r : Rights) (use : Bool) (g : Group) : ({ r with reserveUse := use } : Rights).on g = r.on g := by
  cases g <;> rfl

/-- Settles O8: the one right and the flag that SET_ACCESS writes, its refusals, and the lock that LOCK_ACCESS sets. -/
theorem accessMapWrites : Obligations.AccessMapWrites := by
  refine ⟨fun s l k g x link group right use takes unlocked hk hg hx => ?_,
    fun s l link group right use takes unlocked bad => ?_, fun s l takes unlocked => ?_⟩
  · refine ⟨s.setRights k { (s.rights k).setOn g x with reserveUse := use },
      (serveWrite_of_takes takes rfl _).trans (by rw [underLock_open _ unlocked, setAccess_good use hk hg hx, respond_ok]),
      frame_setRights s k _, lock_setRights k _, ?_, ?_, fun h hh => ?_, fun j hj => ?_⟩
    · rw [rights_setRights, if_pos rfl, on_reserveUse, on_setOn, if_pos rfl]
    · rw [rights_setRights, if_pos rfl]
    · rw [rights_setRights, if_pos rfl, on_reserveUse, on_setOn, if_neg hh.symm]
    · rw [rights_setRights, if_neg hj.symm]
  · exact (serveWrite_of_takes takes rfl _).trans (by rw [underLock_open _ unlocked, setAccess_bad use bad, respond_no])
  · exact (serveWrite_of_takes takes rfl _).trans (by rw [underLock_open _ unlocked, State.lockAccess, respond_ok])

end Sys2Proof.Machine
end

section
/-! PROOFS. The transactions that carry no request (R172, R174, R186 to R188): what each drives and what it leaves of its
port, by the select it finds. -/

namespace Sys2Proof.Machine

variable {s : State} {l : Link}

/-! ## Read transactions (R174, R188) -/

theorem frame_of_response {p : Port} {a : Response} (h : p.response = some a) :
    p.frame = bytes1 a.status.code ++ bytes2 a.results.length ++ a.results := by
  unfold Port.frame
  rw [h]
  rfl

theorem frame_of_no_response {p : Port} (h : p.response = none) : p.frame = [7#8, 0#8, 0#8] := by
  unfold Port.frame
  rw [h]
  rfl

theorem exec_readTransaction (running : s.resetHeld = false) (n : Clocked Nat) :
    exec (.readTransaction l n) s = .next (s.readTransaction l n.data n.ends) := by
  show Host.Outcome.next (if s.resetHeld then _ else _) = _
  rw [running, if_neg Bool.false_ne_true]

/-- A read transaction that nothing rules out drives the frame held. -/
theorem readTransaction_reads (h : (s.port l).select = .high ∨ (s.port l).select = .low ∨ (s.port l).select = .read)
    (n : Nat) (ends : Bool) : s.readTransaction l n ends = s.setPort l ((s.port l).readOut n ends) := by
  unfold State.readTransaction
  rcases h with h | h | h <;> rw [h]

theorem readTransaction_passes
    (h : (s.port l).select = .write ∨ (s.port l).select = .cleared ∨ (s.port l).select = .ignored) (n : Nat)
    (ends : Bool) : s.readTransaction l n ends = s.passOver l ends := by
  unfold State.readTransaction
  rcases h with h | h | h <;> rw [h]

/-! ## Transactions that carry no request (R172) -/

theorem exec_writeTransactionAborted (running : s.resetHeld = false) (bytes : Clocked (List Byte)) :
    exec (.writeTransactionAborted l bytes) s = .next (s.abortedTransaction l bytes.data bytes.ends) := by
  show Host.Outcome.next (if s.resetHeld then _ else _) = _
  rw [running, if_neg Bool.false_ne_true]

/-- A link that is heard is open to the bytes of a transaction. -/
theorem hears_of_heard (h : s.Hears l) : (s.port l).hears = true :=
  (Bool.and_eq_true_iff.mp ((hears_iff s l).mpr h)).2

theorem abortedTransaction_gathers (h : s.Hears l) (rest : List Byte) (ends : Bool) :
    s.abortedTransaction l (0xC1#8 :: rest) ends = s.setPort l ((s.port l).gather rest ends) := by
  unfold State.abortedTransaction
  rw [if_pos (hears_of_heard h)]
  exact if_pos rfl

theorem abortedTransaction_opens (h : s.Hears l) (ends : Bool) :
    s.abortedTransaction l [] ends = s.setPort l ((s.port l).opened ends) := by
  unfold State.abortedTransaction
  rw [if_pos (hears_of_heard h)]

theorem abortedTransaction_ignores (h : s.Hears l) {first : Byte} (rest : List Byte) (hf : first ≠ 0xC1#8) (ends : Bool) :
    s.abortedTransaction l (first :: rest) ends = s.carryIgnored l ends := by
  unfold State.abortedTransaction
  rw [if_pos (hears_of_heard h)]
  exact if_neg hf

theorem abortedTransaction_passes
    (h : (s.port l).select = .read ∨ (s.port l).select = .cleared ∨ (s.port l).select = .ignored) (bytes : List Byte)
    (ends : Bool) : s.abortedTransaction l bytes ends = s.passOver l ends := by
  have shut : (s.port l).hears = false := by
    unfold Port.hears
    rcases h with h | h | h <;> rw [h]
  unfold State.abortedTransaction
  rw [shut, if_neg Bool.false_ne_true]

/-- Settles O9: each transaction by the select it finds, and by its first byte. -/
theorem linkTransactionsCarryTheFrames : Obligations.LinkTransactionsCarryTheFrames := by
  refine ⟨fun s l n running free => ?_, fun s l bytes hears => ⟨fun rest opens => ?_, fun opens => ?_,
      fun first rest opens other _ => ?_⟩, fun s l n bytes running => ⟨fun shut => ?_, fun shut => ?_, fun ignored => ?_⟩⟩
  · refine ⟨(s.port l).frame, fun a held => frame_of_response held, fun held => frame_of_no_response held, ?_⟩
    rw [exec_readTransaction running, readTransaction_reads free]
    rfl
  · rw [exec_writeTransactionAborted hears.1, opens, abortedTransaction_gathers hears]
    rfl
  · rw [exec_writeTransactionAborted hears.1, opens, abortedTransaction_opens hears]
    rfl
  · refine ⟨Config.undrivenOutput s.draws, ?_⟩
    rw [exec_writeTransactionAborted hears.1, opens, abortedTransaction_ignores hears rest other, carryIgnored_eq]
  · have passed : (s.port l).select ≠ .ignored := by rcases shut with h | h <;> rw [h] <;> nofun
    rw [exec_readTransaction running, readTransaction_passes (shut.symm.imp_right .inl), passOver_carriesNothing running passed]
  · have passed : (s.port l).select ≠ .ignored := by rcases shut with h | h <;> rw [h] <;> nofun
    rw [exec_writeTransactionAborted running, abortedTransaction_passes (shut.symm.imp_right .inl),
      passOver_carriesNothing running passed]
  · refine ⟨⟨Config.undrivenOutput s.draws, ?_⟩, Config.undrivenOutput s.draws, ?_⟩
    · rw [exec_readTransaction running, readTransaction_passes (.inr (.inr ignored)), passOver_ignored running ignored,
        carryIgnored_eq]
    · rw [exec_writeTransactionAborted running, abortedTransaction_passes (.inr (.inr ignored)),
        passOver_ignored running ignored, carryIgnored_eq]

end Sys2Proof.Machine
end

section
/-! PROOFS. The notices of a link (R182 to R184): a flag replaced by a posting of its kind, the flags read and cleared, and
the flags a new mask keeps. -/

namespace Sys2Proof.Machine

variable (s : State) (l : Link)

/-! ## A posting (R182) -/

/-- Among flags in ascending kind, a posting is the one flag of its kind. -/
theorem mem_insertNotice_same {n m : Notice} (h : m.kind = n.kind) :
    ∀ {q : List Notice}, q.Pairwise (fun a b => a.kind < b.kind) → (m ∈ insertNotice n q ↔ m = n)
  | [], _ => List.mem_singleton
  | a :: q, hq => by
    obtain ⟨above, rest⟩ := List.pairwise_cons.mp hq
    have absent (k : n.kind ≤ a.kind) : m ∉ q := fun hm => by
      have := above m hm
      omega
    unfold insertNotice
    split
    · next below =>
      have other : m ≠ a := by rintro rfl; omega
      simp [other, absent (Nat.le_of_lt below)]
    · split
      · next same => simp [absent (Nat.le_of_eq same)]
      · next other =>
        have other : m ≠ a := by rintro rfl; exact other h.symm
        rw [List.mem_cons, mem_insertNotice_same h rest, or_iff_right other]

theorem post_of_masked {p : Port} {n : Notice} (h : p.mask.getLsbD n.kind = false) : p.post n = p := by
  unfold Port.post
  rw [h]
  rfl

theorem notices_post {p : Port} {n : Notice} (h : p.mask.getLsbD n.kind = true) :
    (p.post n).notices = insertNotice n p.notices := by
  unfold Port.post
  rw [h]
  rfl

/-! ## The attention line (R183, R184) -/

theorem attention_iff (running : s.resetHeld = false) : s.attention l = true ↔ (s.port l).notices ≠ [] := by
  unfold State.attention
  rw [running]
  cases (s.port l).notices <;> simp

theorem noticesBytes_eq (q : List Notice) :
    noticesBytes q = bytes1 q.length ++ (q.map fun n => bytes1 n.kind ++ n.argument).flatten := by
  unfold noticesBytes listBytes
  rw [List.length_map]

theorem attention_setPort (v : Port) (k : Link) :
    (s.setPort l v).attention k = if l = k then !s.resetHeld && !v.notices.isEmpty else s.attention k := by
  unfold State.attention
  rw [resetHeld_setPort, port_setPort]
  split <;> rfl

/-- A response leaves the flags, and so the attention line. -/
theorem attention_answered (e : Status) (b : List Byte) (k : Link) : (s.answered l e b).attention k = s.attention k := by
  rw [State.answered, attention_setPort]
  split
  · next same => subst same; rfl
  · rfl

/-! ## A new mask (R183) -/

theorem Notice.kind_lt (n : Notice) : n.kind < 16 := by cases n <;> exact of_decide_eq_true rfl

theorem withMask_eq (p : Port) (mask : Nat) : p.withMask (BitVec.ofNat 16 mask) =
    { p with mask := BitVec.ofNat 16 mask, notices := p.notices.filter fun n => mask.testBit n.kind } := by
  have bit (n : Notice) : (BitVec.ofNat 16 mask).getLsbD n.kind = mask.testBit n.kind := by
    rw [BitVec.getLsbD_ofNat, decide_eq_true n.kind_lt, Bool.true_and]
  unfold Port.withMask
  simp only [bit]

theorem setNoticeMask_eq {mask : Nat} (h : mask < 65536) : s.setNoticeMask l mask =
    (s.setPort l { s.port l with
      mask := BitVec.ofNat 16 mask
      notices := (s.port l).notices.filter fun n => mask.testBit n.kind }).ok (bytes2 mask) := by
  have value : (BitVec.ofNat 16 mask).toNat = mask := by rw [BitVec.toNat_ofNat]; omega
  rw [State.setNoticeMask, withMask_eq, value]

/-- Settles O10: a posting on each port, the flags read and masked, the attention line, and the notices' kinds and
arguments. -/
theorem noticesArePostedReadAndMasked : Obligations.NoticesArePostedReadAndMasked := by
  refine ⟨fun s n l kept => ⟨frame_post s n, postsOnly_post s n, fun admitted m kind => ?_, fun masked => ?_⟩,
    fun s l hears => ⟨(s.setPort l { s.port l with notices := [] }).answered l .ok (noticesBytes (s.port l).notices), ?_,
      serve_of_heard s l _ hears, ?_, fun k other => ?_⟩,
    fun s l mask hears fits => ?_, fun s l running => attention_iff s l running, fun _ _ _ _ => rfl, ?_, ?_, ?_,
    fun _ _ _ _ => rfl⟩
  · rw [port_post, notices_post admitted, mem_insertNotice_same kind kept.ascending]
  · rw [port_post, post_of_masked masked]
  · rw [← noticesBytes_eq]
    exact serve_of_heard s l _ hears
  · rw [attention_answered, attention_setPort, if_pos rfl]
    exact Bool.and_false _
  · rw [attention_answered, attention_setPort, if_neg other.symm]
  · exact (serve_of_heard s l _ hears).trans (by rw [setNoticeMask_eq s l fits, respond_ok])
  · intro a n hn
    simp only [List.mem_cons, List.not_mem_nil, or_false] at hn
    rcases hn with rfl | rfl | rfl | rfl | rfl | rfl | rfl <;> rfl
  · intro a n hn
    simp only [List.mem_cons, List.not_mem_nil, or_false] at hn
    rcases hn with rfl | rfl | rfl | rfl | rfl <;> rfl
  · intro a b n hn
    simp only [List.mem_cons, List.not_mem_nil, or_false] at hn
    rcases hn with rfl | rfl | rfl <;> rfl

end Sys2Proof.Machine
end

section
/-! PROOFS. READ_STATUS and READ_SETTING (R181, R185): the values they answer, the lengths of the fixed layouts (R189), and
the records and loans that READ_STATUS counts. -/

namespace Sys2Proof.Machine

variable (s : State)

/-! ## READ_SETTING (R181) -/

theorem exec_readSetting {l : Link} (hears : s.Hears l) (right : s.mayRead l .settings = true) (k r : Nat) :
    exec (.readSetting l k r) s = .next (State.respond l (s.readSetting k r)) :=
  serveRead_of_right s l .settings _ hears right

theorem readSetting_some {k r v : Nat} (h : s.settingValue k r = some v) : s.readSetting k r = s.ok (bytes2 v) := by
  unfold State.readSetting
  rw [h]
  rfl

theorem readSetting_none {k r : Nat} (h : s.settingValue k r = none) : s.readSetting k r = s.no .badRequest := by
  unfold State.readSetting
  rw [h]

theorem settingValue_rackLimit {r : Nat} (h : r ≤ 3) : s.settingValue 0 r = some (s.rackCharge r).stagedLimit :=
  if_neg (by omega)

theorem settingValue_noRack {r : Nat} (h : 3 < r) : s.settingValue 0 r = none := if_pos h

theorem settingValue_beyond {k : Nat} (h : 10 < k) (r : Nat) : s.settingValue k r = none := by
  unfold State.settingValue
  split
  case h_12 => rfl
  all_goals omega

/-! ## Lengths (R189) -/

theorem length_opt1 (v : Option Nat) : (opt1 v).length = 2 := by cases v <;> rfl
theorem length_opt2 (v : Option Nat) : (opt2 v).length = 3 := by cases v <;> rfl
theorem length_opt4 (v : Option Nat) : (opt4 v).length = 5 := by cases v <;> rfl
theorem length_rangeBytes (g : Option Range) : (rangeBytes g).length = 5 := by cases g <;> rfl
theorem length_entryBytes (e : Entry) : e.bytes.length = 3 := by
  cases e with
  | free => rfl
  | down p x => cases x <;> rfl
  | up p m => rfl

/-- A list of elements of one length is as long as the elements together. -/
theorem length_flatten_map {α : Type} {n : Nat} {f : α → List Byte} (h : ∀ a, (f a).length = n) (q : List α) :
    (q.map f).flatten.length = q.length * n := by
  induction q with
  | nil => rw [List.length_nil, Nat.zero_mul]; rfl
  | cons a q ih =>
    rw [List.map_cons, List.flatten_cons, List.length_append, h, ih, List.length_cons, Nat.add_one_mul, Nat.add_comm]

theorem length_recordBytes (i : Nat) (x : Record) : (recordBytes i x).length = 42 := by
  have bay : (optBytes 2 (x.bay.map fun p => bytes1 p.rack ++ bytes1 p.bay)).length = 3 := by cases x.bay <;> rfl
  simp only [recordBytes, List.length_append, bay, length_opt1, length_opt2, length_opt4]
  rfl

theorem length_bayBytes (r b : Nat) : (s.bayBytes r b).length = 19 := by
  have request : (optBytes 2 ((s.requestAt r b).map fun q => bytes1 q.kind.cls ++ bytes1 q.attempts)).length = 3 := by
    cases s.requestAt r b <;> rfl
  simp only [State.bayBytes, List.length_append, request, length_opt2]
  rfl

theorem length_rackBytes (r : Nat) : (s.rackBytes r).length = 21 := by
  have states := length_flatten_map (n := 1)
    (f := fun st => bytes1 (bayNumbers.filter fun b => (s.bay r b).state == st).length) (fun _ => rfl) bayStates
  simp only [State.rackBytes, List.length_append, states]
  rfl

theorem length_planBytes : s.planBytes.length = 195 := by
  have entries := length_flatten_map (f := fun i => (s.air.currentPlan.entry i).bytes)
    (fun i => length_entryBytes (s.air.currentPlan.entry i)) slotNumbers
  simp only [State.planBytes, List.length_append, entries]
  rfl

theorem length_statusBytes : s.statusBytes.length = 49 := by
  have records := length_flatten_map (n := 2) (f := fun st => bytes2 (s.countRecords st)) (fun _ => rfl) recStates
  simp only [State.statusBytes, List.length_append, records, length_rangeBytes, length_opt1]
  rfl

/-! ## READ_STATUS field by field (R185) -/

theorem reserveStatus_eq : s.reserveStatus =
    if s.fleet.staged ≠ none then 2 else if s.fleet.applied ≠ none then 1 else 0 := by
  unfold State.reserveStatus
  cases s.fleet.staged <;> cases s.fleet.applied <;> rfl

/-! ## The records and loans counted (log 17) -/

variable {s}

theorem mem_recordIndices (h : s.Canonical) (i : Nat) : i ∈ s.recordIndices ↔ s.record i ≠ none :=
  Table.mem_keys_iff _ none _ h.records i

theorem nodup_loanIds (h : s.Canonical) : s.loanIds.Nodup :=
  (Table.keys_rise _ none _ h.loans).1.imp Nat.ne_of_lt

theorem mem_loanIds_iff (h : s.Canonical) (id : Nat) : id ∈ s.loanIds ↔ s.loan id ≠ none :=
  Table.mem_keys_iff _ none _ h.loans id

/-- Settles O12: each setting by its code, the lengths of the layouts, READ_STATUS field by field, and what it counts. -/
theorem statusAndSettingReads : Obligations.StatusAndSettingReads := by
  refine ⟨fun s l hears => ⟨serve_of_heard s l _ hears, fun right => ⟨fun r hr => ?_, fun r hr => ?_, fun r => ?_,
      fun k r hk => ?_⟩⟩,
    ⟨length_recordBytes, fun s => ⟨length_planBytes s, length_bayBytes s, length_rackBytes s, length_statusBytes s⟩⟩,
    fun s => ?_, fun s canonical => ⟨nodup_recordIndices canonical, mem_recordIndices canonical,
      nodup_loanIds canonical, mem_loanIds_iff canonical⟩⟩
  · rw [exec_readSetting s hears right, readSetting_some s (settingValue_rackLimit s hr), respond_ok]
  · rw [exec_readSetting s hears right, readSetting_none s (settingValue_noRack s hr), respond_no]
  · have answers {k v : Nat} (h : s.settingValue k r = some v) :
        exec (.readSetting l k r) s = .next (s.answered l .ok (bytes2 v)) := by
      rw [exec_readSetting s hears right, readSetting_some s h, respond_ok]
    exact ⟨answers rfl, answers rfl, answers rfl, answers rfl, answers rfl, answers rfl, answers rfl, answers rfl,
      answers rfl, answers rfl⟩
  · rw [exec_readSetting s hears right, readSetting_none s (settingValue_beyond s hk r), respond_no]
  · rw [State.statusBytes, reserveStatus_eq]
    cases s.fleet.applied <;> cases s.fleet.staged <;> rfl

end Sys2Proof.Machine
end

