-- ==== Sys2Proof/Proofs/Step.lean ====
section
/-! PROOF. What a step does with a queue that is not empty. -/

namespace Sys2Proof.Machine

/-- Settles O1: `step` matches on the queue alone, so a queue whose front is known picks its first branch. -/
theorem stepRunsTheFrontCommand : Obligations.StepRunsTheFrontCommand := by
  intro c rest s queued
  rw [step, queued]

end Sys2Proof.Machine
end
